-- ==== Sys2Proof/Word.lean ====
section
/-! DEFINITION. The word types of DFLT-CORE: bytes of memory, 32-bit and 64-bit port registers (10_state.md R22). -/

namespace Sys2Proof

/-- One byte of host memory or of a stream (20_memory.md R70). -/
abbrev Byte := BitVec 8

/-- A 32-bit register: CMD, ARG_LEN, STATUS, ERRCODE, the checksums, PBITS and D_RES. -/
abbrev Word := BitVec 32

/-- A 64-bit register: RESULT and the byte counters (10_state.md R22, R28, R39). -/
abbrev DWord := BitVec 64

end Sys2Proof
end

