-- ==== Sys2Proof/Syntax.lean ====
section
/-! DEFINITION. The instruction set: the 23 commands of 30_encoding.md R92, one constructor per row of the opcode table. -/

namespace Sys2Proof

/-- A command (30_encoding.md R90, R92). The fields of the two CONFIG commands are the values of the word's fields, so the
values that the command refuses (LEVEL 10 to 14, STRATEGY 3) are instructions too (R94). -/
inductive Instr where
  /-- C.CONFIG level, strategy, nohdr (43_compressor.md R240). -/
  | cConfig (level strategy : Nat) (nohdr : Bool)
  /-- C.SET_INPUT (R241). -/
  | cSetInput
  /-- C.SET_DICT (R242). -/
  | cSetDict
  /-- C.DEFLATE (R243). -/
  | cDeflate
  /-- C.FLUSH (R250). -/
  | cFlush
  /-- C.FINISH (R251). -/
  | cFinish
  /-- C.RESET (R248). -/
  | cReset
  /-- C.IS_FINISHED (R253). -/
  | cIsFinished
  /-- C.IS_NEEDING_INPUT (R254). -/
  | cIsNeedingInput
  /-- C.ADLER (R252). -/
  | cAdler
  /-- C.TOTAL_IN (R255). -/
  | cTotalIn
  /-- C.TOTAL_OUT (R256). -/
  | cTotalOut
  /-- D.CONFIG nohdr (44_decompressor.md R280). -/
  | dConfig (nohdr : Bool)
  /-- D.SET_INPUT (R281). -/
  | dSetInput
  /-- D.SET_DICT (R282). -/
  | dSetDict
  /-- D.INFLATE (R284). -/
  | dInflate
  /-- D.RESET (R299). -/
  | dReset
  /-- D.IS_FINISHED (R303). -/
  | dIsFinished
  /-- D.IS_NEEDING_INPUT (R304). -/
  | dIsNeedingInput
  /-- D.ADLER (R300). -/
  | dAdler
  /-- D.TOTAL_IN (R301). -/
  | dTotalIn
  /-- D.TOTAL_OUT (R302). -/
  | dTotalOut
  /-- D.IS_NEEDING_DICT (R305). -/
  | dIsNeedingDict
  deriving DecidableEq, Repr

end Sys2Proof
end

