-- ==== Sys2Proof/WellFormed.lean ====
section
/-! DEFINITION. Which terms of `Instr` a command word can hold: the widths of the fields of 30_encoding.md R90. -/

namespace Sys2Proof

/-- A LEVEL value that its field [11:8] can hold (30_encoding.md R90). -/
def levelFits (level : Nat) : Bool := level < 16

/-- A STRATEGY value that its field [13:12] can hold (30_encoding.md R90). -/
def strategyFits (strategy : Nat) : Bool := strategy < 4

/-- An instruction is well formed when each field fits its place in the command word (30_encoding.md R90). Whether the
command then accepts the value is R94's matter. -/
def Instr.wf : Instr → Bool
  | .cConfig level strategy _ => levelFits level && strategyFits strategy
  | .cSetInput => true
  | .cSetDict => true
  | .cDeflate => true
  | .cFlush => true
  | .cFinish => true
  | .cReset => true
  | .cIsFinished => true
  | .cIsNeedingInput => true
  | .cAdler => true
  | .cTotalIn => true
  | .cTotalOut => true
  | .dConfig _ => true
  | .dSetInput => true
  | .dSetDict => true
  | .dInflate => true
  | .dReset => true
  | .dIsFinished => true
  | .dIsNeedingInput => true
  | .dAdler => true
  | .dTotalIn => true
  | .dTotalOut => true
  | .dIsNeedingDict => true

end Sys2Proof
end

