-- ==== Sys2Proof/Decode.lean ====
section
/-! DEFINITION. The decoder of command words, total on every 32-bit word and refusing by name (30_encoding.md R90 to R93),
and after it the encoder (R90, R95). -/

namespace Sys2Proof

/-- Why a word is no command (30_encoding.md R93; the subcodes are 60_exceptions.md R363's). -/
inductive Illegal where
  /-- R93(a): OPCODE is unassigned. -/
  | unassigned
  /-- R93(b), (c), (d): a reserved or unused field is not 0. -/
  | reserved
  deriving DecidableEq, Repr

/-- The format of a command word (30_encoding.md R90): CMD with its whole instruction, CFG, or DCFG. -/
inductive Format where
  | cmd (i : Instr)
  | cfg
  | dcfg
  deriving DecidableEq, Repr

/-- Bits hi down to lo of a word, as a number (00_scope.md R12). -/
def bitField (w : Word) (hi lo : Nat) : Nat := (w.toNat >>> lo) % 2 ^ (hi + 1 - lo)

/-- The assigned opcodes (30_encoding.md R92). -/
def formatOf : Nat → Option Format
  | 0x01 => some .cfg
  | 0x02 => some (.cmd .cSetInput)
  | 0x03 => some (.cmd .cSetDict)
  | 0x04 => some (.cmd .cDeflate)
  | 0x05 => some (.cmd .cFlush)
  | 0x06 => some (.cmd .cFinish)
  | 0x07 => some (.cmd .cReset)
  | 0x08 => some (.cmd .cIsFinished)
  | 0x09 => some (.cmd .cIsNeedingInput)
  | 0x0A => some (.cmd .cAdler)
  | 0x0B => some (.cmd .cTotalIn)
  | 0x0C => some (.cmd .cTotalOut)
  | 0x21 => some .dcfg
  | 0x22 => some (.cmd .dSetInput)
  | 0x23 => some (.cmd .dSetDict)
  | 0x24 => some (.cmd .dInflate)
  | 0x27 => some (.cmd .dReset)
  | 0x28 => some (.cmd .dIsFinished)
  | 0x29 => some (.cmd .dIsNeedingInput)
  | 0x2A => some (.cmd .dAdler)
  | 0x2B => some (.cmd .dTotalIn)
  | 0x2C => some (.cmd .dTotalOut)
  | 0x2D => some (.cmd .dIsNeedingDict)
  | _ => none

/-- The instruction a command word holds, or why it is illegal (30_encoding.md R90, R93). UNASSIGNED is found before
RESERVED (60_exceptions.md R365). -/
def decode (w : Word) : Except Illegal Instr :=
  match formatOf (bitField w 7 0) with
  | none => .error .unassigned
  | some (.cmd i) => if bitField w 31 8 = 0 then .ok i else .error .reserved
  | some .cfg =>
    if bitField w 31 15 = 0 then
      .ok (.cConfig (bitField w 11 8) (bitField w 13 12) (bitField w 14 14 == 1))
    else .error .reserved
  | some .dcfg =>
    if bitField w 31 15 = 0 ∧ bitField w 13 8 = 0 then .ok (.dConfig (bitField w 14 14 == 1))
    else .error .reserved

/-- OPCODE of an instruction (30_encoding.md R92). -/
def opcode : Instr → Nat
  | .cConfig _ _ _ => 0x01
  | .cSetInput => 0x02
  | .cSetDict => 0x03
  | .cDeflate => 0x04
  | .cFlush => 0x05
  | .cFinish => 0x06
  | .cReset => 0x07
  | .cIsFinished => 0x08
  | .cIsNeedingInput => 0x09
  | .cAdler => 0x0A
  | .cTotalIn => 0x0B
  | .cTotalOut => 0x0C
  | .dConfig _ => 0x21
  | .dSetInput => 0x22
  | .dSetDict => 0x23
  | .dInflate => 0x24
  | .dReset => 0x27
  | .dIsFinished => 0x28
  | .dIsNeedingInput => 0x29
  | .dAdler => 0x2A
  | .dTotalIn => 0x2B
  | .dTotalOut => 0x2C
  | .dIsNeedingDict => 0x2D

/-- The bits of an instruction's fields above OPCODE: LEVEL at 8, STRATEGY at 12, NOHDR at 14 (30_encoding.md R90, R95). -/
def fieldBits : Instr → Nat
  | .cConfig level strategy nohdr => (level <<< 8) ||| (strategy <<< 12) ||| (nohdr.toNat <<< 14)
  | .dConfig nohdr => nohdr.toNat <<< 14
  | _ => 0

/-- The command word of an instruction (30_encoding.md R95). -/
def encode (i : Instr) : Word := BitVec.ofNat 32 (opcode i ||| fieldBits i)

/-- The host's reading of the decoder: the instruction of a table row's word. A command is one 32-bit word, so bits from
nbits up are 0. -/
def decodeTableWord (nbits w : Nat) : Option Instr :=
  match decode (BitVec.ofNat 32 (w % 2 ^ nbits)) with
  | .ok i => some i
  | .error _ => none

end Sys2Proof
end

