-- ==== Sys2Proof/Config.lean ====
section
/-! DEFINITION. What an implementation of DFLT-CORE fixes: the open parameters of 00_scope.md R11. The spec leaves no value of
a command's result open, so there is no free value here. -/

namespace Sys2Proof

/-- The open parameters of a block (00_scope.md R11). They stand in State and no step changes them, so a statement about
every state is a statement about every value of them (log 1). -/
structure Params where
  /-- AW, the width in bits of a host byte address. -/
  aw : Nat
  /-- CORE_BASE, the host address of the command port where a platform maps it into memory (20_memory.md R75). -/
  coreBase : Nat
  /-- PFIFO_CAP, the capacity of an implementation's pending FIFO; the model's FIFO is unbounded (10_state.md R34). -/
  pfifoCap : Nat
  deriving DecidableEq, Repr

/-- The constraints of 00_scope.md R11: 1 ≤ AW ≤ 64 and PFIFO_CAP ≥ 65545. -/
abbrev Params.wf (p : Params) : Prop := 1 ≤ p.aw ∧ p.aw ≤ 64 ∧ 65545 ≤ p.pfifoCap

/-- The parameters of the block that `State.reset` describes. DESIGN CHOICE (log 1): the spec fixes none of the three;
the widest address space refuses no buffer that a narrower one accepts. unsafe for a statement about reset alone. -/
def Params.standard : Params := { aw := 64, coreBase := 0, pfifoCap := 65545 }

end Sys2Proof
end

