-- ==== Sys2Proof/Machine/State.lean ====
section
/-! DEFINITION. The state of DFLT-CORE as plain data: every element of 10_state.md R47, the open parameters, host memory and
the host's coming operations; the reasons a step can stop; and the state after power-on (70_reset_and_hazards.md R391). -/

namespace Sys2Proof.Machine

/-! ## Names -/

/-- C_STRATEGY (10_state.md R25). -/
inductive Strategy where
  | default
  | filtered
  | huffmanOnly
  deriving DecidableEq, Repr

/-- C_PHASE (10_state.md R26). No command enters `closed` (R26, 92_eei_decisions.md D9). -/
inductive CPhase where
  | init
  | setDict
  | busy
  | finished
  | closed
  deriving DecidableEq, Repr

/-- D_MODE (10_state.md R38), in the order of its table: HEADER, DICT, BLOCKS, SLEN1, SLEN2, STORED, DYN, HUF, HUF_LB,
HUF_D, HUF_DB, CHK, FIN. -/
inductive DMode where
  | header
  | dict
  | blocks
  | slen1
  | slen2
  | stored
  | dyn
  | huf
  | hufLb
  | hufD
  | hufDb
  | chk
  | fin
  deriving DecidableEq, Repr

/-- DH_PHASE (10_state.md R44). -/
inductive DHPhase where
  | hlit
  | hdist
  | hclen
  | clen
  | sym
  | rep
  | done
  deriving DecidableEq, Repr

/-- DH_RSYM: the repeat symbol 16, 17 or 18 that awaits its extra bits (10_state.md R44). -/
inductive RepeatSym where
  | prev
  | zerosShort
  | zerosLong
  deriving DecidableEq, Repr

/-- The errors a command can end with: one constructor per row of 60_exceptions.md R363. No other pair of class and subcode
is ever written. -/
inductive Err where
  | rangeLevel
  | rangeStrategy
  | rangeAddress
  | unassigned
  | reserved
  | setInputAfterFinish
  | inputPending
  | dictNotInit
  | dictNotNeeded
  | closed
  | headerChecksum
  | method
  | blockType
  | storedLength
  | lengthCode
  | distanceCode
  | distanceTooFar
  | invalidCode
  | oversubscribed
  | hlitRange
  | hdistRange
  | repeatNoPrevious
  | repeatOverflow
  | noEndOfBlock
  | checksum
  | dictChecksum
  | heapInvariant
  | bitAlignment
  | aborted
  | outputOverlapsInput
  deriving DecidableEq, Repr

/-- The two units (30_encoding.md R91). -/
inductive UnitId where
  | cu
  | du
  deriving DecidableEq, Repr

/-- The command port's registers (10_state.md R22). -/
inductive PortReg where
  | cmd
  | argAddr
  | argLen
  | result
  | status
  | errcode
  deriving DecidableEq, Repr

/-- One operation of the host between commands (20_memory.md R71): a write of a port register, or of a byte of host memory.
Reads have no side effect and are the functions `State.readPort` and `Memory.read`. -/
inductive HostOp where
  | writePort (r : PortReg) (v : DWord)
  | writeMem (a : Nat) (b : Byte)
  deriving DecidableEq, Repr

/-! ## Memories -/

/-- Host memory (20_memory.md R70): the bytes that differ from what an unlisted address reads as, by rising address. -/
abbrev Memory := List Host.Cell

/-- An internal array of numbers whose unlisted elements are 0, as a binary tree over the index's bits, most significant
first: C_WIN, C_HEAD, C_PREV, the token arrays and D_OWIN (10_state.md R30, R31, R33, R41). No subtree that holds only zeros
is kept, so equal arrays are equal data (log 11). -/
inductive Tbl where
  | nil
  | leaf (v : Nat)
  | node (l r : Tbl)
  deriving DecidableEq, Repr

/-! ## Compressor Unit -/

/-- The BitOutputBuffer: PFIFO, PBITS, PNBITS (10_state.md R34). -/
structure BitOut where
  fifo : List Byte
  bits : Word
  nbits : Nat
  deriving DecidableEq, Repr

/-- One Huffman tree T: T.FREQ, T.LEN, T.CODE, T.NUM (10_state.md R35). -/
structure HuffTree where
  freq : List Nat
  len : List Nat
  code : List Nat
  num : Nat
  deriving DecidableEq, Repr

/-- The Compressor Unit (10_state.md R25 to R35). -/
structure CU where
  /-- C_LEVEL -/
  level : Fin 10
  /-- C_STRATEGY -/
  strategy : Strategy
  /-- C_NOHDR -/
  nohdr : Bool
  /-- C_PHASE -/
  phase : CPhase
  /-- C_FLUSH_REQ -/
  flushReq : Bool
  /-- C_FINISH_REQ -/
  finishReq : Bool
  /-- C_DICT_SET -/
  dictSet : Bool
  /-- C_FAULT -/
  fault : Option Err
  /-- C_TOTAL_IN -/
  totalIn : DWord
  /-- C_TOTAL_OUT -/
  totalOut : DWord
  /-- C_ADLER -/
  adler : Word
  /-- C_IN_PTR -/
  inPtr : Nat
  /-- C_IN_END: one past the last bound byte, so it may be 2^AW (log 4). -/
  inEnd : Nat
  /-- C_WIN -/
  win : Tbl
  /-- C_HEAD -/
  head : Tbl
  /-- C_PREV -/
  prev : Tbl
  /-- C_STRSTART -/
  strstart : Nat
  /-- C_BLOCK_START: signed and without a bound, although R32 gives it one that R162 and R167 leave: DEDUCED (log 13); unsafe. -/
  blockStart : Int
  /-- C_LOOKAHEAD -/
  lookahead : Nat
  /-- C_MATCH_START: signed and without a bound, as C_BLOCK_START (log 13). -/
  matchStart : Int
  /-- C_MATCH_LEN -/
  matchLen : Nat
  /-- C_PREV_AVAIL -/
  prevAvail : Bool
  /-- C_TOK_D -/
  tokD : Tbl
  /-- C_TOK_L -/
  tokL : Tbl
  /-- C_TOK_N -/
  tokN : Nat
  /-- C_EXTRA -/
  extra : Nat
  /-- PFIFO, PBITS, PNBITS -/
  out : BitOut
  /-- LIT -/
  lit : HuffTree
  /-- DIST -/
  dist : HuffTree
  /-- BL -/
  bl : HuffTree
  deriving DecidableEq, Repr

/-! ## Decompressor Unit -/

/-- D_LTAB or D_DTAB: the fixed code, or a vector of code lengths (10_state.md R43). -/
inductive Code where
  | fixed
  | lens (v : List Nat)
  deriving DecidableEq, Repr

/-- The dynamic-header parser (10_state.md R44). -/
structure DHState where
  /-- DH_PHASE -/
  phase : DHPhase
  /-- DH_HLIT -/
  hlit : Nat
  /-- DH_HDIST -/
  hdist : Nat
  /-- DH_HCLEN -/
  hclen : Nat
  /-- DH_I -/
  i : Nat
  /-- DH_META, 19 lengths by code-length symbol. -/
  metaLen : List Nat
  /-- DH_INDEX -/
  index : Nat
  /-- DH_CL, 320 code lengths. -/
  cl : List Nat
  /-- DH_RSYM -/
  rsym : RepeatSym
  deriving DecidableEq, Repr

/-- The Decompressor Unit (10_state.md R37 to R44). -/
structure DU where
  /-- D_NOHDR -/
  nohdr : Bool
  /-- D_MODE -/
  mode : DMode
  /-- D_FAULT -/
  fault : Option Err
  /-- D_LAST -/
  last : Bool
  /-- D_NEEDED -/
  needed : Nat
  /-- D_READ_ADLER -/
  readAdler : Word
  /-- D_ADLER -/
  adler : Word
  /-- D_ULEN -/
  ulen : BitVec 16
  /-- D_RLEN -/
  rlen : Nat
  /-- D_RDIST -/
  rdist : Nat
  /-- D_TOTAL_OUT -/
  totalOut : DWord
  /-- D_BOUND -/
  bound : DWord
  /-- D_IN_PTR -/
  inPtr : Nat
  /-- D_IN_END: one past the last bound byte, so it may be 2^AW (log 4). -/
  inEnd : Nat
  /-- D_RES -/
  res : Word
  /-- D_CNT -/
  cnt : Nat
  /-- D_OWIN -/
  owin : Tbl
  /-- D_WEND -/
  wend : Nat
  /-- D_FILLED -/
  filled : Nat
  /-- D_HIST -/
  hist : Nat
  /-- D_LTAB -/
  ltab : Code
  /-- D_DTAB -/
  dtab : Code
  /-- DH_* -/
  dh : DHState
  deriving DecidableEq, Repr

/-! ## The machine -/

/-- The command port (10_state.md R22). STATUS is computed (R23). -/
structure Port where
  /-- CMD: the word the host has written and the block has not yet executed; CMD reads 0 (R22, log 5). -/
  cmd : Option Word
  /-- ARG_ADDR, kept below 2^AW. -/
  argAddr : Nat
  /-- ARG_LEN -/
  argLen : Word
  /-- RESULT -/
  result : DWord
  /-- ERRCODE -/
  errcode : Word
  /-- LASTERR, which is STATUS.ERR (R23, R47). -/
  lasterr : Bool
  deriving DecidableEq, Repr

/-- The machine (10_state.md R20, R47). -/
structure State where
  /-- The open parameters of the block (00_scope.md R11). -/
  params : Params
  port : Port
  cu : CU
  du : DU
  /-- Host memory (20_memory.md R70). -/
  mem : Memory
  /-- The model's own field: what the host does next, oldest first (log 5). -/
  host : List HostOp
  deriving DecidableEq, Repr

/-- Why a step stops. Neither is an error of the spec, which are responses (60_exceptions.md R360). -/
inductive Fault where
  /-- Raised by C.DEFLATE and D.INFLATE when a loop outruns the bound the model gives it. 70_reset_and_hazards.md R403 says every
  command ends, so the bound is meant never to be reached; safe, since the machine stops where the hardware goes on (log 8). -/
  | runaway
  /-- Raised by a host write to an address outside [0, 2^AW), which does not exist (20_memory.md R70); safe (log 7). -/
  | hostAddress
  deriving DecidableEq, Repr

/-- Why an instruction has no meaning. -/
inductive Refusal where
  /-- Raised by exec's arm of an instruction not modelled yet; safe. No arm of this model raises it. -/
  | notModelled (mnemonic : String)
  deriving DecidableEq, Repr

/-! ## Power-on (70_reset_and_hazards.md R391) -/

/-- The pending output after every reset: empty (40_bit_output.md R140). -/
def BitOut.empty : BitOut := { fifo := [], bits := 0, nbits := 0 }

/-- A tree of n symbols with frequencies 0. T.LEN, T.CODE and T.NUM are unspecified at reset and never read before a block
flush recomputes them (R391, R396): DESIGN CHOICE, zeros and the minimum count (log 3); safe. -/
def HuffTree.zero (n min : Nat) : HuffTree :=
  { freq := List.replicate n 0, len := List.replicate n 0, code := List.replicate n 0, num := min }

/-- The CU after power-on: level 6, DEFAULT, zlib framing (R390, R391). C_WIN, C_TOK_D and C_TOK_L are unspecified: zeros (log 3). -/
def CU.powerOn : CU :=
  { level := 6, strategy := .default, nohdr := false, phase := .init
    flushReq := false, finishReq := false, dictSet := false, fault := none
    totalIn := 0, totalOut := 0, adler := 1, inPtr := 0, inEnd := 0
    win := .nil, head := .nil, prev := .nil
    strstart := 1, blockStart := 1, lookahead := 0, matchStart := 0, matchLen := 2, prevAvail := false
    tokD := .nil, tokL := .nil, tokN := 0, extra := 0
    out := BitOut.empty
    lit := HuffTree.zero 286 257, dist := HuffTree.zero 30 1, bl := HuffTree.zero 19 4 }

/-- The parser registers at power-on, all unspecified (R391): DESIGN CHOICE, the least legal values (log 3); safe. -/
def DHState.powerOn : DHState :=
  { phase := .hlit, hlit := 257, hdist := 1, hclen := 4, i := 0, metaLen := List.replicate 19 0
    index := 0, cl := List.replicate 320 0, rsym := .prev }

/-- The DU after power-on: zlib framing (R390, R391). D_OWIN, D_LTAB and D_DTAB are unspecified (log 3). -/
def DU.powerOn : DU :=
  { nohdr := false, mode := .header, fault := none, last := false, needed := 0
    readAdler := 0, adler := 1, ulen := 0, rlen := 0, rdist := 0, totalOut := 0, bound := 0
    inPtr := 0, inEnd := 0, res := 0, cnt := 0
    owin := .nil, wend := 0, filled := 0, hist := 0
    ltab := .fixed, dtab := .fixed, dh := DHState.powerOn }

/-- The port after power-on: all registers 0 and no command written (R391). -/
def Port.powerOn : Port :=
  { cmd := none, argAddr := 0, argLen := 0, result := 0, errcode := 0, lasterr := false }

/-- The power-on state of a block built with parameters p, beside a host whose memory nothing has written (R390, R391). -/
def State.powerOn (p : Params) : State :=
  { params := p, port := Port.powerOn, cu := CU.powerOn, du := DU.powerOn, mem := [], host := [] }

/-- The machine right after power-on (70_reset_and_hazards.md R391). -/
def State.reset : State := State.powerOn Params.standard

end Sys2Proof.Machine
end

