-- ==== Sys2Proof/Machine/Constants.lean ====
section
/-! DEFINITION. The constants of 00_scope.md R8 and R9 and the level table of R10. -/

namespace Sys2Proof.Machine

/-- WSIZE (R8). -/
@[simp] def WSIZE : Nat := 32768
/-- CWIN (R8). -/
@[simp] def CWIN : Nat := 65536
/-- MIN_MATCH (R8). -/
@[simp] def MIN_MATCH : Nat := 3
/-- MAX_MATCH (R8). -/
@[simp] def MAX_MATCH : Nat := 258
/-- MIN_LOOKAHEAD (R8). -/
@[simp] def MIN_LOOKAHEAD : Nat := 262
/-- MAX_DIST (R8). -/
@[simp] def MAX_DIST : Nat := 32506
/-- TOO_FAR (R8). -/
@[simp] def TOO_FAR : Nat := 4096
/-- LIT_NUM (R8). -/
@[simp] def LIT_NUM : Nat := 286
/-- DIST_NUM (R8). -/
@[simp] def DIST_NUM : Nat := 30
/-- BL_NUM (R8). -/
@[simp] def BL_NUM : Nat := 19
/-- MAX_BITS (R8). -/
@[simp] def MAX_BITS : Nat := 15
/-- MAX_BL_BITS (R8). -/
@[simp] def MAX_BL_BITS : Nat := 7
/-- TOKEN_CAP (R9). -/
@[simp] def TOKEN_CAP : Nat := 16384
/-- MAX_STORED (R9). -/
@[simp] def MAX_STORED : Nat := 65531
/-- DWIN (R9). -/
@[simp] def DWIN : Nat := 65536
/-- WMASK (R9). -/
@[simp] def WMASK : Nat := 32767
/-- DEFAULT_LEVEL (R8). -/
@[simp] def DEFAULT_LEVEL : Fin 10 := 6

/-- FUNC, the algorithm column of R10. -/
inductive Algorithm where
  | stored
  | fast
  | slow
  deriving DecidableEq, Repr

/-- A row of the level table (R10): GOOD, LAZY, NICE, CHAIN and the algorithm. -/
structure LevelRow where
  good : Nat
  lazyLen : Nat
  nice : Nat
  chain : Nat
  func : Algorithm
  deriving DecidableEq, Repr

/-- The level parameter table (R10). -/
def levelRow : Fin 10 → LevelRow
  | 0 => ⟨0, 0, 0, 0, .stored⟩
  | 1 => ⟨4, 4, 8, 4, .fast⟩
  | 2 => ⟨4, 5, 16, 8, .fast⟩
  | 3 => ⟨4, 6, 32, 32, .fast⟩
  | 4 => ⟨4, 4, 16, 16, .slow⟩
  | 5 => ⟨8, 16, 32, 32, .slow⟩
  | 6 => ⟨8, 16, 128, 128, .slow⟩
  | 7 => ⟨8, 32, 128, 256, .slow⟩
  | 8 => ⟨32, 128, 258, 1024, .slow⟩
  | 9 => ⟨32, 258, 258, 4096, .slow⟩

end Sys2Proof.Machine
end

