-- ==== Sys2Proof/Machine/Ops.lean ====
section
/-! DEFINITION. The shared operations: host memory, internal arrays, the outcome of a procedure that may raise, and how a
command ends, with a success response or with an error response (60_exceptions.md R360, R361). -/

namespace Sys2Proof.Machine

/-! ## Host memory (20_memory.md R70) -/

/-- What an address that nothing has written reads as. DESIGN CHOICE (log 2): the initial contents are the host's and the spec
gives none (70_reset_and_hazards.md R391); unsafe, a proof about unwritten memory can lean on the 0. -/
def Memory.unlisted : Byte := 0

/-- MemRead(a, 1) (00_scope.md R13): total, without side effect. -/
def Memory.read : Memory → Nat → Byte
  | [], _ => Memory.unlisted
  | c :: rest, a => if c.1 = a then c.2 else Memory.read rest a

/-- MemWrite(a, 1, b) (00_scope.md R13), keeping the canonical form. -/
def Memory.write : Memory → Nat → Byte → Memory
  | [], a, b => if b = Memory.unlisted then [] else [(a, b)]
  | c :: rest, a, b =>
    if a < c.1 then
      if b = Memory.unlisted then c :: rest else (a, b) :: c :: rest
    else if a = c.1 then
      if b = Memory.unlisted then rest else (a, b) :: rest
    else c :: Memory.write rest a b

/-- The canonical form: addresses strictly rise, and no entry equals what an unlisted address reads as. -/
def Memory.wf : Memory → Bool
  | [] => true
  | c :: rest => c.2 != Memory.unlisted && rest.all (fun d => c.1 < d.1) && Memory.wf rest

/-- The n bytes from address a on, in ascending order (20_memory.md R71). -/
def Memory.readBytes (m : Memory) (a : Nat) : Nat → List Byte
  | 0 => []
  | n + 1 => m.read a :: Memory.readBytes m (a + 1) n

/-- Writes of bytes to consecutive ascending addresses from a on (20_memory.md R71, R79). -/
def Memory.writeBytes (m : Memory) (a : Nat) : List Byte → Memory
  | [] => m
  | b :: bs => Memory.writeBytes (m.write a b) (a + 1) bs

/-! ## Internal arrays -/

/-- A node, without keeping a subtree that holds only zeros. -/
def Tbl.join : Tbl → Tbl → Tbl
  | .nil, .nil => .nil
  | l, r => .node l r

/-- Element i of an array of 2^depth elements. -/
def Tbl.get : Nat → Tbl → Nat → Nat
  | 0, .leaf v, _ => v
  | d + 1, .node l r, i => if i.testBit d then Tbl.get d r i else Tbl.get d l i
  | _, _, _ => 0

/-- The two halves of an array; those of an array of zeros are arrays of zeros. -/
def Tbl.halves : Tbl → Tbl × Tbl
  | .node l r => (l, r)
  | _ => (.nil, .nil)

/-- The array of 2^depth elements with element i replaced by v. -/
def Tbl.set : Nat → Tbl → Nat → Nat → Tbl
  | 0, _, _, v => if v = 0 then .nil else .leaf v
  | d + 1, t, i, v =>
    if i.testBit d then Tbl.join t.halves.1 (Tbl.set d t.halves.2 i v)
    else Tbl.join (Tbl.set d t.halves.1 i v) t.halves.2

/-- Consecutive elements from i on replaced by a list's, the index wrapping at 2^depth. -/
def Tbl.setList (d : Nat) (t : Tbl) (i : Nat) : List Nat → Tbl
  | [] => t
  | v :: vs => Tbl.setList d (t.set d i v) (i + 1) vs

/-- Every element v replaced by v − k where v ≥ k, and by 0 elsewhere: the rebasing of 41_match_engine.md R162. -/
def Tbl.rebase (k : Nat) : Tbl → Tbl
  | .nil => .nil
  | .leaf v => if k < v then .leaf (v - k) else .nil
  | .node l r => Tbl.join (Tbl.rebase k l) (Tbl.rebase k r)

/-- The array whose lower half is a copy of its upper half: the move of 41_match_engine.md R162. -/
def Tbl.copyUpper (t : Tbl) : Tbl := Tbl.join t.halves.2 t.halves.2

/-! ## Procedures that may raise -/

/-- How a procedure over a unit's state σ ends: with a value, or with a raise that stops the command and keeps the changes made so
far (60_exceptions.md R361), or stuck in a loop that outran its bound (log 8). -/
inductive Run (σ α : Type) where
  | done (a : α) (s : σ)
  | raise (e : Err) (s : σ)
  | stuck
  deriving DecidableEq, Repr

/-- One procedure after another. -/
def Run.bind {σ α β : Type} : Run σ α → (α → σ → Run σ β) → Run σ β
  | .done a s, f => f a s
  | .raise e s, _ => .raise e s
  | .stuck, _ => .stuck

/-- A procedure on a part of a larger state. -/
def Run.within {σ τ α : Type} (put : σ → τ) : Run σ α → Run τ α
  | .done a s => .done a (put s)
  | .raise e s => .raise e (put s)
  | .stuck => .stuck

/-! ## Errors (60_exceptions.md R362, R363) -/

/-- The class and the subcode of an error (60_exceptions.md R362, R363). -/
def Err.classSub : Err → Nat × Nat
  | .rangeLevel => (1, 1)
  | .rangeStrategy => (1, 2)
  | .rangeAddress => (1, 3)
  | .unassigned => (2, 1)
  | .reserved => (2, 2)
  | .setInputAfterFinish => (3, 1)
  | .inputPending => (3, 2)
  | .dictNotInit => (3, 3)
  | .dictNotNeeded => (3, 4)
  | .closed => (3, 5)
  | .headerChecksum => (4, 1)
  | .method => (4, 2)
  | .blockType => (4, 3)
  | .storedLength => (4, 4)
  | .lengthCode => (4, 5)
  | .distanceCode => (4, 6)
  | .distanceTooFar => (4, 7)
  | .invalidCode => (4, 8)
  | .oversubscribed => (4, 9)
  | .hlitRange => (4, 10)
  | .hdistRange => (4, 11)
  | .repeatNoPrevious => (4, 12)
  | .repeatOverflow => (4, 13)
  | .noEndOfBlock => (4, 14)
  | .checksum => (4, 15)
  | .dictChecksum => (4, 16)
  | .heapInvariant => (4, 17)
  | .bitAlignment => (5, 1)
  | .aborted => (6, 0)
  | .outputOverlapsInput => (7, 1)

/-- ERRCODE of an error: SUB in [15:8], CLASS in [7:0] (10_state.md R24, 60_exceptions.md R361). -/
def Err.code (e : Err) : Word := BitVec.ofNat 32 (e.classSub.2 * 256 + e.classSub.1)

/-- DATA_FORMAT and INTERNAL errors abort the unit's stream (60_exceptions.md R361, R364). -/
def Err.sticky (e : Err) : Bool := e.classSub.1 == 4 || e.classSub.1 == 5

/-! ## The end of a command -/

/-- The success response (60_exceptions.md R360): ERRCODE and LASTERR are 0 and RESULT is the command's value. -/
def State.succeed (result : DWord) (s : State) : State :=
  { s with port := { s.port with result := result, errcode := 0, lasterr := false } }

/-- A unit's fault register written (60_exceptions.md R364). -/
def State.abort (u : UnitId) (e : Err) (s : State) : State :=
  match u with
  | .cu => { s with cu := { s.cu with fault := some e } }
  | .du => { s with du := { s.du with fault := some e } }

/-- Taking an exception: the error response to a command of unit u that has written `written` bytes of host memory
(60_exceptions.md R361). ERRCODE and LASTERR tell the error, RESULT counts the bytes, and a DATA_FORMAT or INTERNAL error
becomes the unit's fault. Control stays with the host: there is no vector, no mode and no saved address (R370). -/
def State.raise (u : UnitId) (e : Err) (written : Nat) (s : State) : State :=
  let t := { s with port := { s.port with result := BitVec.ofNat 64 written, errcode := e.code, lasterr := true } }
  if e.sticky then t.abort u e else t

/-- The return from an exception: a unit's fault register cleared, which its CONFIG and RESET do (60_exceptions.md R364, R370). -/
def CU.clearFault (c : CU) : CU := { c with fault := none }

/-- The return from an exception in the DU (60_exceptions.md R364, R370). -/
def DU.clearFault (d : DU) : DU := { d with fault := none }

/-- The first error whose check fails (60_exceptions.md R365). -/
def firstErr : List (Bool × Err) → Option Err
  | [] => none
  | (failed, e) :: rest => if failed then some e else firstErr rest

end Sys2Proof.Machine
end

