-- ==== Sys2Proof/Machine/Wire.lean ====
section
/-! DEFINITION. The wire format's tables and functions, shared by both units: Adler-32 (00_scope.md R15), length and distance
codes (30_encoding.md R105, R106), the fixed code (R107), canonical codes (R108) and the code-length order (R109). -/

namespace Sys2Proof.Machine

/-! ## Adler-32 (00_scope.md R15) -/

/-- One byte into the two sums. -/
def adlerStep (ab : Nat × Nat) (x : Byte) : Nat × Nat :=
  let a := (ab.1 + x.toNat) % 65521
  (a, (ab.2 + a) % 65521)

/-- Adler32(bytes, a0). -/
def adler32 (bytes : List Byte) (a0 : Word) : Word :=
  let ab := bytes.foldl adlerStep (a0.toNat % 65536, a0.toNat / 65536)
  BitVec.ofNat 32 (ab.2 * 65536 + ab.1)

/-- The upper half of a checksum, sent first (20_memory.md R77). -/
def adlerHigh (a : Word) : Nat := a.toNat / 65536

/-- The lower half of a checksum. -/
def adlerLow (a : Word) : Nat := a.toNat % 65536

/-! ## Length and distance codes -/

/-- BASE_L(257 ..) (R105). -/
def baseLTable : List Nat :=
  [3, 4, 5, 6, 7, 8, 9, 10, 11, 13, 15, 17, 19, 23, 27, 31, 35, 43, 51, 59, 67, 83, 99, 115, 131, 163, 195, 227, 258]

/-- EXTRA_L(257 ..) (R105). -/
def extraLTable : List Nat :=
  [0, 0, 0, 0, 0, 0, 0, 0, 1, 1, 1, 1, 2, 2, 2, 2, 3, 3, 3, 3, 4, 4, 4, 4, 5, 5, 5, 5, 0]

/-- BASE_D(0 ..) (R106). -/
def baseDTable : List Nat :=
  [1, 2, 3, 4, 5, 7, 9, 13, 17, 25, 33, 49, 65, 97, 129, 193, 257, 385, 513, 769, 1025, 1537, 2049, 3073, 4097, 6145, 8193,
    12289, 16385, 24577]

/-- EXTRA_D(0 ..) (R106). -/
def extraDTable : List Nat :=
  [0, 0, 0, 0, 1, 1, 2, 2, 3, 3, 4, 4, 5, 5, 6, 6, 7, 7, 8, 8, 9, 9, 10, 10, 11, 11, 12, 12, 13, 13]

/-- BASE_L(s), for s in 257..285. -/
def baseL (s : Nat) : Nat := baseLTable.getD (s - 257) 0

/-- EXTRA_L(s), for s in 257..285. -/
def extraL (s : Nat) : Nat := extraLTable.getD (s - 257) 0

/-- BASE_D(d), for d in 0..29. -/
def baseD (d : Nat) : Nat := baseDTable.getD d 0

/-- EXTRA_D(d), for d in 0..29. -/
def extraD (d : Nat) : Nat := extraDTable.getD d 0

/-- The index of the last entry of a rising table that is at most x, counting the first entry as 0. -/
def lastAtMost (table : List Nat) (x : Nat) : Nat := (table.takeWhile (· ≤ x)).length - 1

/-- LCODE(len): 285 for 258, else the largest s in 257..284 with BASE_L(s) ≤ len (R105). -/
def lcode (len : Nat) : Nat := if len = 258 then 285 else 257 + lastAtMost (baseLTable.take 28) len

/-- DCODE(dist): the largest d with BASE_D(d) ≤ dist (R106). -/
def dcode (dist : Nat) : Nat := lastAtMost baseDTable dist

/-! ## Codes -/

/-- FIXED_L (R107). -/
def fixedL : List Nat :=
  List.replicate 144 8 ++ List.replicate 112 9 ++ List.replicate 24 7 ++ List.replicate 8 8

/-- FIXED_D (R107). -/
def fixedD : List Nat := List.replicate 32 5

/-- BL_ORDER (R109). -/
def blOrder : List Nat := [16, 17, 18, 0, 8, 7, 9, 6, 10, 5, 11, 4, 12, 3, 13, 2, 14, 1, 15]

/-- bl_count[b] for b ≥ 1, and bl_count[0] = 0 (R108). -/
def blCount (lens : List Nat) (b : Nat) : Nat := if b = 0 then 0 else lens.count b

/-- next_code[b .. 15] before any code is given out, from the code of length b − 1 (R108). -/
def nextCodesFrom (lens : List Nat) (code b : Nat) : Nat → List Nat
  | 0 => []
  | n + 1 =>
    let code' := (code + blCount lens (b - 1)) <<< 1
    code' :: nextCodesFrom lens code' (b + 1) n

/-- next_code[0 .. 15], with an unused entry 0 (R108). -/
def nextCodes (lens : List Nat) : List Nat := 0 :: nextCodesFrom lens 0 1 15

/-- The codes given out in symbol order (R108); a symbol of length 0 has none and gets 0. -/
def assignCodes : List Nat → List Nat → List Nat
  | _, [] => []
  | next, l :: ls =>
    if l = 0 then 0 :: assignCodes next ls
    else next.getD l 0 :: assignCodes (next.set l (next.getD l 0 + 1)) ls

/-- CANON of every symbol of a vector of code lengths (R108). -/
def canon (lens : List Nat) : List Nat := assignCodes (nextCodes lens) lens

/-- bitrev_n(v): the n low bits of v reversed (00_scope.md R14). -/
def bitrev : Nat → Nat → Nat
  | 0, _ => 0
  | n + 1, v => (v % 2) * 2 ^ n + bitrev n (v / 2)

/-- Σ 2^(15 − len) over the nonzero lengths (45_huffman_decode.md R328). -/
def kraft (lens : List Nat) : Nat := (lens.map fun l => if l = 0 then 0 else 2 ^ (15 - l)).sum

end Sys2Proof.Machine
end

