-- ==== Sys2Proof/Machine/BitOutput.lean ====
section
/-! DEFINITION. The BitOutputBuffer (40_bit_output.md): bits packed least significant first into PBITS, complete 16-bit groups moved
into PFIFO, and PFIFO delivered to host memory. -/

namespace Sys2Proof.Machine

/-- PReset() (R140). -/
def BitOut.preset (_ : BitOut) : BitOut := BitOut.empty

/-- PFIFO.push of bytes, in order. -/
def BitOut.push (o : BitOut) (bs : List Byte) : BitOut := { o with fifo := o.fifo ++ bs }

/-- PBITS[7:0]. -/
def BitOut.low (o : BitOut) : Byte := o.bits.extractLsb' 0 8

/-- PBITS[15:8]. -/
def BitOut.high (o : BitOut) : Byte := o.bits.extractLsb' 8 8

/-- The value's bits put above the bits held (R141). -/
def BitOut.accumulate (o : BitOut) (v n : Nat) : BitOut :=
  { o with bits := o.bits ||| (BitVec.ofNat 32 v <<< o.nbits), nbits := o.nbits + n }

/-- Sixteen bits moved into PFIFO as two bytes, once that many are held (R141). -/
def BitOut.spill (o : BitOut) : BitOut :=
  if 16 ≤ o.nbits then
    { fifo := o.fifo ++ [o.low, o.high], bits := o.bits >>> 16, nbits := o.nbits - 16 }
  else o

/-- WriteBits(v, n), for v < 2^n and n ≤ 16 (R141). -/
def BitOut.writeBits (o : BitOut) (v n : Nat) : BitOut := (o.accumulate v n).spill

/-- WriteBits of a sequence of fields (value, width), in order. -/
def BitOut.writeFields (o : BitOut) (fields : List (Nat × Nat)) : BitOut :=
  fields.foldl (fun o f => o.writeBits f.1 f.2) o

/-- AlignToByte() (R142). -/
def BitOut.alignToByte (o : BitOut) : BitOut :=
  { fifo := o.fifo ++ (if o.nbits = 0 then [] else if 8 < o.nbits then [o.low, o.high] else [o.low]), bits := 0, nbits := 0 }

/-- WriteBlock(bytes), legal only with no bits pending (R147, with the precondition of R143). -/
def BitOut.writeBlock (o : BitOut) (bs : List Byte) : Run BitOut Unit :=
  if o.nbits = 0 then .done () (o.push bs) else .raise .bitAlignment o

/-- WriteByte(b) (R143). -/
def BitOut.writeByte (o : BitOut) (b : Nat) : Run BitOut Unit := o.writeBlock [BitVec.ofNat 8 b]

/-- WriteShort(s), little-endian (R144). -/
def BitOut.writeShort (o : BitOut) (s : Nat) : Run BitOut Unit :=
  (o.writeByte (s % 256)).bind fun _ o => o.writeByte (s / 256)

/-- WriteShortMSB(s), big-endian (R145). -/
def BitOut.writeShortMSB (o : BitOut) (s : Nat) : Run BitOut Unit :=
  (o.writeByte (s / 256)).bind fun _ o => o.writeByte (s % 256)

/-- WriteInt(w), little-endian (R146). No rule calls it. -/
def BitOut.writeInt (o : BitOut) (w : Nat) : Run BitOut Unit :=
  (o.writeShort (w % 65536)).bind fun _ o => o.writeShort (w / 65536)

/-- A checksum, big-endian, as two halves (20_memory.md R77, 43_compressor.md R244, R247). -/
def BitOut.writeAdler (o : BitOut) (a : Word) : Run BitOut Unit :=
  (o.writeShortMSB (adlerHigh a)).bind fun _ o => o.writeShortMSB (adlerLow a)

/-- A complete byte of the accumulator moved into PFIFO (R148). -/
def BitOut.settle (o : BitOut) : BitOut :=
  if 8 ≤ o.nbits then { fifo := o.fifo ++ [o.low], bits := o.bits >>> 8, nbits := o.nbits - 8 } else o

/-- IsFlushed() (R149). -/
def BitOut.isFlushed (o : BitOut) : Bool := o.fifo.isEmpty

/-- BitCount() (R150). -/
def BitOut.bitCount (o : BitOut) : Nat := o.nbits

/-- A unit that delivers bytes to host memory during a command: the unit, host memory, the next address `dest` and the room `left`
(43_compressor.md R243, 44_decompressor.md R284). -/
structure Xfer (σ : Type) where
  unit : σ
  mem : Memory
  dest : Nat
  left : Nat
  deriving DecidableEq, Repr

/-- How many bytes Flush delivers: as many as are pending and fit (R148). -/
def flushCount (o : BitOut) (n : Nat) : Nat := min n o.settle.fifo.length

/-- Flush(dest, n), with dest and n moved on by what was delivered (R148, 43_compressor.md R243). -/
def Xfer.flush (x : Xfer CU) : Xfer CU :=
  let o := x.unit.out.settle
  let m := flushCount x.unit.out x.left
  { unit := { x.unit with out := { o with fifo := o.fifo.drop m }, totalOut := x.unit.totalOut + BitVec.ofNat 64 m }
    mem := x.mem.writeBytes x.dest (o.fifo.take m)
    dest := x.dest + m
    left := x.left - m }

/-- A procedure of the output buffer, run in the CU. -/
def CU.withOut (c : CU) (r : Run BitOut Unit) : Run CU Unit := r.within fun o => { c with out := o }

end Sys2Proof.Machine
end

