-- ==== Sys2Proof/Machine/BitInput.lean ====
section
/-! DEFINITION. The bit reader and the Huffman decoder of the DU (45_huffman_decode.md). -/

namespace Sys2Proof.Machine

/-! ## Bit reader (R320 to R326) -/

/-- BRAvail(), availableBits (R326, 10_state.md R40). -/
def DU.avail (d : DU) : Nat := d.cnt + 8 * (d.inEnd - d.inPtr)

/-- BRNeedsInput() (R326). -/
def DU.needsInput (d : DU) : Bool := d.inPtr == d.inEnd

/-- One bound byte moved into the reservoir, above the bits held (R321). -/
def DU.readByte (d : DU) (m : Memory) : DU :=
  { d with
    res := d.res ||| ((m.read d.inPtr).zeroExtend 32 <<< d.cnt)
    inPtr := d.inPtr + 1
    cnt := d.cnt + 8 }

/-- Bytes moved into the reservoir until n bits are held or no bound byte is left (R321); each adds 8 bits, so the fuel n is enough. -/
def DU.refill (m : Memory) (n : Nat) : Nat → DU → DU
  | 0, d => d
  | k + 1, d => if d.cnt < n && d.inPtr < d.inEnd then DU.refill m n k (d.readByte m) else d

/-- BRPeek(n) (R321): none stands for NONE. -/
def DU.peek (d : DU) (m : Memory) (n : Nat) : Option Nat × DU :=
  let d := DU.refill m n n d
  if d.cnt < n then (none, d) else (some (d.res.toNat % 2 ^ n), d)

/-- BRDrop(n) (R322). -/
def DU.drop (d : DU) (n : Nat) : DU := { d with res := d.res >>> n, cnt := d.cnt - n }

/-- BRTryGet(n) (R323). -/
def DU.tryGet (d : DU) (m : Memory) (n : Nat) : Option Nat × DU :=
  match d.peek m n with
  | (none, d) => (none, d)
  | (some v, d) => (some v, d.drop n)

/-- BRAlign() (R324). -/
def DU.align (d : DU) : DU := d.drop (d.cnt % 8)

/-- The whole bytes at the front of the reservoir, at most n of them (R325). -/
def DU.copyReservoir : Nat → DU → List Byte × DU
  | 0, d => ([], d)
  | n + 1, d =>
    if 8 ≤ d.cnt then
      let r := DU.copyReservoir n (d.drop 8)
      (d.res.truncate 8 :: r.1, r.2)
    else ([], d)

/-- BRCopy(n) (R325): bytes of the reservoir first, then bytes of memory. -/
def DU.copy (d : DU) (m : Memory) (n : Nat) : List Byte × DU :=
  let r := DU.copyReservoir n d
  let k := n - r.1.length
  (r.1 ++ m.readBytes r.2.inPtr k, { r.2 with inPtr := r.2.inPtr + k })

/-- A field that may lack input: without it the step returns 0, and the field's bits stay unread (44_decompressor.md R283). -/
def needBits (r : Option Nat × DU) (f : Nat → DU → Run DU Bool) : Run DU Bool :=
  match r with
  | (none, d) => .done false d
  | (some v, d) => f v d

/-! ## Decode tables (R327 to R330) -/

/-- D_LTAB as a vector of code lengths (R330, 10_state.md R43). -/
def Code.litLens : Code → List Nat
  | .fixed => fixedL
  | .lens v => v

/-- D_DTAB as a vector of code lengths (R330, 10_state.md R43). -/
def Code.distLens : Code → List Nat
  | .fixed => fixedD
  | .lens v => v

/-- The over-subscription check: the vector violates the Kraft inequality (R328). -/
def oversubscribed (lens : List Nat) : Bool := 2 ^ 15 < kraft lens

/-- Lmax (R329). -/
def maxLength (lens : List Nat) : Nat := lens.foldl max 0

/-- The symbol whose codeword is the l bits c, from a vector of (length, code) pairs (R329). -/
def symbolOf (codes : List (Nat × Nat)) (l c : Nat) : Option Nat := codes.findIdx? fun p => p.1 == l && p.2 == c

/-- The l bits c are a proper prefix of some codeword (R329). -/
def isProperPrefix (codes : List (Nat × Nat)) (l c : Nat) : Bool :=
  codes.any fun p => l < p.1 && (p.2 >>> (p.1 - l)) == c

/-- The loop of Decode at length l, of `left` lengths still to try, c being the l − 1 bits read (R329). -/
def decodeFrom (m : Memory) (codes : List (Nat × Nat)) : Nat → Nat → Nat → DU → Run DU (Option Nat)
  | 0, _, _, d => .raise .invalidCode d
  | left + 1, l, c, d =>
    if d.avail < l then .done none d
    else
      match d.peek m l with
      | (none, d) => .done none d
      | (some v, d) =>
        let c := 2 * c + (v >>> (l - 1)) % 2
        match symbolOf codes l c with
        | some s => .done (some s) (d.drop l)
        | none => if isProperPrefix codes l c then decodeFrom m codes left (l + 1) c d else .raise .invalidCode d

/-- Decode(lens) (R329): none stands for NONE. -/
def DU.decode (d : DU) (m : Memory) (lens : List Nat) : Run DU (Option Nat) :=
  decodeFrom m (lens.zip (canon lens)) (maxLength lens) 1 0 d

/-- Decode, then what is done with the symbol; without enough input the step returns 0. -/
def DU.decodeThen (d : DU) (m : Memory) (lens : List Nat) (f : Nat → DU → Run DU Bool) : Run DU Bool :=
  (d.decode m lens).bind fun s d => needBits (s, d) f

end Sys2Proof.Machine
end

