-- ==== Sys2Proof/Machine/DynHeader.lean ====
section
/-! DEFINITION. The DynamicHeaderParser (46_dynamic_header.md), resumable at every field. -/

namespace Sys2Proof.Machine

/-- DHInit() (R340). The registers it does not write keep their values. -/
def DU.dhInit (d : DU) : DU :=
  { d with dh := { d.dh with
      phase := .hlit, i := 0, index := 0, metaLen := List.replicate 19 0, cl := List.replicate 320 0 } }

/-- The number of code lengths the header declares (R346). -/
def DHState.total (h : DHState) : Nat := h.hlit + h.hdist

/-- The extra bits and the base of a repeat symbol (R347). -/
def RepeatSym.extraBase : RepeatSym → Nat × Nat
  | .prev => (2, 3)
  | .zerosShort => (3, 3)
  | .zerosLong => (7, 11)

/-- The length a repeat symbol repeats (R347). -/
def DHState.repeated (h : DHState) : Nat :=
  match h.rsym with
  | .prev => h.cl.getD (h.index - 1) 0
  | .zerosShort => 0
  | .zerosLong => 0

/-- n elements of a list from index i on replaced by v (R347). -/
def setRun (v : Nat) : Nat → List Nat → Nat → List Nat
  | 0, l, _ => l
  | n + 1, l, i => setRun v n (l.set i v) (i + 1)

/-- The literal/length code lengths (R348). -/
def DHState.litLens (h : DHState) : List Nat := h.cl.take h.hlit

/-- The distance code lengths (R348). -/
def DHState.distLens (h : DHState) : List Nat := (h.cl.drop h.hlit).take h.hdist

/-- Phase HLIT with its field read (R342). -/
def DU.dhHlit (d : DU) (v : Nat) : DU := { d with dh := { d.dh with hlit := v + 257, phase := .hdist } }

/-- Phase HDIST with its field read (R343). -/
def DU.dhHdist (d : DU) (v : Nat) : DU := { d with dh := { d.dh with hdist := v + 1, phase := .hclen } }

/-- The errors of phase HCLEN, HLIT before HDIST (R344). -/
def DHState.hclenErr (h : DHState) : Option Err := firstErr [(286 < h.hlit, .hlitRange), (30 < h.hdist, .hdistRange)]

/-- A field of phase CLEN stored (R345). -/
def DU.dhClen (d : DU) (v : Nat) : DU :=
  { d with dh := { d.dh with metaLen := d.dh.metaLen.set (blOrder.getD d.dh.i 0) v, i := d.dh.i + 1 } }

/-- A literal code length stored (R346). -/
def DU.dhLength (d : DU) (s : Nat) : DU :=
  { d with dh := { d.dh with cl := d.dh.cl.set d.dh.index s, index := d.dh.index + 1 } }

/-- A repeat symbol recorded, to await its extra bits (R346). -/
def DU.dhRepeat (d : DU) (s : Nat) : DU :=
  { d with dh := { d.dh with
      rsym := if s = 16 then .prev else if s = 17 then .zerosShort else .zerosLong
      phase := .rep } }

/-- A repeat of `count` lengths stored (R347). -/
def DU.dhFill (d : DU) (count : Nat) : DU :=
  { d with dh := { d.dh with
      cl := setRun d.dh.repeated count d.dh.cl d.dh.index, index := d.dh.index + count, phase := .sym } }

/-- The errors of a complete header, in their order (R348). -/
def DHState.headerErr (h : DHState) : Option Err :=
  firstErr [(h.cl.getD 256 0 == 0, .noEndOfBlock), (oversubscribed h.litLens, .oversubscribed),
    (oversubscribed h.distLens, .oversubscribed)]

/-- A move to another phase. -/
def DU.dhGo (d : DU) (p : DHPhase) : DU := { d with dh := { d.dh with phase := p } }

/-- The loop of DHStep (R341), one field or one move between phases at a pass; the fuel is more than the passes that the available
bits allow. -/
def DU.dhLoop (m : Memory) : Nat → DU → Run DU Bool
  | 0, _ => .stuck
  | fuel + 1, d =>
    match d.dh.phase with
    | .hlit => needBits (d.tryGet m 5) fun v d => DU.dhLoop m fuel (d.dhHlit v)
    | .hdist => needBits (d.tryGet m 5) fun v d => DU.dhLoop m fuel (d.dhHdist v)
    | .hclen => needBits (d.tryGet m 4) fun v d =>
        let d := { d with dh := { d.dh with hclen := v + 4 } }
        match d.dh.hclenErr with
        | some e => .raise e d
        | none => DU.dhLoop m fuel (d.dhGo .clen)
    | .clen =>
      if d.dh.i < d.dh.hclen then needBits (d.tryGet m 3) fun v d => DU.dhLoop m fuel (d.dhClen v)
      else if oversubscribed d.dh.metaLen then .raise .oversubscribed d
      else DU.dhLoop m fuel (d.dhGo .sym)
    | .sym =>
      if d.dh.index < d.dh.total then
        d.decodeThen m d.dh.metaLen fun s d =>
          if s < 16 then DU.dhLoop m fuel (d.dhLength s)
          else if s = 16 ∧ d.dh.index = 0 then .raise .repeatNoPrevious d
          else DU.dhLoop m fuel (d.dhRepeat s)
      else
        match d.dh.headerErr with
        | some e => .raise e d
        | none => .done true (d.dhGo .done)
    | .rep => needBits (d.tryGet m d.dh.rsym.extraBase.1) fun v d =>
        let count := d.dh.rsym.extraBase.2 + v
        if d.dh.total < d.dh.index + count then .raise .repeatOverflow d
        else DU.dhLoop m fuel (d.dhFill count)
    | .done => .done true d

/-- DHStep() (R341). -/
def DU.dhStep (d : DU) (m : Memory) : Run DU Bool := DU.dhLoop m (d.avail + 8) d

end Sys2Proof.Machine
end

