-- ==== Sys2Proof/Machine/Inflate.lean ====
section
/-! DEFINITION. The decode state machine of the DU (44_decompressor.md R283 to R298): the output window and one decode step in each
mode. -/

namespace Sys2Proof.Machine

/-! ## The output window (R291) -/

/-- Free() (R291). -/
def DU.free (d : DU) : Nat := DWIN - d.filled

/-- A byte put into the history (44_decompressor.md R282, R291). -/
def DU.putHistory (d : DU) (b : Nat) : DU :=
  { d with owin := d.owin.set 16 d.wend b, wend := (d.wend + 1) % DWIN, hist := min (d.hist + 1) DWIN }

/-- WPut(b) (R291). -/
def DU.wput (d : DU) (b : Nat) : DU := { d.putHistory b with filled := d.filled + 1 }

/-- The index of the byte k places before D_WEND, modulo DWIN (R291). -/
def DU.back (d : DU) (k : Nat) : Nat := (d.wend + (DWIN - k % DWIN)) % DWIN

/-- The copy of Repeat, one byte at a time (R291). -/
def DU.replay (dist : Nat) : Nat → DU → DU
  | 0, d => d
  | l + 1, d => DU.replay dist l (d.wput (d.owin.get 16 (d.back dist)))

/-- The oldest m undelivered bytes, of those held (R291, 10_state.md R41). -/
def DU.oldest (d : DU) (m : Nat) : List Byte :=
  (List.range m).map fun k => BitVec.ofNat 8 (d.owin.get 16 ((d.back d.filled + k) % DWIN))

/-- CopyOut(dest, n), with dest and n moved on by what was delivered (R291, R284). -/
def Xfer.copyOut (x : Xfer DU) : Xfer DU :=
  let d := x.unit
  let m := min x.left d.filled
  { unit := { d with
      adler := adler32 (d.oldest m) d.adler, filled := d.filled - m, totalOut := d.totalOut + BitVec.ofNat 64 m }
    mem := x.mem.writeBytes x.dest (d.oldest m)
    dest := x.dest + m
    left := x.left - m }

/-! ## Modes (R285 to R298) -/

/-- A move to another mode. -/
def DU.go (d : DU) (m : DMode) : DU := { d with mode := m }

/-- H = CMF·256 + FLG of the 16 bits read, CMF first (R285). -/
def headerOf (v : Nat) : Nat := (v % 256) * 256 + v / 256

/-- Mode HEADER (R285). -/
def DU.stepHeader (d : DU) (m : Memory) : Run DU Bool :=
  needBits (d.tryGet m 16) fun v d =>
    let h := headerOf v
    if h % 31 ≠ 0 then .raise .headerChecksum d
    else if (h / 256) % 16 ≠ 8 then .raise .method d
    else if (h / 32) % 2 = 1 then .done true { d with mode := .dict, needed := 32 }
    else .done true (d.go .blocks)

/-- Mode BLOCKS after the final block (R286). -/
def DU.stepLast (d : DU) : Run DU Bool :=
  if 0 < d.filled then .done false d
  else if d.nohdr then .done false (d.go .fin)
  else .done true { d.align with needed := 32, mode := .chk }

/-- Mode BLOCKS before a block header (R287). -/
def DU.stepBlock (d : DU) (m : Memory) : Run DU Bool :=
  needBits (d.tryGet m 3) fun t d =>
    let d := { d with last := t % 2 == 1 }
    if t / 2 = 0 then .done true (d.align.go .slen1)
    else if t / 2 = 1 then .done true { d with ltab := .fixed, dtab := .fixed, mode := .huf }
    else if t / 2 = 2 then .done true (d.dhInit.go .dyn)
    else .raise .blockType d

/-- One byte of a big-endian checksum field (R288, R297). -/
def DU.pushAdler (d : DU) (v : Nat) : DU :=
  { d with readAdler := (d.readAdler <<< 8) ||| BitVec.ofNat 32 v, needed := d.needed - 8 }

/-- The bytes of a checksum field read while bits are needed (R288, R297): true once all are read. The fuel is D_NEEDED. -/
def DU.readAdlerField (m : Memory) : Nat → DU → Run DU Bool
  | 0, d => .done true d
  | n + 1, d =>
    if 0 < d.needed then needBits (d.tryGet m 8) fun v d => DU.readAdlerField m n (d.pushAdler v) else .done true d

/-- Mode DICT (R288). -/
def DU.stepDict (d : DU) (m : Memory) : Run DU Bool :=
  (DU.readAdlerField m d.needed d).bind fun _ d => .done false d

/-- How many bytes mode STORED copies now (R290). -/
def DU.storedCount (d : DU) : Nat := min (min d.ulen.toNat (DWIN - d.filled)) (d.avail / 8)

/-- Mode STORED (R290). -/
def DU.stepStored (d : DU) (m : Memory) : Run DU Bool :=
  let n := d.storedCount
  let r := d.copy m n
  let d : DU := r.1.foldl (fun d b => d.wput b.toNat) r.2
  let d : DU := { d with ulen := d.ulen - BitVec.ofNat 16 n }
  if d.ulen = 0 then .done true (d.go .blocks) else .done (!d.needsInput) d

/-- Mode SLEN2, continuing with STORED (R289). -/
def DU.stepSlen2 (d : DU) (m : Memory) : Run DU Bool :=
  needBits (d.tryGet m 16) fun v d =>
    if v ≠ d.ulen.toNat ^^^ 0xFFFF then .raise .storedLength d else (d.go .stored).stepStored m

/-- Mode SLEN1, continuing with SLEN2 (R289). -/
def DU.stepSlen1 (d : DU) (m : Memory) : Run DU Bool :=
  needBits (d.tryGet m 16) fun v d => DU.stepSlen2 { d with ulen := BitVec.ofNat 16 v, mode := .slen2 } m

/-- Extra bits added to a field, if any are needed (R294, R296). -/
def DU.withExtra (d : DU) (m : Memory) (f : Nat → DU → Run DU Bool) : Run DU Bool :=
  if 0 < d.needed then needBits (d.tryGet m d.needed) f else f 0 d

/-- A literal/length symbol above 256, with its mode HUF_LB (R293). -/
def DU.takeLength (d : DU) (s : Nat) : DU := { d with rlen := baseL s, needed := extraL s, mode := .hufLb }

/-- A distance symbol, with its mode HUF_DB (R295). -/
def DU.takeDist (d : DU) (s : Nat) : DU := { d with rdist := baseD s, needed := extraD s, mode := .hufDb }

/-- The symbol loop of modes HUF, HUF_LB, HUF_D and HUF_DB (R293 to R296), one step of the group at a pass. Free() changes only where a
byte is put, so its test before each step is the loop's test. The fuel is more than the passes that the available bits allow. -/
def DU.hufLoop (m : Memory) : Nat → DU → Run DU Bool
  | 0, _ => .stuck
  | fuel + 1, d =>
    if d.free < 258 then .done true d
    else
      match d.mode with
      | .huf => d.decodeThen m d.ltab.litLens fun s d =>
          if s < 256 then DU.hufLoop m fuel (d.wput s)
          else if s = 256 then .done true (d.go .blocks)
          else if 285 < s then .raise .lengthCode d
          else DU.hufLoop m fuel (d.takeLength s)
      | .hufLb => d.withExtra m fun v d => DU.hufLoop m fuel { d with rlen := d.rlen + v, mode := .hufD }
      | .hufD => d.decodeThen m d.dtab.distLens fun s d =>
          if 29 < s then .raise .distanceCode d else DU.hufLoop m fuel (d.takeDist s)
      | .hufDb => d.withExtra m fun v d =>
          let d := { d with rdist := d.rdist + v }
          if d.hist < d.rdist then .raise .distanceTooFar d
          else DU.hufLoop m fuel ((DU.replay d.rdist d.rlen d).go .huf)
      | .header | .dict | .blocks | .slen1 | .slen2 | .stored | .dyn | .chk | .fin => .done true d

/-- The symbol loop with its bound. -/
def DU.stepHuf (d : DU) (m : Memory) : Run DU Bool := DU.hufLoop m (4 * d.avail + 8) d

/-- The codes of a complete dynamic header taken into use (R292). -/
def DU.takeCodes (d : DU) : DU :=
  { d with ltab := .lens d.dh.litLens, dtab := .lens d.dh.distLens, mode := .huf }

/-- Mode DYN, continuing with HUF (R292). -/
def DU.stepDyn (d : DU) (m : Memory) : Run DU Bool :=
  (d.dhStep m).bind fun complete d => if complete then d.takeCodes.stepHuf m else .done false d

/-- Mode CHK (R297). -/
def DU.stepChk (d : DU) (m : Memory) : Run DU Bool :=
  (DU.readAdlerField m d.needed d).bind fun complete d =>
    if !complete then .done false d
    else if d.adler ≠ d.readAdler then .raise .checksum d
    else .done false (d.go .fin)

/-- Step() (R283). -/
def DU.step (d : DU) (m : Memory) : Run DU Bool :=
  match d.mode with
  | .header => d.stepHeader m
  | .dict => d.stepDict m
  | .blocks => if d.last then d.stepLast else d.stepBlock m
  | .slen1 => d.stepSlen1 m
  | .slen2 => d.stepSlen2 m
  | .stored => d.stepStored m
  | .dyn => d.stepDyn m
  | .huf => d.stepHuf m
  | .hufLb => d.stepHuf m
  | .hufD => d.stepHuf m
  | .hufDb => d.stepHuf m
  | .chk => d.stepChk m
  | .fin => .done false d

end Sys2Proof.Machine
end

