-- ==== Sys2Proof/Machine/Huffman.lean ====
section
/-! DEFINITION. The HuffmanEncoder (42_huffman_encoder.md): the token buffer, the construction of length-limited canonical codes,
the choice of a block's encoding by cost, and the emission of blocks. -/

namespace Sys2Proof.Machine

/-! ## Token buffer (R201 to R203) -/

/-- Element i of C_TOK_D or C_TOK_L, arrays of 16384 elements. -/
def Tbl.tok (t : Tbl) (i : Nat) : Nat := t.get 14 i

/-- One more occurrence of a symbol. -/
def HuffTree.count (t : HuffTree) (s : Nat) : HuffTree := { t with freq := t.freq.set s (t.freq.getD s 0 + 1) }

/-- Frequencies cleared, for a new block (R201). -/
def HuffTree.clear (t : HuffTree) : HuffTree := { t with freq := t.freq.map fun _ => 0 }

/-- HuffReset() (R201). -/
def CU.huffReset (c : CU) : CU :=
  { c with tokN := 0, extra := 0, lit := c.lit.clear, dist := c.dist.clear, bl := c.bl.clear }

/-- A token appended to the two arrays (R202). -/
def CU.pushToken (c : CU) (d l : Nat) : CU :=
  { c with tokD := c.tokD.set 14 c.tokN d, tokL := c.tokL.set 14 c.tokN l, tokN := c.tokN + 1 }

/-- TallyLit(b) (R202). -/
def CU.tallyLit (c : CU) (b : Nat) : CU :=
  let c := c.pushToken 0 b
  { c with lit := c.lit.count b }

/-- TallyDist(d, l) (R202). -/
def CU.tallyDist (c : CU) (d l : Nat) : CU :=
  let c := c.pushToken d (l - 3)
  { c with
    lit := c.lit.count (lcode l)
    dist := c.dist.count (dcode d)
    extra := c.extra + extraL (lcode l) + extraD (dcode d) }

/-- TokensFull() (R203). -/
def CU.tokensFull (c : CU) : Bool := TOKEN_CAP ≤ c.tokN

/-! ## Tree construction (R204 to R206) -/

/-- The symbols in use, ascending (R204). -/
def usedSymbols (freq : List Nat) : List Nat := (freq.zipIdx.filter fun p => 0 < p.1).map Prod.snd

/-- maxcode + 1: one more than the largest symbol in use, or 0 (R204). -/
def topOf (leaves : List Nat) : Nat := leaves.foldl (fun m s => max m (s + 1)) 0

/-- Leaves forced until there are two; `top` is maxcode + 1 (R204). The fuel 2 is the most that can be missing. -/
def forceLeaves : Nat → List Nat → Nat → List Nat × Nat
  | 0, leaves, top => (leaves, top)
  | n + 1, leaves, top =>
    if 2 ≤ leaves.length then (leaves, top)
    else if top < 3 then forceLeaves n (leaves ++ [top]) (top + 1)
    else forceLeaves n (leaves ++ [0]) top

/-- A node's subtree (R205). -/
inductive HTree where
  | leaf (s : Nat)
  | node (a b : HTree)
  deriving DecidableEq, Repr

/-- A node of the pool: its key (weight, height, serial) and its subtree (R205). -/
structure HNode where
  weight : Nat
  height : Nat
  serial : Nat
  tree : HTree
  deriving DecidableEq, Repr

/-- The order of keys, lexicographic (R205). -/
def HNode.before (a b : HNode) : Bool :=
  a.weight < b.weight ||
    (a.weight == b.weight && (a.height < b.height || (a.height == b.height && a.serial < b.serial)))

/-- A node put into a pool kept in key order, least first. -/
def insertNode (x : HNode) : List HNode → List HNode
  | [] => [x]
  | y :: ys => if x.before y then x :: y :: ys else y :: insertNode x ys

/-- The two nodes of least key merged until one is left (R205). The fuel is the size of the pool. -/
def mergePool : Nat → Nat → List HNode → List HNode
  | n + 1, next, a :: b :: rest =>
    mergePool n (next + 1)
      (insertNode
        { weight := a.weight + b.weight, height := max a.height b.height + 1, serial := next, tree := .node a.tree b.tree } rest)
  | _, _, pool => pool

/-- The leaves of a tree with their depths (R205). -/
def HTree.depths : HTree → Nat → List (Nat × Nat)
  | .leaf s, d => [(s, d)]
  | .node a b, d => a.depths (d + 1) ++ b.depths (d + 1)

/-- depth(s) of every leaf s (R205). -/
def leafDepths (n : Nat) (freq leaves : List Nat) : List (Nat × Nat) :=
  let pool := leaves.foldl
    (fun p s => insertNode { weight := freq.getD s 0, height := 0, serial := s, tree := .leaf s } p) []
  match mergePool pool.length n pool with
  | root :: _ => root.tree.depths 0
  | [] => []

/-- cnt[k] (R206). -/
def cntAt (cnt : List Nat) (k : Nat) : Nat := cnt.getD k 0

/-- The largest j ≤ k with cnt[j] > 0, or 0 (R206). -/
def donorFrom (cnt : List Nat) : Nat → Nat
  | 0 => 0
  | k + 1 => if cntAt cnt (k + 1) = 0 then donorFrom cnt k else k + 1

/-- One adjustment at depth i (R206). -/
def repairOnce (cnt : List Nat) (i : Nat) : List Nat :=
  let j := donorFrom cnt (i - 2)
  let cnt := cnt.set i (cntAt cnt i - 2)
  let cnt := cnt.set (i - 1) (cntAt cnt (i - 1) + 1)
  let cnt := cnt.set (j + 1) (cntAt cnt (j + 1) + 2)
  cnt.set j (cntAt cnt j - 1)

/-- Adjustments at depth i while leaves are left there; the fuel is cnt[i] (R206). -/
def repairDepth : Nat → List Nat → Nat → List Nat
  | 0, cnt, _ => cnt
  | n + 1, cnt, i => if cntAt cnt i = 0 then cnt else repairDepth n (repairOnce cnt i) i

/-- Depths i = limit + k down to limit + 1 repaired (R206). -/
def repairFrom (limit : Nat) : Nat → List Nat → List Nat
  | 0, cnt => cnt
  | k + 1, cnt => repairFrom limit k (repairDepth (cntAt cnt (limit + k + 1)) cnt (limit + k + 1))

/-- A leaf put into an order by (frequency, symbol) ascending (R206). -/
def insertByFreq (freq : List Nat) (s : Nat) : List Nat → List Nat
  | [] => [s]
  | t :: ts =>
    if freq.getD s 0 < freq.getD t 0 || (freq.getD s 0 == freq.getD t 0 && s < t) then s :: t :: ts
    else t :: insertByFreq freq s ts

/-- The lengths to give out: cnt[L] times L, then cnt[L − 1] times L − 1, down to cnt[1] times 1 (R206). -/
def lengthsGiven (cnt : List Nat) : Nat → List Nat
  | 0 => []
  | l + 1 => List.replicate (cntAt cnt (l + 1)) (l + 1) ++ lengthsGiven cnt l

/-- The lengths of the leaves after the repair of depths over the limit (R206). -/
def repairedLengths (limit : Nat) (freq : List Nat) (depths : List (Nat × Nat)) (maxd : Nat) : List (Nat × Nat) :=
  let cnt := (List.range (maxd + 1)).map fun b => if b = 0 then 0 else (depths.map Prod.snd).count b
  let cnt := repairFrom limit (maxd - limit) cnt
  let order := (depths.map Prod.fst).foldl (fun o s => insertByFreq freq s o) []
  order.zip (lengthsGiven cnt limit)

/-- The lengths of the leaves, limited to `limit` (R206). -/
def limitedLengths (limit : Nat) (freq : List Nat) (depths : List (Nat × Nat)) : List (Nat × Nat) :=
  let maxd := depths.foldl (fun m p => max m p.2) 0
  if maxd ≤ limit then depths else repairedLengths limit freq depths maxd

/-- T.LEN of n symbols from the leaves' lengths; a symbol that is no leaf has length 0 (R206). -/
def lengthVector (n : Nat) (lengths : List (Nat × Nat)) : List Nat :=
  lengths.foldl (fun v p => v.set p.1 p.2) (List.replicate n 0)

/-- What the construction must give: at least two coded symbols, no length over the limit, Kraft sum exactly 1 (R206, R215). -/
def validLengths (limit : Nat) (lens : List Nat) : Bool :=
  lens.all (fun l => l ≤ limit) && 2 ≤ (lens.filter fun l => 0 < l).length && kraft lens == 2 ^ 15

/-- BuildTree(T) for a tree of n symbols, at least `min` lengths sent, no length over `limit` (R204 to R206): T.LEN and T.NUM.
DESIGN CHOICE (log 9): the block checks the tree it built, as 60_exceptions.md R366 lets an implementation do, and none stands
for the failing check, HEAP_INVARIANT; safe. -/
def HuffTree.build (t : HuffTree) (n min limit : Nat) : Option HuffTree :=
  let forced := forceLeaves 2 (usedSymbols t.freq) (topOf (usedSymbols t.freq))
  let lens := lengthVector n (limitedLengths limit t.freq (leafDepths n t.freq forced.1))
  if validLengths limit lens then some { t with len := lens, num := max forced.2 min } else none

/-! ## Code lengths sent (R207, R208) -/

/-- A code-length symbol with its extra value and extra bits (R207). -/
structure RleItem where
  sym : Nat
  xval : Nat
  xbits : Nat
  deriving DecidableEq, Repr

/-- The run of `cur` at the front of a list, counted from `count` until `maxc` is reached: the count and what is left (R207). -/
def takeRun (cur maxc : Nat) : Nat → List Nat → Nat × List Nat
  | count, [] => (count, [])
  | count, l :: ls =>
    if l = cur then if maxc ≤ count + 1 then (count + 1, ls) else takeRun cur maxc (count + 1) ls
    else (count, l :: ls)

/-- What a run of `count` times `cur` is sent as; minc is 3 (R207). -/
def runItems (cur count : Nat) : List RleItem :=
  if count < 3 then List.replicate count ⟨cur, 0, 0⟩
  else if cur ≠ 0 then [⟨16, count - 3, 2⟩]
  else if count ≤ 10 then [⟨17, count - 3, 3⟩]
  else [⟨18, count - 11, 7⟩]

/-- RLE of what is left, `last` being the length before it (none stands for the −1 of the start); the fuel is the number of lengths
left (R207). -/
def rleFrom : Nat → Option Nat → List Nat → List RleItem
  | n + 1, last, l :: ls =>
    let fresh := l ≠ 0 && last ≠ some l
    let run := takeRun l (if l = 0 then 138 else 6) (if fresh then 0 else 1) ls
    (if fresh then [⟨l, 0, 0⟩] else []) ++ runItems l run.1 ++ rleFrom n (some l) run.2
  | _, _, _ => []

/-- RLE(lens) (R207). -/
def rle (lens : List Nat) : List RleItem := rleFrom lens.length none lens

/-- BLCount() looks down from index i (R208). -/
def blCountFrom (lens : List Nat) : Nat → Nat
  | 0 => 4
  | i + 1 => if i + 1 < 4 then 4 else if 0 < lens.getD (blOrder.getD (i + 1) 0) 0 then i + 2 else blCountFrom lens i

/-- BLCount() (R208). -/
def blcodes (lens : List Nat) : Nat := blCountFrom lens 18

/-! ## Codes (R209) -/

/-- The bit-reversed codes of a vector of code lengths (R209). -/
def reversedCodes (lens : List Nat) : List Nat :=
  (lens.zip (canon lens)).map fun p => if p.1 = 0 then 0 else bitrev p.1 p.2

/-- BuildCodes(T) (R209). -/
def HuffTree.buildCodes (t : HuffTree) : HuffTree := { t with code := reversedCodes t.len }

/-- SetFixed() (R209). -/
def CU.setFixed (c : CU) : CU :=
  { c with
    lit := { c.lit with len := fixedL.take LIT_NUM, code := (reversedCodes fixedL).take LIT_NUM }
    dist := { c.dist with len := fixedD.take DIST_NUM, code := (reversedCodes fixedD).take DIST_NUM } }

/-! ## Emission (R211 to R213) -/

/-- A symbol's code as a field. -/
def HuffTree.codeField (t : HuffTree) (s : Nat) : Nat × Nat := (t.code.getD s 0, t.len.getD s 0)

/-- A field of extra bits, if there are any. -/
def extraField (v n : Nat) : List (Nat × Nat) := if 0 < n then [(v, n)] else []

/-- The fields of one token (R211). -/
def CU.tokenFields (c : CU) (t : Nat) : List (Nat × Nat) :=
  let d := c.tokD.tok t
  let v := c.tokL.tok t
  if d = 0 then [c.lit.codeField v]
  else
    let l := v + 3
    [c.lit.codeField (lcode l)] ++ extraField (l - baseL (lcode l)) (extraL (lcode l)) ++
      [c.dist.codeField (dcode d)] ++ extraField (d - baseD (dcode d)) (extraD (dcode d))

/-- Fields appended to the pending output. -/
def CU.writeFields (c : CU) (fields : List (Nat × Nat)) : CU := { c with out := c.out.writeFields fields }

/-- CompressBlock() (R211). -/
def CU.compressBlock (c : CU) : CU :=
  c.writeFields ((List.range c.tokN).flatMap c.tokenFields ++ [c.lit.codeField 256])

/-- EmitStored(data, last) (R212). -/
def CU.emitStored (c : CU) (data : List Byte) (last : Bool) : Run CU Unit :=
  let n := data.length
  (c.withOut
    ((((c.out.writeBits last.toNat 3).alignToByte.writeShort n).bind fun _ o => o.writeShort (n ^^^ 0xFFFF)).bind
      fun _ o => o.writeBlock data)).bind
    fun _ c => .done () c.huffReset

/-- EmitDynamicHeader(R, blcodes) (R213). -/
def CU.emitDynamicHeader (c : CU) (items : List RleItem) (blcodes : Nat) : CU :=
  c.writeFields
    ([(c.lit.num - 257, 5), (c.dist.num - 1, 5), (blcodes - 4, 4)] ++
      (blOrder.take blcodes).map (fun s => (c.bl.len.getD s 0, 3)) ++
      items.flatMap fun r => c.bl.codeField r.sym :: extraField r.xval r.xbits)

/-! ## Block flush (R210) -/

/-- Σ FREQ[s]·LEN[s] (R210). -/
def costOf (freq lens : List Nat) : Nat := ((freq.zip lens).map fun p => p.1 * p.2).sum

/-- statBits (R210). -/
def CU.statBits (c : CU) : Nat := c.extra + costOf c.lit.freq (fixedL.take LIT_NUM) + costOf c.dist.freq (fixedD.take DIST_NUM)

/-- dynBits (R210). -/
def CU.dynBits (c : CU) (items : List RleItem) (blcodes : Nat) : Nat :=
  14 + 3 * blcodes + (items.map fun r => c.bl.len.getD r.sym 0 + r.xbits).sum +
    costOf c.lit.freq c.lit.len + costOf c.dist.freq c.dist.len + c.extra

/-- Byte p of C_WIN, an array of 65536 elements. -/
def CU.winAt (c : CU) (p : Nat) : Nat := c.win.get 16 p

/-- C_WIN[start .. start + n − 1]. -/
def CU.winBytes (c : CU) (start n : Nat) : List Byte := (List.range n).map fun k => BitVec.ofNat 8 (c.winAt (start + k))

/-- The three trees built, each only after the one before, and the run-length coded lengths: the first half of FlushBlock (R210).
A tree that fails its check ends the command with HEAP_INVARIANT (60_exceptions.md R366). -/
def CU.buildTrees (c : CU) : Run CU (List RleItem) :=
  let c := { c with lit := c.lit.count 256 }
  match c.lit.build LIT_NUM 257 MAX_BITS with
  | none => .raise .heapInvariant c
  | some lit =>
    let c := { c with lit := lit }
    match c.dist.build DIST_NUM 1 MAX_BITS with
    | none => .raise .heapInvariant c
    | some dist =>
      let c := { c with dist := dist }
      let items := rle (c.lit.len.take c.lit.num) ++ rle (c.dist.len.take c.dist.num)
      let c := { c with bl := items.foldl (fun t r => t.count r.sym) c.bl }
      match c.bl.build BL_NUM 4 MAX_BL_BITS with
      | none => .raise .heapInvariant c
      | some bl => .done items { c with bl := bl }

/-- The choice of the encoding by cost, and its emission: the second half of FlushBlock (R210). -/
def CU.emitBlock (start : Int) (length : Nat) (last : Bool) (items : List RleItem) (c : CU) : Run CU Unit :=
  let n := blcodes c.bl.len
  let dyn := c.dynBits items n
  let stat := c.statBits
  let opt := if stat ≤ dyn then stat else dyn
  if 0 ≤ start ∧ length ≤ 65535 ∧ length + 4 < opt / 8 then c.emitStored (c.winBytes start.toNat length) last
  else if opt = stat then .done () (c.writeFields [(2 + last.toNat, 3)]).setFixed.compressBlock.huffReset
  else
    let c := c.writeFields [(4 + last.toNat, 3)]
    let c := { c with bl := c.bl.buildCodes, lit := c.lit.buildCodes, dist := c.dist.buildCodes }
    .done () (c.emitDynamicHeader items n).compressBlock.huffReset

/-- FlushBlock(start, length, last) (R210). -/
def CU.flushBlock (c : CU) (start : Int) (length : Nat) (last : Bool) : Run CU Unit :=
  c.buildTrees.bind fun items c => c.emitBlock start length last items

end Sys2Proof.Machine
end

