-- ==== Sys2Proof/Machine/MatchEngine.lean ====
section
/-! DEFINITION. The MatchEngine (41_match_engine.md): the window, the hash chains, the match search, the stored, greedy and lazy
algorithms, and their driver. -/

namespace Sys2Proof.Machine

/-! ## Window management (R160 to R162) -/

/-- EngineReset() (R160). -/
def CU.engineReset (c : CU) : CU :=
  { c with
    adler := 1, totalIn := 0
    strstart := 1, blockStart := 1, lookahead := 0
    matchStart := 0, matchLen := MIN_MATCH - 1, prevAvail := false
    head := .nil, prev := .nil
    inPtr := 0, inEnd := 0 }.huffReset

/-- Slide() (R162). C_MATCH_START and C_BLOCK_START fall by WSIZE at every slide, below the least value that 10_state.md R32 gives them
where a block is slid more than once: R162's subtraction is followed. DEDUCED (log 13); unsafe. Below 32768, where no caller slides, C_STRSTART
becomes 0: DESIGN CHOICE (log 14); safe. -/
def CU.slide (c : CU) : CU :=
  { c with
    win := c.win.copyUpper
    matchStart := c.matchStart - WSIZE
    strstart := c.strstart - WSIZE
    blockStart := c.blockStart - WSIZE
    head := c.head.rebase WSIZE
    prev := c.prev.rebase WSIZE }

/-- How many bound bytes Fill moves into the window (R161). -/
def CU.fillCount (c : CU) : Nat := min (CWIN - c.lookahead - c.strstart) (c.inEnd - c.inPtr)

/-- The move of bound bytes into the window (R161). -/
def CU.take (c : CU) (m : Memory) : CU :=
  let more := c.fillCount
  let bytes := m.readBytes c.inPtr more
  { c with
    win := c.win.setList 16 (c.strstart + c.lookahead) (bytes.map BitVec.toNat)
    adler := adler32 bytes c.adler
    inPtr := c.inPtr + more
    totalIn := c.totalIn + BitVec.ofNat 64 more
    lookahead := c.lookahead + more }

/-- The slide that Fill makes first (R161). -/
def CU.slideIfFull (c : CU) : CU := if WSIZE + MAX_DIST ≤ c.strstart then c.slide else c

/-- Fill() (R161). -/
def CU.fill (c : CU) (m : Memory) : CU :=
  let c := c.slideIfFull
  if c.lookahead < MIN_LOOKAHEAD && c.inPtr < c.inEnd then c.take m else c

/-! ## Hashing (R163, R164) -/

/-- Hash(p) (R163). -/
def CU.hash (c : CU) (p : Nat) : Nat :=
  ((c.winAt p <<< 10) ^^^ (c.winAt (p + 1) <<< 5) ^^^ c.winAt (p + 2)) &&& 0x7FFF

/-- C_HEAD[h] at the current position's hash: what Insert returns (R164). -/
def CU.headHere (c : CU) : Nat := c.head.get 15 (c.hash c.strstart)

/-- Insert(): the effect on the chains (R164). -/
def CU.insert (c : CU) : CU :=
  { c with
    prev := c.prev.set 15 (c.strstart &&& WMASK) c.headHere
    head := c.head.set 15 (c.hash c.strstart) c.strstart }

/-- repeat n times: Insert(), then C_STRSTART + 1 (R165). -/
def CU.insertRun : Nat → CU → CU
  | 0, c => c
  | n + 1, c => CU.insertRun n { c.insert with strstart := c.strstart + 1 }

/-- EngineSetDict(D), less the checksum (R165). DEDUCED (log 10): R242 and R165 both write the update of C_ADLER over D, and their
examples show it made once; it stands in C.SET_DICT; unsafe. -/
def CU.engineSetDict (c : CU) (dict : List Byte) : CU :=
  if dict.length < MIN_MATCH then c
  else
    let d := dict.drop (dict.length - MAX_DIST)
    let c := { c with win := c.win.setList 16 c.strstart (d.map BitVec.toNat) }
    let c := CU.insertRun (d.length - 2) c
    { c with strstart := c.strstart + 2, blockStart := (c.strstart + 2 : Nat) }

/-! ## Match search (R166) -/

/-- The number of equal bytes from positions a and b on, up to a cap (R166). -/
def matchLength (win : Tbl) (a b : Nat) : Nat → Nat
  | 0 => 0
  | cap + 1 => if win.get 16 a = win.get 16 b then matchLength win (a + 1) (b + 1) cap + 1 else 0

/-- The loop of LongestMatch from candidate cur, with `chain` candidates left to examine (R166). -/
def CU.searchChain (s cap limit nice : Nat) : Nat → Nat → CU → CU
  | 0, _, c => c
  | chain + 1, cur, c =>
    let l := matchLength c.win cur s cap
    let c' := if c.matchLen < l then { c with matchStart := cur, matchLen := l } else c
    let cur' := c.prev.get 15 (cur &&& WMASK)
    if c.matchLen < l && nice ≤ l then c'
    else if cur' ≤ limit then c'
    else CU.searchChain s cap limit nice chain cur' c'

/-- LongestMatch(cur): whether a match is held afterwards, and the match registers (R166). -/
def CU.longestMatch (c : CU) (cur : Nat) : Bool × CU :=
  let row := levelRow c.level
  let s := c.strstart
  let cap := min MAX_MATCH c.lookahead
  let c := { c with matchLen := max c.matchLen (MIN_MATCH - 1) }
  if cap ≤ c.matchLen then (false, c)
  else
    let chain := if row.good ≤ c.matchLen then row.chain / 2 else row.chain
    let c := CU.searchChain s cap (s - MAX_DIST) (min row.nice c.lookahead) chain cur c
    (MIN_MATCH ≤ c.matchLen, c)

/-! ## The three algorithms (R167 to R169) -/

/-- C_STRSTART − C_BLOCK_START, the length of the current block. -/
def CU.blockLength (c : CU) : Nat := (c.strstart - c.blockStart).toNat

/-- DeflateStored(flush, finish) (R167). C_BLOCK_START may end at 65536, one above R32's range: DEDUCED (log 13); unsafe. -/
def CU.deflateStored (flush finish : Bool) (c : CU) : Run CU Bool :=
  if !flush && c.lookahead == 0 then .done false c
  else
    let c := { c with strstart := c.strstart + c.lookahead, lookahead := 0 }
    let n := c.blockLength
    if MAX_STORED ≤ n ∨ (c.blockStart < (WSIZE : Int) ∧ MAX_DIST ≤ n) ∨ flush then
      let last := finish && flush && n ≤ MAX_STORED
      let n := min n MAX_STORED
      (c.emitStored (c.winBytes c.blockStart.toNat n) last).bind fun _ c =>
        .done (!(last || n == 0)) { c with blockStart := c.blockStart + n }
    else .done true c

/-- The search of the greedy algorithm: Insert and LongestMatch, where the conditions of R168 hold. -/
def CU.fastSearch (c : CU) : Bool × CU :=
  if MIN_MATCH ≤ c.lookahead then
    let hh := c.headHere
    let c := c.insert
    if hh ≠ 0 ∧ c.strategy ≠ .huffmanOnly ∧ c.strstart - hh ≤ MAX_DIST then c.longestMatch hh else (false, c)
  else (false, c)

/-- repeat n times: C_STRSTART + 1, then Insert() (R168). -/
def CU.insertAhead : Nat → CU → CU
  | 0, c => c
  | n + 1, c => CU.insertAhead n { c with strstart := c.strstart + 1 }.insert

/-- A match emitted by the greedy algorithm (R168). -/
def CU.fastMatch (c : CU) : CU :=
  let c := c.tallyDist (c.strstart - c.matchStart).toNat c.matchLen
  let c := { c with lookahead := c.lookahead - c.matchLen }
  let c :=
    if c.matchLen ≤ (levelRow c.level).lazyLen ∧ MIN_MATCH ≤ c.lookahead then
      let c := CU.insertAhead (c.matchLen - 1) c
      { c with strstart := c.strstart + 1 }
    else { c with strstart := c.strstart + c.matchLen }
  { c with matchLen := MIN_MATCH - 1 }

/-- A literal emitted by the greedy algorithm (R168). -/
def CU.fastLiteral (c : CU) : CU :=
  let c := c.tallyLit (c.winAt c.strstart)
  { c with strstart := c.strstart + 1, lookahead := c.lookahead - 1 }

/-- One pass of the greedy loop between its tests: the slide, the search and one token (R168). -/
def CU.fastToken (c : CU) : CU :=
  let c := if CWIN - MIN_LOOKAHEAD < c.strstart then c.slide else c
  let r := c.fastSearch
  if r.1 then r.2.fastMatch else r.2.fastLiteral

/-- The loop of DeflateFast (R168); the fuel is more than the lookahead, of which each pass consumes at least one byte. -/
def CU.fastLoop (flush finish : Bool) : Nat → CU → Run CU Bool
  | 0, _ => .stuck
  | fuel + 1, c =>
    if c.lookahead < MIN_LOOKAHEAD && !flush then .done true c
    else if c.lookahead = 0 then
      (c.flushBlock c.blockStart c.blockLength finish).bind fun _ c => .done false { c with blockStart := c.strstart }
    else
      let c := c.fastToken
      if c.tokensFull then
        let last := finish && flush && c.lookahead == 0
        (c.flushBlock c.blockStart c.blockLength last).bind fun _ c => .done (!last) { c with blockStart := c.strstart }
      else CU.fastLoop flush finish fuel c

/-- DeflateFast(flush, finish) (R168). -/
def CU.deflateFast (flush finish : Bool) (c : CU) : Run CU Bool :=
  if c.lookahead < MIN_LOOKAHEAD && !flush then .done false c
  else CU.fastLoop flush finish (c.lookahead + 1) c

/-- The filter of the lazy algorithm: a short match, or a least match too far away, is discarded (R169, 90_conflicts.md C2). -/
def CU.slowFilter (c : CU) : CU :=
  if c.matchLen ≤ 5 ∧ (c.strategy = .filtered ∨ (c.matchLen = MIN_MATCH ∧ (TOO_FAR : Int) < c.strstart - c.matchStart)) then
    { c with matchLen := MIN_MATCH - 1 }
  else c

/-- The search of the lazy algorithm, with the filter (R169). -/
def CU.slowSearch (c : CU) : CU :=
  if MIN_MATCH ≤ c.lookahead then
    let prevLen := c.matchLen
    let hh := c.headHere
    let c := c.insert
    if c.strategy ≠ .huffmanOnly ∧ hh ≠ 0 ∧ prevLen < (levelRow c.level).lazyLen ∧ c.strstart - hh ≤ MAX_DIST then
      let r := c.longestMatch hh
      if r.1 then r.2.slowFilter else r.2
    else c
  else c

/-- One position passed over inside an emitted match (R169). -/
def CU.slowSkip (c : CU) : CU :=
  let c := { c with strstart := c.strstart + 1, lookahead := c.lookahead - 1 }
  if MIN_MATCH ≤ c.lookahead then c.insert else c

/-- n positions passed over (R169). -/
def CU.slowSkips : Nat → CU → CU
  | 0, c => c
  | n + 1, c => CU.slowSkips n c.slowSkip

/-- The held match emitted: the loop of R169 passes over prevLen − 2 positions, at least one, and then one more without Insert. -/
def CU.slowMatch (prevMatch : Int) (prevLen : Nat) (c : CU) : CU :=
  let c := c.tallyDist (c.strstart - 1 - prevMatch).toNat prevLen
  let c := CU.slowSkips (max 1 (prevLen - 2)) c
  { c with
    strstart := c.strstart + 1, lookahead := c.lookahead - 1
    prevAvail := false, matchLen := MIN_MATCH - 1 }

/-- The literal still owed, if any, emitted (R169). -/
def CU.owedLiteral (c : CU) : CU := if c.prevAvail then c.tallyLit (c.winAt (c.strstart - 1)) else c

/-- One pass of the lazy loop between its tests (R169). -/
def CU.slowToken (c : CU) : CU :=
  let c := if CWIN - MIN_LOOKAHEAD ≤ c.strstart then c.slide else c
  let prevMatch := c.matchStart
  let prevLen := c.matchLen
  let c := c.slowSearch
  if MIN_MATCH ≤ prevLen ∧ c.matchLen ≤ prevLen then c.slowMatch prevMatch prevLen
  else
    let c := c.owedLiteral
    { c with prevAvail := true, strstart := c.strstart + 1, lookahead := c.lookahead - 1 }

/-- The loop of DeflateSlow (R169); the fuel is more than the lookahead, of which each pass consumes at least one byte. -/
def CU.slowLoop (flush finish : Bool) : Nat → CU → Run CU Bool
  | 0, _ => .stuck
  | fuel + 1, c =>
    if c.lookahead < MIN_LOOKAHEAD && !flush then .done true c
    else if c.lookahead = 0 then
      let c := { c.owedLiteral with prevAvail := false }
      (c.flushBlock c.blockStart c.blockLength finish).bind fun _ c => .done false { c with blockStart := c.strstart }
    else
      let c := c.slowToken
      if c.tokensFull then
        let n := if c.prevAvail then c.blockLength - 1 else c.blockLength
        let last := finish && flush && c.lookahead == 0 && !c.prevAvail
        (c.flushBlock c.blockStart n last).bind fun _ c => .done (!last) { c with blockStart := c.blockStart + n }
      else CU.slowLoop flush finish fuel c

/-- DeflateSlow(flush, finish) (R169). -/
def CU.deflateSlow (flush finish : Bool) (c : CU) : Run CU Bool :=
  if c.lookahead < MIN_LOOKAHEAD && !flush then .done false c
  else CU.slowLoop flush finish (c.lookahead + 1) c

/-! ## Driver (R170, R171) -/

/-- FUNC: the algorithm of the level (R170, 00_scope.md R10). -/
def CU.deflateFunc (flush finish : Bool) (c : CU) : Run CU Bool :=
  match (levelRow c.level).func with
  | .stored => c.deflateStored flush finish
  | .fast => c.deflateFast flush finish
  | .slow => c.deflateSlow flush finish

/-- EngineNeedsInput() (R171). -/
def CU.needsInput (c : CU) : Bool := c.inPtr == c.inEnd

/-- The loop of EngineDeflate (R170). -/
def CU.engineLoop (m : Memory) (flush finish : Bool) : Nat → CU → Run CU Bool
  | 0, _ => .stuck
  | fuel + 1, c =>
    let c := c.fill m
    (c.deflateFunc (flush && c.needsInput) finish).bind fun progress c =>
      if c.out.isFlushed && progress then CU.engineLoop m flush finish fuel c else .done progress c

/-- The bytes the engine can still consume: each pass that the driver repeats consumes at least one. -/
def CU.unconsumed (c : CU) : Nat := c.lookahead + (c.inEnd - c.inPtr)

/-- EngineDeflate(flush, finish) (R170). -/
def CU.engineDeflate (m : Memory) (flush finish : Bool) (c : CU) : Run CU Bool :=
  CU.engineLoop m flush finish (c.unconsumed + 1) c

end Sys2Proof.Machine
end

