-- ==== Sys2Proof/Machine/Operands.lean ====
section
/-! DEFINITION. The operands of commands: the buffer (ARG_ADDR, ARG_LEN), its range check and the overlap of an output buffer
with a binding; and the port registers that the host writes. -/

namespace Sys2Proof.Machine

/-- ARG_LEN as a number. -/
def State.argLen (s : State) : Nat := s.port.argLen.toNat

/-- ARG_ADDR. -/
def State.argAddr (s : State) : Nat := s.port.argAddr

/-- The buffer (ARG_ADDR, ARG_LEN) would wrap the address space (20_memory.md R72). -/
def State.bufferWraps (s : State) : Bool := 2 ^ s.params.aw < s.argAddr + s.argLen

/-- The buffer [a, a + n) meets the binding [p, e) (70_reset_and_hazards.md R398). -/
def buffersMeet (a n p e : Nat) : Bool := 0 < n && p < e && a < e && p < a + n

/-- The bytes of the buffer (ARG_ADDR, ARG_LEN), read now in ascending order (43_compressor.md R242, 44_decompressor.md R282). -/
def State.bufferBytes (s : State) : List Byte := s.mem.readBytes s.argAddr s.argLen

/-- The strategy of a STRATEGY field (30_encoding.md R90); 3 is none (R94). -/
def strategyOf : Nat → Option Strategy
  | 0 => some .default
  | 1 => some .filtered
  | 2 => some .huffmanOnly
  | _ => none

/-- The level of a LEVEL field (30_encoding.md R90): 15 is "default", 10 to 14 are none (R94). -/
def levelOf (l : Nat) : Option (Fin 10) :=
  if h : l < 10 then some ⟨l, h⟩ else if l = 15 then some DEFAULT_LEVEL else none

/-- The offset of a port register from CORE_BASE (10_state.md R22). -/
def PortReg.offset : PortReg → Nat
  | .cmd => 0x00
  | .argAddr => 0x08
  | .argLen => 0x10
  | .result => 0x18
  | .status => 0x20
  | .errcode => 0x28

/-- The host address of a port register where the port is memory-mapped (10_state.md R22, 20_memory.md R75). -/
def PortReg.address (p : Params) (r : PortReg) : Nat := p.coreBase + r.offset

/-- A host write of a port register (10_state.md R22). A value is cut to the register's width (00_scope.md R12); a write of a
read-only register is ignored; a write of CMD issues a command, which the next step runs. -/
def State.writePort (s : State) (r : PortReg) (v : DWord) : State :=
  match r with
  | .cmd => { s with port := { s.port with cmd := some (v.truncate 32) } }
  | .argAddr => { s with port := { s.port with argAddr := v.toNat % 2 ^ s.params.aw } }
  | .argLen => { s with port := { s.port with argLen := v.truncate 32 } }
  | .result => s
  | .status => s
  | .errcode => s

end Sys2Proof.Machine
end

