-- ==== Sys2Proof/Machine/Flags.lean ====
section
/-! DEFINITION. The flags of the block: the conditions that the query commands report and that STATUS gathers (10_state.md R23), the
computed counter D_TOTAL_IN (R45), and the host's reads of the port (R22). -/

namespace Sys2Proof.Machine

/-- C.IS_FINISHED's condition (43_compressor.md R253). -/
def CU.isFinished (c : CU) : Bool := c.phase == .finished && c.out.isFlushed

/-- D.IS_FINISHED's condition (44_decompressor.md R303). -/
def DU.isFinished (d : DU) : Bool := d.mode == .fin && d.filled == 0

/-- D.IS_NEEDING_DICT's condition (44_decompressor.md R305). -/
def DU.needsDict (d : DU) : Bool := d.mode == .dict && d.needed == 0

/-- The value of D.ADLER (44_decompressor.md R300). -/
def DU.adlerValue (d : DU) : Word := if d.needsDict then d.readAdler else d.adler

/-- D_TOTAL_IN (10_state.md R45). -/
def DU.totalIn (d : DU) : DWord := d.bound - BitVec.ofNat 64 (d.avail / 8)

/-- A flag as a RESULT. -/
def flagResult (b : Bool) : DWord := BitVec.ofNat 64 b.toNat

/-- A 32-bit value as a RESULT, zero-extended (43_compressor.md R252). -/
def wordResult (w : Word) : DWord := w.zeroExtend 64

/-- The fields of STATUS, bit 0 first (10_state.md R23). -/
def State.statusBits (s : State) : List Bool :=
  [s.port.lasterr, s.cu.fault.isSome, s.du.fault.isSome, s.cu.isFinished, s.cu.needsInput, s.du.isFinished, s.du.needsInput,
    s.du.needsDict]

/-- A number from its bits, bit 0 first. -/
def ofBits : List Bool → Nat
  | [] => 0
  | b :: bs => b.toNat + 2 * ofBits bs

/-- STATUS (10_state.md R23): bits [31:8] are 0. -/
def State.status (s : State) : Word := BitVec.ofNat 32 (ofBits s.statusBits)

/-- What the host reads from a port register (10_state.md R22): no read changes anything, and CMD reads 0. -/
def State.readPort (s : State) : PortReg → DWord
  | .cmd => 0
  | .argAddr => BitVec.ofNat 64 s.port.argAddr
  | .argLen => s.port.argLen.zeroExtend 64
  | .result => s.port.result
  | .status => s.status.zeroExtend 64
  | .errcode => s.port.errcode.zeroExtend 64

end Sys2Proof.Machine
end

