-- ==== Sys2Proof/Machine/Compressor.lean ====
section
/-! DEFINITION. The compressor commands C.* (43_compressor.md). -/

namespace Sys2Proof.Machine

/-! ## Reset (R248) -/

/-- CUReset() (R248). -/
def CU.reset (c : CU) : CU :=
  { c.clearFault with
    phase := if c.nohdr then .busy else .init
    flushReq := false, finishReq := false, dictSet := false
    totalOut := 0
    out := c.out.preset }.engineReset

/-! ## The stream's frame (R244 to R247) -/

/-- FLEVEL(level) (R245). -/
def flevel (level : Fin 10) : Nat :=
  if level ≤ 1 then 0 else if level ≤ 5 then 1 else if level = 6 then 2 else 3

/-- CMF, with CM = 8 and CINFO = 7 (R244). -/
def cmf : Nat := 0x78

/-- FLG without FCHECK (R244). -/
def flgBase (level : Fin 10) (dict : Bool) : Nat := flevel level * 64 + dict.toNat * 32

/-- FLG with FCHECK, the least value that makes the header a multiple of 31 (R244, R245). -/
def flg (level : Fin 10) (dict : Bool) : Nat :=
  flgBase level dict ||| (31 - (cmf * 256 + flgBase level dict) % 31) % 31

/-- EmitZlibHeader() (R244). -/
def CU.emitZlibHeader (c : CU) : Run CU Unit :=
  (c.withOut ((c.out.writeByte cmf).bind fun _ o => o.writeByte (flg c.level c.dictSet))).bind fun _ c =>
    (if c.dictSet then (c.withOut (c.out.writeAdler c.adler)).bind fun _ c => .done () { c with adler := 1 }
     else .done () c).bind fun _ c => .done () { c with phase := .busy }

/-- The filler groups of 10 bits that `need` bits take (R246). -/
def fillerGroups (need : Nat) : Nat := (need + 9) / 10

/-- EmitFlushFiller() (R246). -/
def CU.emitFlushFiller (c : CU) : CU :=
  let need := 8 + (8 - c.out.bitCount % 8) % 8
  let c := if c.level = 0 then c else c.writeFields (List.replicate (fillerGroups need) (2, 10))
  { c with flushReq := false }

/-- EmitTrailer() (R247). -/
def CU.emitTrailer (c : CU) : Run CU Unit :=
  let c := { c with out := c.out.alignToByte }
  (if c.nohdr then .done () c else c.withOut (c.out.writeAdler c.adler)).bind fun _ c => .done () { c with phase := .finished }

/-! ## The loop of C.DEFLATE (R243) -/

/-- A procedure of a unit, run during a transfer. -/
def Xfer.run {σ α : Type} (x : Xfer σ) (r : Run σ α) : Run (Xfer σ) α := r.within fun u => { x with unit := u }

/-- What C.DEFLATE does where the engine made no progress: whether the loop goes on (R243). -/
def CU.afterNoProgress (c : CU) : Run CU Bool :=
  if !c.flushReq then .done false c
  else if !c.finishReq then .done true c.emitFlushFiller
  else c.emitTrailer.bind fun _ c => .done true c

/-- The loop of C.DEFLATE (R243). Its fuel is more than the passes that the room for output allows (log 8). -/
def deflateLoop : Nat → Xfer CU → Run (Xfer CU) Unit
  | 0, _ => .stuck
  | fuel + 1, x =>
    let x := x.flush
    if x.left = 0 ∨ x.unit.phase = .finished then .done () x
    else
      (x.run (x.unit.engineDeflate x.mem x.unit.flushReq x.unit.finishReq)).bind fun progress x =>
        if progress then deflateLoop fuel x
        else (x.run x.unit.afterNoProgress).bind fun again x => if again then deflateLoop fuel x else .done () x

/-- The zlib header, where the phase calls for it (R243). -/
def CU.startStream (c : CU) : Run CU Unit :=
  if c.phase = .init ∨ c.phase = .setDict then c.emitZlibHeader else .done () c

/-- C.DEFLATE after its checks (R243). -/
def deflateRun (x : Xfer CU) : Run (Xfer CU) Unit :=
  (x.run x.unit.startStream).bind fun _ x => deflateLoop (2 * x.left + 8) x

/-! ## Commands -/

/-- The checks that the CU's buffer commands share (60_exceptions.md R365, steps 2 and 3). -/
def State.cuBufferChecks (s : State) : List (Bool × Err) := [(s.bufferWraps, .rangeAddress), (s.cu.fault.isSome, .aborted)]

/-- The end of a command of the CU: the first failed check as an error response, else the command's effect. -/
def State.guardCU (s : State) (checks : List (Bool × Err)) (effect : Host.Outcome State Fault Refusal) :
    Host.Outcome State Fault Refusal :=
  match firstErr checks with
  | some e => .next (s.raise .cu e 0)
  | none => effect

/-- The end of a command that transfers output from the CU (60_exceptions.md R360, R361). -/
def State.endCU (s : State) : Run (Xfer CU) Unit → Host.Outcome State Fault Refusal
  | .done _ x => .next ({ s with cu := x.unit, mem := x.mem }.succeed (BitVec.ofNat 64 (x.dest - s.argAddr)))
  | .raise e x => .next ({ s with cu := x.unit, mem := x.mem }.raise .cu e (x.dest - s.argAddr))
  | .stuck => .fault .runaway

/-- C.CONFIG (R240; LEVEL and STRATEGY are checked first, 30_encoding.md R94). -/
def execCConfig (level strategy : Nat) (nohdr : Bool) (s : State) : Host.Outcome State Fault Refusal :=
  match levelOf level, strategyOf strategy with
  | none, _ => .next (s.raise .cu .rangeLevel 0)
  | some _, none => .next (s.raise .cu .rangeStrategy 0)
  | some l, some st => .next ({ s with cu := { s.cu with level := l, strategy := st, nohdr := nohdr }.reset }.succeed 0)

/-- C.SET_INPUT (R241). -/
def execCSetInput (s : State) : Host.Outcome State Fault Refusal :=
  s.guardCU
    (s.cuBufferChecks ++ [(s.cu.finishReq, .setInputAfterFinish), (!s.cu.needsInput, .inputPending)])
    (.next ({ s with cu := { s.cu with inPtr := s.argAddr, inEnd := s.argAddr + s.argLen } }.succeed 0))

/-- C.SET_DICT (R242). The checksum runs over the whole buffer, once (log 10). -/
def execCSetDict (s : State) : Host.Outcome State Fault Refusal :=
  s.guardCU (s.cuBufferChecks ++ [(s.cu.phase != .init, .dictNotInit)])
    (.next
      ({ s with
          cu := { { s.cu with adler := adler32 s.bufferBytes s.cu.adler }.engineSetDict s.bufferBytes with
            phase := .setDict, dictSet := true } }.succeed 0))

/-- C.DEFLATE (R243). -/
def execCDeflate (s : State) : Host.Outcome State Fault Refusal :=
  s.guardCU
    (s.cuBufferChecks ++
      [(s.cu.phase == .closed, .closed),
        (buffersMeet s.argAddr s.argLen s.cu.inPtr s.cu.inEnd, .outputOverlapsInput)])
    (s.endCU (deflateRun { unit := s.cu, mem := s.mem, dest := s.argAddr, left := s.argLen }))

/-- C.FLUSH (R250). -/
def execCFlush (s : State) : Host.Outcome State Fault Refusal :=
  s.guardCU [(s.cu.fault.isSome, .aborted)] (.next ({ s with cu := { s.cu with flushReq := true } }.succeed 0))

/-- C.FINISH (R251). -/
def execCFinish (s : State) : Host.Outcome State Fault Refusal :=
  s.guardCU [(s.cu.fault.isSome, .aborted)]
    (.next ({ s with cu := { s.cu with flushReq := true, finishReq := true } }.succeed 0))

/-- C.RESET (R248). -/
def execCReset (s : State) : Host.Outcome State Fault Refusal := .next ({ s with cu := s.cu.reset }.succeed 0)

/-- C.IS_FINISHED (R253). -/
def execCIsFinished (s : State) : Host.Outcome State Fault Refusal := .next (s.succeed (flagResult s.cu.isFinished))

/-- C.IS_NEEDING_INPUT (R254). -/
def execCIsNeedingInput (s : State) : Host.Outcome State Fault Refusal := .next (s.succeed (flagResult s.cu.needsInput))

/-- C.ADLER (R252). -/
def execCAdler (s : State) : Host.Outcome State Fault Refusal := .next (s.succeed (wordResult s.cu.adler))

/-- C.TOTAL_IN (R255). -/
def execCTotalIn (s : State) : Host.Outcome State Fault Refusal := .next (s.succeed s.cu.totalIn)

/-- C.TOTAL_OUT (R256). -/
def execCTotalOut (s : State) : Host.Outcome State Fault Refusal := .next (s.succeed s.cu.totalOut)

end Sys2Proof.Machine
end

