-- ==== Sys2Proof/Machine/Decompressor.lean ====
section
/-! DEFINITION. The decompressor commands D.* (44_decompressor.md). -/

namespace Sys2Proof.Machine

/-! ## Reset (R299) -/

/-- DUReset() (R299). What it does not write keeps its value, which no rule reads before it is written (70_reset_and_hazards.md R396). -/
def DU.reset (d : DU) : DU :=
  { d.clearFault with
    mode := if d.nohdr then .blocks else .header
    last := false, needed := 0, readAdler := 0, adler := 1
    ulen := 0, rlen := 0, rdist := 0, totalOut := 0, bound := 0
    inPtr := 0, inEnd := 0, res := 0, cnt := 0
    wend := 0, filled := 0, hist := 0 }

/-! ## Dictionary (R282) -/

/-- A dictionary taken as history: its last 65536 bytes (R282). -/
def DU.loadDict (d : DU) (bytes : List Byte) : DU :=
  { (bytes.drop (bytes.length - DWIN)).foldl (fun d b => d.putHistory b.toNat) { d with adler := 1 } with mode := .blocks }

/-! ## The loop of D.INFLATE (R284) -/

/-- One decode step during a transfer. -/
def Xfer.step (x : Xfer DU) : Run (Xfer DU) Bool := (x.unit.step x.mem).within fun d => { x with unit := d }

/-- Output is delivered in every mode but CHK (R284). -/
def Xfer.deliver (x : Xfer DU) : Xfer DU := if x.unit.mode = .chk then x else x.copyOut

/-- The loop of D.INFLATE, for room n > 0 (R284). Its fuel is more than the passes that the bits and the room allow (log 8). -/
def inflateLoop : Nat → Xfer DU → Run (Xfer DU) Unit
  | 0, _ => .stuck
  | fuel + 1, x =>
    let y := x.deliver
    if x.unit.mode ≠ .chk ∧ y.left = 0 then .done () y
    else
      y.step.bind fun more x =>
        if more || (0 < x.unit.filled && x.unit.mode != .chk) then inflateLoop fuel x else .done () x

/-- D.INFLATE after its checks (R284). -/
def inflateRun (x : Xfer DU) : Run (Xfer DU) Unit :=
  if x.left = 0 then if x.unit.isFinished then .done () x else x.step.bind fun _ x => .done () x
  else inflateLoop (8 * x.unit.avail + 8 * x.left + 16) x

/-! ## Commands -/

/-- The checks that the DU's buffer commands share (60_exceptions.md R365, steps 2 and 3). -/
def State.duBufferChecks (s : State) : List (Bool × Err) := [(s.bufferWraps, .rangeAddress), (s.du.fault.isSome, .aborted)]

/-- The end of a command of the DU: the first failed check as an error response, else the command's effect. -/
def State.guardDU (s : State) (checks : List (Bool × Err)) (effect : Host.Outcome State Fault Refusal) :
    Host.Outcome State Fault Refusal :=
  match firstErr checks with
  | some e => .next (s.raise .du e 0)
  | none => effect

/-- The end of a command that transfers output from the DU (60_exceptions.md R360, R361). -/
def State.endDU (s : State) : Run (Xfer DU) Unit → Host.Outcome State Fault Refusal
  | .done _ x => .next ({ s with du := x.unit, mem := x.mem }.succeed (BitVec.ofNat 64 (x.dest - s.argAddr)))
  | .raise e x => .next ({ s with du := x.unit, mem := x.mem }.raise .du e (x.dest - s.argAddr))
  | .stuck => .fault .runaway

/-- D.CONFIG (R280). -/
def execDConfig (nohdr : Bool) (s : State) : Host.Outcome State Fault Refusal :=
  .next ({ s with du := { s.du with nohdr := nohdr }.reset }.succeed 0)

/-- D.SET_INPUT (R281). -/
def execDSetInput (s : State) : Host.Outcome State Fault Refusal :=
  s.guardDU (s.duBufferChecks ++ [(!s.du.needsInput, .inputPending)])
    (.next
      ({ s with
          du := { s.du with
            inPtr := s.argAddr, inEnd := s.argAddr + s.argLen
            bound := s.du.bound + BitVec.ofNat 64 s.argLen } }.succeed 0))

/-- D.SET_DICT (R282). -/
def execDSetDict (s : State) : Host.Outcome State Fault Refusal :=
  s.guardDU (s.duBufferChecks ++ [(!s.du.needsDict, .dictNotNeeded)])
    (if adler32 s.bufferBytes 1 = s.du.readAdler then .next ({ s with du := s.du.loadDict s.bufferBytes }.succeed 0)
     else .next (s.raise .du .dictChecksum 0))

/-- D.INFLATE (R284). -/
def execDInflate (s : State) : Host.Outcome State Fault Refusal :=
  s.guardDU
    (s.duBufferChecks ++ [(buffersMeet s.argAddr s.argLen s.du.inPtr s.du.inEnd, .outputOverlapsInput)])
    (s.endDU (inflateRun { unit := s.du, mem := s.mem, dest := s.argAddr, left := s.argLen }))

/-- D.RESET (R299). -/
def execDReset (s : State) : Host.Outcome State Fault Refusal := .next ({ s with du := s.du.reset }.succeed 0)

/-- D.IS_FINISHED (R303). -/
def execDIsFinished (s : State) : Host.Outcome State Fault Refusal := .next (s.succeed (flagResult s.du.isFinished))

/-- D.IS_NEEDING_INPUT (R304). -/
def execDIsNeedingInput (s : State) : Host.Outcome State Fault Refusal := .next (s.succeed (flagResult s.du.needsInput))

/-- D.ADLER (R300). -/
def execDAdler (s : State) : Host.Outcome State Fault Refusal := .next (s.succeed (wordResult s.du.adlerValue))

/-- D.TOTAL_IN (R301). -/
def execDTotalIn (s : State) : Host.Outcome State Fault Refusal := .next (s.succeed s.du.totalIn)

/-- D.TOTAL_OUT (R302). -/
def execDTotalOut (s : State) : Host.Outcome State Fault Refusal := .next (s.succeed s.du.totalOut)

/-- D.IS_NEEDING_DICT (R305). -/
def execDIsNeedingDict (s : State) : Host.Outcome State Fault Refusal := .next (s.succeed (flagResult s.du.needsDict))

end Sys2Proof.Machine
end

