-- ==== Sys2Proof/Machine/Dispatch.lean ====
section
/-! DEFINITION. One meaning for each command. -/

namespace Sys2Proof.Machine

def exec (i : Instr) (s : State) : Host.Outcome State Fault Refusal :=
  match i with
  | .cConfig level strategy nohdr => Sys2Proof.Machine.execCConfig level strategy nohdr s
  | .cSetInput => Sys2Proof.Machine.execCSetInput s
  | .cSetDict => Sys2Proof.Machine.execCSetDict s
  | .cDeflate => Sys2Proof.Machine.execCDeflate s
  | .cFlush => Sys2Proof.Machine.execCFlush s
  | .cFinish => Sys2Proof.Machine.execCFinish s
  | .cReset => Sys2Proof.Machine.execCReset s
  | .cIsFinished => Sys2Proof.Machine.execCIsFinished s
  | .cIsNeedingInput => Sys2Proof.Machine.execCIsNeedingInput s
  | .cAdler => Sys2Proof.Machine.execCAdler s
  | .cTotalIn => Sys2Proof.Machine.execCTotalIn s
  | .cTotalOut => Sys2Proof.Machine.execCTotalOut s
  | .dConfig nohdr => Sys2Proof.Machine.execDConfig nohdr s
  | .dSetInput => Sys2Proof.Machine.execDSetInput s
  | .dSetDict => Sys2Proof.Machine.execDSetDict s
  | .dInflate => Sys2Proof.Machine.execDInflate s
  | .dReset => Sys2Proof.Machine.execDReset s
  | .dIsFinished => Sys2Proof.Machine.execDIsFinished s
  | .dIsNeedingInput => Sys2Proof.Machine.execDIsNeedingInput s
  | .dAdler => Sys2Proof.Machine.execDAdler s
  | .dTotalIn => Sys2Proof.Machine.execDTotalIn s
  | .dTotalOut => Sys2Proof.Machine.execDTotalOut s
  | .dIsNeedingDict => Sys2Proof.Machine.execDIsNeedingDict s

end Sys2Proof.Machine
end

