-- ==== Sys2Proof/Machine/Issue.lean ====
section
/-! DEFINITION. Issuing a command: the word written to CMD decoded and run, and the host's own operations (30_encoding.md R90, R93;
20_memory.md R71, R81). -/

namespace Sys2Proof.Machine

/-- The error of an illegal command word (30_encoding.md R93). -/
def illegalErr : Illegal → Err
  | .unassigned => .unassigned
  | .reserved => .reserved

/-- The word in CMD is taken: CMD holds no command any more and reads 0 (10_state.md R22). -/
def State.takeCmd (s : State) : State := { s with port := { s.port with cmd := none } }

/-- A command word issued: an illegal one ends in an error response before anything else (30_encoding.md R93). -/
def issue (w : Word) (s : State) : Host.Outcome State Fault Refusal :=
  match decode w with
  | .error e => .next (s.raise .cu (illegalErr e) 0)
  | .ok i => exec i s

/-- One operation of the host between commands (20_memory.md R71). A write outside [0, 2^AW) has no place to go (R70, log 7). -/
def hostStep (op : HostOp) (s : State) : Host.Outcome State Fault Refusal :=
  match op with
  | .writePort r v => .next (s.writePort r v)
  | .writeMem a b => if a < 2 ^ s.params.aw then .next { s with mem := s.mem.write a b } else .fault .hostAddress

/-- What the host does next, if anything; without an operation the block is idle and keeps its state (60_exceptions.md R373). -/
def hostTurn (s : State) : Host.Outcome State Fault Refusal :=
  match s.host with
  | [] => .next s
  | op :: rest => hostStep op { s with host := rest }

/-- The command word of nbits bits w, as the host writes it to CMD. -/
def commandWord (nbits w : Nat) : Word := BitVec.ofNat 32 (w % 2 ^ nbits)

end Sys2Proof.Machine
end

