-- ==== Sys2Proof/Machine/Step.lean ====
section
/-! DEFINITION. One step of the machine: a command that the host has issued, or else the host's next operation (20_memory.md R81). -/

namespace Sys2Proof.Machine

/-- One step (log 6). A written command word runs to completion before anything else happens (20_memory.md R81); where none is
written, the host moves. -/
def step (s : State) : Host.Outcome State Fault Refusal :=
  match s.port.cmd with
  | some w => issue w s.takeCmd
  | none => hostTurn s

/-- s with the command word w written to CMD, so that the next step issues it: there is no instruction fetch (20_memory.md R85, log 5). -/
def State.withFetchWord (s : State) (nbits w : Nat) : State :=
  { s with port := { s.port with cmd := some (commandWord nbits w) } }

end Sys2Proof.Machine
end

