-- ==== Sys2Proof/Safety.lean ====
section
/-! DEFINITION. What a safe state is: the invariants of 10_state.md R29, R34, R35, R36, R40, R46 and R47, of 20_memory.md R70 and of
30_encoding.md R112, in the terms the statements use; the bit strings of both units; and the notions of a response. -/

namespace Sys2Proof

/-! ## Kinds of commands -/

/-- The rows of spec/opcode_table.json: mask and match of each command word (30_encoding.md R93). -/
def opcodeRows : List (Word × Word) :=
  [(0xFFFF80FF, 0x00000001)] ++ cmdRows [0x02, 0x03, 0x04, 0x05, 0x06, 0x07, 0x08, 0x09, 0x0A, 0x0B, 0x0C] ++
    [(0xFFFFBFFF, 0x00000021)] ++ cmdRows [0x22, 0x23, 0x24, 0x27, 0x28, 0x29, 0x2A, 0x2B, 0x2C, 0x2D]
where
  cmdRows (ops : List Nat) : List (Word × Word) := ops.map fun op => (0xFFFFFFFF, BitVec.ofNat 32 op)

/-- The unit a command addresses: OPCODE bit 5 (30_encoding.md R91). -/
def Instr.unit (i : Instr) : Machine.UnitId := if (opcode i).testBit 5 then .du else .cu

/-- A command that takes a buffer (30_encoding.md R92). -/
def Instr.takesBuffer : Instr → Bool
  | .cConfig _ _ _ => false
  | .cSetInput => true
  | .cSetDict => true
  | .cDeflate => true
  | .cFlush => false
  | .cFinish => false
  | .cReset => false
  | .cIsFinished => false
  | .cIsNeedingInput => false
  | .cAdler => false
  | .cTotalIn => false
  | .cTotalOut => false
  | .dConfig _ => false
  | .dSetInput => true
  | .dSetDict => true
  | .dInflate => true
  | .dReset => false
  | .dIsFinished => false
  | .dIsNeedingInput => false
  | .dAdler => false
  | .dTotalIn => false
  | .dTotalOut => false
  | .dIsNeedingDict => false

/-- A command that is refused while its unit is aborted (60_exceptions.md R364). -/
def Instr.streamCommand : Instr → Bool
  | .cConfig _ _ _ => false
  | .cSetInput => true
  | .cSetDict => true
  | .cDeflate => true
  | .cFlush => true
  | .cFinish => true
  | .cReset => false
  | .cIsFinished => false
  | .cIsNeedingInput => false
  | .cAdler => false
  | .cTotalIn => false
  | .cTotalOut => false
  | .dConfig _ => false
  | .dSetInput => true
  | .dSetDict => true
  | .dInflate => true
  | .dReset => false
  | .dIsFinished => false
  | .dIsNeedingInput => false
  | .dAdler => false
  | .dTotalIn => false
  | .dTotalOut => false
  | .dIsNeedingDict => false

end Sys2Proof

namespace Sys2Proof.Machine

/-! ## Invariants -/

/-- Host memory is in canonical form and lists no address outside [0, 2^AW) (20_memory.md R70). -/
structure State.MemInv (s : State) : Prop where
  canonical : s.mem.wf = true
  inside : ∀ c ∈ s.mem, c.1 < 2 ^ s.params.aw

/-- The port: ARG_ADDR has AW bits (10_state.md R22), and ERRCODE is 0 with LASTERR 0, or the code of a listed error with LASTERR 1
(R23, 60_exceptions.md R363). -/
structure State.PortInv (s : State) : Prop where
  argAddr : s.port.argAddr < 2 ^ s.params.aw
  response : (s.port.errcode = 0 ∧ s.port.lasterr = false) ∨ ∃ e : Err, s.port.errcode = e.code ∧ s.port.lasterr = true

/-- Every nonzero element of an array of 2^depth elements is below a bound. -/
def Tbl.allBelow (depth : Nat) (t : Tbl) (bound : Nat) : Prop := ∀ i, t.get depth i = 0 ∨ t.get depth i < bound

/-- The CU between commands, `top` being 2^AW: 10_state.md R36 (a) to (g), with R26 and R27 (no command enters CLOSED, C_FAULT is
NONE), R29 (the binding), R30 and R33 (the ranges of window bytes and tokens), R32 (the ranges, as far as R162 and R167 keep
them: log 13), R34 (PBITS) and R35 (the sizes of the
frequency arrays). The last four fields say what makes these stay true: the engine is at its start in INIT (41_match_engine.md R165), only
the lazy algorithm holds a match from one position to the next, and that match ends inside the lookahead and is near enough. -/
structure CU.Inv (c : CU) (top : Nat) : Prop where
  positionLow : 1 ≤ c.strstart + c.lookahead
  strstartLow : 1 ≤ c.strstart
  positionHigh : c.strstart + c.lookahead ≤ 65536
  blockStart : c.blockStart ≤ c.strstart
  head : c.head.allBelow 15 (c.strstart + c.lookahead)
  prev : c.prev.allBelow 15 (c.strstart + c.lookahead)
  tokens : c.tokN < 16384
  nbits : c.out.nbits ≤ 15
  finish : c.finishReq = true → c.flushReq = true ∨ c.phase = .finished
  fresh : c.phase = .init ∨ c.phase = .setDict → c.out.fifo = [] ∧ c.out.nbits = 0 ∧ c.totalOut = 0
  notClosed : c.phase ≠ .closed
  fault : c.fault = none
  bindingLow : c.inPtr ≤ c.inEnd
  bindingHigh : c.inEnd ≤ top
  bits : c.out.bits.toNat < 2 ^ c.out.nbits
  matchLow : 2 ≤ c.matchLen
  matchHigh : c.matchLen ≤ 258
  matchStartHigh : c.matchStart ≤ 65535
  litSize : c.lit.freq.length = 286
  distSize : c.dist.freq.length = 30
  blSize : c.bl.freq.length = 19
  window : ∀ i, c.win.get 16 i < 256
  tokenRange : ∀ i, i < c.tokN → c.tokD.tok i ≤ 32768 ∧ c.tokL.tok i < 256
  atStart : c.phase = .init → c.strstart = 1 ∧ c.lookahead = 0 ∧ c.blockStart = 1 ∧ c.prevAvail = false
  heldLazily : (levelRow c.level).func ≠ .slow → c.matchLen = 2
  heldInside : c.matchLen = 2 ∨ c.matchLen ≤ c.lookahead + 1
  heldNear : c.matchLen = 2 ∨ (c.strstart : Int) - 1 - c.matchStart ≤ 32506

/-- The modes of the symbol loop (10_state.md R46 (b), R43, 44_decompressor.md R293). -/
def DMode.inSymbols : DMode → Bool
  | .huf => true
  | .hufLb => true
  | .hufD => true
  | .hufDb => true
  | .header => false
  | .dict => false
  | .blocks => false
  | .slen1 => false
  | .slen2 => false
  | .stored => false
  | .dyn => false
  | .chk => false
  | .fin => false

/-- The modes that read whole bytes (44_decompressor.md R285, R288, R289, R290, R297). -/
def DMode.byteAligned : DMode → Bool
  | .header => true
  | .dict => true
  | .slen1 => true
  | .slen2 => true
  | .stored => true
  | .chk => true
  | .blocks => false
  | .dyn => false
  | .huf => false
  | .hufLb => false
  | .hufD => false
  | .hufDb => false
  | .fin => false

/-- A vector of code lengths that the DU may decode with: no length above 15, not over-subscribed (30_encoding.md R112). -/
def acceptedLens (lens : List Nat) : Prop := (∀ l ∈ lens, l ≤ 15) ∧ oversubscribed lens = false

/-- The ranges and sizes of the header parser's registers (10_state.md R44). -/
structure DHState.Ranges (h : DHState) : Prop where
  hlit : 257 ≤ h.hlit ∧ h.hlit ≤ 288
  hdist : 1 ≤ h.hdist ∧ h.hdist ≤ 32
  hclen : 4 ≤ h.hclen ∧ h.hclen ≤ 19
  i : h.i ≤ 19
  metaSize : h.metaLen.length = 19
  index : h.index ≤ 320
  clSize : h.cl.length = 320

/-- The DU between commands, `top` being 2^AW: 10_state.md R46 (a) to (e), R39 (the least pending length and distance), R40 (the binding and
D_RES), R42 (D_FAULT is sticky), R44 (the parser's registers), R112 (the codes decoded with) and 45_huffman_decode.md R320. R320's D_CNT ≤ 15 holds of a unit that is not aborted; a decode error leaves up to 22
bits in the reservoir (log 12). -/
structure DU.Inv (d : DU) (top : Nat) : Prop where
  filled : d.filled ≤ d.hist
  hist : d.hist ≤ 65536
  rdist : d.rdist ≤ 32768
  finDrained : d.mode = .fin → d.filled = 0
  chkDrained : d.mode = .chk → d.filled = 0
  fresh : d.mode = .header ∨ d.mode = .dict → d.filled = 0 ∧ d.hist = 0
  raw : d.nohdr = true → d.mode ≠ .header ∧ d.mode ≠ .dict ∧ d.mode ≠ .chk
  bindingLow : d.inPtr ≤ d.inEnd
  bindingHigh : d.inEnd ≤ top
  reservoir : d.res.toNat < 2 ^ d.cnt
  count : d.cnt ≤ 22
  countRunning : d.fault = none → d.cnt ≤ 15
  sticky : ∀ e, d.fault = some e → e.sticky = true
  wend : d.wend < 65536
  lenLow : d.mode = .hufLb ∨ d.mode = .hufD ∨ d.mode = .hufDb → 3 ≤ d.rlen
  distLow : d.mode = .hufDb → 1 ≤ d.rdist
  headerRanges : d.dh.Ranges
  aligned : d.fault = none → d.mode.byteAligned = true → d.cnt % 8 = 0
  lenBits : d.fault = none → d.mode = .hufLb → d.needed ≤ 5 ∧ d.rlen + 2 ^ d.needed ≤ 259
  lenKnown : d.fault = none → d.mode = .hufD ∨ d.mode = .hufDb → d.rlen ≤ 258
  distBits : d.fault = none → d.mode = .hufDb → d.needed ≤ 13 ∧ d.rdist + 2 ^ d.needed ≤ 32769
  checksumBits : d.fault = none → d.mode = .dict ∨ d.mode = .chk → d.needed ≤ 32 ∧ d.needed % 8 = 0
  litCode : d.fault = none → d.mode.inSymbols = true → acceptedLens d.ltab.litLens
  distCode : d.fault = none → d.mode.inSymbols = true → acceptedLens d.dtab.distLens
  lengthsRead : d.fault = none → d.mode = .dyn → ∀ l ∈ d.dh.cl, l ≤ 15
  metaRead : d.fault = none → d.mode = .dyn → ∀ l ∈ d.dh.metaLen, l ≤ 7
  headerOpen : d.fault = none → d.mode = .dyn → d.dh.phase ≠ .done
  metaCode : d.fault = none → d.mode = .dyn → d.dh.phase = .sym ∨ d.dh.phase = .rep → oversubscribed d.dh.metaLen = false

/-- The whole machine between commands. -/
structure State.Inv (s : State) : Prop where
  mem : s.MemInv
  port : s.PortInv
  cu : s.cu.Inv (2 ^ s.params.aw)
  du : s.du.Inv (2 ^ s.params.aw)

/-! ## Bit strings -/

/-- The n low bits of a number, the least significant first (00_scope.md R14). -/
def bitsOf : Nat → Nat → List Bool
  | 0, _ => []
  | n + 1, v => (v % 2 == 1) :: bitsOf n (v / 2)

/-- The bits of a byte string as a stream: bit k is bit k mod 8 of byte k / 8 (00_scope.md R14, 20_memory.md R76). -/
def bitsOfBytes (bs : List Byte) : List Bool := bs.flatMap fun b => bitsOf 8 b.toNat

/-- The pending output as a bit string: PFIFO, then the PNBITS bits of the accumulator (40_bit_output.md R151). -/
def BitOut.stream (o : BitOut) : List Bool := bitsOfBytes o.fifo ++ bitsOf o.nbits o.bits.toNat

/-- The input of the DU as a bit string: the reservoir, then the bound bytes not yet read (45_huffman_decode.md R320). -/
def DU.stream (d : DU) (m : Memory) : List Bool := bitsOf d.cnt d.res.toNat ++ bitsOfBytes (m.readBytes d.inPtr (d.inEnd - d.inPtr))

/-- The number whose bits are given, the least significant first (00_scope.md R14, reading n bits). -/
def valueOf (bs : List Bool) : Nat := ofBits bs

/-- The l bits of a codeword in the order they are sent, the most significant first (00_scope.md R14, 20_memory.md R76). -/
def codeword (l c : Nat) : List Bool := (bitsOf l c).reverse

/-- The lengths that a sequence of code-length symbols stands for, after those already expanded (30_encoding.md R110). -/
def expandItems : List RleItem → List Nat → List Nat
  | [], acc => acc
  | r :: rs, acc =>
    expandItems rs
      (acc ++
        if r.sym = 16 then List.replicate (3 + r.xval) (acc.getLastD 0)
        else if r.sym = 17 then List.replicate (3 + r.xval) 0
        else if r.sym = 18 then List.replicate (11 + r.xval) 0
        else [r.sym])

/-! ## Responses -/

/-- The fault register of a unit. -/
def State.faultOf (s : State) : UnitId → Option Err
  | .cu => s.cu.fault
  | .du => s.du.fault

/-- s with the port's response registers written (60_exceptions.md R360, R361): nothing else changes. -/
def State.respond (s : State) (result : DWord) (errcode : Word) (lasterr : Bool) : State :=
  { s with port := { s.port with result := result, errcode := errcode, lasterr := lasterr } }

/-- An error response that changes nothing but the response registers, and counts no byte written (60_exceptions.md R361, classes
RANGE, ILLEGAL_COMMAND, ABORTED, INVALID_STATE and HAZARD). -/
def State.refuse (s : State) (errcode : Word) : State := s.respond 0 errcode true

/-- A success response (60_exceptions.md R360). -/
def State.ok (s : State) (result : DWord) : State := s.respond result 0 false

/-- The buffer (ARG_ADDR, ARG_LEN) lies in the address space (20_memory.md R72). -/
def State.fits (s : State) : Prop := s.port.argAddr + s.port.argLen.toNat ≤ 2 ^ s.params.aw

/-- An address of the output buffer's written part [ARG_ADDR, ARG_ADDR + n) (20_memory.md R79). -/
def State.wrote (s : State) (n a : Nat) : Prop := s.port.argAddr ≤ a ∧ a < s.port.argAddr + n

/-- The output buffer shares an address with the binding [p, e) (70_reset_and_hazards.md R398). -/
def State.outputMeets (s : State) (p e : Nat) : Prop :=
  0 < s.port.argLen.toNat ∧ p < e ∧ s.port.argAddr < e ∧ p < s.port.argAddr + s.port.argLen.toNat

/-! ## The start of a stream (70_reset_and_hazards.md R391) -/

/-- A Huffman tree whose frequencies are 0 and whose other elements keep their values, which R391 leaves unspecified. -/
def HuffTree.atStart (t : HuffTree) : HuffTree := { t with freq := List.replicate t.freq.length 0 }

/-- The CU column of R391 for a configuration: every element the rule specifies has its value, every other keeps c's. -/
def CU.startOfStream (c : CU) (level : Fin 10) (strategy : Strategy) (nohdr : Bool) : CU :=
  { level := level, strategy := strategy, nohdr := nohdr
    phase := if nohdr then .busy else .init
    flushReq := false, finishReq := false, dictSet := false, fault := none
    totalIn := 0, totalOut := 0, adler := 1, inPtr := 0, inEnd := 0
    win := c.win, head := .nil, prev := .nil
    strstart := 1, blockStart := 1, lookahead := 0, matchStart := 0, matchLen := 2, prevAvail := false
    tokD := c.tokD, tokL := c.tokL, tokN := 0, extra := 0
    out := { fifo := [], bits := 0, nbits := 0 }
    lit := c.lit.atStart, dist := c.dist.atStart, bl := c.bl.atStart }

/-- The DU column of R391 for a configuration: every element the rule specifies has its value, every other keeps d's. -/
def DU.startOfStream (d : DU) (nohdr : Bool) : DU :=
  { nohdr := nohdr, mode := if nohdr then .blocks else .header, fault := none
    last := false, needed := 0, readAdler := 0, adler := 1, ulen := 0, rlen := 0, rdist := 0
    totalOut := 0, bound := 0, inPtr := 0, inEnd := 0, res := 0, cnt := 0
    owin := d.owin, wend := 0, filled := 0, hist := 0, ltab := d.ltab, dtab := d.dtab, dh := d.dh }

/-! ## The output window and the bit reader -/

/-- What the bit reader needs to read right: 10_state.md R40 and 45_huffman_decode.md R320. -/
structure DU.ReaderInv (d : DU) : Prop where
  binding : d.inPtr ≤ d.inEnd
  reservoir : d.res.toNat < 2 ^ d.cnt
  count : d.cnt ≤ 15

/-- What the output window needs: 10_state.md R41. -/
structure DU.WindowInv (d : DU) : Prop where
  wend : d.wend < 65536
  filled : d.filled ≤ d.hist
  hist : d.hist ≤ 65536

/-- The bytes written to the output window and not yet delivered, oldest first (10_state.md R41). -/
def DU.pending (d : DU) : List Byte :=
  (List.range d.filled).map fun k => BitVec.ofNat 8 (d.owin.get 16 ((d.wend + 65536 - d.filled + k) % 65536))

/-- The byte k places before D_WEND (10_state.md R41, 30_encoding.md R111). -/
def DU.byteBack (d : DU) (k : Nat) : Byte := BitVec.ofNat 8 (d.owin.get 16 ((d.wend + 65536 - k) % 65536))

/-- The bytes of a stream, eight bits each. -/
def bytesOf : Nat → List Bool → List Byte
  | 0, _ => []
  | n + 1, bs => BitVec.ofNat 8 (valueOf (bs.take 8)) :: bytesOf n (bs.drop 8)

/-! ## What the unspecified elements can show (70_reset_and_hazards.md R395, R396) -/

/-- Two CUs that agree on all but what no rule reads: window bytes that are not yet input (or lie before the block, at position 0), tokens from
C_TOK_N on, and T.LEN, T.CODE and T.NUM. The last four fields say why nothing else is read: the chains hold only positions already passed,
level 0 keeps its block in the window, and an owed literal stands inside the block. -/
structure CU.Agrees (c e : CU) : Prop where
  rest : e = { c with win := e.win, tokD := e.tokD, tokL := e.tokL, lit := e.lit, dist := e.dist, bl := e.bl }
  counts : c.lit.freq = e.lit.freq ∧ c.dist.freq = e.dist.freq ∧ c.bl.freq = e.bl.freq
  window : ∀ p, p < c.strstart + c.lookahead → (p = 0 → c.blockStart ≤ 0) → c.winAt p = e.winAt p
  tokens : ∀ k, k < c.tokN → c.tokD.tok k = e.tokD.tok k ∧ c.tokL.tok k = e.tokL.tok k
  passed : c.head.allBelow 15 c.strstart ∧ c.prev.allBelow 15 c.strstart
  storedBlock : c.level = 0 → c.lookahead = 0 ∧ 0 ≤ c.blockStart ∧ (65274 ≤ c.strstart → 32768 ≤ c.blockStart)
  owed : (levelRow c.level).func = .slow → c.prevAvail = true → c.blockStart < c.strstart

/-- Two parsers of a dynamic header that agree on what the phase reads later (46_dynamic_header.md R340 to R347). -/
structure DHState.Agrees (h g : DHState) : Prop where
  rest : g = { h with hlit := g.hlit, hdist := g.hdist, hclen := g.hclen, rsym := g.rsym }
  hlit : h.phase ≠ .hlit → h.hlit = g.hlit
  hdist : h.phase ≠ .hlit → h.phase ≠ .hdist → h.hdist = g.hdist
  hclen : h.phase = .clen → h.hclen = g.hclen
  rsym : h.phase = .rep → h.rsym = g.rsym

/-- Two DUs that agree on all but what no rule reads: window bytes outside the history, the codes outside the symbol loop, and the header's
parser outside DYN. -/
structure DU.Agrees (d e : DU) : Prop where
  rest : e = { d with owin := e.owin, ltab := e.ltab, dtab := e.dtab, dh := e.dh }
  window : ∀ k, 1 ≤ k → k ≤ d.hist → d.owin.get 16 ((d.wend + 65536 - k) % 65536) = e.owin.get 16 ((d.wend + 65536 - k) % 65536)
  codes : d.mode.inSymbols = true → d.ltab = e.ltab ∧ d.dtab = e.dtab
  header : d.mode = .dyn → d.dh.Agrees e.dh

/-- Two states that a host cannot tell apart by any command: the port, memory and the rest are the same, and the units agree. -/
structure State.Agrees (s t : State) : Prop where
  rest : t = { s with cu := t.cu, du := t.du }
  cu : s.cu.Agrees t.cu
  du : s.du.Agrees t.du

end Sys2Proof.Machine
end

