-- ==== Sys2Proof/Certificates/Slice0/Obligations.lean ====
section
/-! DEFINITION. The statements for the provers, about the machine itself: no program stands in any of them. -/

open Sys2Proof Sys2Proof.Machine

/-! ## Command words -/

/-- Decoding the word of a well-formed command gives the command back, every field at every value it admits; and each legal word is the word
of exactly one command, which is well formed (30_encoding.md R90, R92, R95). -/
def Obligations.CommandWordsRoundTrip : Prop :=
  (∀ i : Instr, i.wf = true → decode (encode i) = .ok i ∧ decodeTableWord 32 (encode i).toNat = some i) ∧
  (∀ (w : Word) (i : Instr), decode w = .ok i → i.wf = true ∧ encode i = w)

/-- 30_encoding.md R93: which words are illegal, with which subcode, before anything else; and the equivalent form by the rows of
opcode_table.json. -/
def Obligations.IllegalCommandWords : Prop :=
  ∀ (s : State) (w : Word), s.port.cmd = some w →
    let op := (w.extractLsb' 0 8).toNat
    let assigned := op ∈ [0x01, 0x02, 0x03, 0x04, 0x05, 0x06, 0x07, 0x08, 0x09, 0x0A, 0x0B, 0x0C, 0x21, 0x22, 0x23, 0x24, 0x27, 0x28,
      0x29, 0x2A, 0x2B, 0x2C, 0x2D]
    let reserved := w.extractLsb' 15 17 ≠ 0 ∨ (op ≠ 0x01 ∧ op ≠ 0x21 ∧ w.extractLsb' 8 7 ≠ 0) ∨ (op = 0x21 ∧ w.extractLsb' 8 6 ≠ 0)
    let taken := { s with port := { s.port with cmd := none } }
    (¬ assigned → step s = .next (taken.refuse 0x0102)) ∧
    (assigned → reserved → step s = .next (taken.refuse 0x0202)) ∧
    ((∃ i, decode w = .ok i) ↔ assigned ∧ ¬ reserved) ∧
    ((∃ i, decode w = .ok i) ↔ ∃ row ∈ opcodeRows, w &&& row.1 = row.2)

/-- Words written out from the field layout of 30_encoding.md R90 and the opcodes of R92. -/
def Obligations.SpecWordsDecode : Prop :=
  decode 0b00000000000000000000011000000001 = .ok (.cConfig 6 0 false) ∧
  decode 0b00000000000000000110111100000001 = .ok (.cConfig 15 2 true) ∧
  decode 0b00000000000000000000000000000010 = .ok .cSetInput ∧
  decode 0b00000000000000000000000000001100 = .ok .cTotalOut ∧
  decode 0b00000000000000000100000000100001 = .ok (.dConfig true) ∧
  decode 0b00000000000000000000000000100100 = .ok .dInflate ∧
  decode 0b00000000000000000000000000101101 = .ok .dIsNeedingDict ∧
  decode 0b00000000000000000100111100100001 = .error .reserved ∧
  decode 0b00000000000000000000000000100101 = .error .unassigned

/-- A command word that stands in CMD is decoded and run by the next step, on the state whose CMD holds no word any more; withFetchWord
writes such a word (10_state.md R22, 20_memory.md R81; CMD as an Option and the step's granularity are the model's, logs 5 and 6). -/
def Obligations.StepRunsDecodedCommand : Prop :=
  (∀ (s : State) (w : Word) (i : Instr), s.port.cmd = some w → decode w = .ok i →
    step s = exec i { s with port := { s.port with cmd := none } }) ∧
  (∀ (s : State) (i : Instr), i.wf = true →
    step (s.withFetchWord 32 (encode i).toNat) = exec i { s with port := { s.port with cmd := none } })

/-- What the host does between commands: an idle block keeps its state (60_exceptions.md R373), a write of a port register stores what
its width holds, a write of a read-only register is ignored (10_state.md R22), and a write of memory changes one byte (20_memory.md
R70, R71). The list of the host's coming operations and the fault outside the space are the model's own (logs 5, 7). -/
def Obligations.HostOperations : Prop :=
  ∀ s : State, s.port.cmd = none →
    (s.host = [] → step s = .next s) ∧
    (∀ v rest, s.host = .writePort .cmd v :: rest →
      step s = .next { s with host := rest, port := { s.port with cmd := some (v.extractLsb' 0 32) } }) ∧
    (∀ v rest, s.host = .writePort .argAddr v :: rest →
      step s = .next { s with host := rest, port := { s.port with argAddr := v.toNat % 2 ^ s.params.aw } }) ∧
    (∀ v rest, s.host = .writePort .argLen v :: rest →
      step s = .next { s with host := rest, port := { s.port with argLen := v.extractLsb' 0 32 } }) ∧
    (∀ r v rest, r = .result ∨ r = .status ∨ r = .errcode → s.host = .writePort r v :: rest → step s = .next { s with host := rest }) ∧
    (∀ a b rest, s.host = .writeMem a b :: rest → a < 2 ^ s.params.aw → s.mem.wf = true →
      ∃ mem, step s = .next { s with host := rest, mem := mem } ∧ mem.read a = b ∧ ∀ a', a' ≠ a → mem.read a' = s.mem.read a') ∧
    (∀ a b rest, s.host = .writeMem a b :: rest → ¬ a < 2 ^ s.params.aw → step s = .fault .hostAddress)

/-! ## Status and errors -/

/-- 10_state.md R23: the fields of STATUS, each equal to the matching query command's result. -/
def Obligations.StatusReflectsUnits : Prop :=
  ∀ s : State,
    s.readPort .status = s.status.zeroExtend 64 ∧ s.status.toNat < 256 ∧
    s.status.getLsbD 0 = s.port.lasterr ∧ (s.PortInv → (s.status.getLsbD 0 = true ↔ s.port.errcode ≠ 0)) ∧
    (s.status.getLsbD 1 = true ↔ s.cu.fault ≠ none) ∧ (s.status.getLsbD 2 = true ↔ s.du.fault ≠ none) ∧
    exec .cIsFinished s = .next (s.ok (if s.status.getLsbD 3 then 1 else 0)) ∧
    exec .cIsNeedingInput s = .next (s.ok (if s.status.getLsbD 4 then 1 else 0)) ∧
    exec .dIsFinished s = .next (s.ok (if s.status.getLsbD 5 then 1 else 0)) ∧
    exec .dIsNeedingInput s = .next (s.ok (if s.status.getLsbD 6 then 1 else 0)) ∧
    exec .dIsNeedingDict s = .next (s.ok (if s.status.getLsbD 7 then 1 else 0))

/-- The codes of all errors: CLASS in [7:0], SUB in [15:8] (10_state.md R24, 60_exceptions.md R361, R362, R363), and which of them abort
a stream (R364). -/
def Obligations.ErrorCodes : Prop :=
  ∀ e : Err, ∃ row ∈ ([(.rangeLevel, 1, 1), (.rangeStrategy, 1, 2), (.rangeAddress, 1, 3), (.unassigned, 2, 1), (.reserved, 2, 2),
      (.setInputAfterFinish, 3, 1), (.inputPending, 3, 2), (.dictNotInit, 3, 3), (.dictNotNeeded, 3, 4), (.closed, 3, 5),
      (.headerChecksum, 4, 1), (.method, 4, 2), (.blockType, 4, 3), (.storedLength, 4, 4), (.lengthCode, 4, 5), (.distanceCode, 4, 6),
      (.distanceTooFar, 4, 7), (.invalidCode, 4, 8), (.oversubscribed, 4, 9), (.hlitRange, 4, 10), (.hdistRange, 4, 11),
      (.repeatNoPrevious, 4, 12), (.repeatOverflow, 4, 13), (.noEndOfBlock, 4, 14), (.checksum, 4, 15), (.dictChecksum, 4, 16),
      (.heapInvariant, 4, 17), (.bitAlignment, 5, 1), (.aborted, 6, 0), (.outputOverlapsInput, 7, 1)] : List (Err × Nat × Nat)),
    row.1 = e ∧ e.code.toNat = row.2.2 * 256 + row.2.1 ∧ (e.sticky = true ↔ row.2.1 = 4 ∨ row.2.1 = 5)

/-- 20_memory.md R72: a buffer that would wrap the address space ends the command before it changes any state, and a buffer of length 0
is in range at every address. -/
def Obligations.BufferRangeCheck : Prop :=
  ∀ (i : Instr) (s : State), i.takesBuffer = true →
    (2 ^ s.params.aw < s.port.argAddr + s.port.argLen.toNat → exec i s = .next (s.refuse 0x0301)) ∧
    (s.port.argLen = 0 → s.port.argAddr < 2 ^ s.params.aw → ∀ t, exec i s = .next t → t.port.errcode ≠ 0x0301)

/-- An aborted unit refuses its stream commands with ABORTED and nothing else changes, whatever later check would fail too; a buffer
that does not fit is found first (60_exceptions.md R364, R365, R371). CONFIG and RESET clear the fault. -/
def Obligations.AbortedUnitRefuses : Prop :=
  ∀ (i : Instr) (s : State), s.faultOf i.unit ≠ none →
    (i.streamCommand = true → (i.takesBuffer = true → s.fits) → exec i s = .next (s.refuse 0x0006)) ∧
    (∀ t, i = .cReset ∨ i = .dReset ∨ (∃ n, i = .dConfig n) ∨ (∃ l st n, i = .cConfig l st n ∧ (l < 10 ∨ l = 15) ∧ st < 3) →
      exec i s = .next t → t.faultOf i.unit = none)

/-- 70_reset_and_hazards.md R398: an output buffer that meets the unread binding of the same unit is refused and nothing changes; one that
does not meet it never is. -/
def Obligations.OutputOverInputRefused : Prop :=
  ∀ s : State, s.fits →
    (s.cu.fault = none → s.cu.phase ≠ .closed → s.outputMeets s.cu.inPtr s.cu.inEnd → exec .cDeflate s = .next (s.refuse 0x0107)) ∧
    (s.du.fault = none → s.outputMeets s.du.inPtr s.du.inEnd → exec .dInflate s = .next (s.refuse 0x0107)) ∧
    (∀ t, ¬ s.outputMeets s.cu.inPtr s.cu.inEnd → exec .cDeflate s = .next t → t.port.errcode ≠ 0x0107) ∧
    (∀ t, ¬ s.outputMeets s.du.inPtr s.du.inEnd → exec .dInflate s = .next t → t.port.errcode ≠ 0x0107)

/-! ## Configuration, reset and queries -/

/-- 43_compressor.md R240: C.CONFIG, in every phase and also after an abort, takes its three fields and starts a new stream. Elements that
70_reset_and_hazards.md R391 leaves unspecified keep their values: that is the model's choice (log 3). -/
def Obligations.ConfigStartsCompressor : Prop :=
  ∀ (s : State) (level strategy : Nat) (nohdr : Bool) (l : Fin 10) (st : Strategy),
    (level < 10 ∧ l.val = level) ∨ (level = 15 ∧ l = 6) →
    (strategy = 0 ∧ st = .default) ∨ (strategy = 1 ∧ st = .filtered) ∨ (strategy = 2 ∧ st = .huffmanOnly) →
    exec (.cConfig level strategy nohdr) s = .next ({ s with cu := s.cu.startOfStream l st nohdr }.ok 0)

/-- 30_encoding.md R94: LEVEL 15 selects level 6, LEVEL 10 to 14 and STRATEGY 3 end the command with RANGE before any state change; LEVEL
is found first (60_exceptions.md R365). -/
def Obligations.ConfigFieldRanges : Prop :=
  ∀ (s : State) (level strategy : Nat) (nohdr : Bool),
    (level = 15 → strategy < 3 → ∃ cu, exec (.cConfig level strategy nohdr) s = .next ({ s with cu := cu }.ok 0) ∧ cu.level = 6) ∧
    (10 ≤ level → level ≤ 14 → exec (.cConfig level strategy nohdr) s = .next (s.refuse 0x0101)) ∧
    (level < 10 ∨ level = 15 → strategy = 3 → exec (.cConfig level strategy nohdr) s = .next (s.refuse 0x0201))

/-- 43_compressor.md R248: C.RESET, in every phase, returns the CU to the start of a stream and keeps its configuration. -/
def Obligations.ResetStartsCompressor : Prop :=
  ∀ s : State, exec .cReset s = .next ({ s with cu := s.cu.startOfStream s.cu.level s.cu.strategy s.cu.nohdr }.ok 0)

/-- 44_decompressor.md R280: D.CONFIG, in every mode and also after an abort, takes NOHDR and starts a new stream. -/
def Obligations.ConfigStartsDecompressor : Prop :=
  ∀ (s : State) (nohdr : Bool), exec (.dConfig nohdr) s = .next ({ s with du := s.du.startOfStream nohdr }.ok 0)

/-- 44_decompressor.md R299: D.RESET, in every mode, writes the listed registers and keeps D_NOHDR. -/
def Obligations.ResetStartsDecompressor : Prop :=
  ∀ s : State, exec .dReset s = .next ({ s with du := s.du.startOfStream s.du.nohdr }.ok 0)

/-- The power-on state is the state after C.CONFIG 0x00000601 and D.CONFIG 0x00000021 with all port registers 0 (70_reset_and_hazards.md
R390, R391). The values of the unspecified elements, of the parameters and of host memory are the model's (logs 1, 2, 3). -/
def Obligations.PowerOnState : Prop :=
  (∀ p : Params, step ((State.powerOn p).withFetchWord 32 0x00000601) = .next (State.powerOn p) ∧
    step ((State.powerOn p).withFetchWord 32 0x00000021) = .next (State.powerOn p)) ∧
  State.reset.cu = State.reset.cu.startOfStream 6 .default false ∧ State.reset.du = State.reset.du.startOfStream false ∧
  State.reset.port = { cmd := none, argAddr := 0, argLen := 0, result := 0, errcode := 0, lasterr := false } ∧
  State.reset.readPort .cmd = 0 ∧ State.reset.readPort .status = 0x50

/-- The five queries of the CU answer in every phase, also after an abort, and change no unit state (43_compressor.md R252 to R256,
60_exceptions.md R371). -/
def Obligations.CompressorQueries : Prop :=
  ∀ s : State,
    exec .cAdler s = .next (s.ok (s.cu.adler.zeroExtend 64)) ∧
    exec .cIsFinished s = .next (s.ok (if s.cu.phase = .finished ∧ s.cu.out.fifo = [] then 1 else 0)) ∧
    exec .cIsNeedingInput s = .next (s.ok (if s.cu.inPtr = s.cu.inEnd then 1 else 0)) ∧
    exec .cTotalIn s = .next (s.ok s.cu.totalIn) ∧
    exec .cTotalOut s = .next (s.ok s.cu.totalOut)

/-- The six queries of the DU answer in every mode, also after an abort, and change no unit state (44_decompressor.md R300 to R305,
10_state.md R45). -/
def Obligations.DecompressorQueries : Prop :=
  ∀ s : State,
    exec .dAdler s =
      .next (s.ok ((if s.du.mode = .dict ∧ s.du.needed = 0 then s.du.readAdler else s.du.adler).zeroExtend 64)) ∧
    exec .dTotalIn s =
      .next (s.ok (s.du.bound - BitVec.ofNat 64 ((s.du.cnt + 8 * (s.du.inEnd - s.du.inPtr)) / 8))) ∧
    exec .dTotalOut s = .next (s.ok s.du.totalOut) ∧
    exec .dIsFinished s = .next (s.ok (if s.du.mode = .fin ∧ s.du.filled = 0 then 1 else 0)) ∧
    exec .dIsNeedingInput s = .next (s.ok (if s.du.inPtr = s.du.inEnd then 1 else 0)) ∧
    exec .dIsNeedingDict s = .next (s.ok (if s.du.mode = .dict ∧ s.du.needed = 0 then 1 else 0))

/-! ## Input, dictionary and requests -/

/-- 43_compressor.md R241: C.SET_INPUT binds by reference and reads no byte, unless a finish was requested or bound input is unread, in this
order of checks. That C_IN_END holds 2^AW, where the buffer ends there, is the model's choice (DEDUCED, log 4). -/
def Obligations.CompressorSetInput : Prop :=
  ∀ s : State, s.fits → s.cu.fault = none →
    (s.cu.finishReq = true → exec .cSetInput s = .next (s.refuse 0x0103)) ∧
    (s.cu.finishReq = false → s.cu.inPtr ≠ s.cu.inEnd → exec .cSetInput s = .next (s.refuse 0x0203)) ∧
    (s.cu.finishReq = false → s.cu.inPtr = s.cu.inEnd →
      exec .cSetInput s =
        .next ({ s with cu := { s.cu with
          inPtr := s.port.argAddr, inEnd := s.port.argAddr + s.port.argLen.toNat } }.ok 0))

/-- 44_decompressor.md R281: D.SET_INPUT binds by reference in every mode, reads no byte and keeps the reservoir, unless bound input is
unread. That D_IN_END holds 2^AW, where the buffer ends there, is the model's choice (DEDUCED, log 4). -/
def Obligations.DecompressorSetInput : Prop :=
  ∀ s : State, s.fits → s.du.fault = none →
    (s.du.inPtr ≠ s.du.inEnd → exec .dSetInput s = .next (s.refuse 0x0203)) ∧
    (s.du.inPtr = s.du.inEnd →
      exec .dSetInput s =
        .next ({ s with du := { s.du with
          inPtr := s.port.argAddr, inEnd := s.port.argAddr + s.port.argLen.toNat
          bound := s.du.bound + s.port.argLen.zeroExtend 64 } }.ok 0))

/-- C.SET_DICT is legal only in phase INIT; it takes the checksum of the whole dictionary, keeps its last 32506 bytes in the window before
the block's start, and emits nothing (43_compressor.md R242, 41_match_engine.md R165). The checksum is taken once: log 10. -/
def Obligations.CompressorSetDict : Prop :=
  ∀ s : State, s.fits → s.cu.fault = none →
    (s.cu.phase ≠ .init → exec .cSetDict s = .next (s.refuse 0x0303)) ∧
    (s.cu.phase = .init →
      let dict := s.mem.readBytes s.port.argAddr s.port.argLen.toNat
      let kept := min dict.length 32506
      ∃ cu, exec .cSetDict s = .next ({ s with cu := cu }.ok 0) ∧
        (dict.length < 3 → cu = { s.cu with adler := adler32 dict s.cu.adler, phase := .setDict, dictSet := true }) ∧
        (3 ≤ dict.length →
          cu = { s.cu with
            adler := adler32 dict s.cu.adler, phase := .setDict, dictSet := true
            win := cu.win, head := cu.head, prev := cu.prev
            strstart := s.cu.strstart + kept, blockStart := (s.cu.strstart + kept : Nat) } ∧
          (s.cu.strstart = 1 → ∀ k, k < kept →
            BitVec.ofNat 8 (cu.winAt (1 + k)) = dict.getD (dict.length - kept + k) 0)))

/-- 44_decompressor.md R282: D.SET_DICT only where the stream waits for a dictionary; a dictionary with another checksum aborts the stream;
the right one becomes history and not output. -/
def Obligations.DecompressorSetDict : Prop :=
  ∀ s : State, s.fits → s.du.fault = none →
    let dict := s.mem.readBytes s.port.argAddr s.port.argLen.toNat
    let kept := min dict.length 65536
    (¬ (s.du.mode = .dict ∧ s.du.needed = 0) → exec .dSetDict s = .next (s.refuse 0x0403)) ∧
    (s.du.mode = .dict → s.du.needed = 0 → adler32 dict 1 ≠ s.du.readAdler →
      exec .dSetDict s = .next ({ s with du := { s.du with fault := some .dictChecksum } }.refuse 0x1004)) ∧
    (s.du.mode = .dict → s.du.needed = 0 → adler32 dict 1 = s.du.readAdler →
      ∃ du, exec .dSetDict s = .next ({ s with du := du }.ok 0) ∧
        du = { s.du with
          adler := 1, mode := .blocks, owin := du.owin
          wend := if kept = 0 then s.du.wend else (s.du.wend + kept) % 65536
          hist := if kept = 0 then s.du.hist else min (s.du.hist + kept) 65536 } ∧
        (s.du.WindowInv →
          (∀ k, k < kept → du.byteBack (k + 1) = dict.getD (dict.length - 1 - k) 0) ∧
          (∀ k, kept ≤ k → k < 65536 → du.byteBack (k + 1) = s.du.byteBack (k + 1 - kept))))

/-- C.FLUSH and C.FINISH only record the request (43_compressor.md R250, R251); repeating C.FINISH changes nothing, and after it
C.SET_INPUT is refused. -/
def Obligations.FlushAndFinishRequests : Prop :=
  ∀ s : State, s.cu.fault = none →
    exec .cFlush s = .next ({ s with cu := { s.cu with flushReq := true } }.ok 0) ∧
    exec .cFinish s = .next ({ s with cu := { s.cu with flushReq := true, finishReq := true } }.ok 0) ∧
    (∀ t, exec .cFinish s = .next t → exec .cFinish t = .next t ∧ (t.fits → exec .cSetInput t = .next (t.refuse 0x0103)))

/-! ## Frames, independence and completion -/

/-- What no command changes: the parameters, the host's operations, CMD, ARG_ADDR and ARG_LEN (10_state.md R22), the other unit's state
(R20, 60_exceptions.md R374), and every byte of memory outside the bytes that RESULT counts from ARG_ADDR on (20_memory.md R71, R79). -/
def Obligations.CommandFrame : Prop :=
  ∀ (i : Instr) (s t : State), exec i s = .next t →
    t.params = s.params ∧ t.host = s.host ∧ t.port.cmd = s.port.cmd ∧ t.port.argAddr = s.port.argAddr ∧
    t.port.argLen = s.port.argLen ∧
    (i.unit = .cu → t.du = s.du) ∧ (i.unit = .du → t.cu = s.cu) ∧
    (i ≠ .cDeflate → i ≠ .dInflate → t.mem = s.mem) ∧
    (i = .cDeflate ∨ i = .dInflate →
      t.port.result.toNat ≤ s.port.argLen.toNat ∧ ∀ a, ¬ s.wrote t.port.result.toNat a → t.mem.read a = s.mem.read a)

/-- A command reads nothing of the other unit: with another state there, it answers the same and does the same to its own unit, the port and
memory (60_exceptions.md R374, 70_reset_and_hazards.md R405). -/
def Obligations.UnitsDoNotObserveEachOther : Prop :=
  ∀ (i : Instr) (s t : State), exec i s = .next t →
    (i.unit = .cu → ∀ d : DU, exec i { s with du := d } = .next { t with du := d }) ∧
    (i.unit = .du → ∀ c : CU, exec i { s with cu := c } = .next { t with cu := c })

/-- 70_reset_and_hazards.md R395 and R396: no command shows an unspecified value, so after its RESET a unit answers as any other unit of its
configuration does after RESET, whatever went before. Two states that agree on all but those values give the same response and the same memory and
agree again; and the RESETs of two units of one configuration agree. -/
def Obligations.UnspecifiedValuesAreNeverObserved : Prop :=
  (∀ (i : Instr) (s t s' : State), s.Inv → t.Inv → s.Agrees t → exec i s = .next s' → ∃ t', exec i t = .next t' ∧ s'.Agrees t') ∧
  (∀ s t s' t' : State, s.Inv → t.Inv → s.cu.level = t.cu.level → s.cu.strategy = t.cu.strategy → s.cu.nohdr = t.cu.nohdr →
    exec .cReset s = .next s' → exec .cReset t = .next t' → s'.cu.Agrees t'.cu) ∧
  (∀ s t s' t' : State, s.du.nohdr = t.du.nohdr → exec .dReset s = .next s' → exec .dReset t = .next t' → s'.du.Agrees t'.du)

/-- Every command ends with a response: from every state whose DU binding is a range, a next state (60_exceptions.md R360,
70_reset_and_hazards.md R403). The bounds that the model gives its loops are its own (log 8); this says they are never reached. -/
def Obligations.EveryCommandEnds : Prop :=
  ∀ (i : Instr) (s : State), s.du.inPtr ≤ s.du.inEnd → ∃ t, exec i s = .next t

/-! ## C.DEFLATE -/

/-- C.DEFLATE completes with a success response and delivers at most ARG_LEN bytes from ARG_ADDR on (43_compressor.md R243,
60_exceptions.md R360); what it keeps of the CU; and every byte of memory outside those bytes is unchanged (20_memory.md R79). -/
def Obligations.DeflateCompletes : Prop :=
  ∀ s : State, s.fits → s.cu.fault = none → s.cu.phase ≠ .closed → ¬ s.outputMeets s.cu.inPtr s.cu.inEnd →
    (s.cu.phase = .init ∨ s.cu.phase = .setDict → s.cu.out.nbits = 0) →
    s.cu.lit.freq.length = 286 → s.cu.dist.freq.length = 30 → s.cu.bl.freq.length = 19 →
    ∃ (cu : CU) (mem : Memory) (n : Nat),
      exec .cDeflate s = .next ({ s with cu := cu, mem := mem }.ok (BitVec.ofNat 64 n)) ∧
      n ≤ s.port.argLen.toNat ∧ (∀ a, ¬ s.wrote n a → mem.read a = s.mem.read a) ∧
      cu.totalOut = s.cu.totalOut + BitVec.ofNat 64 n ∧
      cu.level = s.cu.level ∧ cu.strategy = s.cu.strategy ∧ cu.nohdr = s.cu.nohdr ∧ cu.finishReq = s.cu.finishReq ∧
      cu.dictSet = s.cu.dictSet ∧ cu.fault = s.cu.fault ∧ cu.inEnd = s.cu.inEnd ∧ s.cu.inPtr ≤ cu.inPtr

/-- C.DEFLATE returns fewer bytes than its buffer holds only where the stream is finished, or all bound input has been taken and no flush
is left to do (43_compressor.md R243, 60_exceptions.md R367). -/
def Obligations.DeflateShortOnlyWhenDone : Prop :=
  ∀ s t : State, s.cu.Inv (2 ^ s.params.aw) → exec .cDeflate s = .next t → t.port.errcode = 0 → t.port.result.toNat < s.port.argLen.toNat →
    t.cu.phase = .finished ∨ (t.cu.inPtr = t.cu.inEnd ∧ t.cu.flushReq = false)

/-- The first bytes of a zlib stream: CMF 0x78 and the FLG of 43_compressor.md R245's table, then the dictionary's Adler-32 if one is set,
big-endian, after which C_ADLER restarts at 1 (R244). -/
def Obligations.DeflateEmitsZlibHeader : Prop :=
  ∀ s : State, s.fits → s.mem.wf = true → s.cu.fault = none → s.cu.phase = .init ∨ s.cu.phase = .setDict → s.cu.out.fifo = [] →
    s.cu.out.nbits = 0 → ¬ s.outputMeets s.cu.inPtr s.cu.inEnd → s.port.argLen = 2 →
    let flg : Byte :=
      if s.cu.level ≤ 1 then (if s.cu.dictSet then 0x20 else 0x01)
      else if s.cu.level ≤ 5 then (if s.cu.dictSet then 0x7D else 0x5E)
      else if s.cu.level = 6 then (if s.cu.dictSet then 0xBB else 0x9C)
      else (if s.cu.dictSet then 0xF9 else 0xDA)
    let id : List Byte := [s.cu.adler.extractLsb' 24 8, s.cu.adler.extractLsb' 16 8, s.cu.adler.extractLsb' 8 8, s.cu.adler.extractLsb' 0 8]
    ∃ mem, mem.read s.port.argAddr = 0x78 ∧ mem.read (s.port.argAddr + 1) = flg ∧ (0x78 * 256 + flg.toNat) % 31 = 0 ∧
      (∀ a, ¬ s.wrote 2 a → mem.read a = s.mem.read a) ∧
      exec .cDeflate s =
        .next ({ s with
          cu := { s.cu with
            phase := .busy, totalOut := s.cu.totalOut + 2
            adler := if s.cu.dictSet then 1 else s.cu.adler
            out := { s.cu.out with fifo := if s.cu.dictSet then id else [] } }
          mem := mem }.ok 2)

/-- Where the stream is finished, or the pending bytes fill the buffer, C.DEFLATE only delivers pending bytes, in order, and the engine does
not run (43_compressor.md R243, 40_bit_output.md R148). -/
def Obligations.DeflateDeliversPendingBytes : Prop :=
  ∀ s : State, s.fits → s.mem.wf = true → s.cu.fault = none → ¬ s.outputMeets s.cu.inPtr s.cu.inEnd → s.cu.out.nbits < 8 →
    s.cu.phase = .finished ∨ (s.cu.phase = .busy ∧ s.port.argLen.toNat ≤ s.cu.out.fifo.length) →
    let n := min s.port.argLen.toNat s.cu.out.fifo.length
    ∃ mem, (∀ k, k < n → mem.read (s.port.argAddr + k) = s.cu.out.fifo.getD k 0) ∧
      (∀ a, ¬ s.wrote n a → mem.read a = s.mem.read a) ∧
      exec .cDeflate s =
        .next ({ s with
          cu := { s.cu with
            out := { s.cu.out with fifo := s.cu.out.fifo.drop n }
            totalOut := s.cu.totalOut + BitVec.ofNat 64 n }
          mem := mem }.ok (BitVec.ofNat 64 n))

/-- Needing more input is a success that changes nothing (43_compressor.md R243, 41_match_engine.md R167 to R170, 60_exceptions.md R367):
no flush is requested, no bound input is left, nothing is pending, and the window holds too little to go on. -/
def Obligations.DeflateWaitsForInput : Prop :=
  ∀ s : State, s.fits → s.cu.fault = none → s.cu.phase = .busy → s.cu.flushReq = false → s.cu.inPtr = s.cu.inEnd →
    s.cu.out.fifo = [] → s.cu.out.nbits < 8 → s.cu.strstart < 65274 →
    (if s.cu.level = 0 then s.cu.lookahead = 0 else s.cu.lookahead < 262) →
    exec .cDeflate s = .next (s.ok 0)

/-! ## The compressor's parts -/

/-- 41_match_engine.md R162: Slide moves the upper half of the window down and rebases every stored position. Two clauses are the
model's choice: C_MATCH_START and C_BLOCK_START fall below the range of 10_state.md R32 where the subtraction takes them there (DEDUCED, log 13),
and C_STRSTART, from below 32768, where no caller slides, becomes 0 (DESIGN CHOICE, log 14). -/
def Obligations.SlideRebasesPositions : Prop :=
  ∀ c : CU,
    (∀ i, i < 32768 → c.slide.winAt i = c.winAt (i + 32768)) ∧ (∀ i, 32768 ≤ i → i < 65536 → c.slide.winAt i = c.winAt i) ∧
    c.slide.matchStart = c.matchStart - 32768 ∧ c.slide.strstart = c.strstart - 32768 ∧ c.slide.blockStart = c.blockStart - 32768 ∧
    (∀ h, c.slide.head.get 15 h = if 32768 ≤ c.head.get 15 h then c.head.get 15 h - 32768 else 0) ∧
    (∀ i, c.slide.prev.get 15 i = if 32768 ≤ c.prev.get 15 i then c.prev.get 15 i - 32768 else 0) ∧
    c.slide = { c with
      win := c.slide.win, head := c.slide.head, prev := c.slide.prev
      matchStart := c.slide.matchStart, strstart := c.slide.strstart, blockStart := c.slide.blockStart }

/-- 41_match_engine.md R161: Fill slides if needed and moves bound bytes into the window, counting them and taking their checksum. -/
def Obligations.FillMovesBoundInput : Prop :=
  ∀ (c : CU) (m : Memory),
    let c1 := if 65274 ≤ c.strstart then c.slide else c
    let n := min (65536 - c1.lookahead - c1.strstart) (c1.inEnd - c1.inPtr)
    (¬ (c1.lookahead < 262 ∧ c1.inPtr < c1.inEnd) → c.fill m = c1) ∧
    (c1.lookahead < 262 → c1.inPtr < c1.inEnd → c1.strstart + c1.lookahead ≤ 65536 →
      c.fill m = { c1 with
        win := (c.fill m).win, adler := adler32 (m.readBytes c1.inPtr n) c1.adler, inPtr := c1.inPtr + n
        totalIn := c1.totalIn + BitVec.ofNat 64 n, lookahead := c1.lookahead + n } ∧
      (∀ k, k < n → (c.fill m).winAt (c1.strstart + c1.lookahead + k) = (m.read (c1.inPtr + k)).toNat) ∧
      (∀ p, p < c1.strstart + c1.lookahead ∨ (c1.strstart + c1.lookahead + n ≤ p ∧ p < 65536) → (c.fill m).winAt p = c1.winAt p))

/-- A match that LongestMatch finds is a match: the window holds the same bytes at both places, it is longer than the one held, at most 258
bytes and the lookahead long; and LongestMatch changes nothing but the match registers. Where the candidate lies before the position and at
most MAX_DIST away, as the callers see to, and the chains hold earlier positions only, so does the match: 1 ≤ d ≤ 32506 (41_match_engine.md
R166, R172). -/
def Obligations.LongestMatchFindsEqualBytes : Prop :=
  ∀ (c : CU) (cur : Nat),
    let r := c.longestMatch cur
    r.2 = { c with matchStart := r.2.matchStart, matchLen := r.2.matchLen } ∧
    (r.1 = true → 3 ≤ r.2.matchLen ∧ max c.matchLen 2 < min 258 c.lookahead) ∧
    (max c.matchLen 2 < r.2.matchLen →
      r.2.matchLen ≤ min 258 c.lookahead ∧
      ∃ p : Nat, r.2.matchStart = p ∧ (∀ k, k < r.2.matchLen → c.winAt (p + k) = c.winAt (c.strstart + k)) ∧
        (1 ≤ cur → cur < c.strstart → c.strstart - cur ≤ 32506 → c.prev.allBelow 15 c.strstart →
          1 ≤ p ∧ p < c.strstart ∧ c.strstart - p ≤ 32506)) ∧
    max c.matchLen 2 ≤ r.2.matchLen

/-- 42_huffman_encoder.md R215: every tree built has no length over its limit, at least two coded symbols and a Kraft sum of exactly 1; and
the number of lengths sent covers every coded symbol (R204). So HEAP_INVARIANT is never raised (60_exceptions.md R366). -/
def Obligations.BuiltTreesAreValid : Prop :=
  ∀ (t : HuffTree) (n min limit : Nat),
    (n = 286 ∧ min = 257 ∧ limit = 15) ∨ (n = 30 ∧ min = 1 ∧ limit = 15) ∨ (n = 19 ∧ min = 4 ∧ limit = 7) → t.freq.length = n →
    ∃ b, t.build n min limit = some b ∧ b.freq = t.freq ∧ b.len.length = n ∧ (∀ l ∈ b.len, l ≤ limit) ∧
      2 ≤ (b.len.filter fun l => 0 < l).length ∧ (b.len.map fun l => if l = 0 then 0 else 2 ^ (15 - l)).sum = 2 ^ 15 ∧
      min ≤ b.num ∧ b.num ≤ n ∧ (∀ s, b.num ≤ s → b.len.getD s 0 = 0) ∧ (∀ s, 0 < t.freq.getD s 0 → 0 < b.len.getD s 0)

/-- Expanding the run-length coded lengths gives the lengths back exactly, and each item fits its alphabet and its extra bits
(42_huffman_encoder.md R207, 30_encoding.md R110). -/
def Obligations.RunLengthCodingIsExact : Prop :=
  ∀ lens : List Nat, (∀ l ∈ lens, l ≤ 15) →
    expandItems (rle lens) [] = lens ∧
    ∀ r ∈ rle lens, r.sym ≤ 18 ∧ r.xval < 2 ^ r.xbits ∧ r.xbits = (if r.sym = 16 then 2 else if r.sym = 17 then 3 else if r.sym = 18 then 7 else 0)

/-- The pending output as one bit string: WriteBits appends its n bits least significant first, AlignToByte appends zeros up to a byte
boundary, WriteByte appends a byte, and moving a complete byte into PFIFO changes nothing; PNBITS stays at most 15 (40_bit_output.md
R141, R142, R143, R148, R151). -/
def Obligations.OutputKeepsBitStream : Prop :=
  ∀ o : BitOut, o.nbits ≤ 15 → o.bits.toNat < 2 ^ o.nbits →
    (∀ v n, n ≤ 16 → v < 2 ^ n →
      (o.writeBits v n).stream = o.stream ++ bitsOf n v ∧ (o.writeBits v n).nbits ≤ 15 ∧
      (o.writeBits v n).bits.toNat < 2 ^ (o.writeBits v n).nbits) ∧
    (∃ k, k < 8 ∧ o.alignToByte.stream = o.stream ++ List.replicate k false ∧ o.alignToByte.stream.length % 8 = 0 ∧
      o.alignToByte.nbits = 0 ∧ o.alignToByte.bits = 0) ∧
    (∀ b, b < 256 → o.nbits = 0 → ∃ o', o.writeByte b = .done () o' ∧ o'.stream = o.stream ++ bitsOf 8 b ∧ o'.nbits = 0) ∧
    (∀ b, o.nbits ≠ 0 → o.writeByte b = .raise .bitAlignment o) ∧
    (o.settle.stream = o.stream ∧ o.settle.nbits ≤ 7)

/-- 42_huffman_encoder.md R212: the layout of a stored block, whatever bits are pending before it; it never raises. -/
def Obligations.StoredBlockLayout : Prop :=
  ∀ (c : CU) (data : List Byte) (last : Bool), c.out.nbits ≤ 15 → c.out.bits.toNat < 2 ^ c.out.nbits → data.length ≤ 65535 →
    ∃ c' k, c.emitStored data last = .done () c' ∧ k < 8 ∧ (c.out.stream.length + 3 + k) % 8 = 0 ∧
      c'.out.stream = c.out.stream ++ [last, false, false] ++ List.replicate k false ++ bitsOf 16 data.length ++
        bitsOf 16 (data.length ^^^ 0xFFFF) ++ bitsOfBytes data ∧
      c'.out.nbits = 0 ∧ c' = { c.huffReset with out := c'.out }

/-- 43_compressor.md R246: the flush filler is whole empty static blocks, enough that every bit before it lies in a complete byte, and none at
level 0; it ends the flush request. -/
def Obligations.FlushFillerIsEmptyBlocks : Prop :=
  ∀ c : CU, c.out.nbits ≤ 15 → c.out.bits.toNat < 2 ^ c.out.nbits →
    c.emitFlushFiller = { c with out := c.emitFlushFiller.out, flushReq := false } ∧
    (c.level = 0 → c.emitFlushFiller.out = c.out) ∧
    (c.level ≠ 0 →
      ∃ k, c.emitFlushFiller.out.stream =
          c.out.stream ++ (List.replicate k [false, true, false, false, false, false, false, false, false, false]).flatten ∧
        c.out.stream.length ≤ c.emitFlushFiller.out.stream.length / 8 * 8 ∧
        8 + (8 - c.out.nbits % 8) % 8 ≤ 10 * k ∧ 10 * k < 8 + (8 - c.out.nbits % 8) % 8 + 10)

/-- 43_compressor.md R247: the trailer aligns to a byte, appends the Adler-32 big-endian where zlib framing is on, and finishes the
stream; it never raises. -/
def Obligations.TrailerEndsStream : Prop :=
  ∀ c : CU, c.out.nbits ≤ 15 → c.out.bits.toNat < 2 ^ c.out.nbits →
    ∃ o k, c.emitTrailer = .done () { c with out := o, phase := .finished } ∧ o.nbits = 0 ∧ k < 8 ∧
      (c.out.stream.length + k) % 8 = 0 ∧
      o.stream = c.out.stream ++ List.replicate k false ++
        (if c.nohdr then [] else
          bitsOfBytes [c.adler.extractLsb' 24 8, c.adler.extractLsb' 16 8, c.adler.extractLsb' 8 8, c.adler.extractLsb' 0 8])

/-! ## Shared functions -/

/-- 00_scope.md R15: Adler-32 takes the bytes one after another, and the checksum of no bytes is the initial value, 1. -/
def Obligations.AdlerTakesBytesInOrder : Prop :=
  (∀ a0 : Word, adler32 [] a0 = a0) ∧ adler32 [] 1 = 0x00000001 ∧
  (∀ (x : Byte) (xs : List Byte) (a0 : Word),
    let a := ((a0 &&& 0xFFFF).toNat + x.toNat) % 65521
    let b := ((a0 >>> 16).toNat + a) % 65521
    adler32 (x :: xs) a0 = adler32 xs (BitVec.ofNat 32 (b * 65536 + a))) ∧
  (∀ (xs ys : List Byte) (a0 : Word), adler32 (xs ++ ys) a0 = adler32 ys (adler32 xs a0))

/-- Every match length and distance has a symbol whose range holds it, the extra value fits the extra bits, and the encoder uses symbol 285
for 258 alone (30_encoding.md R105, R106). -/
def Obligations.LengthAndDistanceCodes : Prop :=
  (∀ l, 3 ≤ l → l ≤ 258 →
    257 ≤ lcode l ∧ lcode l ≤ 285 ∧ (lcode l = 285 ↔ l = 258) ∧ baseL (lcode l) ≤ l ∧ l < baseL (lcode l) + 2 ^ extraL (lcode l)) ∧
  (∀ d, 1 ≤ d → d ≤ 32768 → dcode d ≤ 29 ∧ baseD (dcode d) ≤ d ∧ d < baseD (dcode d) + 2 ^ extraD (dcode d))

/-- In an accepted code no codeword is the beginning of another, so decoding is determined (30_encoding.md R108, R112). -/
def Obligations.CanonicalCodesArePrefixFree : Prop :=
  ∀ lens : List Nat, acceptedLens lens → ∀ s t, s < lens.length → t < lens.length → s ≠ t → lens.getD s 0 ≠ 0 → lens.getD t 0 ≠ 0 →
    ¬ (codeword (lens.getD s 0) ((canon lens).getD s 0) <+: codeword (lens.getD t 0) ((canon lens).getD t 0))

/-! ## The decompressor's parts -/

/-- BRTryGet takes the next n bits of the input, least significant first, or takes nothing where fewer are left, having then moved every
bound byte into the reservoir (45_huffman_decode.md R320 to R323). -/
def Obligations.BitReaderTakesStreamBits : Prop :=
  ∀ (d : DU) (m : Memory) (n : Nat), d.ReaderInv → 1 ≤ n → n ≤ 16 →
    let r := d.tryGet m n
    r.2.ReaderInv ∧
    r.2 = { d with res := r.2.res, cnt := r.2.cnt, inPtr := r.2.inPtr } ∧
    (n ≤ (d.stream m).length → r.1 = some (valueOf ((d.stream m).take n)) ∧ r.2.stream m = (d.stream m).drop n) ∧
    ((d.stream m).length < n → r.1 = none ∧ r.2.stream m = d.stream m ∧ r.2.inPtr = r.2.inEnd)

/-- 45_huffman_decode.md R329: with an accepted code, Decode returns the symbol whose codeword the input begins with and takes just that
codeword; it waits, taking nothing, where the input is a proper beginning of a codeword; and any other input is INVALID_CODE, which takes
nothing. Nothing but D_RES, D_CNT and D_IN_PTR changes. The reader's invariant is kept, but that INVALID_CODE may leave up to 22 bits in the
reservoir (log 12). -/
def Obligations.DecodeReadsCodewords : Prop :=
  ∀ (d : DU) (m : Memory) (lens : List Nat), d.ReaderInv → acceptedLens lens →
    let word := fun s => codeword (lens.getD s 0) ((canon lens).getD s 0)
    let coded := fun s => s < lens.length ∧ lens.getD s 0 ≠ 0
    ∃ d' : DU, d' = { d with res := d'.res, cnt := d'.cnt, inPtr := d'.inPtr } ∧
      (∀ s, coded s → word s <+: d.stream m →
        d.decode m lens = .done (some s) d' ∧ d'.stream m = (d.stream m).drop (lens.getD s 0) ∧ d'.ReaderInv) ∧
      (∀ s, coded s → d.stream m <+: word s → d.stream m ≠ word s →
        d.decode m lens = .done none d' ∧ d'.stream m = d.stream m ∧ d'.inPtr = d'.inEnd ∧ d'.ReaderInv) ∧
      ((∀ s, coded s → ¬ word s <+: d.stream m ∧ ¬ d.stream m <+: word s) →
        d.decode m lens = .raise .invalidCode d' ∧ d'.stream m = d.stream m ∧
        d'.inPtr ≤ d'.inEnd ∧ d'.res.toNat < 2 ^ d'.cnt ∧ d'.cnt ≤ 22)

/-- Repeat copies one byte at a time, so a copy longer than its distance repeats the bytes it has itself made; nothing undelivered is
overwritten where there is room (44_decompressor.md R291, 30_encoding.md R111). And the symbol loop around it (R293 to R296): what each of the
steps HUF, HUF_LB, HUF_D and HUF_DB does with the symbol or the extra bits it reads, with its errors, a distance beyond the history among
them, and that the loop goes on from there. -/
def Obligations.RepeatCopiesHistory : Prop :=
  (∀ (d : DU) (dist l : Nat), d.WindowInv → 1 ≤ dist → dist ≤ 32768 → d.filled + l ≤ 65536 →
    let r := DU.replay dist l d
    r.WindowInv ∧ r.filled = d.filled + l ∧ r.pending.take d.filled = d.pending ∧
    (∀ k, k < l → k < dist → r.pending.getD (d.filled + k) 0 = d.byteBack (dist - k)) ∧
    (∀ k, k < l → dist ≤ k → r.pending.getD (d.filled + k) 0 = r.pending.getD (d.filled + k - dist) 0) ∧
    r = { d with owin := r.owin, wend := r.wend, filled := r.filled, hist := r.hist }) ∧
  (∀ (d : DU) (m : Memory), d.mode.inSymbols = true → 65536 < d.filled + 258 → d.step m = .done true d) ∧
  (∀ (d : DU) (m : Memory), d.filled + 258 ≤ 65536 → d.mode = .huf → d.WindowInv →
    (∀ d', d.decode m d.ltab.litLens = .done none d' → d.step m = .done false d') ∧
    (∀ e d', d.decode m d.ltab.litLens = .raise e d' → d.step m = .raise e d') ∧
    (∀ s d', d.decode m d.ltab.litLens = .done (some s) d' →
      (s < 256 →
        ∃ d'' : DU, d'' = { d' with
            owin := d''.owin, wend := (d.wend + 1) % 65536, filled := d.filled + 1, hist := min (d.hist + 1) 65536 } ∧
          d''.pending = d.pending ++ [BitVec.ofNat 8 s] ∧ d.step m = d''.step m) ∧
      (s = 256 → d.step m = .done true { d' with mode := .blocks }) ∧
      (257 ≤ s → s ≤ 285 → d.step m = DU.step { d' with rlen := baseL s, needed := extraL s, mode := .hufLb } m) ∧
      (286 ≤ s → d.step m = .raise .lengthCode d'))) ∧
  (∀ (d : DU) (m : Memory), d.filled + 258 ≤ 65536 → d.mode = .hufD →
    (∀ d', d.decode m d.dtab.distLens = .done none d' → d.step m = .done false d') ∧
    (∀ e d', d.decode m d.dtab.distLens = .raise e d' → d.step m = .raise e d') ∧
    (∀ s d', d.decode m d.dtab.distLens = .done (some s) d' →
      (s ≤ 29 → d.step m = DU.step { d' with rdist := baseD s, needed := extraD s, mode := .hufDb } m) ∧
      (30 ≤ s → d.step m = .raise .distanceCode d'))) ∧
  (∀ (d : DU) (m : Memory), d.filled + 258 ≤ 65536 → d.mode = .hufLb ∨ d.mode = .hufDb → d.ReaderInv → d.needed ≤ 16 →
    let bits := d.stream m
    let len := d.rlen + valueOf (bits.take d.needed)
    let dist := d.rdist + valueOf (bits.take d.needed)
    ∃ d' : DU, d' = { d with res := d'.res, cnt := d'.cnt, inPtr := d'.inPtr } ∧
      (bits.length < d.needed → d.step m = .done false d' ∧ d'.stream m = bits ∧ d'.inPtr = d'.inEnd) ∧
      (d.needed ≤ bits.length → d'.stream m = bits.drop d.needed ∧
        (d.mode = .hufLb → d.step m = DU.step { d' with rlen := len, mode := .hufD } m) ∧
        (d.mode = .hufDb → d.hist < dist → d.step m = .raise .distanceTooFar { d' with rdist := dist }) ∧
        (d.mode = .hufDb → dist ≤ d.hist →
          d.step m = DU.step { DU.replay dist d.rlen { d' with rdist := dist } with mode := .huf } m)))

/-- 44_decompressor.md R285: the zlib header, its two checks in their order, and the mode it leads to. -/
def Obligations.HeaderModeChecksHeader : Prop :=
  ∀ (d : DU) (m : Memory), d.ReaderInv → d.mode = .header →
    let bits := d.stream m
    let h := valueOf (bits.take 8) * 256 + valueOf ((bits.drop 8).take 8)
    ∃ d' : DU, d' = { d with res := d'.res, cnt := d'.cnt, inPtr := d'.inPtr } ∧
      (bits.length < 16 → d.step m = .done false d' ∧ d'.stream m = bits ∧ d'.inPtr = d'.inEnd) ∧
      (16 ≤ bits.length → d'.stream m = bits.drop 16 ∧
        (h % 31 ≠ 0 → d.step m = .raise .headerChecksum d') ∧
        (h % 31 = 0 → (h / 256) % 16 ≠ 8 → d.step m = .raise .method d') ∧
        (h % 31 = 0 → (h / 256) % 16 = 8 → (h / 32) % 2 = 1 → d.step m = .done true { d' with mode := .dict, needed := 32 }) ∧
        (h % 31 = 0 → (h / 256) % 16 = 8 → (h / 32) % 2 = 0 → d.step m = .done true { d' with mode := .blocks }))

/-- 44_decompressor.md R286 and R287: between blocks, the end of the stream after the final block, once every byte is delivered, or a block
header, BFINAL taken before BTYPE is checked. And the header of a dynamic block (R292, 46_dynamic_header.md R342 to R348): what each phase does
with the field or the symbol it reads, with its errors, each in its order; the step then goes on from there, and at the end with the codes
read. -/
def Obligations.BlockHeaderChoosesMode : Prop :=
  (∀ (d : DU) (m : Memory), d.mode = .blocks → d.last = true →
    (0 < d.filled → d.step m = .done false d) ∧
    (d.filled = 0 → d.nohdr = true → d.step m = .done false { d with mode := .fin }) ∧
    (d.filled = 0 → d.nohdr = false → d.ReaderInv →
      ∃ d' : DU, d' = { d with res := d'.res, cnt := d'.cnt } ∧ d'.stream m = (d.stream m).drop ((d.stream m).length % 8) ∧
        d.step m = .done true { d' with needed := 32, mode := .chk })) ∧
  (∀ (d : DU) (m : Memory), d.ReaderInv → d.mode = .blocks → d.last = false →
    let bits := d.stream m
    let btype := valueOf ((bits.drop 1).take 2)
    ∃ d' : DU, d' = { d with res := d'.res, cnt := d'.cnt, inPtr := d'.inPtr } ∧
      (bits.length < 3 → d.step m = .done false d' ∧ d'.stream m = bits ∧ d'.inPtr = d'.inEnd) ∧
      (3 ≤ bits.length →
        (btype = 0 → d.step m = .done true { d' with last := bits.getD 0 false, mode := .slen1 } ∧
          d'.stream m = bits.drop (3 + (bits.length - 3) % 8)) ∧
        (btype = 1 → d.step m = .done true { d' with last := bits.getD 0 false, ltab := .fixed, dtab := .fixed, mode := .huf } ∧
          d'.stream m = bits.drop 3) ∧
        (btype = 2 →
          d.step m =
            .done true { d' with
              last := bits.getD 0 false, mode := .dyn
              dh := { d.dh with
                phase := .hlit, i := 0, index := 0, metaLen := List.replicate 19 0, cl := List.replicate 320 0 } } ∧
          d'.stream m = bits.drop 3) ∧
        (btype = 3 → d.step m = .raise .blockType { d' with last := bits.getD 0 false } ∧ d'.stream m = bits.drop 3))) ∧
  (∀ (d : DU) (m : Memory), d.ReaderInv → d.mode = .dyn → d.dh.hlit + d.dh.hdist ≤ d.dh.cl.length →
    d.dh.phase = .hlit ∨ d.dh.phase = .hdist ∨ d.dh.phase = .hclen ∨ (d.dh.phase = .clen ∧ d.dh.i < d.dh.hclen) ∨ d.dh.phase = .rep →
    let h := d.dh
    let bits := d.stream m
    let width :=
      if h.phase = .hlit ∨ h.phase = .hdist then 5
      else if h.phase = .hclen then 4
      else if h.phase = .clen then 3
      else if h.rsym = .prev then 2
      else if h.rsym = .zerosShort then 3
      else 7
    let v := valueOf (bits.take width)
    let count := (if h.rsym = .zerosLong then 11 else 3) + v
    let val := if h.rsym = .prev then h.cl.getD (h.index - 1) 0 else 0
    ∃ d' : DU, d' = { d with res := d'.res, cnt := d'.cnt, inPtr := d'.inPtr } ∧
      (bits.length < width → d.step m = .done false d' ∧ d'.stream m = bits ∧ d'.inPtr = d'.inEnd) ∧
      (width ≤ bits.length → d'.stream m = bits.drop width ∧
        (h.phase = .hlit → d.step m = DU.step { d' with dh := { h with hlit := v + 257, phase := .hdist } } m) ∧
        (h.phase = .hdist → d.step m = DU.step { d' with dh := { h with hdist := v + 1, phase := .hclen } } m) ∧
        (h.phase = .hclen → 286 < h.hlit → d.step m = .raise .hlitRange { d' with dh := { h with hclen := v + 4 } }) ∧
        (h.phase = .hclen → h.hlit ≤ 286 → 30 < h.hdist → d.step m = .raise .hdistRange { d' with dh := { h with hclen := v + 4 } }) ∧
        (h.phase = .hclen → h.hlit ≤ 286 → h.hdist ≤ 30 →
          d.step m = DU.step { d' with dh := { h with hclen := v + 4, phase := .clen } } m) ∧
        (h.phase = .clen →
          d.step m = DU.step { d' with dh := { h with metaLen := h.metaLen.set (blOrder.getD h.i 0) v, i := h.i + 1 } } m) ∧
        (h.phase = .rep → h.hlit + h.hdist < h.index + count → d.step m = .raise .repeatOverflow d') ∧
        (h.phase = .rep → h.index + count ≤ h.hlit + h.hdist →
          d.step m =
            DU.step { d' with dh := { h with
              cl := h.cl.take h.index ++ List.replicate count val ++ h.cl.drop (h.index + count)
              index := h.index + count, phase := .sym } } m))) ∧
  (∀ (d : DU) (m : Memory), d.mode = .dyn → d.dh.phase = .clen → d.dh.hclen ≤ d.dh.i →
    (oversubscribed d.dh.metaLen = true → d.step m = .raise .oversubscribed d) ∧
    (oversubscribed d.dh.metaLen = false → d.step m = DU.step { d with dh := { d.dh with phase := .sym } } m)) ∧
  (∀ (d : DU) (m : Memory), d.mode = .dyn → d.dh.phase = .sym → d.dh.index < d.dh.hlit + d.dh.hdist →
    let h := d.dh
    (∀ d', d.decode m h.metaLen = .done none d' → d.step m = .done false d') ∧
    (∀ e d', d.decode m h.metaLen = .raise e d' → d.step m = .raise e d') ∧
    (∀ s d', d.decode m h.metaLen = .done (some s) d' →
      (s < 16 → d.step m = DU.step { d' with dh := { h with cl := h.cl.set h.index s, index := h.index + 1 } } m) ∧
      (s = 16 → h.index = 0 → d.step m = .raise .repeatNoPrevious d') ∧
      (s = 16 → 0 < h.index → d.step m = DU.step { d' with dh := { h with rsym := .prev, phase := .rep } } m) ∧
      (s = 17 → d.step m = DU.step { d' with dh := { h with rsym := .zerosShort, phase := .rep } } m) ∧
      (s = 18 → d.step m = DU.step { d' with dh := { h with rsym := .zerosLong, phase := .rep } } m))) ∧
  (∀ (d : DU) (m : Memory), d.mode = .dyn → d.dh.phase = .sym → d.dh.hlit + d.dh.hdist ≤ d.dh.index →
    let h := d.dh
    let lit := h.cl.take h.hlit
    let dist := (h.cl.drop h.hlit).take h.hdist
    (h.cl.getD 256 0 = 0 → d.step m = .raise .noEndOfBlock d) ∧
    (h.cl.getD 256 0 ≠ 0 → oversubscribed lit = true ∨ oversubscribed dist = true → d.step m = .raise .oversubscribed d) ∧
    (h.cl.getD 256 0 ≠ 0 → oversubscribed lit = false → oversubscribed dist = false →
      d.step m = DU.step { d with ltab := .lens lit, dtab := .lens dist, mode := .huf, dh := { h with phase := .done } } m))

/-- A stored block: LEN, then NLEN, which must be LEN's complement, each continuing with the next mode; then mode STORED copies as many whole bytes
as are left, fit and are available, in order, ending the block where none is left (44_decompressor.md R289, R290). -/
def Obligations.StoredBlockCopies : Prop :=
  ∀ (d : DU) (m : Memory), d.ReaderInv → d.WindowInv → d.cnt % 8 = 0 →
    let bits := d.stream m
    (d.mode = .slen1 ∨ d.mode = .slen2 →
      ∃ d' : DU, d' = { d with res := d'.res, cnt := d'.cnt, inPtr := d'.inPtr } ∧
        (bits.length < 16 → d.step m = .done false d' ∧ d'.stream m = bits ∧ d'.inPtr = d'.inEnd) ∧
        (16 ≤ bits.length → d'.stream m = bits.drop 16 ∧
          (d.mode = .slen1 → d.step m = DU.step { d' with ulen := BitVec.ofNat 16 (valueOf (bits.take 16)), mode := .slen2 } m) ∧
          (d.mode = .slen2 → valueOf (bits.take 16) ≠ d.ulen.toNat ^^^ 0xFFFF → d.step m = .raise .storedLength d') ∧
          (d.mode = .slen2 → valueOf (bits.take 16) = d.ulen.toNat ^^^ 0xFFFF → d.step m = DU.step { d' with mode := .stored } m))) ∧
    (d.mode = .stored →
      let n := min (min d.ulen.toNat (65536 - d.filled)) (bits.length / 8)
      ∃ (d' : DU) (more : Bool), d.step m = .done more d' ∧ d'.pending = d.pending ++ bytesOf n bits ∧ d'.stream m = bits.drop (8 * n) ∧
        d' = { d with
          res := d'.res, cnt := d'.cnt, inPtr := d'.inPtr, owin := d'.owin
          wend := (d.wend + n) % 65536, filled := d.filled + n, hist := min (d.hist + n) 65536
          ulen := d.ulen - BitVec.ofNat 16 n, mode := if n = d.ulen.toNat then .blocks else .stored } ∧
        (n = d.ulen.toNat → more = true) ∧ (n < d.ulen.toNat → (more = true ↔ d'.inPtr ≠ d'.inEnd)))

/-- 44_decompressor.md R288 and R297: the DICTID and the trailer are read byte by byte, big-endian, as far as the input goes and resumed where it
ended; the trailer must be the Adler-32 of the delivered bytes, or the stream is aborted with CHECKSUM. -/
def Obligations.ChecksumFieldsAreRead : Prop :=
  ∀ (d : DU) (m : Memory), d.ReaderInv → d.mode = .dict ∨ d.mode = .chk → d.needed ≤ 32 → d.needed % 8 = 0 →
    let bits := d.stream m
    let k := min (d.needed / 8) (bits.length / 8)
    let field := (bytesOf k bits).foldl (fun (a : Word) (b : Byte) => (a <<< 8) ||| b.zeroExtend 32) d.readAdler
    ∃ d' : DU,
      d' = { d with res := d'.res, cnt := d'.cnt, inPtr := d'.inPtr, readAdler := field, needed := d.needed - 8 * k } ∧
      d'.stream m = bits.drop (8 * k) ∧
      (8 * k < d.needed → d.step m = .done false d' ∧ d'.inPtr = d'.inEnd) ∧
      (8 * k = d.needed →
        (d.mode = .dict → d.step m = .done false d') ∧
        (d.mode = .chk → d.adler = field → d.step m = .done false { d' with mode := .fin }) ∧
        (d.mode = .chk → d.adler ≠ field → d.step m = .raise .checksum d'))

/-! ## D.INFLATE -/

/-- D.INFLATE ends with a success response, or with the error response of a DATA_FORMAT error that aborts the unit; either way RESULT counts
the bytes it delivered from ARG_ADDR on, which stay, and memory outside them is unchanged (44_decompressor.md R284, 60_exceptions.md
R360, R361, R364, 20_memory.md R79). -/
def Obligations.InflateResponds : Prop :=
  ∀ s : State, s.fits → s.du.fault = none → ¬ s.outputMeets s.du.inPtr s.du.inEnd → s.du.inPtr ≤ s.du.inEnd →
    ∃ (du : DU) (mem : Memory) (n : Nat),
      n ≤ s.port.argLen.toNat ∧ (∀ a, ¬ s.wrote n a → mem.read a = s.mem.read a) ∧
      du.totalOut = s.du.totalOut + BitVec.ofNat 64 n ∧ du.nohdr = s.du.nohdr ∧ du.bound = s.du.bound ∧ du.inEnd = s.du.inEnd ∧
      s.du.inPtr ≤ du.inPtr ∧ du.inPtr ≤ du.inEnd ∧ du.fault = none ∧
      (exec .dInflate s = .next ({ s with du := du, mem := mem }.ok (BitVec.ofNat 64 n)) ∨
        ∃ e : Err, e.classSub.1 = 4 ∧
          exec .dInflate s =
            .next ({ s with du := { du with fault := some e }, mem := mem }.respond (BitVec.ofNat 64 n) e.code true))

/-- Where the window already holds the bytes asked for, D.INFLATE completes by delivering the oldest of them, decodes nothing, and takes their
checksum (44_decompressor.md R284, R291). -/
def Obligations.InflateDeliversHeldBytes : Prop :=
  ∀ s : State, s.fits → s.mem.wf = true → s.du.fault = none → ¬ s.outputMeets s.du.inPtr s.du.inEnd → s.du.mode ≠ .chk → s.du.WindowInv →
    0 < s.port.argLen.toNat → s.port.argLen.toNat ≤ s.du.filled →
    let n := s.port.argLen.toNat
    ∃ mem, (∀ k, k < n → mem.read (s.port.argAddr + k) = s.du.pending.getD k 0) ∧
      (∀ a, ¬ s.wrote n a → mem.read a = s.mem.read a) ∧
      exec .dInflate s =
        .next ({ s with
          du := { s.du with
            filled := s.du.filled - n, adler := adler32 (s.du.pending.take n) s.du.adler
            totalOut := s.du.totalOut + BitVec.ofNat 64 n }
          mem := mem }.ok (BitVec.ofNat 64 n))

/-- Finished, waiting for a dictionary, or out of input: D.INFLATE completes with RESULT 0 and changes nothing but the port
(44_decompressor.md R284, R285, R288, R298, 60_exceptions.md R367). -/
def Obligations.InflateHasNothingToDo : Prop :=
  ∀ s : State, s.fits → s.du.fault = none → ¬ s.outputMeets s.du.inPtr s.du.inEnd → s.du.filled = 0 →
    s.du.mode = .fin ∨ (s.du.mode = .dict ∧ s.du.needed = 0) ∨
      (s.du.mode = .header ∧ s.du.inPtr = s.du.inEnd ∧ s.du.cnt < 16) ∨
      (s.du.mode = .blocks ∧ s.du.last = false ∧ s.du.inPtr = s.du.inEnd ∧ s.du.cnt < 3) →
    exec .dInflate s = .next (s.ok 0)

/-- With ARG_LEN = 0, D.INFLATE makes exactly one decode step and delivers nothing; an error of that step is reported and aborts the unit
(44_decompressor.md R283, R284, 60_exceptions.md R361). -/
def Obligations.InflateWithoutRoomIsOneStep : Prop :=
  ∀ s : State, s.fits → s.du.fault = none → s.port.argLen = 0 →
    (s.du.mode = .fin → s.du.filled = 0 → exec .dInflate s = .next (s.ok 0)) ∧
    (¬ (s.du.mode = .fin ∧ s.du.filled = 0) →
      (∀ more d, s.du.step s.mem = .done more d → exec .dInflate s = .next ({ s with du := d }.ok 0)) ∧
      (∀ e d, s.du.step s.mem = .raise e d → exec .dInflate s = .next ({ s with du := { d with fault := some e } }.refuse e.code)))

/-- D.INFLATE returns fewer bytes than its buffer holds only where its input is used up, a dictionary is needed or the stream is finished
(44_decompressor.md R284, R307, 60_exceptions.md R367). -/
def Obligations.InflateShortOnlyWhenDone : Prop :=
  ∀ s t : State, s.du.Inv (2 ^ s.params.aw) → exec .dInflate s = .next t → t.port.errcode = 0 → t.port.result.toNat < s.port.argLen.toNat →
    t.du.inPtr = t.du.inEnd ∨ t.du.mode = .fin ∨ (t.du.mode = .dict ∧ t.du.needed = 0)

/-! ## Invariants -/

/-- Every step keeps host memory canonical and inside the address space (20_memory.md R70), ARG_ADDR in its width, and ERRCODE and LASTERR those
of a success or of a listed error: no other pair of class and subcode is ever written (10_state.md R22, R23, 60_exceptions.md R363). -/
def Obligations.MemoryAndPortInvariantKept : Prop :=
  ∀ s t : State, step s = .next t → (s.MemInv → t.MemInv) ∧ (s.PortInv → t.PortInv)

/-- Every step keeps the invariants of the CU, 10_state.md R36 (a) to (g); so C_FAULT is NONE for ever (R27). -/
def Obligations.CompressorInvariantKept : Prop :=
  ∀ s t : State, s.cu.Inv (2 ^ s.params.aw) → step s = .next t → t.cu.Inv (2 ^ t.params.aw)

/-- Every step keeps the invariants of the DU, 10_state.md R46 (a) to (e), R39 (a pending length of at least 3 and a
pending distance of at least 1), R40, R44 (the ranges of the parser's registers) and 30_encoding.md R112. -/
def Obligations.DecompressorInvariantKept : Prop :=
  ∀ s t : State, s.du.Inv (2 ^ s.params.aw) → step s = .next t → t.du.Inv (2 ^ t.params.aw)

/-- The invariants hold at power-on, whatever the parameters (70_reset_and_hazards.md R391), and so at reset. -/
def Obligations.InvariantsHoldAtPowerOn : Prop :=
  (∀ p : Params, (State.powerOn p).Inv) ∧ State.reset.Inv
end

