-- ==== Sys2Proof/Laws/Arrays.lean ====
section
/-! SUPPORT. Internal arrays: what an element reads as after each operation (10_state.md R30, R31, R33, R41; log 11). -/

namespace Sys2Proof.Machine

@[simp] theorem Tbl.get_nil (d i : Nat) : Tbl.get d .nil i = 0 := by cases d <;> rfl

/-- An element lies in the half that its index's top bit names. -/
theorem Tbl.get_succ (d : Nat) (t : Tbl) (i : Nat) :
    Tbl.get (d + 1) t i = if i.testBit d then Tbl.get d t.halves.2 i else Tbl.get d t.halves.1 i := by
  cases t <;> simp [Tbl.get, Tbl.halves]

/-- A node without its empty halves reads as the node. -/
theorem Tbl.get_join (d : Nat) (l r : Tbl) (i : Nat) :
    Tbl.get (d + 1) (Tbl.join l r) i = if i.testBit d then Tbl.get d r i else Tbl.get d l i := by
  rw [Tbl.get_succ]
  cases l <;> cases r <;> simp [Tbl.join, Tbl.halves]

/-- Only the low bits of an index count. -/
theorem Tbl.get_congr {d : Nat} (t : Tbl) {i j : Nat} (h : ∀ k, k < d → i.testBit k = j.testBit k) : Tbl.get d t i = Tbl.get d t j := by
  induction d generalizing t with
  | zero => cases t <;> rfl
  | succ d ih =>
    rw [Tbl.get_succ, Tbl.get_succ, h d (by omega)]
    have := fun t => ih t fun k hk => h k (by omega)
    rw [this, this]

/-- An index is taken modulo the array's size. -/
theorem Tbl.get_mod (d : Nat) (t : Tbl) (i : Nat) : Tbl.get d t (i % 2 ^ d) = Tbl.get d t i :=
  Tbl.get_congr t fun k hk => by simp [Nat.testBit_mod_two_pow, hk]

/-- The written element reads as written. -/
theorem Tbl.get_set_self (d : Nat) (t : Tbl) (i v : Nat) : Tbl.get d (Tbl.set d t i v) i = v := by
  induction d generalizing t with
  | zero =>
    by_cases hv : v = 0
    · simp [Tbl.set, hv]
    · simp [Tbl.set, hv, Tbl.get]
  | succ d ih =>
    simp only [Tbl.set]
    split
    · next h => rw [Tbl.get_join, if_pos h, ih]
    · next h => rw [Tbl.get_join, if_neg h, ih]

/-- Every element at another index reads as before. -/
theorem Tbl.get_set_ne {d : Nat} (t : Tbl) {i j : Nat} (v : Nat) (h : i % 2 ^ d ≠ j % 2 ^ d) :
    Tbl.get d (Tbl.set d t i v) j = Tbl.get d t j := by
  induction d generalizing t with
  | zero => simp [Nat.mod_one] at h
  | succ d ih =>
    have key : i.testBit d = j.testBit d → i % 2 ^ d ≠ j % 2 ^ d := by
      intro hb he
      apply h
      apply Nat.eq_of_testBit_eq
      intro k
      have hk := congrArg (fun n => n.testBit k) he
      simp only [Nat.testBit_mod_two_pow] at hk ⊢
      rcases Nat.lt_trichotomy k d with hlt | heq | hgt
      · simpa [hlt, Nat.lt_succ_of_lt hlt] using hk
      · subst heq; simp [hb]
      · simp [show ¬ k < d + 1 by omega]
    simp only [Tbl.set]
    rw [Tbl.get_succ d t j]
    split
    · next hi =>
      rw [Tbl.get_join]
      split
      · next hj => exact ih _ (key (by rw [hi, hj]))
      · rfl
    · next hi =>
      rw [Tbl.get_join]
      split
      · rfl
      · next hj => exact ih _ (key (by simp only [Bool.not_eq_true] at hi hj; rw [hi, hj]))

/-- An element after a write, for indexes in range. -/
theorem Tbl.get_set {d : Nat} (t : Tbl) {i j : Nat} (v : Nat) (hi : i < 2 ^ d) (hj : j < 2 ^ d) :
    Tbl.get d (Tbl.set d t i v) j = if i = j then v else Tbl.get d t j := by
  split
  · next h => rw [← h, Tbl.get_set_self]
  · next h => exact Tbl.get_set_ne t v (by rwa [Nat.mod_eq_of_lt hi, Nat.mod_eq_of_lt hj])

/-- The rebasing of 41_match_engine.md R162, element by element. -/
theorem Tbl.get_rebase (d k : Nat) (t : Tbl) (i : Nat) :
    Tbl.get d (t.rebase k) i = if k ≤ Tbl.get d t i then Tbl.get d t i - k else 0 := by
  induction d generalizing t with
  | zero =>
    cases t with
    | nil => simp [Tbl.rebase]
    | leaf v =>
      have h0 : Tbl.get 0 (.leaf v) i = v := rfl
      rw [h0]
      by_cases h : k < v
      · have h1 : Tbl.get 0 (Tbl.rebase k (.leaf v)) i = v - k := by simp [Tbl.rebase, h, Tbl.get]
        rw [h1, if_pos (by omega)]
      · have h1 : Tbl.get 0 (Tbl.rebase k (.leaf v)) i = 0 := by simp [Tbl.rebase, h]
        rw [h1]; split <;> omega
    | node l r =>
      have h0 : Tbl.get 0 (.node l r) i = 0 := rfl
      rw [h0]
      have h1 : Tbl.get 0 (Tbl.rebase k (.node l r)) i = 0 := by
        simp only [Tbl.rebase]
        cases Tbl.rebase k l <;> cases Tbl.rebase k r <;> rfl
      rw [h1]; split <;> omega
  | succ d ih =>
    cases t with
    | nil => simp [Tbl.rebase]
    | leaf v =>
      have h0 : Tbl.get (d + 1) (.leaf v) i = 0 := rfl
      rw [h0]
      have h1 : Tbl.get (d + 1) (Tbl.rebase k (.leaf v)) i = 0 := by simp only [Tbl.rebase]; split <;> simp [Tbl.get]
      rw [h1]; split <;> omega
    | node l r =>
      simp only [Tbl.rebase]
      rw [Tbl.get_join, Tbl.get_succ]
      simp only [Tbl.halves]
      split
      · exact ih r
      · exact ih l

/-- The move of 41_match_engine.md R162: below half the size, the element half the size further on. -/
theorem Tbl.get_copyUpper {d : Nat} (t : Tbl) {i : Nat} (h : i < 2 ^ d) :
    Tbl.get (d + 1) t.copyUpper i = Tbl.get (d + 1) t (i + 2 ^ d) := by
  unfold Tbl.copyUpper
  have hb : (i + 2 ^ d).testBit d = true := by rw [Nat.add_comm, Nat.testBit_two_pow_add_eq, Nat.testBit_lt_two_pow h]; rfl
  rw [Tbl.get_join, Tbl.get_succ, if_pos hb]
  simp only [ite_self]
  refine Tbl.get_congr _ fun k hk => ?_
  rw [Nat.add_comm, Nat.testBit_two_pow_add_gt hk]

/-- Every element of the move is an element of the array. -/
theorem Tbl.get_copyUpper_mem (d : Nat) (t : Tbl) (i : Nat) : ∃ j, Tbl.get (d + 1) t.copyUpper i = Tbl.get (d + 1) t j := by
  refine ⟨(i % 2 ^ d) + 2 ^ d, ?_⟩
  have h : i % 2 ^ d < 2 ^ d := Nat.mod_lt _ (by positivity)
  rw [← Tbl.get_copyUpper t h]
  unfold Tbl.copyUpper
  simp only [Tbl.get_join, ite_self]
  exact (Tbl.get_mod d _ i).symm

/-- The elements outside a run that does not wrap read as before. -/
theorem Tbl.get_setList_out {d : Nat} (t : Tbl) {i j : Nat} {vs : List Nat} (h : ¬ (i ≤ j ∧ j < i + vs.length))
    (hfit : i + vs.length ≤ 2 ^ d) (hj : j < 2 ^ d) : Tbl.get d (Tbl.setList d t i vs) j = Tbl.get d t j := by
  induction vs generalizing t i with
  | nil => rfl
  | cons v vs ih =>
    simp only [List.length_cons] at h hfit
    simp only [Tbl.setList]
    rw [ih _ (by omega) (by omega)]
    exact Tbl.get_set_ne _ _ (by rw [Nat.mod_eq_of_lt (by omega), Nat.mod_eq_of_lt hj]; omega)

/-- The elements written by a run, where the run does not wrap. -/
theorem Tbl.get_setList_in {d : Nat} (t : Tbl) {i : Nat} {vs : List Nat} {k : Nat} (h : k < vs.length) (hfit : i + vs.length ≤ 2 ^ d) :
    Tbl.get d (Tbl.setList d t i vs) (i + k) = vs.getD k 0 := by
  induction vs generalizing t i k with
  | nil => simp at h
  | cons v vs ih =>
    simp only [List.length_cons] at h hfit
    simp only [Tbl.setList]
    cases k with
    | zero =>
      rw [Tbl.get_setList_out _ (by omega) (by omega) (by omega)]
      simpa using Tbl.get_set_self d t i v
    | succ k =>
      rw [show i + (k + 1) = i + 1 + k by omega, ih _ (by omega) (by omega)]
      simp

/-- A property of every element is kept by a write of a value that has it. -/
theorem Tbl.forall_set {d : Nat} {t : Tbl} {P : Nat → Prop} (ht : ∀ i, P (Tbl.get d t i)) (i : Nat) {v : Nat} (hv : P v) :
    ∀ j, P (Tbl.get d (Tbl.set d t i v) j) := by
  intro j
  by_cases h : i % 2 ^ d = j % 2 ^ d
  · rw [← Tbl.get_mod, ← h, Tbl.get_mod, Tbl.get_set_self]; exact hv
  · rw [Tbl.get_set_ne t v h]; exact ht j

/-- A property of every element is kept by a run of writes of values that have it. -/
theorem Tbl.forall_setList {d : Nat} {t : Tbl} {P : Nat → Prop} (ht : ∀ i, P (Tbl.get d t i)) (i : Nat) {vs : List Nat}
    (hv : ∀ v ∈ vs, P v) : ∀ j, P (Tbl.get d (Tbl.setList d t i vs) j) := by
  induction vs generalizing t i with
  | nil => exact ht
  | cons v vs ih =>
    exact ih (Tbl.forall_set ht i (hv v (by simp))) (i + 1) fun w hw => hv w (by simp [hw])

end Sys2Proof.Machine
end

