-- ==== Sys2Proof/Laws/Bits.lean ====
section
/-! SUPPORT. Bit strings: numbers as bits and back, and bytes as bits (00_scope.md R14, 20_memory.md R76). -/

namespace Sys2Proof.Machine

theorem bitsOf_length (n v : Nat) : (bitsOf n v).length = n := by
  induction n generalizing v with
  | zero => rfl
  | succ n ih => simp [bitsOf, ih]

/-- The number of n bits is what the bits were taken of, modulo 2^n. -/
theorem valueOf_bitsOf (n v : Nat) : valueOf (bitsOf n v) = v % 2 ^ n := by
  induction n generalizing v with
  | zero => simp [bitsOf, valueOf, ofBits, Nat.mod_one]
  | succ n ih =>
    have h := ih (v / 2)
    simp only [valueOf] at h
    simp only [bitsOf, valueOf, ofBits, h]
    have h2 : ((v % 2 == 1).toNat) = v % 2 := by
      rcases Nat.mod_two_eq_zero_or_one v with h | h <;> simp [h]
    rw [h2, pow_succ, Nat.mul_comm (2 ^ n) 2, Nat.mod_mul]

theorem valueOf_lt (bs : List Bool) : valueOf bs < 2 ^ bs.length := by
  induction bs with
  | nil => simp [valueOf, ofBits]
  | cons b bs ih =>
    simp only [valueOf] at ih
    simp only [valueOf, ofBits, List.length_cons, pow_succ]
    have : b.toNat ≤ 1 := by cases b <;> simp
    omega

/-- Bits are what their number has. -/
theorem bitsOf_valueOf (bs : List Bool) : bitsOf bs.length (valueOf bs) = bs := by
  induction bs with
  | nil => rfl
  | cons b bs ih =>
    simp only [valueOf] at ih
    simp only [valueOf, ofBits, List.length_cons, bitsOf]
    have h1 : (b.toNat + 2 * ofBits bs) / 2 = ofBits bs := by have := b.toNat_lt; omega
    have h2 : ((b.toNat + 2 * ofBits bs) % 2 == 1) = b := by cases b <;> simp
    rw [h1, h2, ih]

/-- The lower m bits and then the upper n. -/
theorem bitsOf_append (m n v : Nat) : bitsOf (m + n) v = bitsOf m v ++ bitsOf n (v / 2 ^ m) := by
  induction m generalizing v with
  | zero => simp [bitsOf]
  | succ m ih =>
    rw [Nat.succ_add]
    simp only [bitsOf, List.cons_append]
    rw [ih, Nat.div_div_eq_div_mul, pow_succ, Nat.mul_comm (2 ^ m) 2]

/-- Only the n low bits count. -/
theorem bitsOf_mod (n v : Nat) : bitsOf n (v % 2 ^ n) = bitsOf n v := by
  induction n generalizing v with
  | zero => rfl
  | succ n ih =>
    simp only [bitsOf]
    have h1 : v % 2 ^ (n + 1) % 2 = v % 2 := Nat.mod_mod_of_dvd v ⟨2 ^ n, by rw [pow_succ, Nat.mul_comm]⟩
    have h2 : v % 2 ^ (n + 1) / 2 = v / 2 % 2 ^ n := by
      rw [pow_succ, Nat.mul_comm, Nat.mod_mul, Nat.add_mul_div_left _ _ (by decide)]
      have := Nat.mod_lt v (show 0 < 2 by decide)
      omega
    rw [h1, h2, ih]

/-- Numbers of n bits are told apart by their bits. -/
theorem bitsOf_inj {n a b : Nat} (ha : a < 2 ^ n) (hb : b < 2 ^ n) (h : bitsOf n a = bitsOf n b) : a = b := by
  have := congrArg valueOf h
  rwa [valueOf_bitsOf, valueOf_bitsOf, Nat.mod_eq_of_lt ha, Nat.mod_eq_of_lt hb] at this

/-- A number put above an m-bit number: the bits in a row. -/
theorem bitsOf_above {m n a b : Nat} (ha : a < 2 ^ m) : bitsOf (m + n) (a + b * 2 ^ m) = bitsOf m a ++ bitsOf n b := by
  rw [bitsOf_append]
  have hp := Nat.two_pow_pos m
  congr 1
  · rw [← bitsOf_mod m (a + b * 2 ^ m), Nat.add_mul_mod_self_right, Nat.mod_eq_of_lt ha]
  · rw [Nat.add_mul_div_right _ _ hp, Nat.div_eq_of_lt ha, Nat.zero_add]

/-- Or-ing a shifted number onto a smaller one is adding it. -/
theorem or_shift_eq_add {m a : Nat} (ha : a < 2 ^ m) (b : Nat) : a ||| (b <<< m) = a + b * 2 ^ m := by
  rw [Nat.or_comm, Nat.shiftLeft_eq, Nat.mul_comm, ← Nat.two_pow_add_eq_or_of_lt ha, Nat.add_comm]

theorem bitsOf_zero (n : Nat) : bitsOf n 0 = List.replicate n false := by
  induction n with
  | zero => rfl
  | succ n ih => simp [bitsOf, ih, List.replicate_succ]

theorem bitsOf_take {m n : Nat} (h : m ≤ n) (v : Nat) : (bitsOf n v).take m = bitsOf m v := by
  obtain ⟨k, rfl⟩ := Nat.exists_eq_add_of_le h
  rw [bitsOf_append]
  simp [bitsOf_length]

theorem bitsOf_drop {m n : Nat} (h : m ≤ n) (v : Nat) : (bitsOf n v).drop m = bitsOf (n - m) (v / 2 ^ m) := by
  obtain ⟨k, rfl⟩ := Nat.exists_eq_add_of_le h
  rw [bitsOf_append, Nat.add_sub_cancel_left]
  simp [bitsOf_length]

/-! ## Bytes -/

theorem bitsOfBytes_nil : bitsOfBytes [] = [] := rfl

theorem bitsOfBytes_cons (b : Byte) (bs : List Byte) : bitsOfBytes (b :: bs) = bitsOf 8 b.toNat ++ bitsOfBytes bs := rfl

theorem bitsOfBytes_append (as bs : List Byte) : bitsOfBytes (as ++ bs) = bitsOfBytes as ++ bitsOfBytes bs := by
  simp [bitsOfBytes]

theorem bitsOfBytes_length (bs : List Byte) : (bitsOfBytes bs).length = 8 * bs.length := by
  induction bs with
  | nil => rfl
  | cons b bs ih => rw [bitsOfBytes_cons, List.length_append, bitsOf_length, ih, List.length_cons]; omega

/-- The bytes of a byte string's bits are the bytes. -/
theorem bytesOf_bitsOfBytes (bs : List Byte) (rest : List Bool) : bytesOf bs.length (bitsOfBytes bs ++ rest) = bs := by
  induction bs with
  | nil => rfl
  | cons b bs ih =>
    simp only [List.length_cons, bytesOf, bitsOfBytes_cons, List.append_assoc]
    have h1 : (bitsOf 8 b.toNat ++ (bitsOfBytes bs ++ rest)).take 8 = bitsOf 8 b.toNat :=
      List.take_left' (bitsOf_length 8 _)
    have h2 : (bitsOf 8 b.toNat ++ (bitsOfBytes bs ++ rest)).drop 8 = bitsOfBytes bs ++ rest :=
      List.drop_left' (bitsOf_length 8 _)
    rw [h1, h2, ih, valueOf_bitsOf, Nat.mod_eq_of_lt b.isLt, BitVec.ofNat_toNat]
    simp

theorem bytesOf_length (n : Nat) (bs : List Bool) : (bytesOf n bs).length = n := by
  induction n generalizing bs with
  | zero => rfl
  | succ n ih => simp [bytesOf, ih]

end Sys2Proof.Machine
end

