-- ==== Sys2Proof/Laws/BitInput.lean ====
section
/-! SUPPORT. The bit reader as a bit string: what each operation takes of the input (45_huffman_decode.md R320 to R324). -/

namespace Sys2Proof.Machine

theorem DU.stream_length (d : DU) (m : Memory) : (d.stream m).length = d.cnt + 8 * (d.inEnd - d.inPtr) := by
  simp [DU.stream, bitsOf_length, bitsOfBytes_length]

/-- availableBits is the length of the input as bits. -/
theorem DU.avail_eq (d : DU) (m : Memory) : d.avail = (d.stream m).length := (d.stream_length m).symm

@[simp] theorem DU.readByte_inPtr (d : DU) (m : Memory) : (d.readByte m).inPtr = d.inPtr + 1 := rfl
@[simp] theorem DU.readByte_inEnd (d : DU) (m : Memory) : (d.readByte m).inEnd = d.inEnd := rfl
@[simp] theorem DU.readByte_cnt (d : DU) (m : Memory) : (d.readByte m).cnt = d.cnt + 8 := rfl

/-- Moving one bound byte into the reservoir changes nothing of the input. -/
theorem DU.readByte_spec {d : DU} (m : Memory) (hp : d.inPtr < d.inEnd) (hr : d.res.toNat < 2 ^ d.cnt) (hc : d.cnt ≤ 24) :
    (d.readByte m).stream m = d.stream m ∧ (d.readByte m).res.toNat < 2 ^ (d.cnt + 8) := by
  have hb : (m.read d.inPtr).toNat < 2 ^ 8 := (m.read d.inPtr).isLt
  have hp2 : (m.read d.inPtr).toNat * 2 ^ d.cnt < 2 ^ 32 := by
    have h1 : (m.read d.inPtr).toNat * 2 ^ d.cnt < 2 ^ 8 * 2 ^ d.cnt := Nat.mul_lt_mul_of_pos_right hb (Nat.two_pow_pos _)
    have h2 : 2 ^ 8 * 2 ^ d.cnt ≤ 2 ^ 32 := by rw [← pow_add]; exact Nat.pow_le_pow_right (by decide) (by omega)
    omega
  have e : (d.res ||| ((m.read d.inPtr).zeroExtend 32 <<< d.cnt)).toNat = d.res.toNat + (m.read d.inPtr).toNat * 2 ^ d.cnt := by
    have h8 : (m.read d.inPtr).toNat % 2 ^ 32 = (m.read d.inPtr).toNat := Nat.mod_eq_of_lt (by omega)
    rw [BitVec.toNat_or, BitVec.toNat_shiftLeft, BitVec.toNat_setWidth, h8, Nat.shiftLeft_eq, Nat.mod_eq_of_lt hp2,
      ← Nat.shiftLeft_eq, or_shift_eq_add hr, Nat.shiftLeft_eq]
  constructor
  · have hn : d.inEnd - d.inPtr = (d.inEnd - (d.inPtr + 1)) + 1 := by omega
    simp only [DU.readByte, DU.stream, e, bitsOf_above hr]
    rw [hn, Memory.readBytes, bitsOfBytes_cons, List.append_assoc]
  · simp only [DU.readByte, e]
    have h1 : ((m.read d.inPtr).toNat + 1) * 2 ^ d.cnt ≤ 2 ^ 8 * 2 ^ d.cnt := Nat.mul_le_mul_right _ hb
    rw [Nat.add_mul] at h1
    rw [pow_add, Nat.mul_comm (2 ^ d.cnt)]
    omega

/-- What filling the reservoir does (R321): nothing to the input, and then n bits are held or no bound byte is left. -/
theorem DU.refill_spec (m : Memory) {n : Nat} (hn : n ≤ 16) (fuel : Nat) {d : DU} (hb : d.inPtr ≤ d.inEnd)
    (hr : d.res.toNat < 2 ^ d.cnt) (hf : n ≤ d.cnt + 8 * fuel) :
    let r := DU.refill m n fuel d
    r = { d with res := r.res, cnt := r.cnt, inPtr := r.inPtr } ∧ r.stream m = d.stream m ∧ r.res.toNat < 2 ^ r.cnt ∧
    r.inPtr ≤ r.inEnd ∧ d.inPtr ≤ r.inPtr ∧ d.cnt ≤ r.cnt ∧ r.cnt ≤ max d.cnt (n + 7) ∧ (n ≤ r.cnt ∨ r.inPtr = r.inEnd) := by
  induction fuel generalizing d with
  | zero => exact ⟨rfl, rfl, hr, hb, le_refl _, le_refl _, by simp [DU.refill], .inl (by simpa [DU.refill] using hf)⟩
  | succ k ih =>
    simp only [DU.refill]
    by_cases hc : d.cnt < n ∧ d.inPtr < d.inEnd
    · simp only [hc.1, hc.2, decide_true, Bool.and_self, if_true]
      obtain ⟨h1, h2⟩ := DU.readByte_spec m hc.2 hr (by omega)
      obtain ⟨e1, e2, e3, e4, e5, e6, e7, e8⟩ := ih (d := d.readByte m)
        (by rw [DU.readByte_inPtr, DU.readByte_inEnd]; omega) h2 (by rw [DU.readByte_cnt]; omega)
      refine ⟨?_, e2.trans h1, e3, e4, ?_, ?_, ?_, e8⟩
      · conv_lhs => rw [e1]
        rfl
      · have := d.readByte_inPtr m; omega
      · have := d.readByte_cnt m; omega
      · have := d.readByte_cnt m; omega
    · have hff : (decide (d.cnt < n) && decide (d.inPtr < d.inEnd)) = false := by
        simp only [Bool.and_eq_false_iff, decide_eq_false_iff_not]
        by_cases h1 : d.cnt < n
        · exact .inr fun h2 => hc ⟨h1, h2⟩
        · exact .inl h1
      simp only [hff]
      refine ⟨rfl, rfl, hr, hb, le_refl _, le_refl _, le_max_left _ _, ?_⟩
      by_cases h1 : d.cnt < n
      · exact .inr (by by_contra h2; exact hc ⟨h1, by have := hb; simp only [Bool.false_eq_true, if_false] at h2; omega⟩)
      · exact .inl (by simp only [Bool.false_eq_true, if_false]; omega)

/-- Dropping n held bits takes them from the input (R322). -/
theorem DU.drop_spec {d : DU} (m : Memory) {n : Nat} (hn : n ≤ d.cnt) (hr : d.res.toNat < 2 ^ d.cnt) :
    (d.drop n).stream m = (d.stream m).drop n ∧ (d.drop n).res.toNat < 2 ^ (d.drop n).cnt := by
  have e : (d.res >>> n).toNat = d.res.toNat / 2 ^ n := by simp [Nat.shiftRight_eq_div_pow]
  constructor
  · simp only [DU.drop, DU.stream, e]
    rw [List.drop_append_of_le_length (by rw [bitsOf_length]; exact hn), bitsOf_drop hn]
  · simp only [DU.drop, e]
    rw [Nat.div_lt_iff_lt_mul (Nat.two_pow_pos _), ← pow_add]
    rwa [show d.cnt - n + n = d.cnt by omega]

/-- What BRPeek does (R321): it gives the next n bits, or says that there are fewer, and takes none. -/
theorem DU.peek_spec (d : DU) (m : Memory) {n : Nat} (hn : n ≤ 16) (hb : d.inPtr ≤ d.inEnd) (hr : d.res.toNat < 2 ^ d.cnt) :
    let r := d.peek m n
    r.2 = { d with res := r.2.res, cnt := r.2.cnt, inPtr := r.2.inPtr } ∧ r.2.stream m = d.stream m ∧ r.2.res.toNat < 2 ^ r.2.cnt ∧
    r.2.inPtr ≤ r.2.inEnd ∧ d.inPtr ≤ r.2.inPtr ∧ d.cnt ≤ r.2.cnt ∧ r.2.cnt ≤ max d.cnt (n + 7) ∧
    ((n ≤ (d.stream m).length ∧ n ≤ r.2.cnt ∧ r.1 = some (valueOf ((d.stream m).take n))) ∨
      ((d.stream m).length < n ∧ r.2.cnt < n ∧ r.2.inPtr = r.2.inEnd ∧ r.1 = none)) := by
  obtain ⟨h1, h2, h3, h4, h5, h6, h7, h8⟩ := DU.refill_spec m hn n hb hr (by omega)
  simp only [DU.peek]
  have hlen := DU.stream_length (DU.refill m n n d) m
  rw [h2] at hlen
  split
  · rename_i hlt
    exact ⟨h1, h2, h3, h4, h5, h6, h7, .inr ⟨by omega, hlt, h8.resolve_left (by omega), rfl⟩⟩
  · rename_i hge
    refine ⟨h1, h2, h3, h4, h5, h6, h7, .inl ⟨by omega, Nat.le_of_not_lt hge, ?_⟩⟩
    have e : (d.stream m).take n = bitsOf n (DU.refill m n n d).res.toNat := by
      rw [← h2, DU.stream, List.take_append_of_le_length (by rw [bitsOf_length]; omega), bitsOf_take (by omega)]
    rw [e, valueOf_bitsOf]

/-- What BRTryGet does (R323). -/
theorem DU.tryGet_spec (d : DU) (m : Memory) {n : Nat} (hn : n ≤ 16) (h : d.ReaderInv) :
    let r := d.tryGet m n
    r.2 = { d with res := r.2.res, cnt := r.2.cnt, inPtr := r.2.inPtr } ∧ r.2.ReaderInv ∧ d.inPtr ≤ r.2.inPtr ∧
    ((n ≤ (d.stream m).length ∧ r.1 = some (valueOf ((d.stream m).take n)) ∧ r.2.stream m = (d.stream m).drop n) ∨
      ((d.stream m).length < n ∧ r.1 = none ∧ r.2.stream m = d.stream m ∧ r.2.inPtr = r.2.inEnd)) := by
  obtain ⟨hb, hr, hc⟩ := h
  have hs := DU.peek_spec d m hn hb hr
  simp only [DU.tryGet]
  generalize d.peek m n = p at hs
  obtain ⟨v, e⟩ := p
  obtain ⟨h1, h2, h3, h4, h5, h6, h7, h8⟩ := hs
  rcases h8 with ⟨g1, g2, g3⟩ | ⟨g1, g2, g3, g4⟩
  · simp only at g3
    subst g3
    simp only at *
    obtain ⟨k1, k2⟩ := DU.drop_spec m g2 h3
    refine ⟨?_, ⟨h4, k2, ?_⟩, h5, .inl ⟨g1, trivial, by rw [k1, h2]⟩⟩
    · rw [h1]; rfl
    · simp only [DU.drop]; omega
  · simp only at g4
    subst g4
    simp only at *
    exact ⟨h1, ⟨h4, h3, by omega⟩, h5, .inr ⟨g1, trivial, h2, g3⟩⟩

end Sys2Proof.Machine
end

