-- ==== Sys2Proof/Laws/State.lean ====
section
/-! SUPPORT. What each named update of the state does to each field, true by unfolding, so that no later proof unfolds an update. -/

namespace Sys2Proof.Machine

/-! ## A success response -/

@[simp] theorem State.succeed_params (r : DWord) (s : State) : (s.succeed r).params = s.params := rfl
@[simp] theorem State.succeed_cu (r : DWord) (s : State) : (s.succeed r).cu = s.cu := rfl
@[simp] theorem State.succeed_du (r : DWord) (s : State) : (s.succeed r).du = s.du := rfl
@[simp] theorem State.succeed_mem (r : DWord) (s : State) : (s.succeed r).mem = s.mem := rfl
@[simp] theorem State.succeed_host (r : DWord) (s : State) : (s.succeed r).host = s.host := rfl
@[simp] theorem State.succeed_cmd (r : DWord) (s : State) : (s.succeed r).port.cmd = s.port.cmd := rfl
@[simp] theorem State.succeed_argAddr (r : DWord) (s : State) : (s.succeed r).port.argAddr = s.port.argAddr := rfl
@[simp] theorem State.succeed_argLen (r : DWord) (s : State) : (s.succeed r).port.argLen = s.port.argLen := rfl
@[simp] theorem State.succeed_result (r : DWord) (s : State) : (s.succeed r).port.result = r := rfl
@[simp] theorem State.succeed_errcode (r : DWord) (s : State) : (s.succeed r).port.errcode = 0 := rfl
@[simp] theorem State.succeed_lasterr (r : DWord) (s : State) : (s.succeed r).port.lasterr = false := rfl

/-- A success response is the one of the statements. -/
theorem State.succeed_eq_ok (r : DWord) (s : State) : s.succeed r = s.ok r := rfl

/-! ## A response of the statements -/

@[simp] theorem State.respond_params (s : State) (r : DWord) (e : Word) (b : Bool) : (s.respond r e b).params = s.params := rfl
@[simp] theorem State.respond_cu (s : State) (r : DWord) (e : Word) (b : Bool) : (s.respond r e b).cu = s.cu := rfl
@[simp] theorem State.respond_du (s : State) (r : DWord) (e : Word) (b : Bool) : (s.respond r e b).du = s.du := rfl
@[simp] theorem State.respond_mem (s : State) (r : DWord) (e : Word) (b : Bool) : (s.respond r e b).mem = s.mem := rfl
@[simp] theorem State.respond_host (s : State) (r : DWord) (e : Word) (b : Bool) : (s.respond r e b).host = s.host := rfl
@[simp] theorem State.respond_result (s : State) (r : DWord) (e : Word) (b : Bool) : (s.respond r e b).port.result = r := rfl
@[simp] theorem State.respond_errcode (s : State) (r : DWord) (e : Word) (b : Bool) : (s.respond r e b).port.errcode = e := rfl
@[simp] theorem State.respond_lasterr (s : State) (r : DWord) (e : Word) (b : Bool) : (s.respond r e b).port.lasterr = b := rfl

/-! ## An error response -/

/-- An error that aborts no stream changes the response registers only (60_exceptions.md R361). -/
theorem State.raise_of_not_sticky {e : Err} (h : e.sticky = false) (u : UnitId) (n : Nat) (s : State) :
    s.raise u e n = s.respond (BitVec.ofNat 64 n) e.code true := by simp [State.raise, State.respond, h]

/-- An error that aborts the CU's stream also writes C_FAULT (60_exceptions.md R364). -/
theorem State.raise_cu_of_sticky {e : Err} (h : e.sticky = true) (n : Nat) (s : State) :
    s.raise .cu e n = { s with cu := { s.cu with fault := some e } }.respond (BitVec.ofNat 64 n) e.code true := by
  simp [State.raise, State.respond, State.abort, h]

/-- An error that aborts the DU's stream also writes D_FAULT (60_exceptions.md R364). -/
theorem State.raise_du_of_sticky {e : Err} (h : e.sticky = true) (n : Nat) (s : State) :
    s.raise .du e n = { s with du := { s.du with fault := some e } }.respond (BitVec.ofNat 64 n) e.code true := by
  simp [State.raise, State.respond, State.abort, h]

/-- What an error response does to every field (60_exceptions.md R361). -/
theorem State.raise_fields (u : UnitId) (e : Err) (n : Nat) (s : State) :
    (s.raise u e n).params = s.params ∧ (s.raise u e n).mem = s.mem ∧ (s.raise u e n).host = s.host ∧
    (s.raise u e n).port = { s.port with result := BitVec.ofNat 64 n, errcode := e.code, lasterr := true } ∧
    (s.raise u e n).cu = (if u = .cu ∧ e.sticky = true then { s.cu with fault := some e } else s.cu) ∧
    (s.raise u e n).du = (if u = .du ∧ e.sticky = true then { s.du with fault := some e } else s.du) := by
  cases h : e.sticky <;> cases u <;> simp [State.raise, State.abort, h]

/-! ## The command word -/

@[simp] theorem State.takeCmd_cmd (s : State) : s.takeCmd.port.cmd = none := rfl
@[simp] theorem State.takeCmd_cu (s : State) : s.takeCmd.cu = s.cu := rfl
@[simp] theorem State.takeCmd_du (s : State) : s.takeCmd.du = s.du := rfl
@[simp] theorem State.takeCmd_mem (s : State) : s.takeCmd.mem = s.mem := rfl
@[simp] theorem State.takeCmd_params (s : State) : s.takeCmd.params = s.params := rfl
@[simp] theorem State.takeCmd_host (s : State) : s.takeCmd.host = s.host := rfl
@[simp] theorem State.withFetchWord_cmd (s : State) (n w : Nat) : (s.withFetchWord n w).port.cmd = some (commandWord n w) := rfl
@[simp] theorem State.withFetchWord_cu (s : State) (n w : Nat) : (s.withFetchWord n w).cu = s.cu := rfl
@[simp] theorem State.withFetchWord_du (s : State) (n w : Nat) : (s.withFetchWord n w).du = s.du := rfl
@[simp] theorem State.withFetchWord_mem (s : State) (n w : Nat) : (s.withFetchWord n w).mem = s.mem := rfl
@[simp] theorem State.withFetchWord_takeCmd (s : State) (n w : Nat) : (s.withFetchWord n w).takeCmd = s.takeCmd := rfl

/-! ## The checks before a command's effect -/

/-- A command of the CU whose checks all pass has its effect. -/
theorem State.guardCU_pass {s : State} {checks : List (Bool × Err)} {effect : Host.Outcome State Fault Refusal}
    (h : firstErr checks = none) : s.guardCU checks effect = effect := by simp [State.guardCU, h]

/-- A command of the CU whose first failed check is e ends with e. -/
theorem State.guardCU_fail {s : State} {checks : List (Bool × Err)} {effect : Host.Outcome State Fault Refusal} {e : Err}
    (h : firstErr checks = some e) : s.guardCU checks effect = .next (s.raise .cu e 0) := by simp [State.guardCU, h]

/-- A command of the DU whose checks all pass has its effect. -/
theorem State.guardDU_pass {s : State} {checks : List (Bool × Err)} {effect : Host.Outcome State Fault Refusal}
    (h : firstErr checks = none) : s.guardDU checks effect = effect := by simp [State.guardDU, h]

/-- A command of the DU whose first failed check is e ends with e. -/
theorem State.guardDU_fail {s : State} {checks : List (Bool × Err)} {effect : Host.Outcome State Fault Refusal} {e : Err}
    (h : firstErr checks = some e) : s.guardDU checks effect = .next (s.raise .du e 0) := by simp [State.guardDU, h]

/-- No check fails exactly when every check passes. -/
theorem firstErr_eq_none {l : List (Bool × Err)} : firstErr l = none ↔ ∀ c ∈ l, c.1 = false := by
  induction l with
  | nil => simp [firstErr]
  | cons c l ih => cases c with
    | mk b e => cases b <;> simp [firstErr, ih]

/-- An error that is reported is one of the list, and its check failed. -/
theorem firstErr_mem {l : List (Bool × Err)} {e : Err} (h : firstErr l = some e) : (true, e) ∈ l := by
  induction l with
  | nil => simp [firstErr] at h
  | cons c l ih => cases c with
    | mk b x =>
      cases b with
      | true => simp [firstErr] at h; simp [h]
      | false => simp [firstErr] at h; simp [ih h]

/-! ## Procedures -/

theorem Run.bind_eq_done {σ α β : Type} {r : Run σ α} {f : α → σ → Run σ β} {b : β} {t : σ} (h : r.bind f = .done b t) :
    ∃ a s, r = .done a s ∧ f a s = .done b t := by
  cases r with
  | done a s => exact ⟨a, s, rfl, h⟩
  | raise e s => cases h
  | stuck => cases h

theorem Run.bind_eq_raise {σ α β : Type} {r : Run σ α} {f : α → σ → Run σ β} {e : Err} {t : σ} (h : r.bind f = .raise e t) :
    r = .raise e t ∨ ∃ a s, r = .done a s ∧ f a s = .raise e t := by
  cases r with
  | done a s => exact .inr ⟨a, s, rfl, h⟩
  | raise e' s => cases h; exact .inl rfl
  | stuck => cases h

theorem Run.bind_eq_stuck {σ α β : Type} {r : Run σ α} {f : α → σ → Run σ β} (h : r.bind f = .stuck) :
    r = .stuck ∨ ∃ a s, r = .done a s ∧ f a s = .stuck := by
  cases r with
  | done a s => exact .inr ⟨a, s, rfl, h⟩
  | raise e' s => cases h
  | stuck => exact .inl rfl

@[simp] theorem Run.bind_done {σ α β : Type} (a : α) (s : σ) (f : α → σ → Run σ β) : (Run.done a s).bind f = f a s := rfl
@[simp] theorem Run.bind_raise {σ α β : Type} (e : Err) (s : σ) (f : α → σ → Run σ β) : (Run.raise e s : Run σ α).bind f = .raise e s := rfl
@[simp] theorem Run.bind_stuck {σ α β : Type} (f : α → σ → Run σ β) : (Run.stuck : Run σ α).bind f = .stuck := rfl
@[simp] theorem Run.within_done {σ τ α : Type} (put : σ → τ) (a : α) (s : σ) : (Run.done a s).within put = .done a (put s) := rfl
@[simp] theorem Run.within_raise {σ τ α : Type} (put : σ → τ) (e : Err) (s : σ) :
    (Run.raise e s : Run σ α).within put = .raise e (put s) := rfl
@[simp] theorem Run.within_stuck {σ τ α : Type} (put : σ → τ) : (Run.stuck : Run σ α).within put = .stuck := rfl

end Sys2Proof.Machine
end

