-- ==== Sys2Proof/Laws/BitOutput.lean ====
section
/-! SUPPORT. The pending output as a bit string: what each operation of the BitOutputBuffer appends (40_bit_output.md R141 to R148). -/

namespace Sys2Proof.Machine

/-- The accumulator holds PNBITS bits and no more, and at most 15 of them (10_state.md R34, R36 (e)). -/
structure BitOut.Settled (o : BitOut) : Prop where
  few : o.nbits ≤ 15
  bits : o.bits.toNat < 2 ^ o.nbits

theorem BitOut.low_toNat (o : BitOut) : o.low.toNat = o.bits.toNat % 256 := by simp [BitOut.low]

theorem BitOut.high_toNat (o : BitOut) : o.high.toNat = o.bits.toNat / 256 % 256 := by
  simp [BitOut.high, Nat.shiftRight_eq_div_pow]

theorem BitOut.empty_settled : BitOut.empty.Settled := ⟨by decide, by decide⟩

theorem BitOut.empty_stream : BitOut.empty.stream = [] := rfl

/-- Bits put above the bits held. -/
theorem BitOut.accumulate_spec {o : BitOut} (h : o.Settled) {v n : Nat} (hn : n ≤ 16) (hv : v < 2 ^ n) :
    (o.accumulate v n).stream = o.stream ++ bitsOf n v ∧ (o.accumulate v n).bits.toNat < 2 ^ (o.accumulate v n).nbits ∧
    (o.accumulate v n).nbits = o.nbits + n := by
  obtain ⟨hf, hb⟩ := h
  have hp : v * 2 ^ o.nbits < 2 ^ (o.nbits + n) := by
    rw [pow_add, Nat.mul_comm]; exact Nat.mul_lt_mul_of_pos_left hv (Nat.two_pow_pos _)
  have h31 : 2 ^ (o.nbits + n) ≤ 2 ^ 31 := Nat.pow_le_pow_right (by decide) (by omega)
  have hv32 : v < 2 ^ 32 := lt_of_lt_of_le hv (Nat.pow_le_pow_right (by decide) (by omega))
  have e : (o.bits ||| (BitVec.ofNat 32 v <<< o.nbits)).toNat = o.bits.toNat + v * 2 ^ o.nbits := by
    rw [BitVec.toNat_or, BitVec.toNat_shiftLeft, BitVec.toNat_ofNat, Nat.mod_eq_of_lt hv32, Nat.shiftLeft_eq,
      Nat.mod_eq_of_lt (by omega : v * 2 ^ o.nbits < 2 ^ 32), ← Nat.shiftLeft_eq, or_shift_eq_add hb, Nat.shiftLeft_eq]
  refine ⟨?_, ?_, rfl⟩
  · simp only [BitOut.accumulate, BitOut.stream, e, bitsOf_above hb, List.append_assoc]
  · simp only [BitOut.accumulate, e]
    have : o.bits.toNat + v * 2 ^ o.nbits < 2 ^ o.nbits * 2 ^ n := by
      have h1 : (v + 1) * 2 ^ o.nbits ≤ 2 ^ n * 2 ^ o.nbits := Nat.mul_le_mul_right _ hv
      rw [Nat.mul_comm (2 ^ o.nbits)]
      rw [Nat.add_mul] at h1
      omega
    rwa [pow_add]

/-- Moving sixteen bits into PFIFO changes nothing of the stream. -/
theorem BitOut.spill_spec {o : BitOut} (hf : o.nbits ≤ 31) (hb : o.bits.toNat < 2 ^ o.nbits) :
    o.spill.stream = o.stream ∧ o.spill.Settled := by
  unfold BitOut.spill
  split
  · rename_i h16
    have e : (o.bits >>> 16).toNat = o.bits.toNat / 2 ^ 16 := by simp [Nat.shiftRight_eq_div_pow]
    constructor
    · simp only [BitOut.stream, bitsOfBytes_append, bitsOfBytes_cons, bitsOfBytes_nil, List.append_nil, List.append_assoc, e,
        BitOut.low_toNat, BitOut.high_toNat]
      congr 1
      rw [show (256 : Nat) = 2 ^ 8 from rfl, bitsOf_mod, bitsOf_mod, ← List.append_assoc, ← bitsOf_append 8 8, ← bitsOf_append 16]
      congr 1
      omega
    · refine ⟨by simp only; omega, ?_⟩
      simp only [e]
      rw [Nat.div_lt_iff_lt_mul (by decide), ← pow_add]
      rwa [show o.nbits - 16 + 16 = o.nbits by omega]
  · exact ⟨rfl, ⟨by omega, hb⟩⟩

/-- WriteBits appends its n bits, least significant first (R141). -/
theorem BitOut.writeBits_spec {o : BitOut} (h : o.Settled) {v n : Nat} (hn : n ≤ 16) (hv : v < 2 ^ n) :
    (o.writeBits v n).stream = o.stream ++ bitsOf n v ∧ (o.writeBits v n).Settled := by
  obtain ⟨h1, h2, h3⟩ := BitOut.accumulate_spec h hn hv
  obtain ⟨h4, h5⟩ := BitOut.spill_spec (o := o.accumulate v n) (by have := h.few; omega) h2
  exact ⟨by rw [BitOut.writeBits, h4, h1], h5⟩

/-- WriteBits of fields, each of at most 16 bits that its value fits, appends them in order. -/
theorem BitOut.writeFields_spec {o : BitOut} (h : o.Settled) {fields : List (Nat × Nat)}
    (hf : ∀ f ∈ fields, f.2 ≤ 16 ∧ f.1 < 2 ^ f.2) :
    (o.writeFields fields).stream = o.stream ++ fields.flatMap (fun f => bitsOf f.2 f.1) ∧ (o.writeFields fields).Settled := by
  induction fields generalizing o with
  | nil => simpa [BitOut.writeFields] using h
  | cons f fs ih =>
    obtain ⟨h1, h2⟩ := BitOut.writeBits_spec h (hf f (by simp)).1 (hf f (by simp)).2
    obtain ⟨h3, h4⟩ := ih h2 fun g hg => hf g (by simp [hg])
    refine ⟨?_, h4⟩
    simp only [BitOut.writeFields, List.foldl_cons] at h3 ⊢
    rw [h3, h1, List.flatMap_cons, List.append_assoc]

/-- AlignToByte appends the zeros that are missing to a byte and leaves no bits pending (R142). -/
theorem BitOut.alignToByte_spec {o : BitOut} (h : o.Settled) :
    o.alignToByte.stream = o.stream ++ List.replicate ((8 - o.nbits % 8) % 8) false ∧ o.alignToByte.Settled ∧
    o.alignToByte.nbits = 0 ∧ o.alignToByte.bits = 0 := by
  obtain ⟨hf, hb⟩ := h
  refine ⟨?_, ⟨by simp [BitOut.alignToByte], by simp [BitOut.alignToByte]⟩, rfl, rfl⟩
  simp only [BitOut.alignToByte, BitOut.stream, bitsOfBytes_append, bitsOf, List.append_nil, List.append_assoc]
  congr 1
  split
  · rename_i h0; simp [h0, bitsOf, bitsOfBytes]
  · split
    · rename_i h0 h8
      simp only [bitsOfBytes_cons, bitsOfBytes_nil, List.append_nil, BitOut.low_toNat, BitOut.high_toNat]
      rw [show (256 : Nat) = 2 ^ 8 from rfl, bitsOf_mod, bitsOf_mod, ← bitsOf_append 8 8,
        show (8 + 8 : Nat) = o.nbits + (16 - o.nbits) by omega, bitsOf_append, Nat.div_eq_of_lt hb, bitsOf_zero]
      congr 2
      omega
    · rename_i h0 h8
      simp only [bitsOfBytes_cons, bitsOfBytes_nil, List.append_nil, BitOut.low_toNat]
      rw [show (256 : Nat) = 2 ^ 8 from rfl, bitsOf_mod,
        show (bitsOf 8 o.bits.toNat) = bitsOf (o.nbits + (8 - o.nbits)) o.bits.toNat by rw [show o.nbits + (8 - o.nbits) = 8 by omega],
        bitsOf_append, Nat.div_eq_of_lt hb, bitsOf_zero]
      congr 2
      omega

/-- The stream is on a byte boundary exactly when the pending bits are. -/
theorem BitOut.stream_length (o : BitOut) : o.stream.length = 8 * o.fifo.length + o.nbits := by
  simp [BitOut.stream, bitsOfBytes_length, bitsOf_length]

/-- WriteBlock on a byte boundary appends the bytes (R143, R147). -/
theorem BitOut.writeBlock_spec {o : BitOut} (h : o.nbits = 0) (bs : List Byte) :
    o.writeBlock bs = .done () (o.push bs) ∧ (o.push bs).stream = o.stream ++ bitsOfBytes bs ∧ (o.push bs).nbits = 0 ∧
    (o.push bs).bits = o.bits := by
  refine ⟨by simp [BitOut.writeBlock, h], ?_, h, rfl⟩
  simp [BitOut.stream, BitOut.push, bitsOfBytes_append, h, bitsOf]

/-- WriteBlock with bits pending raises BIT_ALIGNMENT (R143). -/
theorem BitOut.writeBlock_unaligned {o : BitOut} (h : o.nbits ≠ 0) (bs : List Byte) : o.writeBlock bs = .raise .bitAlignment o := by
  simp [BitOut.writeBlock, h]

/-- A checksum on a byte boundary is four bytes, the most significant first (R145, 20_memory.md R77). -/
theorem BitOut.writeAdler_spec {o : BitOut} (h : o.nbits = 0) (a : Word) :
    o.writeAdler a = .done () (o.push [a.extractLsb' 24 8, a.extractLsb' 16 8, a.extractLsb' 8 8, a.extractLsb' 0 8]) := by
  simp only [BitOut.writeAdler, BitOut.writeShortMSB, BitOut.writeByte, BitOut.writeBlock, h, if_true, Run.bind_done, BitOut.push,
    List.append_assoc, List.cons_append, List.nil_append]
  congr 1
  have h1 : BitVec.ofNat 8 (adlerHigh a / 256) = a.extractLsb' 24 8 := by
    apply BitVec.eq_of_toNat_eq; simp [adlerHigh, Nat.shiftRight_eq_div_pow]; omega
  have h2 : BitVec.ofNat 8 (adlerHigh a % 256) = a.extractLsb' 16 8 := by
    apply BitVec.eq_of_toNat_eq; simp [adlerHigh, Nat.shiftRight_eq_div_pow]
  have h3 : BitVec.ofNat 8 (adlerLow a / 256) = a.extractLsb' 8 8 := by
    apply BitVec.eq_of_toNat_eq; simp [adlerLow, Nat.shiftRight_eq_div_pow]; omega
  have h4 : BitVec.ofNat 8 (adlerLow a % 256) = a.extractLsb' 0 8 := by
    apply BitVec.eq_of_toNat_eq; simp [adlerLow]
  rw [h1, h2, h3, h4]

/-- A complete byte moved into PFIFO changes nothing of the stream (R148). -/
theorem BitOut.settle_spec {o : BitOut} (h : o.Settled) : o.settle.stream = o.stream ∧ o.settle.nbits ≤ 7 ∧ o.settle.Settled := by
  obtain ⟨hf, hb⟩ := h
  unfold BitOut.settle
  split
  · rename_i h8
    have e : (o.bits >>> 8).toNat = o.bits.toNat / 2 ^ 8 := by simp [Nat.shiftRight_eq_div_pow]
    refine ⟨?_, by simp only; omega, ⟨by simp only; omega, ?_⟩⟩
    · simp only [BitOut.stream, bitsOfBytes_append, bitsOfBytes_cons, bitsOfBytes_nil, List.append_nil, List.append_assoc, e,
        BitOut.low_toNat]
      congr 1
      rw [show (256 : Nat) = 2 ^ 8 from rfl, bitsOf_mod, ← bitsOf_append 8]
      congr 1
      omega
    · simp only [e]
      rw [Nat.div_lt_iff_lt_mul (by decide), ← pow_add]
      rwa [show o.nbits - 8 + 8 = o.nbits by omega]
  · exact ⟨rfl, by omega, ⟨by omega, hb⟩⟩

/-- What Flush does: the oldest bytes that fit are written in order, and the rest stays (R148). -/
theorem Xfer.flush_spec (x : Xfer CU) :
    ∃ m, m = min x.left x.unit.out.settle.fifo.length ∧
      x.flush = {
        unit := { x.unit with
          out := { x.unit.out.settle with fifo := x.unit.out.settle.fifo.drop m }, totalOut := x.unit.totalOut + BitVec.ofNat 64 m }
        mem := x.mem.writeBytes x.dest (x.unit.out.settle.fifo.take m), dest := x.dest + m, left := x.left - m } :=
  ⟨_, rfl, rfl⟩

end Sys2Proof.Machine
end

