-- ==== Sys2Proof/Laws/Huffman.lean ====
section
/-! SUPPORT. The Huffman construction of 42_huffman_encoder.md R204 to R206: the leaves that are chosen, the tree that merging gives, the
length-limit repair, and that the lengths it gives always pass the block's own check (R215). -/

namespace Sys2Proof.Machine

/-! ## Leaves (R204) -/

/-- A list of leaves for n symbols, with `top` above all of them. -/
structure GoodLeaves (n : Nat) (leaves : List Nat) (top : Nat) : Prop where
  nodup : leaves.Nodup
  below : ∀ s ∈ leaves, s < top
  top : top ≤ n

theorem mem_usedSymbols {freq : List Nat} {s : Nat} : s ∈ usedSymbols freq ↔ 0 < freq.getD s 0 := by
  unfold usedSymbols
  constructor
  · intro h
    obtain ⟨p, hp, rfl⟩ := List.mem_map.mp h
    obtain ⟨hp, hpos⟩ := List.mem_filter.mp hp
    have := List.mem_zipIdx hp
    obtain ⟨h1, h2, h3⟩ := this
    simp only [Nat.zero_add, Nat.sub_zero] at *
    rw [List.getD_eq_getElem _ _ h2, ← h3]
    simpa using hpos
  · intro h
    have hs : s < freq.length := by
      by_contra hc
      rw [List.getD_eq_default _ _ (by omega)] at h
      omega
    rw [List.getD_eq_getElem _ _ hs] at h
    refine List.mem_map.mpr ⟨(freq[s], s), List.mem_filter.mpr ⟨?_, by simpa using h⟩, rfl⟩
    rw [List.mem_zipIdx_iff_getElem?]
    simp [hs]

theorem usedSymbols_nodup (freq : List Nat) : (usedSymbols freq).Nodup := by
  unfold usedSymbols
  have h1 : (freq.zipIdx.map Prod.snd).Nodup := by rw [List.zipIdx_map_snd]; exact List.nodup_range'
  exact h1.sublist (List.Sublist.map _ List.filter_sublist)

theorem foldl_top_le (leaves : List Nat) (m : Nat) : m ≤ leaves.foldl (fun m s => max m (s + 1)) m ∧
    (∀ s ∈ leaves, s < leaves.foldl (fun m s => max m (s + 1)) m) ∧
    (∀ n, m ≤ n → (∀ s ∈ leaves, s < n) → leaves.foldl (fun m s => max m (s + 1)) m ≤ n) := by
  induction leaves generalizing m with
  | nil => simp
  | cons a l ih =>
    obtain ⟨h1, h2, h3⟩ := ih (max m (a + 1))
    simp only [List.foldl_cons]
    refine ⟨le_trans (le_max_left _ _) h1, ?_, ?_⟩
    · intro s hs
      rcases List.mem_cons.mp hs with rfl | hs
      · have := le_trans (le_max_right m (s + 1)) h1; omega
      · exact h2 s hs
    · intro n hm hn
      refine h3 n ?_ fun s hs => hn s (by simp [hs])
      have := hn a (by simp)
      omega

/-- The symbols in use are good leaves. -/
theorem usedSymbols_good {freq : List Nat} {n : Nat} (h : freq.length = n) :
    GoodLeaves n (usedSymbols freq) (topOf (usedSymbols freq)) := by
  obtain ⟨-, h2, h3⟩ := foldl_top_le (usedSymbols freq) 0
  refine ⟨usedSymbols_nodup freq, h2, h3 n (by omega) fun s hs => ?_⟩
  have := mem_usedSymbols.mp hs
  by_contra hc
  rw [List.getD_eq_default _ _ (by omega)] at this
  omega

/-- Forcing gives at least two leaves, good ones, and drops none; `top` stays tight where the leaves are (R204). -/
theorem forceLeaves_good {n : Nat} (hn : 3 ≤ n) {leaves : List Nat} (h : GoodLeaves n leaves (topOf leaves)) :
    GoodLeaves n (forceLeaves 2 leaves (topOf leaves)).1 (forceLeaves 2 leaves (topOf leaves)).2 ∧
    2 ≤ (forceLeaves 2 leaves (topOf leaves)).1.length ∧
    ∀ s ∈ leaves, s ∈ (forceLeaves 2 leaves (topOf leaves)).1 := by
  match leaves, h with
  | [], _ =>
    refine ⟨⟨?_, ?_, ?_⟩, ?_, ?_⟩ <;> simp [forceLeaves, topOf]
    omega
  | [s], h =>
    by_cases hs : s < 2
    · have e : forceLeaves 2 [s] (topOf [s]) = ([s, s + 1], s + 2) := by
        simp [forceLeaves, topOf, show s + 1 < 3 by omega]
      rw [e]
      refine ⟨⟨?_, ?_, ?_⟩, ?_, ?_⟩ <;> simp
      omega
    · have e : forceLeaves 2 [s] (topOf [s]) = ([s, 0], s + 1) := by
        simp [forceLeaves, topOf, show ¬ s + 1 < 3 by omega]
      rw [e]
      have := h.top
      simp only [topOf, List.foldl_cons, List.foldl_nil] at this
      refine ⟨⟨?_, ?_, ?_⟩, ?_, ?_⟩ <;> simp <;> omega
  | a :: b :: l, h =>
    have e : forceLeaves 2 (a :: b :: l) (topOf (a :: b :: l)) = (a :: b :: l, topOf (a :: b :: l)) := by
      simp [forceLeaves]
    rw [e]
    exact ⟨h, by simp, fun s hs => hs⟩

/-! ## Merging (R205) -/

/-- The leaves of a subtree. -/
def HTree.syms : HTree → List Nat
  | .leaf s => [s]
  | .node a b => a.syms ++ b.syms

theorem HTree.depths_fst (t : HTree) (d : Nat) : (t.depths d).map Prod.fst = t.syms := by
  induction t generalizing d with
  | leaf s => rfl
  | node a b iha ihb => simp [HTree.depths, HTree.syms, iha, ihb]

theorem HTree.depths_le (t : HTree) (d : Nat) : ∀ p ∈ t.depths d, d ≤ p.2 := by
  induction t generalizing d with
  | leaf s => simp [HTree.depths]
  | node a b iha ihb =>
    intro p hp
    rcases List.mem_append.mp hp with hp | hp
    · have := iha _ p hp; omega
    · have := ihb _ p hp; omega

theorem HTree.depths_ne_nil (t : HTree) (d : Nat) : t.depths d ≠ [] := by
  induction t generalizing d with
  | leaf s => simp [HTree.depths]
  | node a b iha ihb => simp [HTree.depths, iha]

/-- The depths of a tree satisfy Kraft's equality, in units of 2^(−M). -/
theorem HTree.depths_kraft (t : HTree) (d M : Nat) (h : ∀ p ∈ t.depths d, p.2 ≤ M) :
    ((t.depths d).map fun p => 2 ^ (M - p.2)).sum = 2 ^ (M - d) := by
  induction t generalizing d with
  | leaf s => simp [HTree.depths]
  | node a b iha ihb =>
    simp only [HTree.depths, List.mem_append] at h
    simp only [HTree.depths, List.map_append, List.sum_append]
    rw [iha (d + 1) fun p hp => h p (.inl hp), ihb (d + 1) fun p hp => h p (.inr hp)]
    obtain ⟨p, hp⟩ := List.exists_mem_of_ne_nil _ (a.depths_ne_nil (d + 1))
    have h1 := a.depths_le (d + 1) p hp
    have h2 := h p (.inl hp)
    rw [show M - d = (M - (d + 1)) + 1 by omega, pow_succ]
    omega

/-- A tree of at least two leaves has every leaf at depth at least 1. -/
theorem HTree.depths_pos {t : HTree} (h : 2 ≤ t.syms.length) : ∀ p ∈ t.depths 0, 1 ≤ p.2 := by
  cases t with
  | leaf s => simp [HTree.syms] at h
  | node a b =>
    intro p hp
    rcases List.mem_append.mp hp with hp | hp
    · exact a.depths_le 1 p hp
    · exact b.depths_le 1 p hp

/-- All leaves of a pool. -/
def poolSyms (pool : List HNode) : List Nat := pool.flatMap fun x => x.tree.syms

theorem insertNode_perm (x : HNode) (pool : List HNode) : (insertNode x pool).Perm (x :: pool) := by
  induction pool with
  | nil => exact List.Perm.refl _
  | cons y ys ih =>
    simp only [insertNode]
    split
    · exact List.Perm.refl _
    · exact (List.Perm.cons y ih).trans (List.Perm.swap x y ys)

theorem poolSyms_perm {p q : List HNode} (h : p.Perm q) : (poolSyms p).Perm (poolSyms q) := h.flatMap_right _

/-- Merging a pool that is not empty, with fuel for its size, leaves one tree with all its leaves. -/
theorem mergePool_single (fuel next : Nat) (pool : List HNode) (h0 : pool ≠ []) (hf : pool.length ≤ fuel + 1) :
    ∃ root, mergePool fuel next pool = [root] ∧ root.tree.syms.Perm (poolSyms pool) := by
  induction fuel generalizing next pool with
  | zero =>
    match pool, h0, hf with
    | [x], _, _ => exact ⟨x, rfl, by simp [poolSyms]⟩
  | succ fuel ih =>
    match pool, h0, hf with
    | [x], _, _ => exact ⟨x, rfl, by simp [poolSyms]⟩
    | a :: b :: rest, _, hf =>
      simp only [mergePool]
      set m : HNode :=
        { weight := a.weight + b.weight, height := max a.height b.height + 1, serial := next, tree := .node a.tree b.tree } with hm
      have hp := insertNode_perm m rest
      obtain ⟨root, hr, hs⟩ := ih (next + 1) (insertNode m rest)
        (by intro he; rw [he] at hp; have := hp.length_eq; simp at this)
        (by rw [hp.length_eq]; simp only [List.length_cons] at hf ⊢; omega)
      refine ⟨root, hr, hs.trans ?_⟩
      refine (poolSyms_perm hp).trans ?_
      simp [poolSyms, hm, HTree.syms]

theorem leafPool_perm (freq leaves : List Nat) (p : List HNode) :
    (poolSyms (leaves.foldl
      (fun p s => insertNode { weight := freq.getD s 0, height := 0, serial := s, tree := .leaf s } p) p)).Perm (leaves ++ poolSyms p) ∧
    (leaves.foldl (fun p s => insertNode { weight := freq.getD s 0, height := 0, serial := s, tree := .leaf s } p) p).length =
      leaves.length + p.length := by
  induction leaves generalizing p with
  | nil => simp
  | cons s l ih =>
    simp only [List.foldl_cons]
    set x : HNode := { weight := freq.getD s 0, height := 0, serial := s, tree := .leaf s } with hx
    obtain ⟨h1, h2⟩ := ih (insertNode x p)
    have hp := insertNode_perm x p
    constructor
    · refine h1.trans ?_
      refine (List.Perm.append_left l (poolSyms_perm hp)).trans ?_
      have : poolSyms (x :: p) = s :: poolSyms p := by simp [poolSyms, hx, HTree.syms]
      rw [this]
      exact List.perm_middle
    · rw [h2, hp.length_eq]; simp; omega

/-- The depths of at least two leaves: one depth for each leaf, at least 1, with Kraft's equality (R205). -/
theorem leafDepths_good (n : Nat) (freq : List Nat) {leaves : List Nat} (h : 2 ≤ leaves.length) :
    ((leafDepths n freq leaves).map Prod.fst).Perm leaves ∧ (∀ p ∈ leafDepths n freq leaves, 1 ≤ p.2) ∧
    ∀ M, (∀ p ∈ leafDepths n freq leaves, p.2 ≤ M) → ((leafDepths n freq leaves).map fun p => 2 ^ (M - p.2)).sum = 2 ^ M := by
  unfold leafDepths
  obtain ⟨h1, h2⟩ := leafPool_perm freq leaves []
  set pool := leaves.foldl
    (fun p s => insertNode { weight := freq.getD s 0, height := 0, serial := s, tree := .leaf s } p) [] with hp
  obtain ⟨root, hr, hs⟩ := mergePool_single pool.length n pool
    (by intro he; rw [he] at h2; simp at h2; omega) (by omega)
  simp only [hr]
  have hperm : root.tree.syms.Perm leaves := by simpa [poolSyms] using hs.trans h1
  refine ⟨by rw [HTree.depths_fst]; exact hperm, HTree.depths_pos (by rw [hperm.length_eq]; exact h), ?_⟩
  intro M hM
  simpa using root.tree.depths_kraft 0 M hM

end Sys2Proof.Machine
end

