-- ==== Sys2Proof/Laws/HuffmanRepair.lean ====
section
/-! SUPPORT. The length-limit repair of 42_huffman_encoder.md R206: each adjustment keeps the number of leaves and the Kraft sum, an adjustment is
always possible, and the lengths given out in the end satisfy R215. -/

namespace Sys2Proof.Machine

/-! ## Weighted sums of the counts -/

/-- Σ f(b) · cnt[b]. -/
def wsum (f : Nat → Int) (cnt : List Nat) : Int := ((List.range cnt.length).map fun b => f b * (cntAt cnt b : Int)).sum

theorem cntAt_set {cnt : List Nat} {i k v : Nat} (hi : i < cnt.length) :
    cntAt (cnt.set i v) k = if k = i then v else cntAt cnt k := by
  unfold cntAt
  simp only [List.getD_eq_getElem?_getD, List.getElem?_set]
  by_cases h : k = i
  · subst h; simp [hi]
  · simp [h, Ne.symm h]

theorem sum_map_update (n i : Nat) (hi : i < n) (g g' : Nat → Int) (h : ∀ b, b ≠ i → g' b = g b) :
    ((List.range n).map g').sum = ((List.range n).map g).sum + (g' i - g i) := by
  induction n with
  | zero => omega
  | succ n ih =>
    rw [List.range_succ, List.map_append, List.map_append, List.sum_append, List.sum_append]
    simp only [List.map_cons, List.map_nil, List.sum_cons, List.sum_nil]
    by_cases hin : i = n
    · subst hin
      have e : (List.range i).map g' = (List.range i).map g :=
        List.map_congr_left fun b hb => h b (by have := List.mem_range.mp hb; omega)
      rw [e]
      omega
    · rw [ih (by omega), h n (fun e => hin e.symm)]
      omega

theorem wsum_set (f : Nat → Int) {cnt : List Nat} {i v : Nat} (hi : i < cnt.length) :
    wsum f (cnt.set i v) = wsum f cnt + f i * ((v : Int) - cntAt cnt i) := by
  unfold wsum
  rw [List.length_set]
  rw [sum_map_update cnt.length i hi (fun b => f b * (cntAt cnt b : Int)) (fun b => f b * (cntAt (cnt.set i v) b : Int))
    (fun b hb => by simp only [cntAt_set hi, if_neg hb])]
  simp only [cntAt_set hi, if_true]
  rw [Int.mul_sub]

/-! ## One adjustment -/

theorem donorFrom_spec (cnt : List Nat) (k : Nat) :
    donorFrom cnt k ≤ k ∧ (donorFrom cnt k ≠ 0 → 0 < cntAt cnt (donorFrom cnt k)) ∧
    (donorFrom cnt k = 0 → ∀ j, 1 ≤ j → j ≤ k → cntAt cnt j = 0) := by
  induction k with
  | zero => exact ⟨le_refl _, fun h => absurd rfl h, fun _ j h1 h2 => by omega⟩
  | succ k ih =>
    simp only [donorFrom]
    split
    · rename_i h0
      obtain ⟨h1, h2, h3⟩ := ih
      refine ⟨by omega, h2, fun hz j hj1 hj2 => ?_⟩
      by_cases hj : j = k + 1
      · rw [hj]; exact h0
      · exact h3 hz j hj1 (by omega)
    · rename_i h0
      exact ⟨le_refl _, fun _ => by omega, fun h => by omega⟩

theorem repairOnce_length (cnt : List Nat) (i : Nat) : (repairOnce cnt i).length = cnt.length := by
  simp [repairOnce]

/-- What an adjustment does to a weighted sum and to the counts from depth i on (R206). -/
theorem repairOnce_spec {cnt : List Nat} {i : Nat} (hi : i < cnt.length) (h2 : 2 ≤ cntAt cnt i)
    (hj : donorFrom cnt (i - 2) ≠ 0) :
    (∀ f, wsum f (repairOnce cnt i) = wsum f cnt - 2 * f i + f (i - 1) + 2 * f (donorFrom cnt (i - 2) + 1) - f (donorFrom cnt (i - 2))) ∧
    cntAt (repairOnce cnt i) i = cntAt cnt i - 2 ∧ (∀ k, i < k → cntAt (repairOnce cnt i) k = cntAt cnt k) ∧
    cntAt (repairOnce cnt i) 0 = cntAt cnt 0 := by
  obtain ⟨hle, hpos, -⟩ := donorFrom_spec cnt (i - 2)
  have hp := hpos hj
  simp only [repairOnce]
  generalize donorFrom cnt (i - 2) = j at *
  have hi3 : j + 2 ≤ i := by omega
  set c1 := cnt.set i (cntAt cnt i - 2) with hc1
  have l1 : c1.length = cnt.length := by simp [hc1]
  set c2 := c1.set (i - 1) (cntAt c1 (i - 1) + 1) with hc2
  have l2 : c2.length = cnt.length := by simp [hc2, l1]
  set c3 := c2.set (j + 1) (cntAt c2 (j + 1) + 2) with hc3
  have l3 : c3.length = cnt.length := by simp [hc3, l2]
  have e1 : ∀ k, cntAt c1 k = if k = i then cntAt cnt i - 2 else cntAt cnt k := fun k => cntAt_set hi
  have e2 : ∀ k, cntAt c2 k = if k = i - 1 then cntAt c1 (i - 1) + 1 else cntAt c1 k := fun k => cntAt_set (by omega)
  have e3 : ∀ k, cntAt c3 k = if k = j + 1 then cntAt c2 (j + 1) + 2 else cntAt c2 k := fun k => cntAt_set (by omega)
  have e4 : ∀ k, cntAt (c3.set j (cntAt c3 j - 1)) k = if k = j then cntAt c3 j - 1 else cntAt c3 k := fun k => cntAt_set (by omega)
  have hcj : cntAt c3 j = cntAt cnt j := by
    rw [e3, if_neg (by omega), e2, if_neg (by omega), e1, if_neg (by omega)]
  refine ⟨fun f => ?_, ?_, ?_, ?_⟩
  · rw [wsum_set f (by omega : j < c3.length), hc3, wsum_set f (by omega : j + 1 < c2.length), hc2,
      wsum_set f (by omega : i - 1 < c1.length), hc1, wsum_set f hi, ← hc1, ← hc2, ← hc3, hcj]
    have a1 : ((cntAt cnt i - 2 : Nat) : Int) - cntAt cnt i = -2 := by omega
    have a2 : ((cntAt c1 (i - 1) + 1 : Nat) : Int) - cntAt c1 (i - 1) = 1 := by omega
    have a3 : ((cntAt c2 (j + 1) + 2 : Nat) : Int) - cntAt c2 (j + 1) = 2 := by omega
    have a4 : ((cntAt cnt j - 1 : Nat) : Int) - cntAt cnt j = -1 := by omega
    rw [a1, a2, a3, a4]
    ring
  · rw [e4, if_neg (by omega), e3, if_neg (by omega), e2, if_neg (by omega), e1, if_pos rfl]
  · intro k hk
    rw [e4, if_neg (by omega), e3, if_neg (by omega), e2, if_neg (by omega), e1, if_neg (by omega)]
  · rw [e4, if_neg (by omega), e3, if_neg (by omega), e2, if_neg (by omega), e1, if_neg (by omega)]

/-! ## What stays true during the repair -/

/-- Counts of the leaves of a full tree of N leaves: nothing at depth 0 or below depth i, and Kraft's equality. -/
structure FullCounts (M N i : Nat) (cnt : List Nat) : Prop where
  root : cntAt cnt 0 = 0
  deep : ∀ k, i < k → cntAt cnt k = 0
  leaves : wsum (fun _ => 1) cnt = N
  kraft : wsum (fun b => 2 ^ (M - b)) cnt = 2 ^ M
  room : i < cnt.length

/-- A weighted sum over counts that are 0 from depth i + 1 on. -/
theorem wsum_upTo {f : Nat → Int} {cnt : List Nat} {i : Nat} (hi : i < cnt.length) (hz : ∀ k, i < k → cntAt cnt k = 0) :
    wsum f cnt = ((List.range (i + 1)).map fun b => f b * (cntAt cnt b : Int)).sum := by
  unfold wsum
  obtain ⟨m, hm⟩ := Nat.exists_eq_add_of_le (show i + 1 ≤ cnt.length from hi)
  rw [hm, List.range_add, List.map_append, List.sum_append]
  have : (((List.range m).map fun k => i + 1 + k).map fun b => f b * (cntAt cnt b : Int)).sum = 0 := by
    apply List.sum_eq_zero
    intro x hx
    obtain ⟨b, hb, rfl⟩ := List.mem_map.mp hx
    obtain ⟨k, -, rfl⟩ := List.mem_map.mp hb
    rw [hz _ (by omega)]
    simp
  rw [this]
  simp

theorem sum_range_scale (i : Nat) (c : Int) (g g' : Nat → Int) (h : ∀ b, b < i → g b = c * g' b) :
    ((List.range i).map g).sum = c * ((List.range i).map g').sum := by
  induction i with
  | zero => simp
  | succ i ih =>
    rw [List.range_succ, List.map_append, List.map_append, List.sum_append, List.sum_append, ih fun b hb => h b (by omega)]
    simp [h i (by omega), Int.mul_add]

/-- The leaves at the deepest level come in pairs, and a leaf high enough to split exists (R206). -/
theorem FullCounts.even_and_donor {M N i : Nat} {cnt : List Nat} (h : FullCounts M N i cnt) (hM : i ≤ M) (hi : 2 ≤ i)
    (hN : N < 2 ^ (i - 1)) : (∃ q, cntAt cnt i = 2 * q) ∧ donorFrom cnt (i - 2) ≠ 0 := by
  have hk := h.kraft
  rw [wsum_upTo h.room h.deep] at hk
  have hs : ((List.range (i + 1)).map fun b => (2 : Int) ^ (M - b) * (cntAt cnt b : Int)).sum =
      2 ^ (M - i) * ((List.range (i + 1)).map fun b => (2 : Int) ^ (i - b) * (cntAt cnt b : Int)).sum := by
    apply sum_range_scale
    intro b hb
    rw [← mul_assoc, ← pow_add, show M - i + (i - b) = M - b by omega]
  rw [hs, show (2 : Int) ^ M = 2 ^ (M - i) * 2 ^ i by rw [← pow_add]; congr 1; omega] at hk
  have hK : ((List.range (i + 1)).map fun b => (2 : Int) ^ (i - b) * (cntAt cnt b : Int)).sum = 2 ^ i :=
    mul_left_cancel₀ (pow_ne_zero _ (by decide)) hk
  rw [List.range_succ, List.map_append, List.sum_append] at hK
  simp only [List.map_cons, List.map_nil, List.sum_cons, List.sum_nil, Nat.sub_self, pow_zero, one_mul, add_zero] at hK
  constructor
  · have e : ((List.range i).map fun b => (2 : Int) ^ (i - b) * (cntAt cnt b : Int)).sum =
        2 * ((List.range i).map fun b => (2 : Int) ^ (i - 1 - b) * (cntAt cnt b : Int)).sum := by
      apply sum_range_scale
      intro b hb
      rw [show i - b = (i - 1 - b) + 1 by omega, pow_succ]
      ring
    rw [e, show i = (i - 1) + 1 by omega, pow_succ] at hK
    rw [show i - 1 + 1 = i by omega] at hK
    exact ⟨(2 ^ (i - 1) - ((List.range i).map fun b => (2 : Int) ^ (i - 1 - b) * (cntAt cnt b : Int)).sum).toNat, by omega⟩
  · intro hd
    have hz := (donorFrom_spec cnt (i - 2)).2.2 hd
    have hz' : ∀ b, b < i - 1 → cntAt cnt b = 0 := by
      intro b hb
      by_cases h0 : b = 0
      · rw [h0]; exact h.root
      · exact hz b (by omega) (by omega)
    have hT := h.leaves
    rw [wsum_upTo h.room h.deep, List.range_succ, List.map_append, List.sum_append] at hT
    rw [show i = (i - 1) + 1 by omega, List.range_succ, List.map_append, List.sum_append] at hT hK
    rw [show i - 1 + 1 = i by omega] at hT hK
    have z1 : ((List.range (i - 1)).map fun b => (2 : Int) ^ (i - b) * (cntAt cnt b : Int)).sum = 0 := by
      apply List.sum_eq_zero
      intro x hx
      obtain ⟨b, hb, rfl⟩ := List.mem_map.mp hx
      rw [hz' b (List.mem_range.mp hb)]
      simp
    have z2 : ((List.range (i - 1)).map fun b => (1 : Int) * (cntAt cnt b : Int)).sum = 0 := by
      apply List.sum_eq_zero
      intro x hx
      obtain ⟨b, hb, rfl⟩ := List.mem_map.mp hx
      rw [hz' b (List.mem_range.mp hb)]
      simp
    rw [z1] at hK
    rw [z2] at hT
    simp only [List.map_cons, List.map_nil, List.sum_cons, List.sum_nil, one_mul, add_zero, zero_add,
      show i - (i - 1) = 1 by omega, pow_one] at hK hT
    have hp : (2 : Int) ^ i = 2 * 2 ^ (i - 1) := by
      conv_lhs => rw [show i = (i - 1) + 1 by omega, pow_succ]
      ring
    have hN' : (N : Int) < 2 ^ (i - 1) := by exact_mod_cast hN
    omega

/-- Repairing depth i leaves no leaf there and a full tree of the same leaves (R206). -/
theorem repairDepth_spec {M N i : Nat} (hM : i ≤ M) (hi : 2 ≤ i) (hN : N < 2 ^ (i - 1)) (fuel : Nat) {cnt : List Nat}
    (h : FullCounts M N i cnt) (hf : cntAt cnt i ≤ fuel) :
    FullCounts M N (i - 1) (repairDepth fuel cnt i) ∧ (repairDepth fuel cnt i).length = cnt.length := by
  induction fuel generalizing cnt with
  | zero =>
    simp only [repairDepth]
    refine ⟨⟨h.root, fun k hk => ?_, h.leaves, h.kraft, by have := h.room; omega⟩, trivial⟩
    by_cases hki : k = i
    · rw [hki]; omega
    · exact h.deep k (by omega)
  | succ fuel ih =>
    simp only [repairDepth]
    split
    · rename_i h0
      refine ⟨⟨h.root, fun k hk => ?_, h.leaves, h.kraft, by have := h.room; omega⟩, rfl⟩
      by_cases hki : k = i
      · rw [hki]; exact h0
      · exact h.deep k (by omega)
    · rename_i h0
      obtain ⟨⟨q, hq⟩, hd⟩ := h.even_and_donor hM hi hN
      obtain ⟨g1, g2, g3, g4⟩ := repairOnce_spec h.room (by omega) hd
      have hle := (donorFrom_spec cnt (i - 2)).1
      have a1 : (2 : Int) ^ (M - (i - 1)) = 2 * 2 ^ (M - i) := by
        rw [show M - (i - 1) = (M - i) + 1 by omega, pow_succ]; ring
      have a2 : (2 : Int) ^ (M - donorFrom cnt (i - 2)) = 2 * 2 ^ (M - (donorFrom cnt (i - 2) + 1)) := by
        rw [show M - donorFrom cnt (i - 2) = (M - (donorFrom cnt (i - 2) + 1)) + 1 by omega, pow_succ]; ring
      have hk : wsum (fun b => (2 : Int) ^ (M - b)) (repairOnce cnt i) = 2 ^ M := by
        rw [g1, h.kraft]
        simp only [a1, a2]
        ring
      obtain ⟨k1, k2⟩ := ih (cnt := repairOnce cnt i) ⟨by rw [g4]; exact h.root, fun k hk => by rw [g3 k hk]; exact h.deep k hk,
        by rw [g1, h.leaves]; omega, hk, by rw [repairOnce_length]; exact h.room⟩ (by rw [g2]; omega)
      exact ⟨k1, by rw [k2, repairOnce_length]⟩

/-- The whole repair leaves no leaf below the limit and a full tree of the same leaves (R206). -/
theorem repairFrom_spec {M N limit : Nat} (hl : 1 ≤ limit) (hN : N < 2 ^ limit) (k : Nat) {cnt : List Nat} (hM : limit + k ≤ M)
    (h : FullCounts M N (limit + k) cnt) : FullCounts M N limit (repairFrom limit k cnt) := by
  induction k generalizing cnt with
  | zero => exact h
  | succ k ih =>
    simp only [repairFrom]
    have hN' : N < 2 ^ (limit + (k + 1) - 1) := lt_of_lt_of_le hN (Nat.pow_le_pow_right (by decide) (by omega))
    obtain ⟨g1, -⟩ := repairDepth_spec (M := M) (N := N) (i := limit + (k + 1)) hM (by omega) hN' _ h (le_refl _)
    exact ih (by omega) g1

/-! ## The lengths given out -/

theorem lengthsGiven_mem {cnt : List Nat} {n l : Nat} (h : l ∈ lengthsGiven cnt n) : 1 ≤ l ∧ l ≤ n := by
  induction n with
  | zero => simp [lengthsGiven] at h
  | succ n ih =>
    simp only [lengthsGiven, List.mem_append, List.mem_replicate] at h
    rcases h with ⟨-, rfl⟩ | h
    · omega
    · have := ih h; omega

/-- A sum over the lengths given out is the weighted sum of the counts. -/
theorem lengthsGiven_sum (cnt : List Nat) (f : Nat → Int) (h0 : cntAt cnt 0 = 0) (n : Nat) :
    ((lengthsGiven cnt n).map f).sum = ((List.range (n + 1)).map fun b => f b * (cntAt cnt b : Int)).sum := by
  induction n with
  | zero => simp [lengthsGiven, h0]
  | succ n ih =>
    rw [List.range_succ, List.map_append, List.sum_append, ← ih]
    simp only [lengthsGiven, List.map_append, List.sum_append, List.map_replicate, List.sum_replicate, List.map_cons, List.map_nil,
      List.sum_cons, List.sum_nil, nsmul_eq_mul, add_zero]
    ring

theorem insertByFreq_perm (freq : List Nat) (s : Nat) (l : List Nat) : (insertByFreq freq s l).Perm (s :: l) := by
  induction l with
  | nil => exact List.Perm.refl _
  | cons t ts ih =>
    simp only [insertByFreq]
    split
    · exact List.Perm.refl _
    · exact (List.Perm.cons t ih).trans (List.Perm.swap s t ts)

theorem orderByFreq_perm (freq leaves acc : List Nat) :
    (leaves.foldl (fun o s => insertByFreq freq s o) acc).Perm (leaves ++ acc) := by
  induction leaves generalizing acc with
  | nil => exact List.Perm.refl _
  | cons s l ih =>
    simp only [List.foldl_cons]
    refine (ih _).trans ?_
    refine (List.Perm.append_left l (insertByFreq_perm freq s acc)).trans ?_
    exact List.perm_middle

/-- Lengths for the leaves as R215 wants them: one for each leaf, each from 1 to the limit, with Kraft's equality. -/
structure GoodLengths (limit : Nat) (leaves : List Nat) (lengths : List (Nat × Nat)) : Prop where
  leaves : (lengths.map Prod.fst).Perm leaves
  range : ∀ p ∈ lengths, 1 ≤ p.2 ∧ p.2 ≤ limit
  kraft : (lengths.map fun p => 2 ^ (15 - p.2)).sum = 2 ^ 15

theorem maxDepth_spec (depths : List (Nat × Nat)) (m : Nat) : m ≤ depths.foldl (fun m p => max m p.2) m ∧
    (∀ p ∈ depths, p.2 ≤ depths.foldl (fun m p => max m p.2) m) := by
  induction depths generalizing m with
  | nil => simp
  | cons a l ih =>
    obtain ⟨h1, h2⟩ := ih (max m a.2)
    simp only [List.foldl_cons]
    refine ⟨le_trans (le_max_left _ _) h1, fun p hp => ?_⟩
    rcases List.mem_cons.mp hp with rfl | hp
    · exact le_trans (le_max_right _ _) h1
    · exact h2 p hp

/-- The sum of f over the depths is the weighted sum of their counts. -/
theorem count_wsum (f : Nat → Int) (ds : List Nat) (m : Nat) (hd : ∀ d ∈ ds, 1 ≤ d ∧ d ≤ m) :
    wsum f ((List.range (m + 1)).map fun b => if b = 0 then 0 else ds.count b) = (ds.map f).sum := by
  have hlen : ((List.range (m + 1)).map fun b => if b = 0 then 0 else ds.count b).length = m + 1 := by simp
  have hat : ∀ b, b < m + 1 → cntAt ((List.range (m + 1)).map fun b => if b = 0 then 0 else ds.count b) b = if b = 0 then 0 else ds.count b := by
    intro b hb
    simp [cntAt, List.getD_eq_getElem?_getD, hb]
  unfold wsum
  rw [hlen]
  have e : (List.range (m + 1)).map (fun b =>
      f b * (cntAt ((List.range (m + 1)).map fun b => if b = 0 then 0 else ds.count b) b : Int)) =
      (List.range (m + 1)).map fun b => f b * ((if b = 0 then 0 else ds.count b : Nat) : Int) :=
    List.map_congr_left fun b hb => by rw [hat b (List.mem_range.mp hb)]
  rw [e]
  induction ds with
  | nil => simp
  | cons d ds ih =>
    have hd1 := hd d (by simp)
    rw [List.map_cons, List.sum_cons, ← ih (fun x hx => hd x (by simp [hx])) (by simp) (fun b hb => by
        simp [cntAt, List.getD_eq_getElem?_getD, hb]) (List.map_congr_left fun b hb => by
        simp [cntAt, List.getD_eq_getElem?_getD, List.mem_range.mp hb])]
    rw [sum_map_update (m + 1) d (by omega) (fun b => f b * ((if b = 0 then 0 else ds.count b : Nat) : Int))]
    · simp only [List.count_cons_self, if_neg (show d ≠ 0 by omega)]
      push_cast
      ring
    · intro b hb
      have : (d :: ds).count b = ds.count b := List.count_cons_of_ne (Ne.symm hb)
      simp only [this]

/-- The lengths R206 gives satisfy R215, for fewer leaves than the limit has room for. -/
theorem limitedLengths_good (n : Nat) (freq : List Nat) {leaves : List Nat} {limit : Nat} (h2 : 2 ≤ leaves.length) (h1 : 1 ≤ limit)
    (h15 : limit ≤ 15) (hN : leaves.length < 2 ^ limit) :
    GoodLengths limit leaves (limitedLengths limit freq (leafDepths n freq leaves)) := by
  obtain ⟨hperm, hpos, hkraft⟩ := leafDepths_good n freq h2
  set depths := leafDepths n freq leaves with hdep
  obtain ⟨-, hmax⟩ := maxDepth_spec depths 0
  unfold limitedLengths
  simp only
  set maxd := depths.foldl (fun m p => max m p.2) 0 with hmd
  have hdlen : depths.length = leaves.length := by
    have := hperm.length_eq
    simpa using this
  split
  · rename_i hle
    exact ⟨hperm, fun p hp => ⟨hpos p hp, le_trans (hmax p hp) hle⟩, hkraft 15 fun p hp => by have := hmax p hp; omega⟩
  · rename_i hgt
    unfold repairedLengths
    simp only
    set cnt0 := (List.range (maxd + 1)).map fun b => if b = 0 then 0 else (depths.map Prod.snd).count b with hc0
    have hds : ∀ d ∈ depths.map Prod.snd, 1 ≤ d ∧ d ≤ maxd := by
      intro d hd
      obtain ⟨p, hp, rfl⟩ := List.mem_map.mp hd
      exact ⟨hpos p hp, hmax p hp⟩
    have hl0 : cnt0.length = maxd + 1 := by simp [hc0]
    have full : FullCounts (maxd + 15) leaves.length (limit + (maxd - limit)) cnt0 := by
      rw [show limit + (maxd - limit) = maxd by omega]
      refine ⟨by simp [hc0, cntAt], fun k hk => ?_, ?_, ?_, by omega⟩
      · unfold cntAt
        rw [List.getD_eq_default _ _ (by omega)]
      · rw [hc0, count_wsum _ _ _ hds, ← hdlen, List.map_map]
        clear hc0
        generalize depths = ds
        induction ds with
        | nil => rfl
        | cons a l ih =>
          simp only [List.map_cons, List.sum_cons, List.length_cons, Function.comp_apply, ih]
          push_cast
          ring
      · rw [hc0, count_wsum _ _ _ hds]
        have := hkraft (maxd + 15) fun p hp => by have := hmax p hp; omega
        have e : ((depths.map Prod.snd).map fun b => (2 : Int) ^ (maxd + 15 - b)).sum =
            (((depths.map fun p => 2 ^ (maxd + 15 - p.2)).sum : Nat) : Int) := by
          rw [List.map_map]
          clear this hc0
          generalize depths = ds
          induction ds with
          | nil => simp
          | cons a l ih => simp [← ih]
        rw [e, this]
        push_cast
        rfl
    have rep := repairFrom_spec h1 hN (maxd - limit) (by omega) full
    set cnt := repairFrom limit (maxd - limit) cnt0 with hcnt
    set order := (depths.map Prod.fst).foldl (fun o s => insertByFreq freq s o) [] with hord
    have hop : order.Perm leaves := by
      have := orderByFreq_perm freq (depths.map Prod.fst) []
      rw [List.append_nil] at this
      exact this.trans hperm
    have hlen : (lengthsGiven cnt limit).length = leaves.length := by
      have h := lengthsGiven_sum cnt (fun _ => 1) rep.root limit
      rw [← wsum_upTo rep.room rep.deep, rep.leaves] at h
      simp at h
      exact_mod_cast h
    have hfst : (order.zip (lengthsGiven cnt limit)).map Prod.fst = order :=
      List.map_fst_zip (by rw [hlen, hop.length_eq])
    have hsnd : (order.zip (lengthsGiven cnt limit)).map Prod.snd = lengthsGiven cnt limit :=
      List.map_snd_zip (by rw [hlen, hop.length_eq])
    refine ⟨by rw [hfst]; exact hop, fun p hp => ?_, ?_⟩
    · exact lengthsGiven_mem (List.of_mem_zip hp).2
    · have h := lengthsGiven_sum cnt (fun b => (2 : Int) ^ (maxd + 15 - b)) rep.root limit
      rw [← wsum_upTo rep.room rep.deep, rep.kraft] at h
      have e : ((lengthsGiven cnt limit).map fun b => (2 : Int) ^ (maxd + 15 - b)).sum =
          2 ^ maxd * (((lengthsGiven cnt limit).map fun l => 2 ^ (15 - l)).sum : Nat) := by
        have hm : ∀ l ∈ lengthsGiven cnt limit, l ≤ 15 := fun l hl => le_trans (lengthsGiven_mem hl).2 h15
        clear h hlen hfst hsnd
        generalize lengthsGiven cnt limit = ls at *
        induction ls with
        | nil => simp
        | cons a l ih =>
          have ha := hm a (by simp)
          simp only [List.map_cons, List.sum_cons, ih fun x hx => hm x (by simp [hx])]
          rw [show maxd + 15 - a = maxd + (15 - a) by omega, pow_add]
          push_cast
          ring
      rw [e, pow_add] at h
      have h' := mul_left_cancel₀ (pow_ne_zero _ (by decide)) h
      have e2 : (order.zip (lengthsGiven cnt limit)).map (fun p => 2 ^ (15 - p.2)) =
          (lengthsGiven cnt limit).map fun l => 2 ^ (15 - l) := by
        conv_rhs => rw [← hsnd, List.map_map]
        rfl
      rw [e2]
      exact_mod_cast h'

/-! ## The vector of lengths -/

theorem sum_map_set (g : Nat → Nat) (v : List Nat) (s l : Nat) (hs : s < v.length) (h0 : v.getD s 0 = 0) (hg : g 0 = 0) :
    ((v.set s l).map g).sum = (v.map g).sum + g l := by
  induction v generalizing s with
  | nil => simp at hs
  | cons a v ih =>
    cases s with
    | zero =>
      simp at h0
      simp [h0, hg, Nat.add_comm]
    | succ s =>
      have := ih s (by simpa using hs) (by simpa using h0)
      simp only [List.set_cons_succ, List.map_cons, List.sum_cons]
      rw [this]
      omega

/-- The vector of lengths holds each leaf's length, and 0 elsewhere; so a sum over it is a sum over the leaves. -/
theorem lengthVector_spec (n : Nat) (lengths : List (Nat × Nat)) (hnd : (lengths.map Prod.fst).Nodup) (hlt : ∀ p ∈ lengths, p.1 < n) :
    (lengthVector n lengths).length = n ∧ (∀ p ∈ lengths, (lengthVector n lengths).getD p.1 0 = p.2) ∧
    (∀ s, s ∉ lengths.map Prod.fst → (lengthVector n lengths).getD s 0 = 0) ∧
    (∀ g : Nat → Nat, g 0 = 0 → ((lengthVector n lengths).map g).sum = (lengths.map fun p => g p.2).sum) := by
  have key : ∀ (ls : List (Nat × Nat)) (v : List Nat), v.length = n → (ls.map Prod.fst).Nodup → (∀ p ∈ ls, p.1 < n) →
      (∀ p ∈ ls, v.getD p.1 0 = 0) →
      (ls.foldl (fun v p => v.set p.1 p.2) v).length = n ∧
      (∀ p ∈ ls, (ls.foldl (fun v p => v.set p.1 p.2) v).getD p.1 0 = p.2) ∧
      (∀ s, s ∉ ls.map Prod.fst → (ls.foldl (fun v p => v.set p.1 p.2) v).getD s 0 = v.getD s 0) ∧
      (∀ g : Nat → Nat, g 0 = 0 →
        ((ls.foldl (fun v p => v.set p.1 p.2) v).map g).sum = (v.map g).sum + (ls.map fun p => g p.2).sum) := by
    intro ls
    induction ls with
    | nil => intro v hv _ _ _; exact ⟨hv, by simp, by simp, by simp⟩
    | cons q ls ih =>
      intro v hv hnd hlt hz
      simp only [List.map_cons, List.nodup_cons] at hnd
      have hq := hlt q (by simp)
      have hne : ∀ s, s ≠ q.1 → (v.set q.1 q.2).getD s 0 = v.getD s 0 := by
        intro s hs
        simp [List.getD_eq_getElem?_getD, Ne.symm hs]
      obtain ⟨h1, h2, h3, h4⟩ := ih (v.set q.1 q.2) (by simpa using hv) hnd.2 (fun p hp => hlt p (by simp [hp])) (fun p hp => by
        rw [hne p.1 (fun e => hnd.1 (e ▸ List.mem_map_of_mem hp))]
        exact hz p (by simp [hp]))
      simp only [List.foldl_cons]
      refine ⟨h1, ?_, ?_, ?_⟩
      · intro p hp
        rcases List.mem_cons.mp hp with rfl | hp
        · rw [h3 p.1 hnd.1]
          simp [List.getD_eq_getElem?_getD, hv, hq]
        · exact h2 p hp
      · intro s hs
        simp only [List.map_cons, List.mem_cons, not_or] at hs
        rw [h3 s hs.2, hne s hs.1]
      · intro g hg
        rw [h4 g hg, sum_map_set g v q.1 q.2 (by omega) (hz q (by simp)) hg]
        simp [Nat.add_assoc]
  have hz0 : ∀ s, (List.replicate n 0).getD s 0 = 0 := by
    intro s
    simp [List.getD_eq_getElem?_getD, List.getElem?_replicate]
    split <;> rfl
  obtain ⟨h1, h2, h3, h4⟩ := key lengths (List.replicate n 0) (by simp) hnd hlt fun p _ => hz0 p.1
  refine ⟨h1, h2, fun s hs => (h3 s hs).trans (hz0 s), fun g hg => ?_⟩
  rw [lengthVector, h4 g hg]
  simp [hg]

end Sys2Proof.Machine
end

