-- ==== Sys2Proof/Laws/Inflate.lean ====
section
/-! SUPPORT. The loops of the decoder end before their bounds do, so that a bound can be read as no bound at all (70_reset_and_hazards.md R403,
log 8): the symbol loop of 44_decompressor.md R293 to R296 and the header's loop of 46_dynamic_header.md R341. -/

namespace Sys2Proof.Machine

/-! ## What reading keeps -/

/-- Two DUs that differ in the bit reader at most. -/
def DU.SameButReader (d e : DU) : Prop := e = { d with res := e.res, cnt := e.cnt, inPtr := e.inPtr }

theorem DU.SameButReader.refl (d : DU) : d.SameButReader d := rfl

theorem DU.SameButReader.trans {d e f : DU} (h1 : d.SameButReader e) (h2 : e.SameButReader f) : d.SameButReader f := by
  unfold DU.SameButReader at *
  rw [h2, h1]

/-- Filling the reservoir changes nothing but the reader, and not how many bits there are (R321). -/
theorem DU.refill_keeps (m : Memory) (n fuel : Nat) (d : DU) :
    d.SameButReader (DU.refill m n fuel d) ∧ (DU.refill m n fuel d).avail = d.avail := by
  induction fuel generalizing d with
  | zero => exact ⟨rfl, rfl⟩
  | succ k ih =>
    simp only [DU.refill]
    split
    · rename_i h
      simp only [Bool.and_eq_true, decide_eq_true_eq] at h
      obtain ⟨h1, h2⟩ := ih (d.readByte m)
      refine ⟨DU.SameButReader.trans (show d.SameButReader (d.readByte m) from rfl) h1, h2.trans ?_⟩
      simp only [DU.avail, DU.readByte]
      omega
    · exact ⟨rfl, rfl⟩

/-- BRPeek changes nothing but the reader, and not how many bits there are; it answers only where it holds them (R321). -/
theorem DU.peek_keeps (d : DU) (m : Memory) (n : Nat) :
    d.SameButReader (d.peek m n).2 ∧ (d.peek m n).2.avail = d.avail ∧ ∀ v, (d.peek m n).1 = some v → n ≤ (d.peek m n).2.cnt := by
  obtain ⟨h1, h2⟩ := DU.refill_keeps m n n d
  simp only [DU.peek]
  split
  · exact ⟨h1, h2, fun v hv => by cases hv⟩
  · exact ⟨h1, h2, fun _ _ => Nat.le_of_not_lt ‹_›⟩

theorem DU.drop_avail {d : DU} {n : Nat} (h : n ≤ d.cnt) : (d.drop n).avail + n = d.avail := by
  simp only [DU.avail, DU.drop]
  omega

/-- BRTryGet changes nothing but the reader, and takes n bits or none (R323). -/
theorem DU.tryGet_keeps (d : DU) (m : Memory) (n : Nat) :
    d.SameButReader (d.tryGet m n).2 ∧ ∀ v, (d.tryGet m n).1 = some v → (d.tryGet m n).2.avail + n = d.avail := by
  obtain ⟨h1, h2, h3⟩ := DU.peek_keeps d m n
  simp only [DU.tryGet]
  generalize d.peek m n = p at h1 h2 h3
  obtain ⟨v, e⟩ := p
  cases v with
  | none => exact ⟨h1, fun v hv => by cases hv⟩
  | some v =>
    refine ⟨DU.SameButReader.trans h1 rfl, fun _ _ => ?_⟩
    have := DU.drop_avail (h3 v rfl)
    simp only at h2 this ⊢
    omega

/-- Decode changes nothing but the reader, and takes at least one bit for a symbol (R329). -/
theorem decodeFrom_keeps (m : Memory) (codes : List (Nat × Nat)) (left l c : Nat) (hl : 1 ≤ l) (d d' : DU) :
    (∀ o, decodeFrom m codes left l c d = .done o d' → d.SameButReader d' ∧ (∀ s, o = some s → d'.avail + 1 ≤ d.avail)) ∧
    (∀ e, decodeFrom m codes left l c d = .raise e d' → d.SameButReader d') ∧ decodeFrom m codes left l c d ≠ .stuck := by
  induction left generalizing l c d with
  | zero => simp only [decodeFrom]; exact ⟨fun o h => (by cases h), fun e h => (by cases h; exact rfl), fun h => (by cases h)⟩
  | succ left ih =>
    simp only [decodeFrom]
    split
    · exact ⟨fun o h => (by cases h; exact ⟨rfl, fun s hs => by cases hs⟩), fun e h => (by cases h), fun h => (by cases h)⟩
    · obtain ⟨h1, h2, h3⟩ := DU.peek_keeps d m l
      generalize d.peek m l = p at h1 h2 h3
      obtain ⟨v, e⟩ := p
      cases v with
      | none => exact ⟨fun o h => (by cases h; exact ⟨h1, fun s hs => by cases hs⟩), fun e h => (by cases h), fun h => (by cases h)⟩
      | some v =>
        have hd := DU.drop_avail (h3 v rfl)
        simp only at h1 h2 hd ⊢
        split
        · exact ⟨fun o h => (by cases h; exact ⟨DU.SameButReader.trans h1 rfl, fun s _ => by omega⟩), fun e h => (by cases h),
            fun h => (by cases h)⟩
        · split
          · obtain ⟨k1, k2, k3⟩ := ih (l + 1) (2 * c + (v >>> (l - 1)) % 2) (by omega) e
            exact ⟨fun o h => ⟨h1.trans (k1 o h).1, fun s hs => by have := (k1 o h).2 s hs; omega⟩, fun e h => h1.trans (k2 e h), k3⟩
          · exact ⟨fun o h => (by cases h), fun e h => (by cases h; exact h1), fun h => (by cases h)⟩

/-- What Decode keeps (R329): all but the reader; a symbol takes at least one bit. -/
theorem DU.decode_done {d d' : DU} {m : Memory} {lens : List Nat} {o : Option Nat} (h : d.decode m lens = .done o d') :
    d.SameButReader d' ∧ ∀ s, o = some s → d'.avail + 1 ≤ d.avail :=
  (decodeFrom_keeps m _ _ 1 0 (le_refl _) d d').1 o h

theorem DU.decode_raise {d d' : DU} {m : Memory} {lens : List Nat} {e : Err} (h : d.decode m lens = .raise e d') : d.SameButReader d' :=
  (decodeFrom_keeps m _ _ 1 0 (le_refl _) d d').2.1 e h

theorem DU.decode_not_stuck (d : DU) (m : Memory) (lens : List Nat) : d.decode m lens ≠ .stuck :=
  (decodeFrom_keeps m _ _ 1 0 (le_refl _) d d).2.2

/-- Repeat writes the output window only (R291). -/
theorem DU.replay_keeps (dist l : Nat) (d : DU) :
    let r := DU.replay dist l d
    r = { d with owin := r.owin, wend := r.wend, filled := r.filled, hist := r.hist } := by
  induction l generalizing d with
  | zero => rfl
  | succ l ih =>
    simp only [DU.replay]
    have := ih (d.wput (d.owin.get 16 (d.back dist)))
    simp only at this
    rw [this]
    rfl

/-! ## Reading, and then going on -/

/-- A field, read and used in two ways that agree wherever fewer bits are left. -/
theorem needBits_congr {d : DU} {m : Memory} {n : Nat} {f g : Nat → DU → Run DU Bool}
    (h : ∀ v d', d.SameButReader d' → d'.avail + n = d.avail → f v d' = g v d') : needBits (d.tryGet m n) f = needBits (d.tryGet m n) g := by
  obtain ⟨h1, h2⟩ := DU.tryGet_keeps d m n
  generalize d.tryGet m n = p at h1 h2
  obtain ⟨v, e⟩ := p
  cases v with
  | none => rfl
  | some v => exact h v e h1 (h2 v rfl)

/-- A symbol, read and used in two ways that agree wherever fewer bits are left. -/
theorem DU.decodeThen_congr {d : DU} {m : Memory} {lens : List Nat} {f g : Nat → DU → Run DU Bool}
    (h : ∀ s d', d.SameButReader d' → d'.avail + 1 ≤ d.avail → f s d' = g s d') : d.decodeThen m lens f = d.decodeThen m lens g := by
  unfold DU.decodeThen
  cases hd : d.decode m lens with
  | done o e =>
    cases o with
    | none => rfl
    | some s => exact h s e (DU.decode_done hd).1 ((DU.decode_done hd).2 s rfl)
  | raise e d => rfl
  | stuck => rfl

/-- Extra bits, read and used in two ways that agree wherever no more bits are left. -/
theorem DU.withExtra_congr {d : DU} {m : Memory} {f g : Nat → DU → Run DU Bool}
    (h : ∀ v d', d.SameButReader d' → d'.avail ≤ d.avail → f v d' = g v d') : d.withExtra m f = d.withExtra m g := by
  unfold DU.withExtra
  split
  · exact needBits_congr fun v d' h1 h2 => h v d' h1 (by omega)
  · exact h 0 d rfl (le_refl _)

/-! ## The symbol loop (44_decompressor.md R293 to R296) -/

/-- More than the passes that the symbol loop can still make: a symbol takes a bit or more, and extra bits may take none. -/
def DU.symbolPasses (d : DU) : Nat :=
  4 * d.avail + match d.mode with
    | .hufLb => 2
    | .hufDb => 2
    | .huf => 1
    | .hufD => 1
    | .header => 1
    | .dict => 1
    | .blocks => 1
    | .slen1 => 1
    | .slen2 => 1
    | .stored => 1
    | .dyn => 1
    | .chk => 1
    | .fin => 1

theorem DU.symbolPasses_le (d : DU) : d.symbolPasses ≤ 4 * d.avail + 8 := by
  unfold DU.symbolPasses
  split <;> omega

/-- The symbol loop does the same under every bound that is large enough. -/
theorem DU.hufLoop_bound (m : Memory) (f g : Nat) (d : DU) (hf : d.symbolPasses ≤ f) (hg : d.symbolPasses ≤ g) :
    DU.hufLoop m f d = DU.hufLoop m g d := by
  induction f generalizing g d with
  | zero => exact absurd hf (by unfold DU.symbolPasses; split <;> omega)
  | succ f ih =>
    cases g with
    | zero => exact absurd hg (by unfold DU.symbolPasses; split <;> omega)
    | succ g =>
      simp only [DU.hufLoop]
      split
      · rfl
      · have go : ∀ e : DU, e.symbolPasses < d.symbolPasses → DU.hufLoop m f e = DU.hufLoop m g e := fun e he =>
          ih g e (by omega) (by omega)
        cases hm : d.mode <;> simp only
        · refine DU.decodeThen_congr fun s d' h1 h2 => ?_
          have hm' : d'.mode = .huf := by rw [h1]; exact hm
          split
          · exact go _ (by simp only [DU.symbolPasses, DU.wput, DU.putHistory, DU.avail, hm, hm'] at *; omega)
          · split
            · rfl
            · split
              · rfl
              · exact go _ (by simp only [DU.symbolPasses, DU.takeLength, DU.avail, hm] at *; omega)
        · exact DU.withExtra_congr fun v d' h1 h2 => go _ (by simp only [DU.symbolPasses, DU.avail, hm] at *; omega)
        · refine DU.decodeThen_congr fun s d' h1 h2 => ?_
          split
          · rfl
          · exact go _ (by simp only [DU.symbolPasses, DU.takeDist, DU.avail, hm] at *; omega)
        · refine DU.withExtra_congr fun v d' h1 h2 => ?_
          split
          · rfl
          · refine go _ ?_
            have hr := DU.replay_keeps (d'.rdist + v) d'.rlen { d' with rdist := d'.rdist + v }
            simp only at hr
            simp only [DU.symbolPasses, DU.go, DU.avail, hm] at *
            rw [hr]
            simp only
            omega

/-! ## The header's loop (46_dynamic_header.md R341) -/

/-- More than the passes that the header's loop can still make: a field or a symbol takes a bit or more, and the move from CLEN to SYM none. -/
def DU.headerPasses (d : DU) : Nat :=
  d.avail + match d.dh.phase with
    | .clen => 2
    | .hlit => 1
    | .hdist => 1
    | .hclen => 1
    | .sym => 1
    | .rep => 1
    | .done => 1

theorem DU.headerPasses_le (d : DU) : d.headerPasses ≤ d.avail + 8 := by
  unfold DU.headerPasses
  split <;> omega

/-- The header's loop does the same under every bound that is large enough. -/
theorem DU.dhLoop_bound (m : Memory) (f g : Nat) (d : DU) (hf : d.headerPasses ≤ f) (hg : d.headerPasses ≤ g) :
    DU.dhLoop m f d = DU.dhLoop m g d := by
  induction f generalizing g d with
  | zero => exact absurd hf (by unfold DU.headerPasses; split <;> omega)
  | succ f ih =>
    cases g with
    | zero => exact absurd hg (by unfold DU.headerPasses; split <;> omega)
    | succ g =>
      simp only [DU.dhLoop]
      have go : ∀ e : DU, e.headerPasses < d.headerPasses → DU.dhLoop m f e = DU.dhLoop m g e := fun e he =>
        ih g e (by omega) (by omega)
      cases hm : d.dh.phase <;> simp only
      · exact needBits_congr fun v d' h1 h2 => go _ (by simp only [DU.headerPasses, DU.dhHlit, DU.avail, hm] at *; omega)
      · exact needBits_congr fun v d' h1 h2 => go _ (by simp only [DU.headerPasses, DU.dhHdist, DU.avail, hm] at *; omega)
      · refine needBits_congr fun v d' h1 h2 => ?_
        split
        · rfl
        · exact go _ (by simp only [DU.headerPasses, DU.dhGo, DU.avail, hm] at *; omega)
      · split
        · refine needBits_congr fun v d' h1 h2 => ?_
          have hm' : d'.dh.phase = .clen := by rw [h1]; exact hm
          exact go _ (by simp only [DU.headerPasses, DU.dhClen, DU.avail, hm, hm'] at *; omega)
        · split
          · rfl
          · exact go _ (by simp only [DU.headerPasses, DU.dhGo, DU.avail, hm] at *; omega)
      · split
        · refine DU.decodeThen_congr fun s d' h1 h2 => ?_
          have hm' : d'.dh.phase = .sym := by rw [h1]; exact hm
          split
          · exact go _ (by simp only [DU.headerPasses, DU.dhLength, DU.avail, hm, hm'] at *; omega)
          · split
            · rfl
            · exact go _ (by simp only [DU.headerPasses, DU.dhRepeat, DU.avail, hm] at *; omega)
        · rfl
      · refine needBits_congr fun v d' h1 h2 => ?_
        have hx : 2 ≤ d.dh.rsym.extraBase.1 := by cases d.dh.rsym <;> decide
        split
        · rfl
        · exact go _ (by simp only [DU.headerPasses, DU.dhFill, DU.avail, hm] at *; omega)

/-! ## Going on -/

/-- A pass of the symbol loop that comes to a DU still in the loop, with fewer passes to make, goes on as that DU's own step does. -/
theorem DU.hufLoop_eq_step {m : Memory} {f : Nat} {e : DU} (hs : e.mode.inSymbols = true) (hf : e.symbolPasses ≤ f) :
    DU.hufLoop m f e = e.step m := by
  have : e.step m = DU.hufLoop m (4 * e.avail + 8) e := by
    unfold DU.step DU.stepHuf
    cases h : e.mode <;> simp only <;> rw [h] at hs <;> cases hs
  rw [this]
  exact DU.hufLoop_bound m _ _ e hf e.symbolPasses_le

/-- A pass of the header's loop that comes to a DU still in the header goes on as that DU's own step does. -/
theorem DU.dhLoop_eq_step {m : Memory} {f : Nat} {e : DU} (hs : e.mode = .dyn) (hf : e.headerPasses ≤ f) :
    ((DU.dhLoop m f e).bind fun complete d => if complete then d.takeCodes.stepHuf m else .done false d) = e.step m := by
  unfold DU.step
  rw [hs]
  simp only [DU.stepDyn, DU.dhStep]
  rw [DU.dhLoop_bound m f (e.avail + 8) e hf e.headerPasses_le]

/-! ## The bounds are never reached -/

theorem needBits_ne_stuck {d : DU} {m : Memory} {n : Nat} {f : Nat → DU → Run DU Bool}
    (h : ∀ v d', d.SameButReader d' → d'.avail + n = d.avail → f v d' ≠ .stuck) : needBits (d.tryGet m n) f ≠ .stuck := by
  obtain ⟨h1, h2⟩ := DU.tryGet_keeps d m n
  generalize d.tryGet m n = p at h1 h2
  obtain ⟨v, e⟩ := p
  cases v with
  | none => exact fun h => by cases h
  | some v => exact h v e h1 (h2 v rfl)

theorem DU.decodeThen_ne_stuck {d : DU} {m : Memory} {lens : List Nat} {f : Nat → DU → Run DU Bool}
    (h : ∀ s d', d.SameButReader d' → d'.avail + 1 ≤ d.avail → f s d' ≠ .stuck) : d.decodeThen m lens f ≠ .stuck := by
  unfold DU.decodeThen
  cases hd : d.decode m lens with
  | done o e =>
    cases o with
    | none => exact fun h => by cases h
    | some s => exact h s e (DU.decode_done hd).1 ((DU.decode_done hd).2 s rfl)
  | raise e d => exact fun h => by cases h
  | stuck => exact absurd hd (DU.decode_not_stuck d m lens)

theorem DU.withExtra_ne_stuck {d : DU} {m : Memory} {f : Nat → DU → Run DU Bool}
    (h : ∀ v d', d.SameButReader d' → d'.avail ≤ d.avail → f v d' ≠ .stuck) : d.withExtra m f ≠ .stuck := by
  unfold DU.withExtra
  split
  · exact needBits_ne_stuck fun v d' h1 h2 => h v d' h1 (by omega)
  · exact h 0 d rfl (le_refl _)

/-- The symbol loop ends before a bound that is large enough. -/
theorem DU.hufLoop_ne_stuck (m : Memory) (f : Nat) (d : DU) (hf : d.symbolPasses ≤ f) : DU.hufLoop m f d ≠ .stuck := by
  induction f generalizing d with
  | zero => exact absurd hf (by unfold DU.symbolPasses; split <;> omega)
  | succ f ih =>
    simp only [DU.hufLoop]
    split
    · exact fun h => by cases h
    · have go : ∀ e : DU, e.symbolPasses < d.symbolPasses → DU.hufLoop m f e ≠ .stuck := fun e he => ih e (by omega)
      cases hm : d.mode <;> simp only
      case huf =>
        refine DU.decodeThen_ne_stuck fun s d' h1 h2 => ?_
        have hm' : d'.mode = .huf := by rw [h1]; exact hm
        split
        · exact go _ (by simp only [DU.symbolPasses, DU.wput, DU.putHistory, DU.avail, hm, hm'] at *; omega)
        · split
          · exact fun h => by cases h
          · split
            · exact fun h => by cases h
            · exact go _ (by simp only [DU.symbolPasses, DU.takeLength, DU.avail, hm] at *; omega)
      case hufLb => exact DU.withExtra_ne_stuck fun v d' h1 h2 => go _ (by simp only [DU.symbolPasses, DU.avail, hm] at *; omega)
      case hufD =>
        refine DU.decodeThen_ne_stuck fun s d' h1 h2 => ?_
        split
        · exact fun h => by cases h
        · exact go _ (by simp only [DU.symbolPasses, DU.takeDist, DU.avail, hm] at *; omega)
      case hufDb =>
        refine DU.withExtra_ne_stuck fun v d' h1 h2 => ?_
        split
        · exact fun h => by cases h
        · refine go _ ?_
          have hr := DU.replay_keeps (d'.rdist + v) d'.rlen { d' with rdist := d'.rdist + v }
          simp only at hr
          simp only [DU.symbolPasses, DU.go, DU.avail, hm] at *
          rw [hr]
          simp only
          omega
      all_goals exact fun h => by cases h

/-- The header's loop ends before a bound that is large enough. -/
theorem DU.dhLoop_ne_stuck (m : Memory) (f : Nat) (d : DU) (hf : d.headerPasses ≤ f) : DU.dhLoop m f d ≠ .stuck := by
  induction f generalizing d with
  | zero => exact absurd hf (by unfold DU.headerPasses; split <;> omega)
  | succ f ih =>
    simp only [DU.dhLoop]
    have go : ∀ e : DU, e.headerPasses < d.headerPasses → DU.dhLoop m f e ≠ .stuck := fun e he => ih e (by omega)
    cases hm : d.dh.phase <;> simp only
    case hlit => exact needBits_ne_stuck fun v d' h1 h2 => go _ (by simp only [DU.headerPasses, DU.dhHlit, DU.avail, hm] at *; omega)
    case hdist => exact needBits_ne_stuck fun v d' h1 h2 => go _ (by simp only [DU.headerPasses, DU.dhHdist, DU.avail, hm] at *; omega)
    case hclen =>
      refine needBits_ne_stuck fun v d' h1 h2 => ?_
      split
      · exact fun h => by cases h
      · exact go _ (by simp only [DU.headerPasses, DU.dhGo, DU.avail, hm] at *; omega)
    case clen =>
      split
      · refine needBits_ne_stuck fun v d' h1 h2 => ?_
        have hm' : d'.dh.phase = .clen := by rw [h1]; exact hm
        exact go _ (by simp only [DU.headerPasses, DU.dhClen, DU.avail, hm, hm'] at *; omega)
      · split
        · exact fun h => by cases h
        · exact go _ (by simp only [DU.headerPasses, DU.dhGo, DU.avail, hm] at *; omega)
    case sym =>
      split
      · refine DU.decodeThen_ne_stuck fun s d' h1 h2 => ?_
        have hm' : d'.dh.phase = .sym := by rw [h1]; exact hm
        split
        · exact go _ (by simp only [DU.headerPasses, DU.dhLength, DU.avail, hm, hm'] at *; omega)
        · split
          · exact fun h => by cases h
          · exact go _ (by simp only [DU.headerPasses, DU.dhRepeat, DU.avail, hm] at *; omega)
      · split <;> exact fun h => by cases h
    case rep =>
      refine needBits_ne_stuck fun v d' h1 h2 => ?_
      have hx : 2 ≤ d.dh.rsym.extraBase.1 := by cases d.dh.rsym <;> decide
      split
      · exact fun h => by cases h
      · exact go _ (by simp only [DU.headerPasses, DU.dhFill, DU.avail, hm] at *; omega)
    case done => exact fun h => by cases h

end Sys2Proof.Machine
end

