-- ==== Sys2Proof/Laws/MatchEngine.lean ====
section
/-! SUPPORT. What the signed positions of 10_state.md R32 can show: a block's start below 0 shows its sign alone, and a match that is held lies
in R32's range (log 13). -/

namespace Sys2Proof.Machine

@[simp] theorem CU.slide_blockStart (c : CU) : c.slide.blockStart = c.blockStart - WSIZE := rfl
@[simp] theorem CU.slide_matchStart (c : CU) : c.slide.matchStart = c.matchStart - WSIZE := rfl
@[simp] theorem CU.slide_strstart (c : CU) : c.slide.strstart = c.strstart - WSIZE := rfl

/-- A block whose start has slid out of the window is emitted the same whatever its start, and its length, may be (42_huffman_encoder.md
R210). -/
theorem CU.flushBlock_of_negative (c : CU) {start start' : Int} (h : start < 0) (h' : start' < 0) (n n' : Nat) (last : Bool) :
    c.flushBlock start n last = c.flushBlock start' n' last := by
  unfold CU.flushBlock
  congr 1
  funext items c
  have e : ¬ (0 ≤ start) := by omega
  have e' : ¬ (0 ≤ start') := by omega
  simp [CU.emitBlock, e, e']

/-- While a match is held, C_MATCH_START lies in R32's range. -/
theorem CU.Inv.held_matchStart {c : CU} {top : Nat} (h : c.Inv top) (hm : 3 ≤ c.matchLen) :
    -32768 ≤ c.matchStart ∧ c.matchStart ≤ 65535 := by
  have := h.heldNear.resolve_left (by omega)
  exact ⟨by omega, h.matchStartHigh⟩

/-- R32's other ranges, and what bounds C_BLOCK_START above. -/
theorem CU.Inv.ranges {c : CU} {top : Nat} (h : c.Inv top) :
    c.strstart ≤ 65536 ∧ c.lookahead ≤ 65535 ∧ 2 ≤ c.matchLen ∧ c.matchLen ≤ 258 ∧ c.blockStart ≤ 65536 := by
  have h1 := h.positionHigh
  have h2 := h.strstartLow
  have h3 := h.blockStart
  exact ⟨by omega, by omega, h.matchLow, h.matchHigh, by omega⟩

end Sys2Proof.Machine
end

