-- ==== Sys2Proof/Laws/PerInstr.lean ====
section
/-! SUPPORT. What holds of every command as syntax, one lemma per constructor: the word of a well-formed command matches a row of the
opcode table (30_encoding.md R92, R93). -/

namespace Sys2Proof.Laws

/-- The word of a well-formed command matches a row of spec/opcode_table.json. -/
def LegalWord.Statement (i : Instr) : Prop := i.wf = true → ∃ row ∈ opcodeRows, encode i &&& row.1 = row.2

/-- Every CFG word that the fields can hold. -/
theorem legal_cfg : ∀ l : Fin 16, ∀ st : Fin 4, ∀ n : Bool, encode (.cConfig l.val st.val n) &&& 0xFFFF80FF#32 = 0x00000001#32 := by
  decide +kernel

theorem LegalWord.cConfig (level strategy : Nat) (nohdr : Bool) : LegalWord.Statement (.cConfig level strategy nohdr) := by
  intro h
  simp only [Instr.wf, levelFits, strategyFits, Bool.and_eq_true, decide_eq_true_eq] at h
  exact ⟨(0xFFFF80FF, 0x00000001), by simp [opcodeRows], legal_cfg ⟨level, h.1⟩ ⟨strategy, h.2⟩ nohdr⟩

theorem LegalWord.cSetInput : LegalWord.Statement .cSetInput := by
  intro _
  exact ⟨(0xFFFFFFFF, encode .cSetInput), by decide, by decide⟩

theorem LegalWord.cSetDict : LegalWord.Statement .cSetDict := by
  intro _
  exact ⟨(0xFFFFFFFF, encode .cSetDict), by decide, by decide⟩

theorem LegalWord.cDeflate : LegalWord.Statement .cDeflate := by
  intro _
  exact ⟨(0xFFFFFFFF, encode .cDeflate), by decide, by decide⟩

theorem LegalWord.cFlush : LegalWord.Statement .cFlush := by
  intro _
  exact ⟨(0xFFFFFFFF, encode .cFlush), by decide, by decide⟩

theorem LegalWord.cFinish : LegalWord.Statement .cFinish := by
  intro _
  exact ⟨(0xFFFFFFFF, encode .cFinish), by decide, by decide⟩

theorem LegalWord.cReset : LegalWord.Statement .cReset := by
  intro _
  exact ⟨(0xFFFFFFFF, encode .cReset), by decide, by decide⟩

theorem LegalWord.cIsFinished : LegalWord.Statement .cIsFinished := by
  intro _
  exact ⟨(0xFFFFFFFF, encode .cIsFinished), by decide, by decide⟩

theorem LegalWord.cIsNeedingInput : LegalWord.Statement .cIsNeedingInput := by
  intro _
  exact ⟨(0xFFFFFFFF, encode .cIsNeedingInput), by decide, by decide⟩

theorem LegalWord.cAdler : LegalWord.Statement .cAdler := by
  intro _
  exact ⟨(0xFFFFFFFF, encode .cAdler), by decide, by decide⟩

theorem LegalWord.cTotalIn : LegalWord.Statement .cTotalIn := by
  intro _
  exact ⟨(0xFFFFFFFF, encode .cTotalIn), by decide, by decide⟩

theorem LegalWord.cTotalOut : LegalWord.Statement .cTotalOut := by
  intro _
  exact ⟨(0xFFFFFFFF, encode .cTotalOut), by decide, by decide⟩

theorem LegalWord.dConfig (nohdr : Bool) : LegalWord.Statement (.dConfig nohdr) := by
  intro _
  exact ⟨(0xFFFFBFFF, 0x00000021), by simp [opcodeRows], by cases nohdr <;> decide⟩

theorem LegalWord.dSetInput : LegalWord.Statement .dSetInput := by
  intro _
  exact ⟨(0xFFFFFFFF, encode .dSetInput), by decide, by decide⟩

theorem LegalWord.dSetDict : LegalWord.Statement .dSetDict := by
  intro _
  exact ⟨(0xFFFFFFFF, encode .dSetDict), by decide, by decide⟩

theorem LegalWord.dInflate : LegalWord.Statement .dInflate := by
  intro _
  exact ⟨(0xFFFFFFFF, encode .dInflate), by decide, by decide⟩

theorem LegalWord.dReset : LegalWord.Statement .dReset := by
  intro _
  exact ⟨(0xFFFFFFFF, encode .dReset), by decide, by decide⟩

theorem LegalWord.dIsFinished : LegalWord.Statement .dIsFinished := by
  intro _
  exact ⟨(0xFFFFFFFF, encode .dIsFinished), by decide, by decide⟩

theorem LegalWord.dIsNeedingInput : LegalWord.Statement .dIsNeedingInput := by
  intro _
  exact ⟨(0xFFFFFFFF, encode .dIsNeedingInput), by decide, by decide⟩

theorem LegalWord.dAdler : LegalWord.Statement .dAdler := by
  intro _
  exact ⟨(0xFFFFFFFF, encode .dAdler), by decide, by decide⟩

theorem LegalWord.dTotalIn : LegalWord.Statement .dTotalIn := by
  intro _
  exact ⟨(0xFFFFFFFF, encode .dTotalIn), by decide, by decide⟩

theorem LegalWord.dTotalOut : LegalWord.Statement .dTotalOut := by
  intro _
  exact ⟨(0xFFFFFFFF, encode .dTotalOut), by decide, by decide⟩

theorem LegalWord.dIsNeedingDict : LegalWord.Statement .dIsNeedingDict := by
  intro _
  exact ⟨(0xFFFFFFFF, encode .dIsNeedingDict), by decide, by decide⟩

end Sys2Proof.Laws
end

