-- ==== Sys2Proof/Laws/Step.lean ====
section
/-! SUPPORT. Once, what a step and the ends of commands can do: the case splits that later proofs start from. -/

namespace Sys2Proof.Machine

/-- What a step that goes to a next state has done: an illegal word's response, a command, a host operation, or nothing. -/
theorem step_cases {s t : State} (h : step s = .next t) :
    (∃ w e, s.port.cmd = some w ∧ decode w = .error e ∧ t = s.takeCmd.raise .cu (illegalErr e) 0) ∨
    (∃ w i, s.port.cmd = some w ∧ decode w = .ok i ∧ exec i s.takeCmd = .next t) ∨
    (s.port.cmd = none ∧ s.host = [] ∧ t = s) ∨
    (∃ r v rest, s.port.cmd = none ∧ s.host = .writePort r v :: rest ∧ t = { s with host := rest }.writePort r v) ∨
    (∃ a b rest, s.port.cmd = none ∧ s.host = .writeMem a b :: rest ∧ a < 2 ^ s.params.aw ∧
      t = { s with host := rest, mem := s.mem.write a b }) := by
  unfold step at h
  cases hc : s.port.cmd with
  | some w =>
    simp only [hc, issue] at h
    cases hd : decode w with
    | error e =>
      simp only [hd, Host.Outcome.next.injEq] at h
      exact .inl ⟨w, e, rfl, hd, h.symm⟩
    | ok i =>
      simp only [hd] at h
      exact .inr (.inl ⟨w, i, rfl, hd, h⟩)
  | none =>
    simp only [hc, hostTurn] at h
    cases hh : s.host with
    | nil =>
      simp only [hh, Host.Outcome.next.injEq] at h
      exact .inr (.inr (.inl ⟨rfl, rfl, h.symm⟩))
    | cons op rest =>
      cases op with
      | writePort r v =>
        simp only [hh, hostStep, Host.Outcome.next.injEq] at h
        exact .inr (.inr (.inr (.inl ⟨r, v, rest, rfl, rfl, h.symm⟩)))
      | writeMem a b =>
        simp only [hh, hostStep] at h
        split at h
        · simp only [Host.Outcome.next.injEq] at h
          exact .inr (.inr (.inr (.inr ⟨a, b, rest, rfl, rfl, ‹_›, h.symm⟩)))
        · cases h

/-- A guarded command of the CU ends with its first failed check, or has its effect. -/
theorem State.guardCU_cases {s t : State} {checks : List (Bool × Err)} {effect : Host.Outcome State Fault Refusal}
    (h : s.guardCU checks effect = .next t) :
    (∃ e, firstErr checks = some e ∧ (true, e) ∈ checks ∧ t = s.raise .cu e 0) ∨ (firstErr checks = none ∧ effect = .next t) := by
  unfold State.guardCU at h
  cases hc : firstErr checks with
  | none => simp only [hc] at h; exact .inr ⟨rfl, h⟩
  | some e =>
    simp only [hc, Host.Outcome.next.injEq] at h
    exact .inl ⟨e, rfl, firstErr_mem hc, h.symm⟩

/-- A guarded command of the DU ends with its first failed check, or has its effect. -/
theorem State.guardDU_cases {s t : State} {checks : List (Bool × Err)} {effect : Host.Outcome State Fault Refusal}
    (h : s.guardDU checks effect = .next t) :
    (∃ e, firstErr checks = some e ∧ (true, e) ∈ checks ∧ t = s.raise .du e 0) ∨ (firstErr checks = none ∧ effect = .next t) := by
  unfold State.guardDU at h
  cases hc : firstErr checks with
  | none => simp only [hc] at h; exact .inr ⟨rfl, h⟩
  | some e =>
    simp only [hc, Host.Outcome.next.injEq] at h
    exact .inl ⟨e, rfl, firstErr_mem hc, h.symm⟩

/-- A transfer of the CU ends in a success that counts its bytes, or in an error that counts them. -/
theorem State.endCU_cases {s t : State} {r : Run (Xfer CU) Unit} (h : s.endCU r = .next t) :
    (∃ x, r = .done () x ∧ t = { s with cu := x.unit, mem := x.mem }.succeed (BitVec.ofNat 64 (x.dest - s.argAddr))) ∨
    (∃ e x, r = .raise e x ∧ t = { s with cu := x.unit, mem := x.mem }.raise .cu e (x.dest - s.argAddr)) := by
  cases r with
  | done u x => simp only [State.endCU, Host.Outcome.next.injEq] at h; exact .inl ⟨x, rfl, h.symm⟩
  | raise e x => simp only [State.endCU, Host.Outcome.next.injEq] at h; exact .inr ⟨e, x, rfl, h.symm⟩
  | stuck => cases h

/-- A transfer of the DU ends in a success that counts its bytes, or in an error that counts them. -/
theorem State.endDU_cases {s t : State} {r : Run (Xfer DU) Unit} (h : s.endDU r = .next t) :
    (∃ x, r = .done () x ∧ t = { s with du := x.unit, mem := x.mem }.succeed (BitVec.ofNat 64 (x.dest - s.argAddr))) ∨
    (∃ e x, r = .raise e x ∧ t = { s with du := x.unit, mem := x.mem }.raise .du e (x.dest - s.argAddr)) := by
  cases r with
  | done u x => simp only [State.endDU, Host.Outcome.next.injEq] at h; exact .inl ⟨x, rfl, h.symm⟩
  | raise e x => simp only [State.endDU, Host.Outcome.next.injEq] at h; exact .inr ⟨e, x, rfl, h.symm⟩
  | stuck => cases h

end Sys2Proof.Machine
end

