-- ==== Sys2Proof/Tests/Slice0.lean ====
section
/-! SUPPORT. The model's own tests, with expected values from the spec's examples and vectors (95_test_vectors.md and the rules' examples), and
for every obligation with hypotheses a concrete state and operands that meet them. -/

open Sys2Proof Sys2Proof.Machine

namespace Sys2Proof.Tests

set_option Elab.async false

/-! ## Helpers -/

/-- A view of the next state of an outcome. -/
def after {α : Type} (o : Host.Outcome State Fault Refusal) (view : State → α) : Option α :=
  match o with
  | .next t => some (view t)
  | .fault _ => none
  | .refused _ => none

/-- A byte string from its numbers. -/
def bytes (l : List Nat) : List Byte := l.map (BitVec.ofNat 8)

/-- ARG_ADDR and ARG_LEN written. -/
def withBuffer (s : State) (a n : Nat) : State := { s with port := { s.port with argAddr := a, argLen := BitVec.ofNat 32 n } }

/-- Host memory holding bytes from an address on. -/
def withBytes (s : State) (a : Nat) (l : List Nat) : State := { s with mem := s.mem.writeBytes a (bytes l) }

/-- RESULT and ERRCODE. -/
def response (t : State) : Nat × Nat := (t.port.result.toNat, t.port.errcode.toNat)

/-- The power-on state with the bytes bound to the CU and a finish requested, and room for output at 0x2000. -/
def compressing (l : List Nat) (room : Nat) : State :=
  let s := withBuffer (withBytes State.reset 0x1000 l) 0x2000 room
  { s with cu := { s.cu with inPtr := 0x1000, inEnd := 0x1000 + l.length, flushReq := true, finishReq := true } }

/-- A state with the CU in phase BUSY and raw framing, nothing bound, and room for output at 0x2000. -/
def busy (level : Fin 10) (flush : Bool) (room : Nat) : State :=
  let s := withBuffer State.reset 0x2000 room
  { s with cu := { s.cu with phase := .busy, nohdr := true, level := level, flushReq := flush } }

/-- The power-on state with the bytes bound to the DU, framing as given, and room for output at 0x2000. -/
def inflating (raw : Bool) (l : List Nat) (room : Nat) : State :=
  let s := withBuffer (withBytes State.reset 0x1000 l) 0x2000 room
  { s with du := { s.du with
      nohdr := raw, mode := if raw then .blocks else .header, inPtr := 0x1000, inEnd := 0x1000 + l.length
      bound := BitVec.ofNat 64 l.length } }

/-- "hello". -/
def hello : List Nat := [0x68, 0x65, 0x6C, 0x6C, 0x6F]

/-- "hello" compressed at level 6 with zlib framing (95_test_vectors.md T42-1). -/
def helloZlib : List Nat := [0x78, 0x9C, 0xCB, 0x48, 0xCD, 0xC9, 0xC9, 0x07, 0x00, 0x06, 0x2C, 0x02, 0x15]

/-! ## WellFormed: what each check refuses -/

theorem test_level_check : (Instr.cConfig 16 0 false).wf = false ∧ (Instr.cConfig 15 0 false).wf = true := by decide

theorem test_strategy_check : (Instr.cConfig 0 4 false).wf = false ∧ (Instr.cConfig 0 3 false).wf = true := by decide

/-! ## Decode: a word of each command, written out from 30_encoding.md R90 and R92 -/

theorem test_decode_cConfig : decode 0b00000000000000000110111100000001 = .ok (.cConfig 15 2 true) := by decide
theorem test_decode_cConfig_fields : decode 0b00000000000000000001100100000001 = .ok (.cConfig 9 1 false) := by decide
theorem test_decode_cSetInput : decode 0b00000000000000000000000000000010 = .ok .cSetInput := by decide
theorem test_decode_cSetDict : decode 0b00000000000000000000000000000011 = .ok .cSetDict := by decide
theorem test_decode_cDeflate : decode 0b00000000000000000000000000000100 = .ok .cDeflate := by decide
theorem test_decode_cFlush : decode 0b00000000000000000000000000000101 = .ok .cFlush := by decide
theorem test_decode_cFinish : decode 0b00000000000000000000000000000110 = .ok .cFinish := by decide
theorem test_decode_cReset : decode 0b00000000000000000000000000000111 = .ok .cReset := by decide
theorem test_decode_cIsFinished : decode 0b00000000000000000000000000001000 = .ok .cIsFinished := by decide
theorem test_decode_cIsNeedingInput : decode 0b00000000000000000000000000001001 = .ok .cIsNeedingInput := by decide
theorem test_decode_cAdler : decode 0b00000000000000000000000000001010 = .ok .cAdler := by decide
theorem test_decode_cTotalIn : decode 0b00000000000000000000000000001011 = .ok .cTotalIn := by decide
theorem test_decode_cTotalOut : decode 0b00000000000000000000000000001100 = .ok .cTotalOut := by decide
theorem test_decode_dConfig : decode 0b00000000000000000100000000100001 = .ok (.dConfig true) := by decide
theorem test_decode_dSetInput : decode 0b00000000000000000000000000100010 = .ok .dSetInput := by decide
theorem test_decode_dSetDict : decode 0b00000000000000000000000000100011 = .ok .dSetDict := by decide
theorem test_decode_dInflate : decode 0b00000000000000000000000000100100 = .ok .dInflate := by decide
theorem test_decode_dReset : decode 0b00000000000000000000000000100111 = .ok .dReset := by decide
theorem test_decode_dIsFinished : decode 0b00000000000000000000000000101000 = .ok .dIsFinished := by decide
theorem test_decode_dIsNeedingInput : decode 0b00000000000000000000000000101001 = .ok .dIsNeedingInput := by decide
theorem test_decode_dAdler : decode 0b00000000000000000000000000101010 = .ok .dAdler := by decide
theorem test_decode_dTotalIn : decode 0b00000000000000000000000000101011 = .ok .dTotalIn := by decide
theorem test_decode_dTotalOut : decode 0b00000000000000000000000000101100 = .ok .dTotalOut := by decide
theorem test_decode_dIsNeedingDict : decode 0b00000000000000000000000000101101 = .ok .dIsNeedingDict := by decide

/-- 95_test_vectors.md T60: illegal words. -/
theorem test_decode_illegal :
    decode 0x00000025 = .error .unassigned ∧ decode 0x000000FF = .error .unassigned ∧ decode 0x00000000 = .error .unassigned ∧
    decode 0x00004F21 = .error .reserved ∧ decode 0x00008004 = .error .reserved ∧ decode 0x00004004 = .error .reserved ∧
    decode 0x00000102 = .error .reserved := by decide

/-- No two rows of the opcode table share a word: where both masks look, the rows differ (30_encoding.md R93). -/
theorem test_rows_do_not_overlap :
    opcodeRows.Pairwise fun r t => r.2 &&& (r.1 &&& t.1) ≠ t.2 &&& (r.1 &&& t.1) := by decide

/-! ## Shared parts, by the spec's examples -/

/-- 95_test_vectors.md T40-1 and T40-2. -/
theorem test_writeBits :
    (BitOut.empty.writeBits 0b011 3).writeBits 0x1FF 9 = { fifo := [], bits := 0xFFB, nbits := 12 } ∧
    (BitOut.empty.writeBits 0xABCD 16).fifo = bytes [0xCD, 0xAB] := by decide

/-- 95_test_vectors.md T40-1, T40-4. -/
theorem test_alignToByte :
    ((BitOut.empty.writeBits 0b011 3).writeBits 0x1FF 9).alignToByte.fifo = bytes [0xFB, 0x0F] ∧
    (((BitOut.empty.writeBits 1 1).alignToByte.writeBits 5 3).writeBits 0 5).settle.fifo = bytes [0x01, 0x05] := by decide

/-- 95_test_vectors.md T40-6. -/
theorem test_writeInt : BitOut.empty.writeInt 0x01020304 = .done () { fifo := bytes [4, 3, 2, 1], bits := 0, nbits := 0 } := by decide

/-- 00_scope.md R15 and 95_test_vectors.md T42-1. -/
theorem test_adler32 : adler32 (bytes hello) 1 = 0x062C0215 ∧ adler32 [] 1 = 1 := by decide

/-- 95_test_vectors.md T42-4: the length-limit repair of the BL tree. -/
theorem test_build_repaired :
    ((HuffTree.mk ([1, 1, 2, 3, 5, 8, 13, 21, 34] ++ List.replicate 10 0) [] [] 0).build 19 4 7).map (fun t => (t.len.take 9, t.num)) =
      some ([7, 7, 7, 7, 5, 4, 3, 2, 1], 9) := by decide +kernel

/-- 95_test_vectors.md T42-5: forced leaves and ties. -/
theorem test_build_forced :
    ((HuffTree.mk (List.replicate 30 0) [] [] 0).build 30 1 15).map (fun t => (t.len.take 3, t.num)) = some ([1, 1, 0], 2) ∧
    ((HuffTree.mk ([0, 1] ++ List.replicate 28 0) [] [] 0).build 30 1 15).map (fun t => (t.len.take 3, t.num)) = some ([0, 1, 1], 3) ∧
    ((HuffTree.mk ([2, 1, 1, 2, 2] ++ List.replicate 25 0) [] [] 0).build 30 1 15).map (fun t => t.len.take 5) = some [2, 3, 3, 2, 2] := by
  decide +kernel

/-- 95_test_vectors.md T42-6. -/
theorem test_rle :
    rle (List.replicate 140 0 ++ [3, 3, 3, 3]) = [⟨18, 127, 7⟩, ⟨0, 0, 0⟩, ⟨0, 0, 0⟩, ⟨3, 0, 0⟩, ⟨16, 0, 2⟩] ∧
    rle [8, 8, 8, 8, 0, 0, 0, 0, 0, 7] = [⟨8, 0, 0⟩, ⟨16, 0, 2⟩, ⟨17, 2, 3⟩, ⟨7, 0, 0⟩] := by decide +kernel

/-! ## One step of each command -/

/-- 95_test_vectors.md T60: level 15 is level 6. -/
theorem test_cConfig :
    after (step (State.reset.withFetchWord 32 0x00004F01)) (fun t => (response t, t.cu.level, t.cu.phase)) = some ((0, 0), 6, .busy) := by
  decide +kernel

/-- 95_test_vectors.md T60: RANGE(LEVEL) and RANGE(STRATEGY). -/
theorem test_cConfig_range :
    after (step (State.reset.withFetchWord 32 0x00000A01)) response = some (0, 0x0101) ∧
    after (step (State.reset.withFetchWord 32 0x00003601)) response = some (0, 0x0201) := by decide +kernel

/-- 95_test_vectors.md P1 line 3. -/
theorem test_cSetInput :
    after (exec .cSetInput (withBuffer State.reset 0x1000 5)) (fun t => (response t, t.cu.inPtr, t.cu.inEnd)) =
      some ((0, 0), 0x1000, 0x1005) := by decide +kernel

/-- 60_exceptions.md R375: a buffer that wraps. -/
theorem test_cSetInput_range : after (exec .cSetInput (withBuffer State.reset (2 ^ 64 - 1) 2)) response = some (0, 0x0301) := by
  decide +kernel

/-- 95_test_vectors.md T43-5: C.ADLER after C.SET_DICT "abcd". -/
theorem test_cSetDict :
    after (exec .cSetDict (withBuffer (withBytes State.reset 0x1000 [0x61, 0x62, 0x63, 0x64]) 0x1000 4))
      (fun t => (response t, t.cu.adler, t.cu.strstart, t.cu.lookahead, (List.range 4).map fun k => t.cu.winAt (1 + k))) =
      some ((0, 0), 0x03D8018B, 5, 0, [0x61, 0x62, 0x63, 0x64]) := by decide +kernel

/-- 95_test_vectors.md P1 line 6. -/
theorem test_cDeflate :
    after (exec .cDeflate (compressing hello 64)) (fun t => (response t, t.mem.readBytes 0x2000 14)) =
      some ((13, 0), bytes (helloZlib ++ [0])) := by decide +kernel

/-- 95_test_vectors.md T43-2: the first delivery of a split output. -/
theorem test_cDeflate_split :
    after (exec .cDeflate (compressing hello 4)) (fun t => (response t, t.mem.readBytes 0x2000 5)) =
      some ((4, 0), bytes [0x78, 0x9C, 0xCB, 0x48, 0x00]) := by decide +kernel

/-- 95_test_vectors.md P5 line 4. -/
theorem test_cFlush : after (exec .cFlush State.reset) (fun t => (response t, t.cu.flushReq, t.cu.finishReq)) = some ((0, 0), true, false) := by
  decide +kernel

/-- 43_compressor.md R251. -/
theorem test_cFinish : after (exec .cFinish State.reset) (fun t => (response t, t.cu.flushReq, t.cu.finishReq)) = some ((0, 0), true, true) := by
  decide +kernel

/-- 95_test_vectors.md P2 line 6. -/
theorem test_cReset :
    after (exec .cReset (compressing hello 64)) (fun t => (response t, t.cu.phase, t.cu.inPtr, t.cu.inEnd, t.cu.finishReq)) =
      some ((0, 0), .init, 0, 0, false) := by decide +kernel

/-- 43_compressor.md R253: finished with bytes still pending is not finished. -/
theorem test_cIsFinished :
    let s := { State.reset with cu := { State.reset.cu with phase := .finished } }
    after (exec .cIsFinished s) response = some (1, 0) ∧
    after (exec .cIsFinished { s with cu := { s.cu with out := s.cu.out.push [0x15] } }) response = some (0, 0) := by decide +kernel

/-- 95_test_vectors.md P2 line 5. -/
theorem test_cIsNeedingInput :
    after (exec .cIsNeedingInput (compressing hello 1)) response = some (0, 0) ∧
    after (exec .cIsNeedingInput State.reset) response = some (1, 0) := by decide +kernel

/-- 95_test_vectors.md T70: C.ADLER after reset. -/
theorem test_cAdler : after (exec .cAdler State.reset) response = some (1, 0) := by decide +kernel

theorem test_cTotalIn :
    after (exec .cTotalIn { State.reset with cu := { State.reset.cu with totalIn := 5, totalOut := 13 } }) response = some (5, 0) := by
  decide +kernel

theorem test_cTotalOut :
    after (exec .cTotalOut { State.reset with cu := { State.reset.cu with totalIn := 5, totalOut := 13 } }) response = some (13, 0) := by
  decide +kernel

/-- 95_test_vectors.md P5 line 15. -/
theorem test_dConfig :
    after (step (State.reset.withFetchWord 32 0x00004021)) (fun t => (response t, t.du.nohdr, t.du.mode)) = some ((0, 0), true, .blocks) := by
  decide +kernel

/-- 95_test_vectors.md P3 line 3. -/
theorem test_dSetInput :
    after (exec .dSetInput (withBuffer State.reset 0x3000 13)) (fun t => (response t, t.du.inPtr, t.du.inEnd, t.du.bound)) =
      some ((0, 0), 0x3000, 0x300D, 13) := by decide +kernel

/-- 60_exceptions.md R375: bound input is unread. -/
theorem test_dSetInput_pending : after (exec .dSetInput (inflating false helloZlib 64)) response = some (0, 0x0203) := by decide +kernel

/-- A DU that waits for the dictionary "hello" (95_test_vectors.md P3 line 9). -/
def wantsHello (l : List Nat) : State :=
  let s := withBuffer (withBytes State.reset 0x3100 l) 0x3100 l.length
  { s with du := { s.du with mode := .dict, needed := 0, readAdler := 0x062C0215 } }

/-- 95_test_vectors.md P3 line 10. -/
theorem test_dSetDict :
    after (exec .dSetDict (wantsHello hello)) (fun t => (response t, t.du.mode, t.du.hist, t.du.filled, t.du.byteBack 1, t.du.byteBack 5)) =
      some ((0, 0), .blocks, 5, 0, 0x6F, 0x68) := by decide +kernel

/-- 95_test_vectors.md P3, the variant with "world". -/
theorem test_dSetDict_wrong :
    after (exec .dSetDict (wantsHello [0x77, 0x6F, 0x72, 0x6C, 0x64])) (fun t => (response t, t.du.fault, t.du.mode)) =
      some ((0, 0x1004), some .dictChecksum, .dict) := by decide +kernel

/-- 95_test_vectors.md T42-1 decoded. -/
theorem test_dInflate :
    after (exec .dInflate (inflating false helloZlib 64)) (fun t => (response t, t.mem.readBytes 0x2000 6, t.du.mode, t.du.adler)) =
      some ((5, 0), bytes (hello ++ [0]), .fin, 0x062C0215) := by decide +kernel

/-- 95_test_vectors.md T44-4: a trailer that does not match, after the byte is delivered. -/
theorem test_dInflate_checksum :
    after (exec .dInflate (inflating false [0x78, 0x9C, 0x4B, 0x04, 0x00, 0x00, 0x62, 0x00, 0x63] 64))
      (fun t => (response t, t.mem.readBytes 0x2000 1, t.du.fault)) = some ((1, 0x0F04), bytes [0x61], some .checksum) := by decide +kernel

/-- 95_test_vectors.md P4 line 10. -/
theorem test_dReset :
    let s := inflating false helloZlib 64
    after (exec .dReset { s with du := { s.du with fault := some .checksum } })
      (fun t => (response t, t.du.fault, t.du.inPtr, t.du.inEnd, t.du.bound)) = some ((0, 0), none, 0, 0, 0) := by decide +kernel

theorem test_dIsFinished :
    after (exec .dIsFinished { State.reset with du := { State.reset.du with mode := .fin } }) response = some (1, 0) ∧
    after (exec .dIsFinished State.reset) response = some (0, 0) := by decide +kernel

theorem test_dIsNeedingInput :
    after (exec .dIsNeedingInput State.reset) response = some (1, 0) ∧
    after (exec .dIsNeedingInput (inflating false helloZlib 64)) response = some (0, 0) := by decide +kernel

/-- 95_test_vectors.md P3 line 7: the DICTID while a dictionary is needed. -/
theorem test_dAdler :
    after (exec .dAdler (wantsHello hello)) response = some (0x062C0215, 0) ∧ after (exec .dAdler State.reset) response = some (1, 0) := by
  decide +kernel

/-- 95_test_vectors.md T44-2, first row: a byte in the reservoir is not counted. -/
theorem test_dTotalIn :
    after (exec .dTotalIn { State.reset with du := { State.reset.du with bound := 1, res := 0x78, cnt := 8 } }) response = some (0, 0) ∧
    after (exec .dTotalIn { State.reset with du := { State.reset.du with bound := 3, res := 9, cnt := 5 } }) response = some (3, 0) := by
  decide +kernel

theorem test_dTotalOut :
    after (exec .dTotalOut { State.reset with du := { State.reset.du with totalOut := 5, bound := 13 } }) response = some (5, 0) := by
  decide +kernel

/-- 95_test_vectors.md P3 line 6. -/
theorem test_dIsNeedingDict :
    after (exec .dIsNeedingDict (wantsHello hello)) response = some (1, 0) ∧ after (exec .dIsNeedingDict State.reset) response = some (0, 0) := by
  decide +kernel

/-- 95_test_vectors.md P3: STATUS while a dictionary is needed, the input not being used up. -/
theorem test_status :
    (State.reset.status = 0x50) ∧
    ({ wantsHello hello with du := { (wantsHello hello).du with inPtr := 0x3006, inEnd := 0x300D } } : State).status = 0x90 := by
  decide +kernel

/-- 95_test_vectors.md T70: the hazard, and ranges that only touch. -/
theorem test_hazard :
    let s := { withBuffer State.reset 0x1004 4 with cu := { State.reset.cu with inPtr := 0x1000, inEnd := 0x1005 } }
    after (exec .cDeflate s) response = some (0, 0x0107) ∧ after (exec .cDeflate (withBuffer s 0x1005 4)) (fun t => t.port.errcode) = some 0 := by
  decide +kernel

/-- 95_test_vectors.md T44-4: two errors found in a dynamic header. -/
theorem test_dynamic_header_errors :
    after (exec .dInflate (inflating true [0x05, 0x00, 0x00, 0x24] 64)) response = some (0, 0x0804) ∧
    after (exec .dInflate (inflating true [0x05, 0x00, 0x80, 0xE4, 0x7F, 0x1B] 64)) response = some (0, 0x0E04) := by decide +kernel

/-- 41_match_engine.md R162: a block that starts at 1, inside R32's range, is slid twice before it ends: 1 - 32768 - 32768 (log 13). -/
theorem test_block_start_after_two_slides :
    let c := { State.reset.cu with strstart := 65274, blockStart := 1 }
    ({ c.slide with strstart := 65274 }.slide.blockStart) = -65535 := by decide +kernel

/-- 41_match_engine.md R167: C_BLOCK_START + n, where the window is full to its end, is 65530 + 6 (log 13). -/
theorem test_block_start_at_the_end_of_a_full_window :
    (match CU.deflateStored true false { (busy 0 true 64).cu with strstart := 65530, lookahead := 6, blockStart := 65530 } with
      | .done _ c => decide (c.blockStart = 65536 ∧ c.strstart = 65536)
      | .raise _ _ => false
      | .stuck => false) = true := by decide +kernel

/-! ## Witnesses: states and operands that meet the hypotheses of each obligation -/

theorem witness_CommandWordsRoundTrip :
    (Instr.cConfig 15 3 true).wf = true ∧ decode 0x00007F01 = .ok (.cConfig 15 3 true) := by decide

/-- An unassigned word, a reserved one and a legal one in CMD. -/
theorem witness_IllegalCommandWords :
    (State.reset.withFetchWord 32 0x25).port.cmd = some 0x25 ∧ decode 0x25 = .error .unassigned ∧
    (State.reset.withFetchWord 32 0x102).port.cmd = some 0x102 ∧ decode 0x102 = .error .reserved ∧
    (State.reset.withFetchWord 32 0x4021).port.cmd = some 0x4021 ∧ decode 0x4021 = .ok (.dConfig true) := by decide +kernel

theorem witness_StepRunsDecodedCommand :
    ∃ (s : State) (w : Word) (i : Instr), s.port.cmd = some w ∧ decode w = .ok i ∧ i.wf = true :=
  ⟨State.reset.withFetchWord 32 0x4F01, 0x4F01, .cConfig 15 0 true, by decide +kernel⟩

/-- The last address, and the first that does not exist. -/
theorem witness_HostOperations :
    let s := fun op => { State.reset with host := [op] }
    State.reset.port.cmd = none ∧ State.reset.host = [] ∧ State.reset.mem.wf = true ∧
    after (step (s (.writePort .cmd 0x100000004))) (fun t => t.port.cmd) = some (some 4) ∧
    after (step (s (.writePort .argLen 0x100000004))) (fun t => t.port.argLen) = some 4 ∧
    after (step (s (.writePort .status 7))) id = some State.reset ∧
    after (step (s (.writeMem (2 ^ 64 - 1) 7))) (fun t => t.mem) = some [(2 ^ 64 - 1, 7)] ∧
    after (step (s (.writeMem (2 ^ 64) 7))) id = none := by decide +kernel

theorem witness_StatusReflectsUnits : State.reset.PortInv ∧ (State.reset.refuse 0x0006).PortInv :=
  ⟨⟨by decide +kernel, .inl (by decide +kernel)⟩, ⟨by decide +kernel, .inr ⟨.aborted, by decide +kernel⟩⟩⟩

/-- A buffer one byte too long, and one of length 0 at the last address. -/
theorem witness_BufferRangeCheck :
    Instr.cSetInput.takesBuffer = true ∧ Instr.dInflate.takesBuffer = true ∧
    (2 ^ (withBuffer State.reset (2 ^ 64 - 1) 2).params.aw <
      (withBuffer State.reset (2 ^ 64 - 1) 2).port.argAddr + (withBuffer State.reset (2 ^ 64 - 1) 2).port.argLen.toNat) ∧
    (withBuffer State.reset (2 ^ 64 - 1) 0).port.argLen = 0 ∧ (withBuffer State.reset (2 ^ 64 - 1) 0).port.argAddr < 2 ^ 64 ∧
    after (exec .dInflate (withBuffer State.reset (2 ^ 64 - 1) 0)) response = some (0, 0) := by decide +kernel

/-- Both units aborted. -/
def bothAborted : State :=
  { withBuffer State.reset 0x2000 64 with
    cu := { State.reset.cu with fault := some .bitAlignment }, du := { State.reset.du with fault := some .checksum } }

theorem witness_AbortedUnitRefuses :
    bothAborted.faultOf Instr.cDeflate.unit ≠ none ∧ bothAborted.faultOf Instr.dInflate.unit ≠ none ∧
    Instr.cDeflate.streamCommand = true ∧ Instr.dInflate.streamCommand = true ∧
    bothAborted.port.argAddr + bothAborted.port.argLen.toNat ≤ 2 ^ bothAborted.params.aw ∧
    after (exec .dReset bothAborted) response = some (0, 0) ∧ after (exec (.cConfig 15 2 true) bothAborted) response = some (0, 0) := by
  decide +kernel

/-- A binding of each unit that the output buffer meets in one byte, and one that it only touches. -/
def bothBound (a : Nat) : State :=
  { withBuffer State.reset a 4 with
    cu := { State.reset.cu with inPtr := 0x1000, inEnd := 0x1005 }, du := { State.reset.du with inPtr := 0x1000, inEnd := 0x1005 } }

theorem witness_OutputOverInputRefused :
    (bothBound 0x1004).fits ∧ (bothBound 0x1004).cu.fault = none ∧ (bothBound 0x1004).du.fault = none ∧
    (bothBound 0x1004).cu.phase ≠ .closed ∧ (bothBound 0x1004).outputMeets 0x1000 0x1005 ∧ ¬ (bothBound 0x1005).outputMeets 0x1000 0x1005 ∧
    (bothBound 0x1005).fits ∧ after (exec .cDeflate (bothBound 0x1005)) (fun t => t.port.errcode) = some 0 := by
  unfold State.fits State.outputMeets
  decide +kernel

theorem witness_ConfigStartsCompressor :
    (∃ (level : Nat) (l : Fin 10), level < 10 ∧ l.val = level) ∧ (∃ l : Fin 10, l = 6) ∧
    (∃ (strategy : Nat) (st : Strategy), strategy = 2 ∧ st = .huffmanOnly) :=
  ⟨⟨9, 9, by decide⟩, ⟨6, rfl⟩, ⟨2, .huffmanOnly, rfl, rfl⟩⟩

theorem witness_ConfigFieldRanges : ∃ level strategy : Nat, 10 ≤ level ∧ level ≤ 14 ∧ strategy = 3 := ⟨10, 3, by decide⟩

theorem witness_CompressorSetInput :
    (withBuffer State.reset 0x1000 5).fits ∧ State.reset.cu.fault = none ∧ State.reset.cu.finishReq = false ∧
    State.reset.cu.inPtr = State.reset.cu.inEnd ∧ (bothBound 0x2000).cu.finishReq = false ∧
    (bothBound 0x2000).cu.inPtr ≠ (bothBound 0x2000).cu.inEnd ∧ (bothBound 0x2000).fits ∧ (compressing hello 64).cu.finishReq = true ∧
    (compressing hello 64).fits := by
  unfold State.fits
  decide +kernel

theorem witness_DecompressorSetInput :
    (bothBound 0x2000).fits ∧ (bothBound 0x2000).du.fault = none ∧ (bothBound 0x2000).du.inPtr ≠ (bothBound 0x2000).du.inEnd ∧
    State.reset.du.inPtr = State.reset.du.inEnd ∧ State.reset.fits := by
  unfold State.fits
  decide +kernel

/-- The phase INIT with dictionaries of 2 and of 3 bytes, and a phase that refuses. -/
theorem witness_CompressorSetDict :
    (withBuffer State.reset 0x1000 2).fits ∧ State.reset.cu.fault = none ∧ State.reset.cu.phase = .init ∧ State.reset.cu.strstart = 1 ∧
    ((withBuffer State.reset 0x1000 2).mem.readBytes 0x1000 2).length < 3 ∧
    3 ≤ ((withBuffer State.reset 0x1000 3).mem.readBytes 0x1000 3).length ∧ (busy 6 false 64).cu.phase ≠ .init := by
  unfold State.fits
  decide +kernel

/-- A dictionary that matches, one that does not, an empty one that matches, and a mode that refuses. -/
theorem witness_DecompressorSetDict :
    (wantsHello hello).fits ∧ (wantsHello hello).du.fault = none ∧ (wantsHello hello).du.mode = .dict ∧ (wantsHello hello).du.needed = 0 ∧
    adler32 ((wantsHello hello).mem.readBytes 0x3100 5) 1 = (wantsHello hello).du.readAdler ∧ adler32 [] 1 ≠ (wantsHello []).du.readAdler ∧
    State.reset.du.mode ≠ .dict := by
  unfold State.fits
  decide +kernel

theorem wantsHello_window : (wantsHello hello).du.WindowInv := ⟨by decide, by decide, by decide⟩

theorem witness_FlushAndFinishRequests :
    State.reset.cu.fault = none ∧ ∃ t, exec .cFinish State.reset = .next t ∧ t.fits := by
  refine ⟨rfl, _, rfl, ?_⟩
  unfold State.fits
  decide +kernel

/-- A command of each unit that completes; the same state serves the statements about frames, independence and completion. -/
theorem witness_CommandFrame :
    (∃ t, exec .cIsFinished State.reset = .next t) ∧ (∃ t, exec .dIsFinished State.reset = .next t) ∧
    after (exec .cDeflate (compressing hello 64)) (fun t => t.port.result.toNat) = some 13 ∧
    after (exec .dInflate (inflating false helloZlib 64)) (fun t => t.port.result.toNat) = some 5 :=
  ⟨⟨_, rfl⟩, ⟨_, rfl⟩, by decide +kernel, by decide +kernel⟩

theorem witness_EveryCommandEnds : ∃ s : State, s.du.inPtr ≤ s.du.inEnd := ⟨State.reset, by decide⟩

/-- Phases INIT, BUSY and FINISHED. -/
theorem witness_DeflateCompletes :
    (compressing hello 64).fits ∧ (compressing hello 64).cu.fault = none ∧ (compressing hello 64).cu.phase = .init ∧
    ¬ (compressing hello 64).outputMeets (compressing hello 64).cu.inPtr (compressing hello 64).cu.inEnd ∧
    (compressing hello 64).cu.out.nbits = 0 ∧ (compressing hello 64).cu.lit.freq.length = 286 ∧
    (compressing hello 64).cu.dist.freq.length = 30 ∧ (compressing hello 64).cu.bl.freq.length = 19 ∧
    (busy 9 true 64).fits ∧ (busy 9 true 64).cu.phase = .busy ∧ (busy 9 true 64).cu.lit.freq.length = 286 := by
  unfold State.fits State.outputMeets
  decide +kernel

/-- The CU at power-on, in any of the phases a stream is in, keeps its invariant's other parts. -/
theorem busy_inv (level : Fin 10) (flush : Bool) (room top : Nat) : (busy level flush room).cu.Inv top where
  positionLow := by simp [busy, State.reset, State.powerOn, CU.powerOn, withBuffer]
  strstartLow := Nat.le_refl 1
  matchStartHigh := show (0 : Int) ≤ 65535 by decide
  positionHigh := by simp [busy, State.reset, State.powerOn, CU.powerOn, withBuffer]
  blockStart := by simp [busy, State.reset, State.powerOn, CU.powerOn, withBuffer]
  head := fun _ => .inl rfl
  prev := fun _ => .inl rfl
  tokens := by simp [busy, State.reset, State.powerOn, CU.powerOn, withBuffer]
  nbits := by simp [busy, State.reset, State.powerOn, CU.powerOn, withBuffer, BitOut.empty]
  finish := by intro h; simp [busy, State.reset, State.powerOn, CU.powerOn, withBuffer] at h
  fresh := by intro h; simp [busy] at h
  notClosed := by simp [busy]
  fault := rfl
  bindingLow := Nat.le_refl _
  bindingHigh := Nat.zero_le _
  bits := by simp [busy, State.reset, State.powerOn, CU.powerOn, withBuffer, BitOut.empty]
  matchLow := Nat.le_refl 2
  matchHigh := by simp [busy, State.reset, State.powerOn, CU.powerOn, withBuffer]
  litSize := List.length_replicate
  distSize := List.length_replicate
  blSize := List.length_replicate
  window := fun _ => Nat.zero_lt_succ _
  tokenRange := fun i h => absurd h (Nat.not_lt_zero i)
  atStart := by intro h; simp [busy] at h
  heldLazily := fun _ => rfl
  heldInside := .inl rfl
  heldNear := .inl rfl

theorem witness_DeflateShortOnlyWhenDone :
    (busy 6 false 64).cu.Inv (2 ^ (busy 6 false 64).params.aw) ∧
    after (exec .cDeflate (busy 6 false 64)) (fun t => (response t, decide (t.port.result.toNat < 64))) = some ((0, 0), true) :=
  ⟨busy_inv _ _ _ _, by decide +kernel⟩

/-- No dictionary, and one set. -/
theorem witness_DeflateEmitsZlibHeader :
    let s := compressing hello 2
    let t := { s with cu := { s.cu with phase := .setDict, dictSet := true } }
    s.fits ∧ s.mem.wf = true ∧ s.cu.fault = none ∧ s.cu.phase = .init ∧ s.cu.out.fifo = [] ∧ s.cu.out.nbits = 0 ∧
    ¬ s.outputMeets s.cu.inPtr s.cu.inEnd ∧ s.port.argLen = 2 ∧ t.fits ∧ t.cu.phase = .setDict ∧
    ¬ t.outputMeets t.cu.inPtr t.cu.inEnd := by
  unfold State.fits State.outputMeets
  decide +kernel

/-- A finished stream with bytes pending, and a running one whose pending bytes just fill the buffer. -/
theorem witness_DeflateDeliversPendingBytes :
    let s := busy 6 false 3
    let full := { s with cu := { s.cu with out := { fifo := [1, 2, 3], bits := 0x7F, nbits := 7 } } }
    let done := { full with cu := { full.cu with phase := .finished } }
    full.fits ∧ full.mem.wf = true ∧ full.cu.fault = none ∧ ¬ full.outputMeets full.cu.inPtr full.cu.inEnd ∧ full.cu.out.nbits < 8 ∧
    full.cu.phase = .busy ∧ full.port.argLen.toNat ≤ full.cu.out.fifo.length ∧ done.fits ∧ done.cu.phase = .finished := by
  unfold State.fits State.outputMeets
  decide +kernel

/-- Level 0 with nothing held, and another level with the most lookahead that waits. -/
theorem witness_DeflateWaitsForInput :
    let s := busy 0 false 64
    let t := { busy 6 false 64 with cu := { (busy 6 false 64).cu with lookahead := 261, strstart := 65273 } }
    s.fits ∧ s.cu.fault = none ∧ s.cu.phase = .busy ∧ s.cu.flushReq = false ∧ s.cu.inPtr = s.cu.inEnd ∧ s.cu.out.fifo = [] ∧
    s.cu.out.nbits < 8 ∧ s.cu.strstart < 65274 ∧ s.cu.level = 0 ∧ s.cu.lookahead = 0 ∧
    t.fits ∧ t.cu.flushReq = false ∧ t.cu.out.fifo = [] ∧ t.cu.level ≠ 0 ∧ t.cu.strstart < 65274 ∧ t.cu.lookahead < 262 := by
  unfold State.fits
  decide +kernel

/-- A full window that slides, and the most lookahead with which bytes are taken. -/
theorem witness_FillMovesBoundInput :
    let c := { State.reset.cu with strstart := 65274, lookahead := 261, inPtr := 0x1000, inEnd := 0x1005 }
    let c1 := if 65274 ≤ c.strstart then c.slide else c
    c1.lookahead < 262 ∧ c1.inPtr < c1.inEnd ∧ c1.strstart + c1.lookahead ≤ 65536 ∧
    ¬ (State.reset.cu.lookahead < 262 ∧ State.reset.cu.inPtr < State.reset.cu.inEnd) := by decide +kernel

/-- "aaaaaaaaaa" at its second byte: the match of 95_test_vectors.md T41-1; and a candidate that is just near enough. -/
theorem witness_LongestMatchFindsEqualBytes :
    let c : CU := { State.reset.cu with win := Tbl.setList 16 .nil 1 (List.replicate 10 0x61), strstart := 2, lookahead := 9 }
    ((c.longestMatch 1).1 = true ∧ max c.matchLen 2 < (c.longestMatch 1).2.matchLen ∧ (c.longestMatch 1).2.matchLen = 9) ∧
    (1 ≤ 1 ∧ 1 < c.strstart ∧ c.strstart - 1 ≤ 32506 ∧ 32507 - 1 ≤ 32506) ∧ c.prev.allBelow 15 c.strstart :=
  ⟨by decide +kernel, by decide, fun _ => .inl rfl⟩

theorem witness_BuiltTreesAreValid :
    (HuffTree.zero 286 257).freq.length = 286 ∧ (HuffTree.zero 30 1).freq.length = 30 ∧ (HuffTree.zero 19 4).freq.length = 19 := by decide +kernel

theorem witness_RunLengthCodingIsExact : ∀ l ∈ [15, 15, 15, 15, 0, 0, 0], l ≤ 15 := by decide

/-- Fifteen bits pending, and none. -/
theorem witness_OutputKeepsBitStream :
    let o : BitOut := { fifo := [7], bits := 0x7FFF, nbits := 15 }
    o.nbits ≤ 15 ∧ o.bits.toNat < 2 ^ o.nbits ∧ o.nbits ≠ 0 ∧ BitOut.empty.nbits = 0 ∧ (0xFFFF < 2 ^ 16) := by decide

theorem witness_StoredBlockLayout :
    let c := { State.reset.cu with out := { fifo := [], bits := 0x7FFF, nbits := 15 } }
    c.out.nbits ≤ 15 ∧ c.out.bits.toNat < 2 ^ c.out.nbits ∧ (List.replicate 65535 (0 : Byte)).length ≤ 65535 :=
  ⟨by decide, by decide, by rw [List.length_replicate]⟩

theorem witness_FlushFillerIsEmptyBlocks :
    let c := { State.reset.cu with out := { fifo := [], bits := 3, nbits := 2 } }
    c.out.nbits ≤ 15 ∧ c.out.bits.toNat < 2 ^ c.out.nbits ∧ c.level ≠ 0 ∧ { c with level := 0 }.level = 0 := by decide

theorem witness_TrailerEndsStream :
    let c := { State.reset.cu with out := { fifo := [], bits := 3, nbits := 2 } }
    c.out.nbits ≤ 15 ∧ c.out.bits.toNat < 2 ^ c.out.nbits ∧ c.nohdr = false ∧ { c with nohdr := true }.nohdr = true := by decide

theorem witness_LengthAndDistanceCodes : lcode 3 = 257 ∧ lcode 258 = 285 ∧ lcode 257 = 284 ∧ dcode 1 = 0 ∧ dcode 32768 = 29 := by decide +kernel

/-- The fixed literal code is accepted, and so is a code of one codeword; 'a' and 'b' are coded. -/
theorem witness_CanonicalCodesArePrefixFree : acceptedLens fixedL ∧ acceptedLens [1] ∧ 97 < fixedL.length ∧ 98 < fixedL.length ∧
    fixedL.getD 97 0 ≠ 0 ∧ fixedL.getD 98 0 ≠ 0 := by
  unfold acceptedLens
  decide +kernel

/-- The reader of a DU at power-on with two bytes bound: 16 bits can be read, and not one more. -/
theorem witness_BitReaderTakesStreamBits :
    let s := inflating true [0x4B, 0x04] 64
    (s.du.stream s.mem).length = 16 ∧ ({ s.du with inPtr := 0x1002 }.stream s.mem).length < 1 ∧ s.du.ReaderInv :=
  ⟨by decide +kernel, by decide +kernel, ⟨by decide, by decide, by decide⟩⟩

/-- The fixed code on a whole codeword, on a proper beginning of one, and an incomplete code on bits that begin none. -/
theorem witness_DecodeReadsCodewords :
    let s := inflating true [0x89] 64
    let short := { s.du with res := 1, cnt := 3, inPtr := 0x1001 }
    (codeword 8 ((canon fixedL).getD 97 0) = s.du.stream s.mem) ∧ (97 < fixedL.length ∧ fixedL.getD 97 0 = 8) ∧
    (short.stream s.mem <+: codeword 8 ((canon fixedL).getD 97 0)) ∧ (short.stream s.mem ≠ codeword 8 ((canon fixedL).getD 97 0)) ∧
    (¬ codeword 1 ((canon [1]).getD 0 0) <+: s.du.stream s.mem) ∧ (¬ s.du.stream s.mem <+: codeword 1 ((canon [1]).getD 0 0)) := by
  decide +kernel

/-- A DU in the symbol loop, with the fixed codes and one byte bound. -/
def inLoop (mode : DMode) (b : Nat) : DU := { (inflating true [b] 64).du with mode := mode, ltab := .fixed, dtab := .fixed }

/-- The symbol that Decode reads, none where it waits, and 999 where it raises. -/
def symbolRead (d : DU) (m : Memory) (lens : List Nat) : Option Nat :=
  match d.decode m lens with
  | .done s _ => s
  | .raise _ _ => some 999
  | .stuck => some 999

/-- The bytes that inLoop binds. -/
def loopMem (b : Nat) : Memory := (inflating true [b] 64).mem

/-- A copy that is longer than its distance, into a window with just enough room; a window without room for a match; and in the loop a
literal, the end of a block, a length, symbol 286, no whole codeword, no codeword, distances 3 and 30, and extra bits that are all there, or
not, with distances in and beyond the history. -/
theorem witness_RepeatCopiesHistory :
    ({ State.reset.du with filled := 65278, hist := 65536 }.WindowInv ∧ 1 ≤ 1 ∧ 1 ≤ 32768 ∧ 65278 + 258 ≤ 65536) ∧
    (DMode.hufDb.inSymbols = true ∧ 65536 < 65279 + 258) ∧ (inLoop .huf 0x89).WindowInv ∧
    (let symbol := fun (lens : List Nat) (b : Nat) => symbolRead (inLoop .huf b) (loopMem b) lens
     symbol fixedL 0x89 = some 97 ∧ symbol fixedL 0x00 = some 256 ∧ symbol fixedL 0x40 = some 257 ∧ symbol fixedL 0x63 = some 286 ∧
     symbol fixedL 0xFF = none ∧ symbol [1] 0x01 = some 999 ∧ symbol fixedD 0x18 = some 3 ∧ symbol fixedD 0x0F = some 30) ∧
    (let d := { inLoop .hufDb 0x05 with needed := 2, rdist := 4 }
     let bits := d.stream (loopMem 0x05)
     d.filled + 258 ≤ 65536 ∧ d.needed ≤ bits.length ∧ d.rdist + valueOf (bits.take d.needed) = 5 ∧ d.hist < 5 ∧
     5 ≤ ({ d with hist := 5 } : DU).hist ∧ bits.length < ({ d with needed := 9 } : DU).needed) ∧
    (inLoop .hufLb 0x05).ReaderInv :=
  ⟨⟨⟨by decide, by decide, by decide⟩, by decide⟩, by decide, ⟨by decide, by decide, by decide⟩, by decide +kernel, by decide +kernel,
    ⟨by decide, by decide, by decide⟩⟩

/-- Too few bits, a failing checksum, another method, and the two headers that are accepted. -/
theorem witness_HeaderModeChecksHeader :
    let bits := fun l => (inflating false l 64).du.stream (inflating false l 64).mem
    let h := fun l => valueOf ((bits l).take 8) * 256 + valueOf (((bits l).drop 8).take 8)
    (inflating false [0x78] 64).du.mode = .header ∧ (bits [0x78]).length < 16 ∧ h [0x78, 0x9D] % 31 ≠ 0 ∧
    (h [0x79, 0x18] % 31 = 0 ∧ (h [0x79, 0x18] / 256) % 16 ≠ 8) ∧
    (h [0x78, 0x9C] % 31 = 0 ∧ (h [0x78, 0x9C] / 256) % 16 = 8 ∧ (h [0x78, 0x9C] / 32) % 2 = 0) ∧
    (h [0x78, 0xBB] % 31 = 0 ∧ (h [0x78, 0xBB] / 32) % 2 = 1) := by decide +kernel

theorem inflating_reader (raw : Bool) (room : Nat) : (inflating raw helloZlib room).du.ReaderInv :=
  ⟨by simp [inflating], by simp [inflating, State.reset, State.powerOn, DU.powerOn, withBuffer, withBytes],
    by simp [inflating, State.reset, State.powerOn, DU.powerOn, withBuffer, withBytes]⟩

/-- A DU in a dynamic header, with one byte bound. -/
def inHeader (h : DHState) (b : Nat) : DU := { (inflating true [b] 64).du with mode := .dyn, dh := h }

/-- The final block with a byte to deliver, and without, in both framings; the four block types, and too few bits; and in a dynamic header a
field that is there, and one that is not, counts at and beyond their bounds, a repeat that just fits, and one that does not, both ends of
CLEN, each kind of code-length symbol, and the four ends of the header. -/
theorem witness_BlockHeaderChoosesMode :
    let bits := fun l => (inflating true l 64).du.stream (inflating true l 64).mem
    ((inflating true [0x01] 64).du.mode = .blocks ∧ (inflating true [0x01] 64).du.last = false ∧ (bits []).length < 3 ∧
      valueOf (((bits [0x01]).drop 1).take 2) = 0 ∧ valueOf (((bits [0x03]).drop 1).take 2) = 1 ∧
      valueOf (((bits [0x05]).drop 1).take 2) = 2 ∧ valueOf (((bits [0x07]).drop 1).take 2) = 3) ∧
    (let d := { inHeader DHState.powerOn 0 with mode := .blocks, last := true, nohdr := false }
     d.filled = 0 ∧ 0 < ({ d with filled := 1 } : DU).filled ∧ ({ d with nohdr := true } : DU).nohdr = true) ∧
    (inHeader DHState.powerOn 0x1F).ReaderInv ∧
    (let h := DHState.powerOn
     h.hlit + h.hdist ≤ h.cl.length ∧ 5 ≤ ((inHeader h 0x1F).stream (loopMem 0x1F)).length ∧ (bits []).length < 5 ∧
     h.i < h.hclen ∧ ({ h with i := 4 } : DHState).hclen ≤ 4 ∧ ({ h with hlit := 287 } : DHState).hlit > 286 ∧
     ({ h with hdist := 31 } : DHState).hdist > 30 ∧ 257 + 1 < 256 + 3 ∧ 255 + 3 ≤ 257 + 1 ∧
     oversubscribed h.metaLen = false ∧ oversubscribed [1, 1, 1] = true) ∧
    (let symbol := fun (lens : List Nat) (b : Nat) => symbolRead (inHeader DHState.powerOn b) (loopMem b) lens
     let code := List.replicate 16 5 ++ [3, 3, 2]
     DHState.powerOn.index < DHState.powerOn.hlit + DHState.powerOn.hdist ∧ symbol code 0x02 = some 16 ∧ symbol code 0x06 = some 17 ∧
     symbol code 0x00 = some 18 ∧ symbol code 0x01 = some 0 ∧ symbol [9] 0x00 = none ∧ symbol [1] 0x01 = some 999) ∧
    (let h := { DHState.powerOn with index := 258, cl := List.replicate 256 0 ++ [1, 1] ++ List.replicate 62 0 }
     h.hlit + h.hdist ≤ h.index ∧ h.cl.getD 256 0 ≠ 0 ∧ DHState.powerOn.cl.getD 256 0 = 0 ∧
     oversubscribed (h.cl.take h.hlit) = false ∧ oversubscribed ((h.cl.drop h.hlit).take h.hdist) = false ∧
     oversubscribed (({ h with cl := [1, 1] ++ h.cl.drop 2 } : DHState).cl.take h.hlit) = true) :=
  ⟨by decide +kernel, by decide +kernel, ⟨by decide, by decide, by decide⟩, by decide +kernel, by decide +kernel, by decide +kernel⟩

/-- LEN and NLEN right and wrong, and cut short; and a stored block of which all bytes are there, or all but one. -/
theorem witness_StoredBlockCopies :
    let s := inflating true [0xFF, 0xFF] 64
    let slen2 := { s.du with mode := .slen2, ulen := 1 }
    let stored := { s.du with mode := .stored, ulen := 2 }
    slen2.cnt % 8 = 0 ∧ slen2.mode = .slen2 ∧ 16 ≤ (slen2.stream s.mem).length ∧
    valueOf ((slen2.stream s.mem).take 16) ≠ slen2.ulen.toNat ^^^ 0xFFFF ∧
    valueOf ((slen2.stream s.mem).take 16) = ({ slen2 with ulen := 0 } : DU).ulen.toNat ^^^ 0xFFFF ∧
    ({ slen2 with mode := .slen1, inPtr := 0x1001 }.stream s.mem).length < 16 ∧ stored.mode = .stored ∧
    min (min stored.ulen.toNat (65536 - stored.filled)) ((stored.stream s.mem).length / 8) = stored.ulen.toNat ∧
    min (min 3 (65536 - stored.filled)) ((stored.stream s.mem).length / 8) < 3 := by decide +kernel

/-- A trailer that is short, one that matches, one that does not, and a DICTID of which a byte is left. -/
theorem witness_ChecksumFieldsAreRead :
    let s := inflating false [0x00, 0x00, 0x00, 0x01] 64
    let d := { s.du with mode := .chk, needed := 32 }
    let bits := d.stream s.mem
    let k := min (d.needed / 8) (bits.length / 8)
    let field := (bytesOf k bits).foldl (fun (a : Word) (b : Byte) => (a <<< 8) ||| b.zeroExtend 32) d.readAdler
    d.mode = .chk ∧ d.needed = 32 ∧ 8 * k = d.needed ∧ d.adler = field ∧ ({ d with adler := 2 } : DU).adler ≠ field ∧
    8 * min (32 / 8) (({ d with inPtr := 0x1001 }.stream s.mem).length / 8) < 32 ∧
    { d with mode := .dict, needed := 8, readAdler := 0x062C02 }.mode = .dict := by decide +kernel

theorem witness_InflateResponds :
    (inflating false helloZlib 64).fits ∧ (inflating false helloZlib 64).du.fault = none ∧
    ¬ (inflating false helloZlib 64).outputMeets 0x1000 0x100D ∧
    (inflating false helloZlib 64).du.inPtr ≤ (inflating false helloZlib 64).du.inEnd := by
  unfold State.fits State.outputMeets
  decide +kernel

/-- A DU whose window holds just as many bytes as the buffer takes. -/
def holdingHello : State :=
  let s := inflating true [] 5
  { s with du := { s.du with owin := Tbl.setList 16 .nil 0 hello, wend := 5, filled := 5, hist := 5 } }

theorem witness_InflateDeliversHeldBytes :
    (holdingHello.fits ∧ holdingHello.mem.wf = true ∧ holdingHello.du.fault = none ∧
      ¬ holdingHello.outputMeets holdingHello.du.inPtr holdingHello.du.inEnd ∧ holdingHello.du.mode ≠ .chk ∧
      0 < holdingHello.port.argLen.toNat ∧ holdingHello.port.argLen.toNat ≤ holdingHello.du.filled) ∧ holdingHello.du.WindowInv :=
  ⟨by unfold State.fits State.outputMeets; decide +kernel, ⟨by decide, by decide, by decide⟩⟩

/-- Finished, waiting for a dictionary, and out of input in both modes. -/
theorem witness_InflateHasNothingToDo :
    let s := inflating false [] 64
    let waits := { s with du := { s.du with mode := .dict } }
    s.fits ∧ s.du.fault = none ∧ ¬ s.outputMeets s.du.inPtr s.du.inEnd ∧ s.du.filled = 0 ∧ s.du.mode = .header ∧
    s.du.inPtr = s.du.inEnd ∧ s.du.cnt < 16 ∧ waits.du.mode = .dict ∧ waits.du.needed = 0 ∧ waits.fits := by
  unfold State.fits State.outputMeets
  decide +kernel

/-- No room: a step that goes on, a step that fails, and a finished stream. -/
theorem witness_InflateWithoutRoomIsOneStep :
    let s := inflating false helloZlib 0
    let bad := inflating false [0x78, 0x9D] 0
    s.fits ∧ s.du.fault = none ∧ s.port.argLen = 0 ∧ ¬ (s.du.mode = .fin ∧ s.du.filled = 0) ∧
    (match s.du.step s.mem with | .done _ _ => true | _ => false) = true ∧
    (match bad.du.step bad.mem with | .raise _ _ => true | _ => false) = true ∧
    { s.du with mode := .fin }.mode = .fin ∧ { s.du with mode := .fin }.filled = 0 := by
  unfold State.fits
  decide +kernel

theorem powerOn_ranges : DHState.powerOn.Ranges := ⟨by decide, by decide, by decide, by decide, by decide, by decide, by decide +kernel⟩

/-- The DU with nothing decoded yet meets its invariant. -/
theorem inflating_inv (raw : Bool) (l : List Nat) (room top : Nat) (h : 0x1000 + l.length ≤ top) : (inflating raw l room).du.Inv top where
  filled := Nat.zero_le _
  hist := Nat.zero_le _
  rdist := Nat.zero_le _
  finDrained := fun _ => rfl
  chkDrained := fun _ => rfl
  fresh := fun _ => ⟨rfl, rfl⟩
  raw := by intro hr; cases raw <;> simp [inflating] at hr ⊢
  bindingLow := by simp [inflating]
  bindingHigh := by simpa [inflating] using h
  reservoir := by simp [inflating, State.reset, State.powerOn, DU.powerOn, withBuffer, withBytes]
  count := Nat.zero_le _
  countRunning := fun _ => Nat.zero_le _
  sticky := by intro e he; simp [inflating, State.reset, State.powerOn, DU.powerOn, withBuffer, withBytes] at he
  wend := Nat.zero_lt_succ _
  lenLow := by intro hm; cases raw <;> simp [inflating] at hm
  distLow := by intro hm; cases raw <;> simp [inflating] at hm
  headerRanges := powerOn_ranges
  aligned := fun _ _ => rfl
  lenBits := by intro _ hm; cases raw <;> simp [inflating] at hm
  lenKnown := fun _ _ => Nat.zero_le _
  distBits := by intro _ hm; cases raw <;> simp [inflating] at hm
  checksumBits := fun _ _ => ⟨Nat.zero_le _, rfl⟩
  litCode := by intro _ hm; cases raw <;> simp [inflating, DMode.inSymbols] at hm
  distCode := by intro _ hm; cases raw <;> simp [inflating, DMode.inSymbols] at hm
  lengthsRead := by intro _ hm; cases raw <;> simp [inflating] at hm
  metaRead := by intro _ hm; cases raw <;> simp [inflating] at hm
  headerOpen := by intro _ hm; cases raw <;> simp [inflating] at hm
  metaCode := by intro _ hm; cases raw <;> simp [inflating] at hm

theorem witness_InflateShortOnlyWhenDone :
    (inflating false helloZlib 64).du.Inv (2 ^ (inflating false helloZlib 64).params.aw) ∧
    after (exec .dInflate (inflating false helloZlib 64)) (fun t => (response t, decide (t.port.result.toNat < 64))) = some ((5, 0), true) :=
  ⟨inflating_inv _ _ _ _ (by decide), by decide +kernel⟩

/-- Both units at work. -/
def bothWorking : State := { inflating true [0x4B, 0x04, 0x01, 0x00] 64 with cu := (busy 6 true 64).cu }

/-- The same, but for what no rule reads: a count of code lengths, a byte of D_OWIN and DH_HLIT. -/
def bothWorkingToo : State :=
  { bothWorking with
    cu := { bothWorking.cu with lit := { bothWorking.cu.lit with num := 286 }, win := Tbl.set 16 .nil 0 7 }
    du := { bothWorking.du with owin := Tbl.set 16 .nil 9 7, dh := { bothWorking.du.dh with hlit := 288 } } }

theorem bothWorking_inv : bothWorking.Inv where
  mem := ⟨by decide +kernel, by decide +kernel⟩
  port := ⟨by decide +kernel, .inl (by decide +kernel)⟩
  cu := busy_inv 6 true 64 _
  du := inflating_inv true _ 64 _ (by decide)

theorem low_byte_window (i : Nat) : (Tbl.set 16 .nil 0 7).get 16 i < 256 :=
  Tbl.forall_set (P := fun v => v < 256) (fun j => by simp) 0 (by decide) i

theorem bothWorkingToo_inv : bothWorkingToo.Inv where
  mem := ⟨bothWorking_inv.mem.canonical, bothWorking_inv.mem.inside⟩
  port := ⟨bothWorking_inv.port.argAddr, bothWorking_inv.port.response⟩
  cu :=
    let h := bothWorking_inv.cu
    { positionLow := h.positionLow, strstartLow := h.strstartLow, matchStartHigh := h.matchStartHigh
      positionHigh := h.positionHigh, blockStart := h.blockStart, head := h.head, prev := h.prev
      tokens := h.tokens, nbits := h.nbits, finish := h.finish, fresh := h.fresh, notClosed := h.notClosed, fault := h.fault
      bindingLow := h.bindingLow, bindingHigh := h.bindingHigh, bits := h.bits, matchLow := h.matchLow, matchHigh := h.matchHigh
      litSize := h.litSize, distSize := h.distSize, blSize := h.blSize, window := low_byte_window, tokenRange := h.tokenRange
      atStart := h.atStart, heldLazily := h.heldLazily, heldInside := h.heldInside, heldNear := h.heldNear }
  du :=
    let h := bothWorking_inv.du
    { filled := h.filled, hist := h.hist, rdist := h.rdist, finDrained := h.finDrained, chkDrained := h.chkDrained, fresh := h.fresh
      raw := h.raw, bindingLow := h.bindingLow, bindingHigh := h.bindingHigh, reservoir := h.reservoir, count := h.count
      countRunning := h.countRunning, sticky := h.sticky, wend := h.wend, lenLow := h.lenLow, distLow := h.distLow
      headerRanges := ⟨by decide, h.headerRanges.hdist, h.headerRanges.hclen, h.headerRanges.i, h.headerRanges.metaSize,
        h.headerRanges.index, h.headerRanges.clSize⟩
      aligned := h.aligned, lenBits := h.lenBits
      lenKnown := h.lenKnown, distBits := h.distBits, checksumBits := h.checksumBits, litCode := h.litCode, distCode := h.distCode
      lengthsRead := h.lengthsRead, metaRead := h.metaRead, headerOpen := h.headerOpen, metaCode := h.metaCode }

theorem witness_UnspecifiedValuesAreNeverObserved :
    bothWorking.Inv ∧ bothWorkingToo.Inv ∧ bothWorking.Agrees bothWorkingToo ∧
    after (exec .cDeflate bothWorking) response = some (3, 0) ∧ after (exec .dInflate bothWorking) response = some (5, 0) ∧
    (∃ s', exec .cReset bothWorking = .next s') ∧ (∃ t', exec .dReset bothWorkingToo = .next t') := by
  refine ⟨bothWorking_inv, bothWorkingToo_inv, ⟨rfl, ?_, ?_⟩, by decide +kernel, by decide +kernel, ⟨_, rfl⟩, ⟨_, rfl⟩⟩
  · refine ⟨rfl, ⟨rfl, rfl, rfl⟩, ?_, fun k hk => absurd hk (Nat.not_lt_zero k), ⟨fun _ => .inl rfl, fun _ => .inl rfl⟩, ?_, ?_⟩
    · intro p hp h0
      have : p = 0 := by
        have e : bothWorking.cu.strstart + bothWorking.cu.lookahead = 1 := by decide +kernel
        omega
      exact absurd (h0 this) (by decide +kernel)
    · intro h; exact absurd h (by decide +kernel)
    · intro _ h; exact absurd h (by decide +kernel)
  · refine ⟨rfl, ?_, ?_, ?_⟩
    · intro k h1 h2
      have : bothWorking.du.hist = 0 := by decide +kernel
      omega
    · intro h; exact absurd h (by decide +kernel)
    · intro h; exact absurd h (by decide +kernel)

/-- A step from a state that meets the memory and port invariants: a host write, with a command pending after it. -/
theorem witness_MemoryAndPortInvariantKept :
    let s := { State.reset with mem := [(3, 7)], host := [.writeMem (2 ^ 64 - 1) 9, .writePort .cmd 4] }
    s.MemInv ∧ s.PortInv ∧ ∃ t, step s = .next t :=
  ⟨⟨by decide, by decide +kernel⟩, ⟨by decide +kernel, .inl (by decide)⟩, _, rfl⟩

theorem witness_CompressorInvariantKept :
    (busy 6 true 64).cu.Inv (2 ^ (busy 6 true 64).params.aw) ∧
    (after (step ((busy 6 true 64).withFetchWord 32 4)) fun t => response t) = some (3, 0) :=
  ⟨busy_inv _ _ _ _, by decide +kernel⟩

theorem witness_DecompressorInvariantKept :
    let s := inflating true [0x4B, 0x04, 0x01, 0x00] 64
    s.du.Inv (2 ^ s.params.aw) ∧ (after (step (s.withFetchWord 32 0x24)) fun t => response t) = some (5, 0) :=
  ⟨inflating_inv _ _ _ _ (by decide), by decide +kernel⟩

end Sys2Proof.Tests
end

/-! PROOFS. Adler-32 over a string of bytes (00_scope.md R15): the two halves of a checksum, and the checksum byte by byte. -/

namespace Sys2Proof.Machine

/-! ## The halves of a checksum -/

theorem adlerLow_eq_and (a0 : Word) : adlerLow a0 = (a0 &&& 0xFFFF).toNat := by
  simpa [adlerLow] using (Nat.and_two_pow_sub_one_eq_mod a0.toNat 16).symm

theorem adlerHigh_eq_shift (a0 : Word) : adlerHigh a0 = (a0 >>> 16).toNat := by
  simp [adlerHigh, Nat.shiftRight_eq_div_pow]

theorem adlerLow_ofNat {a : Nat} (b : Nat) (ha : a < 65536) : adlerLow (BitVec.ofNat 32 (b * 65536 + a)) = a := by
  simp only [adlerLow, BitVec.toNat_ofNat]
  omega

theorem adlerHigh_ofNat {a b : Nat} (ha : a < 65536) (hb : b < 65536) :
    adlerHigh (BitVec.ofNat 32 (b * 65536 + a)) = b := by
  simp only [adlerHigh, BitVec.toNat_ofNat]
  omega

theorem ofNat_adlerHigh_adlerLow (a0 : Word) : BitVec.ofNat 32 (adlerHigh a0 * 65536 + adlerLow a0) = a0 := by
  simp [adlerHigh, adlerLow, Nat.div_add_mod']

/-! ## The checksum byte by byte -/

theorem adlerStep_fst_lt (ab : Nat × Nat) (x : Byte) : (adlerStep ab x).1 < 65521 := Nat.mod_lt _ (by decide)

theorem adlerStep_snd_lt (ab : Nat × Nat) (x : Byte) : (adlerStep ab x).2 < 65521 := Nat.mod_lt _ (by decide)

theorem adler32_eq_foldl (bytes : List Byte) (a0 : Word) :
    adler32 bytes a0 =
      BitVec.ofNat 32 ((bytes.foldl adlerStep (adlerLow a0, adlerHigh a0)).2 * 65536 +
        (bytes.foldl adlerStep (adlerLow a0, adlerHigh a0)).1) := rfl

@[simp] theorem adler32_nil (a0 : Word) : adler32 [] a0 = a0 := ofNat_adlerHigh_adlerLow a0

/-- Both sums stay below 65521 after a byte, so packing them into a checksum loses nothing. -/
theorem adler32_cons (x : Byte) (xs : List Byte) (a0 : Word) :
    adler32 (x :: xs) a0 =
      adler32 xs (BitVec.ofNat 32 ((adlerStep (adlerLow a0, adlerHigh a0) x).2 * 65536 +
        (adlerStep (adlerLow a0, adlerHigh a0) x).1)) := by
  have ha := adlerStep_fst_lt (adlerLow a0, adlerHigh a0) x
  have hb := adlerStep_snd_lt (adlerLow a0, adlerHigh a0) x
  rw [adler32_eq_foldl, adler32_eq_foldl, adlerLow_ofNat _ (by omega), adlerHigh_ofNat (by omega) (by omega),
    List.foldl_cons]

theorem adler32_append (xs ys : List Byte) (a0 : Word) : adler32 (xs ++ ys) a0 = adler32 ys (adler32 xs a0) := by
  induction xs generalizing a0 with
  | nil => simp
  | cons x xs ih => rw [List.cons_append, adler32_cons, adler32_cons, ih]

/-- Settles O42: the halves survive packing between two bytes, and the composition follows by induction on the first string. -/
theorem adlerTakesBytesInOrder : Obligations.AdlerTakesBytesInOrder := by
  refine ⟨adler32_nil, adler32_nil 1, fun x xs a0 => ?_, adler32_append⟩
  rw [adler32_cons, adlerLow_eq_and, adlerHigh_eq_shift]
  rfl

end Sys2Proof.Machine

/-! PROOFS. The command port (10_state.md R22 to R24): a command word that is issued, the host's operations, STATUS and the codes of errors. -/

namespace Sys2Proof.Machine

/-! ## Command words and the host (R22) -/

theorem decode_encode_cConfig : ∀ level : Fin 16, ∀ strategy : Fin 4, ∀ nohdr : Bool,
    decode (encode (.cConfig level strategy nohdr)) = .ok (.cConfig level strategy nohdr) := by
  decide +kernel

theorem decode_encode_of_wf {i : Instr} (h : i.wf = true) : decode (encode i) = .ok i := by
  cases i
  case cConfig level strategy nohdr =>
    simp only [Instr.wf, levelFits, strategyFits, Bool.and_eq_true, decide_eq_true_eq] at h
    exact decode_encode_cConfig ⟨level, h.1⟩ ⟨strategy, h.2⟩ nohdr
  case dConfig nohdr => cases nohdr <;> rfl
  all_goals rfl

@[simp] theorem commandWord_toNat (w : Word) : commandWord 32 w.toNat = w := by
  rw [commandWord, Nat.mod_eq_of_lt w.isLt, BitVec.ofNat_toNat, BitVec.setWidth_eq]

theorem step_of_cmd {s : State} {w : Word} {i : Instr} (hw : s.port.cmd = some w) (hi : decode w = .ok i) :
    step s = exec i s.takeCmd := by
  simp [step, issue, hw, hi]

theorem step_of_no_cmd {s : State} (h : s.port.cmd = none) : step s = hostTurn s := by
  simp [step, h]

theorem step_of_host {s : State} {op : HostOp} {rest : List HostOp} (h : s.port.cmd = none) (hs : s.host = op :: rest) :
    step s = hostStep op { s with host := rest } := by
  simp [step_of_no_cmd h, hostTurn, hs]

/-- Settles O4: the decoder gives a well-formed command back from its word. -/
theorem stepRunsDecodedCommand : Obligations.StepRunsDecodedCommand := by
  refine ⟨fun s w i => step_of_cmd, fun s i hi => ?_⟩
  exact step_of_cmd (State.withFetchWord_cmd s 32 _) (by rw [commandWord_toNat, decode_encode_of_wf hi])

/-- Settles O5, one kind of host operation after another. -/
theorem hostOperations : Obligations.HostOperations := by
  intro s hc
  refine ⟨fun hs => ?_, fun v rest hs => ?_, fun v rest hs => ?_, fun v rest hs => ?_, fun r v rest hr hs => ?_,
    fun a b rest hs ha hm => ?_, fun a b rest hs ha => ?_⟩
  · simp [step_of_no_cmd hc, hostTurn, hs]
  · rw [step_of_host hc hs, hostStep, State.writePort, BitVec.truncate_eq_setWidth, BitVec.setWidth_eq_extractLsb' (by decide)]
  · rw [step_of_host hc hs]; rfl
  · rw [step_of_host hc hs, hostStep, State.writePort, BitVec.truncate_eq_setWidth, BitVec.setWidth_eq_extractLsb' (by decide)]
  · rw [step_of_host hc hs]
    rcases hr with rfl | rfl | rfl <;> rfl
  · refine ⟨s.mem.write a b, ?_, Memory.read_write_self hm a b, fun a' h => Memory.read_write_of_ne s.mem b h⟩
    rw [step_of_host hc hs, hostStep, if_pos ha]
  · rw [step_of_host hc hs, hostStep, if_neg ha]

/-! ## Errors and STATUS (R23, R24) -/

theorem Err.code_ne_zero (e : Err) : e.code ≠ 0 := by
  cases e <;> decide

/-- Settles O7: an error's row is the error with its class and subcode. -/
theorem errorCodes : Obligations.ErrorCodes := by
  intro e
  refine ⟨(e, e.classSub), ?_, rfl, ?_, ?_⟩
  · cases e <;> decide
  · cases e <;> rfl
  · simp [Err.sticky]

theorem testBit_ofBits (bs : List Bool) (i : Nat) : (ofBits bs).testBit i = bs.getD i false := by
  induction bs generalizing i with
  | nil => simp [ofBits]
  | cons b bs ih =>
    cases i with
    | zero => cases b <;> simp [ofBits, Nat.testBit_zero]
    | succ i =>
      have : (b.toNat + 2 * ofBits bs) / 2 = ofBits bs := by cases b <;> simp; omega
      simp [ofBits, Nat.testBit_succ, this, ih]

theorem State.status_getLsbD (s : State) {i : Nat} (h : i < 32) : s.status.getLsbD i = s.statusBits.getD i false := by
  rw [State.status, BitVec.getLsbD_ofNat, testBit_ofBits, decide_eq_true h, Bool.true_and]

theorem State.status_lt (s : State) : s.status.toNat < 256 := by
  have h : ofBits s.statusBits < 2 ^ 8 := valueOf_lt s.statusBits
  rw [State.status, BitVec.toNat_ofNat]
  omega

theorem flagResult_eq_ite (b : Bool) : flagResult b = if b then 1 else 0 := by
  cases b <;> rfl

theorem State.PortInv.lasterr_iff {s : State} (h : s.PortInv) : s.port.lasterr = true ↔ s.port.errcode ≠ 0 := by
  rcases h.response with ⟨he, hl⟩ | ⟨e, he, hl⟩
  · simp [he, hl]
  · rw [he, hl]; exact iff_of_true rfl e.code_ne_zero

/-- Settles O6: each bit of STATUS is the field that the matching query answers with. -/
theorem statusReflectsUnits : Obligations.StatusReflectsUnits := by
  intro s
  have query (i : Nat) (b : Bool) (hi : i < 32) (hb : s.statusBits.getD i false = b) :
      s.succeed (flagResult b) = s.ok (if s.status.getLsbD i then 1 else 0) := by
    rw [s.status_getLsbD hi, hb, ← flagResult_eq_ite, State.succeed_eq_ok]
  refine ⟨rfl, s.status_lt, s.status_getLsbD (by decide), fun h => ?_, ?_, ?_, ?_, ?_, ?_, ?_, ?_⟩
  · rw [s.status_getLsbD (by decide)]; exact h.lasterr_iff
  · rw [s.status_getLsbD (by decide)]; exact Option.isSome_iff_ne_none
  · rw [s.status_getLsbD (by decide)]; exact Option.isSome_iff_ne_none
  · exact congrArg _ (query 3 s.cu.isFinished (by decide) rfl)
  · exact congrArg _ (query 4 s.cu.needsInput (by decide) rfl)
  · exact congrArg _ (query 5 s.du.isFinished (by decide) rfl)
  · exact congrArg _ (query 6 s.du.needsInput (by decide) rfl)
  · exact congrArg _ (query 7 s.du.needsDict (by decide) rfl)

end Sys2Proof.Machine

/-! PROOFS. The frame of a command (60_exceptions.md R374): how a procedure ends, as a rule for sequences; what a transfer writes; and what each
command leaves unchanged. -/

namespace Sys2Proof.Machine

/-! ## How a procedure ends -/

/-- Where the procedure is done, its value and state meet P; where it raises, its error and state meet E. -/
def Run.Ends {σ α : Type} (P : α → σ → Prop) (E : Err → σ → Prop) : Run σ α → Prop
  | .done a s => P a s
  | .raise e s => E e s
  | .stuck => True

@[simp] theorem Run.ends_done {σ α : Type} {P : α → σ → Prop} {E : Err → σ → Prop} (a : α) (s : σ) :
    (Run.done a s).Ends P E ↔ P a s := Iff.rfl
@[simp] theorem Run.ends_raise {σ α : Type} {P : α → σ → Prop} {E : Err → σ → Prop} (e : Err) (s : σ) :
    (Run.raise e s : Run σ α).Ends P E ↔ E e s := Iff.rfl
@[simp] theorem Run.ends_stuck {σ α : Type} {P : α → σ → Prop} {E : Err → σ → Prop} :
    (Run.stuck : Run σ α).Ends P E ↔ True := Iff.rfl

theorem Run.Ends.mono {σ α : Type} {P Q : α → σ → Prop} {E F : Err → σ → Prop} {r : Run σ α} (h : r.Ends P E)
    (hP : ∀ a s, P a s → Q a s) (hE : ∀ e s, E e s → F e s) : r.Ends Q F := by
  cases r with
  | done a s => exact hP a s h
  | raise e s => exact hE e s h
  | stuck => trivial

/-- One procedure after another. -/
theorem Run.Ends.bind {σ α β : Type} {P : α → σ → Prop} {Q : β → σ → Prop} {E : Err → σ → Prop} {r : Run σ α}
    {f : α → σ → Run σ β}
    (h : r.Ends P E) (hf : ∀ a s, P a s → (f a s).Ends Q E) : (r.bind f).Ends Q E := by
  cases r with
  | done a s => exact hf a s h
  | raise e s => exact h
  | stuck => trivial

theorem Run.Ends.within {σ τ α : Type} {P : α → τ → Prop} {E : Err → τ → Prop} {r : Run σ α} {put : σ → τ}
    (h : r.Ends (fun a s => P a (put s)) fun e s => E e (put s)) : (r.within put).Ends P E := by
  cases r with
  | done a s => exact h
  | raise e s => exact h
  | stuck => trivial

theorem Run.ends_true {σ α : Type} (r : Run σ α) : r.Ends (fun _ _ => True) fun _ _ => True := by
  cases r <;> trivial

/-! ## What a transfer writes (20_memory.md R79) -/

/-- From memory m, a transfer with room for n bytes at address a has written a first part of the buffer, and nothing else. -/
structure Xfer.Within {σ : Type} (m : Memory) (a n : Nat) (x : Xfer σ) : Prop where
  begun : a ≤ x.dest
  room : x.dest + x.left = a + n
  outside : ∀ b, ¬ (a ≤ b ∧ b < x.dest) → x.mem.read b = m.read b

theorem Xfer.Within.start {σ : Type} (u : σ) (m : Memory) (a n : Nat) : Xfer.Within m a n { unit := u, mem := m, dest := a, left := n } :=
  ⟨le_refl _, rfl, fun _ _ => rfl⟩

/-- Changing the unit writes nothing. -/
theorem Xfer.Within.setUnit {σ : Type} {m : Memory} {a n : Nat} {x : Xfer σ} (h : x.Within m a n) (u : σ) :
    Xfer.Within m a n { x with unit := u } := ⟨h.begun, h.room, h.outside⟩

/-- Delivering bytes that there is room for moves on past them. -/
theorem Xfer.Within.deliver {σ : Type} {m : Memory} {a n : Nat} {x : Xfer σ} (h : x.Within m a n) (u : σ) {bs : List Byte}
    (hb : bs.length ≤ x.left) :
    Xfer.Within m a n { unit := u, mem := x.mem.writeBytes x.dest bs, dest := x.dest + bs.length, left := x.left - bs.length } := by
  obtain ⟨hbegun, hroom, hout⟩ := h
  refine ⟨by simp only; omega, by simp only; omega, fun b hbo => ?_⟩
  simp only at hbo
  rw [Memory.read_writeBytes_of_out _ _ _ (by omega)]
  exact hout b (by omega)

theorem Xfer.Within.run {σ α : Type} {m : Memory} {a n : Nat} {x : Xfer σ} (h : x.Within m a n) (r : Run σ α) :
    (x.run r).Ends (fun _ => Xfer.Within m a n) fun _ => Xfer.Within m a n :=
  Run.Ends.within (r.ends_true.mono (fun _ u _ => h.setUnit u) fun _ u _ => h.setUnit u)

theorem Xfer.Within.flush {m : Memory} {a n : Nat} {x : Xfer CU} (h : x.Within m a n) : x.flush.Within m a n := by
  obtain ⟨k, hk, e⟩ := x.flush_spec
  have hlen : (x.unit.out.settle.fifo.take k).length = k := by rw [List.length_take]; omega
  have hd := h.deliver (bs := x.unit.out.settle.fifo.take k) x.flush.unit (by omega)
  rw [hlen] at hd
  rw [e] at hd ⊢
  exact hd

theorem Xfer.Within.copyOut {m : Memory} {a n : Nat} {x : Xfer DU} (h : x.Within m a n) : x.copyOut.Within m a n := by
  have hlen : (x.unit.oldest (min x.left x.unit.filled)).length = min x.left x.unit.filled := by simp [DU.oldest]
  have hd := h.deliver (bs := x.unit.oldest (min x.left x.unit.filled)) x.copyOut.unit (by omega)
  rw [hlen] at hd
  exact hd

theorem deflateLoop_within {m : Memory} {a n : Nat} (fuel : Nat) {x : Xfer CU} (h : x.Within m a n) :
    (deflateLoop fuel x).Ends (fun _ => Xfer.Within m a n) fun _ => Xfer.Within m a n := by
  induction fuel generalizing x with
  | zero => trivial
  | succ fuel ih =>
    simp only [deflateLoop]
    split
    · exact h.flush
    · refine (h.flush.run _).bind fun progress y hy => ?_
      split
      · exact ih hy
      · refine (hy.run _).bind fun again z hz => ?_
        split
        · exact ih hz
        · exact hz

theorem deflateRun_within {m : Memory} {a n : Nat} {x : Xfer CU} (h : x.Within m a n) :
    (deflateRun x).Ends (fun _ => Xfer.Within m a n) fun _ => Xfer.Within m a n :=
  (h.run _).bind fun _ _ hy => deflateLoop_within _ hy

theorem Xfer.Within.step {m : Memory} {a n : Nat} {x : Xfer DU} (h : x.Within m a n) :
    x.step.Ends (fun _ => Xfer.Within m a n) fun _ => Xfer.Within m a n := h.run _

theorem inflateLoop_within {m : Memory} {a n : Nat} (fuel : Nat) {x : Xfer DU} (h : x.Within m a n) :
    (inflateLoop fuel x).Ends (fun _ => Xfer.Within m a n) fun _ => Xfer.Within m a n := by
  induction fuel generalizing x with
  | zero => trivial
  | succ fuel ih =>
    have hd : x.deliver.Within m a n := by
      unfold Xfer.deliver
      split
      · exact h
      · exact h.copyOut
    simp only [inflateLoop]
    split
    · exact hd
    · refine hd.step.bind fun more y hy => ?_
      split
      · exact ih hy
      · exact hy

theorem inflateRun_within {m : Memory} {a n : Nat} {x : Xfer DU} (h : x.Within m a n) :
    (inflateRun x).Ends (fun _ => Xfer.Within m a n) fun _ => Xfer.Within m a n := by
  unfold inflateRun
  split
  · split
    · exact h
    · exact h.step.bind fun _ y hy => hy
  · exact inflateLoop_within _ h

/-! ## What a command leaves unchanged -/

/-- What no command of unit u changes: the setting it runs in, and the other unit. -/
structure State.Frame (u : UnitId) (s t : State) : Prop where
  params : t.params = s.params
  host : t.host = s.host
  cmd : t.port.cmd = s.port.cmd
  argAddr : t.port.argAddr = s.port.argAddr
  argLen : t.port.argLen = s.port.argLen
  du : u = .cu → t.du = s.du
  cu : u = .du → t.cu = s.cu

theorem State.Frame.raise (u : UnitId) (e : Err) (n : Nat) (s : State) : s.Frame u (s.raise u e n) := by
  obtain ⟨hparams, -, hhost, hport, hcu, hdu⟩ := s.raise_fields u e n
  refine ⟨hparams, hhost, by rw [hport], by rw [hport], by rw [hport], fun h => ?_, fun h => ?_⟩
  · rw [hdu, h, if_neg (by simp)]
  · rw [hcu, h, if_neg (by simp)]

theorem State.Frame.succeed_cu (s : State) (c : CU) (m : Memory) (r : DWord) :
    s.Frame .cu ({ s with cu := c, mem := m }.succeed r) :=
  ⟨rfl, rfl, rfl, rfl, rfl, fun _ => rfl, nofun⟩

theorem State.Frame.succeed_du (s : State) (d : DU) (m : Memory) (r : DWord) :
    s.Frame .du ({ s with du := d, mem := m }.succeed r) :=
  ⟨rfl, rfl, rfl, rfl, rfl, nofun, fun _ => rfl⟩

theorem State.Frame.raise_cu (s : State) (c : CU) (m : Memory) (e : Err) (n : Nat) :
    s.Frame .cu ({ s with cu := c, mem := m }.raise .cu e n) :=
  have h := State.Frame.raise .cu e n { s with cu := c, mem := m }
  ⟨h.params, h.host, h.cmd, h.argAddr, h.argLen, h.du, nofun⟩

theorem State.Frame.raise_du (s : State) (d : DU) (m : Memory) (e : Err) (n : Nat) :
    s.Frame .du ({ s with du := d, mem := m }.raise .du e n) :=
  have h := State.Frame.raise .du e n { s with du := d, mem := m }
  ⟨h.params, h.host, h.cmd, h.argAddr, h.argLen, nofun, h.cu⟩

/-- A command that transfers no output ends in an error response, or writes its own unit and the response. -/
def State.Ordinary (u : UnitId) (s t : State) : Prop :=
  (∃ e, t = s.raise u e 0) ∨ (u = .cu ∧ ∃ c r, t = { s with cu := c }.succeed r) ∨ (u = .du ∧ ∃ d r, t = { s with du := d }.succeed r)

theorem State.Ordinary.frame {u : UnitId} {s t : State} (h : s.Ordinary u t) : s.Frame u t ∧ t.mem = s.mem := by
  rcases h with ⟨e, rfl⟩ | ⟨rfl, c, r, rfl⟩ | ⟨rfl, d, r, rfl⟩
  · exact ⟨.raise u e 0 s, (s.raise_fields u e 0).2.1⟩
  · exact ⟨.succeed_cu s c s.mem r, rfl⟩
  · exact ⟨.succeed_du s d s.mem r, rfl⟩

theorem State.Ordinary.of_guardCU {s t : State} {checks : List (Bool × Err)} {c : CU} {r : DWord}
    (h : s.guardCU checks (.next ({ s with cu := c }.succeed r)) = .next t) : s.Ordinary .cu t := by
  rcases State.guardCU_cases h with ⟨e, -, -, he⟩ | ⟨-, h⟩
  · exact .inl ⟨e, he⟩
  · cases h; exact .inr (.inl ⟨rfl, c, r, rfl⟩)

theorem execCConfig_ordinary {level strategy : Nat} {nohdr : Bool} {s t : State} (h : execCConfig level strategy nohdr s = .next t) :
    s.Ordinary .cu t := by
  unfold execCConfig at h
  split at h <;> cases h
  · exact .inl ⟨_, rfl⟩
  · exact .inl ⟨_, rfl⟩
  · exact .inr (.inl ⟨rfl, _, _, rfl⟩)

theorem execDSetInput_ordinary {s t : State} (h : execDSetInput s = .next t) : s.Ordinary .du t := by
  rcases State.guardDU_cases h with ⟨e, -, -, he⟩ | ⟨-, h⟩
  · exact .inl ⟨e, he⟩
  · cases h; exact .inr (.inr ⟨rfl, _, _, rfl⟩)

theorem execDSetDict_ordinary {s t : State} (h : execDSetDict s = .next t) : s.Ordinary .du t := by
  rcases State.guardDU_cases h with ⟨e, -, -, he⟩ | ⟨-, h⟩
  · exact .inl ⟨e, he⟩
  · split at h <;> cases h
    · exact .inr (.inr ⟨rfl, _, _, rfl⟩)
    · exact .inl ⟨_, rfl⟩

theorem Instr.unit_cConfig (level strategy : Nat) (nohdr : Bool) : (Instr.cConfig level strategy nohdr).unit = .cu :=
  if_neg (by decide : ¬ Nat.testBit 0x01 5 = true)

theorem Instr.unit_dConfig (nohdr : Bool) : (Instr.dConfig nohdr).unit = .du := if_pos (by decide : Nat.testBit 0x21 5 = true)

theorem exec_ordinary {i : Instr} {s t : State} (h : exec i s = .next t) (hc : i ≠ .cDeflate) (hd : i ≠ .dInflate) :
    s.Ordinary i.unit t := by
  cases i
  case cDeflate => exact absurd rfl hc
  case dInflate => exact absurd rfl hd
  case cConfig level strategy nohdr => exact Instr.unit_cConfig level strategy nohdr ▸ execCConfig_ordinary h
  case cSetInput => exact .of_guardCU h
  case cSetDict => exact .of_guardCU h
  case cFlush => exact .of_guardCU h
  case cFinish => exact .of_guardCU h
  case dSetInput => exact execDSetInput_ordinary h
  case dSetDict => exact execDSetDict_ordinary h
  case cReset | cIsFinished | cIsNeedingInput | cAdler | cTotalIn | cTotalOut => cases h; exact .inr (.inl ⟨rfl, _, _, rfl⟩)
  case dConfig nohdr => cases h; exact .inr (.inr ⟨Instr.unit_dConfig nohdr, _, _, rfl⟩)
  case dReset | dIsFinished | dIsNeedingInput | dAdler | dTotalIn | dTotalOut | dIsNeedingDict =>
    cases h; exact .inr (.inr ⟨rfl, _, _, rfl⟩)

/-- A command that transfers output answers with the number of bytes it has written from ARG_ADDR on, and writes no other. -/
def State.Transferred (s t : State) : Prop :=
  ∃ n, n ≤ s.argLen ∧ t.port.result = BitVec.ofNat 64 n ∧ ∀ a, ¬ s.wrote n a → t.mem.read a = s.mem.read a

theorem State.Transferred.of_raise (u : UnitId) (e : Err) (s : State) : s.Transferred (s.raise u e 0) := by
  obtain ⟨-, hmem, -, hport, -, -⟩ := s.raise_fields u e 0
  exact ⟨0, Nat.zero_le _, by rw [hport], fun a _ => by rw [hmem]⟩

theorem State.Transferred.of_within {σ : Type} {s t : State} {x : Xfer σ} (h : x.Within s.mem s.argAddr s.argLen) (hm : t.mem = x.mem)
    (hr : t.port.result = BitVec.ofNat 64 (x.dest - s.argAddr)) : s.Transferred t := by
  obtain ⟨hbegun, hroom, hout⟩ := h
  refine ⟨x.dest - s.argAddr, by omega, hr, fun a ha => ?_⟩
  rw [hm]
  exact hout a fun hb => ha ⟨hb.1, by have := hb.2; simp only [State.argAddr] at *; omega⟩

theorem State.Transferred.counts {s t : State} (h : s.Transferred t) :
    t.port.result.toNat ≤ s.port.argLen.toNat ∧ ∀ a, ¬ s.wrote t.port.result.toNat a → t.mem.read a = s.mem.read a := by
  obtain ⟨n, hn, hr, hout⟩ := h
  have hlt := s.port.argLen.isLt
  have e : t.port.result.toNat = n := by
    rw [hr, BitVec.toNat_ofNat, Nat.mod_eq_of_lt]
    simp only [State.argLen] at hn
    omega
  rw [e]
  exact ⟨hn, hout⟩

theorem execCDeflate_frame {s t : State} (h : execCDeflate s = .next t) : s.Frame .cu t ∧ s.Transferred t := by
  rcases State.guardCU_cases h with ⟨e, -, -, rfl⟩ | ⟨-, h⟩
  · exact ⟨.raise .cu e 0 s, .of_raise .cu e s⟩
  · have hw := deflateRun_within (Xfer.Within.start s.cu s.mem s.argAddr s.argLen)
    rcases State.endCU_cases h with ⟨x, hx, rfl⟩ | ⟨e, x, hx, rfl⟩ <;> rw [hx] at hw
    · exact ⟨.succeed_cu s x.unit x.mem _, .of_within hw rfl rfl⟩
    · obtain ⟨-, hmem, -, hport, -, -⟩ := State.raise_fields .cu e (x.dest - s.argAddr) { s with cu := x.unit, mem := x.mem }
      exact ⟨.raise_cu s x.unit x.mem e _, .of_within hw hmem (by rw [hport])⟩

theorem execDInflate_frame {s t : State} (h : execDInflate s = .next t) : s.Frame .du t ∧ s.Transferred t := by
  rcases State.guardDU_cases h with ⟨e, -, -, rfl⟩ | ⟨-, h⟩
  · exact ⟨.raise .du e 0 s, .of_raise .du e s⟩
  · have hw := inflateRun_within (Xfer.Within.start s.du s.mem s.argAddr s.argLen)
    rcases State.endDU_cases h with ⟨x, hx, rfl⟩ | ⟨e, x, hx, rfl⟩ <;> rw [hx] at hw
    · exact ⟨.succeed_du s x.unit x.mem _, .of_within hw rfl rfl⟩
    · obtain ⟨-, hmem, -, hport, -, -⟩ := State.raise_fields .du e (x.dest - s.argAddr) { s with du := x.unit, mem := x.mem }
      exact ⟨.raise_du s x.unit x.mem e _, .of_within hw hmem (by rw [hport])⟩

theorem exec_frame {i : Instr} {s t : State} (h : exec i s = .next t) : s.Frame i.unit t := by
  by_cases hc : i = .cDeflate
  · subst hc; exact (execCDeflate_frame h).1
  · by_cases hd : i = .dInflate
    · subst hd; exact (execDInflate_frame h).1
    · exact (exec_ordinary h hc hd).frame.1

/-- Settles O24: every command keeps its frame; memory is written by the two transfers only, inside what RESULT counts. -/
theorem commandFrame : Obligations.CommandFrame := by
  intro i s t h
  obtain ⟨hparams, hhost, hcmd, haddr, hlen, hdu, hcu⟩ := exec_frame h
  refine ⟨hparams, hhost, hcmd, haddr, hlen, hdu, hcu, fun hc hd => (exec_ordinary h hc hd).frame.2, fun hi => ?_⟩
  rcases hi with rfl | rfl
  · exact (execCDeflate_frame h).2.counts
  · exact (execDInflate_frame h).2.counts

end Sys2Proof.Machine

/-! PROOFS. A block of the compressor (42_huffman_encoder.md R204 to R213): its trees always pass their check, and every field it emits fits its
width, so the pending output stays settled. -/

namespace Sys2Proof.Machine

/-! ## The trees pass their check (R206, R215) -/

theorem GoodLeaves.length_le {n top : Nat} {leaves : List Nat} (h : GoodLeaves n leaves top) : leaves.length ≤ n := by
  have hsub : leaves ⊆ List.range top := fun s hs => List.mem_range.mpr (h.below s hs)
  have hle := (h.nodup.subperm hsub).length_le
  rw [List.length_range] at hle
  exact hle.trans h.top

theorem mem_lengthVector_le {n limit : Nat} {leaves : List Nat} {lengths : List (Nat × Nat)} (h : GoodLengths limit leaves lengths)
    (hnd : leaves.Nodup) (hlt : ∀ s ∈ leaves, s < n) : ∀ l ∈ lengthVector n lengths, l ≤ limit := by
  obtain ⟨-, hin, hout, -⟩ := lengthVector_spec n lengths (h.leaves.nodup_iff.mpr hnd)
    fun p hp => hlt p.1 (h.leaves.mem_iff.mp (List.mem_map_of_mem hp))
  intro l hl
  obtain ⟨s, hs, rfl⟩ := List.mem_iff_getElem.mp hl
  rw [← List.getD_eq_getElem _ 0 hs]
  by_cases hm : s ∈ lengths.map Prod.fst
  · obtain ⟨p, hp, rfl⟩ := List.mem_map.mp hm
    rw [hin p hp]
    exact (h.range p hp).2
  · rw [hout s hm]
    exact Nat.zero_le _

/-- The number of nonzero elements, as a sum. -/
theorem length_filter_pos (v : List Nat) : (v.filter fun l => 0 < l).length = (v.map fun l => if 0 < l then 1 else 0).sum := by
  induction v with
  | nil => rfl
  | cons a v ih => by_cases ha : 0 < a <;> simp [ha, ih, Nat.add_comm]

theorem validLengths_lengthVector {n limit : Nat} {leaves : List Nat} {lengths : List (Nat × Nat)} (h : GoodLengths limit leaves lengths)
    (hnd : leaves.Nodup) (hlt : ∀ s ∈ leaves, s < n) (h2 : 2 ≤ leaves.length) : validLengths limit (lengthVector n lengths) = true := by
  obtain ⟨-, -, -, hsum⟩ := lengthVector_spec n lengths (h.leaves.nodup_iff.mpr hnd)
    fun p hp => hlt p.1 (h.leaves.mem_iff.mp (List.mem_map_of_mem hp))
  have hcount : ((lengthVector n lengths).filter fun l => 0 < l).length = leaves.length := by
    rw [length_filter_pos, hsum _ (by simp), List.map_congr_left fun p hp => if_pos (show 0 < p.2 from (h.range p hp).1), ← h.leaves.length_eq]
    simp
  have hkraft : kraft (lengthVector n lengths) = 2 ^ 15 := by
    rw [kraft, hsum _ (by simp), List.map_congr_left fun p hp => if_neg (by have := (h.range p hp).1; omega)]
    exact h.kraft
  simp only [validLengths, Bool.and_eq_true, List.all_eq_true, decide_eq_true_eq, beq_iff_eq]
  exact ⟨⟨mem_lengthVector_le h hnd hlt, hcount ▸ h2⟩, hkraft⟩

/-- The construction always succeeds; it writes T.LEN, with lengths up to the limit, and T.NUM, at most the number of symbols (R204 to R206). -/
theorem HuffTree.build_eq_some (t : HuffTree) {n min limit : Nat} (hf : t.freq.length = n) (hn : 3 ≤ n) (h1 : 1 ≤ limit) (h15 : limit ≤ 15)
    (hroom : n < 2 ^ limit) (hmin : min ≤ n) :
    ∃ len num, t.build n min limit = some { t with len := len, num := num } ∧ (∀ l ∈ len, l ≤ limit) ∧ num ≤ n := by
  obtain ⟨hgood, h2, -⟩ := forceLeaves_good hn (usedSymbols_good hf)
  have hlen := limitedLengths_good n t.freq h2 h1 h15 (lt_of_le_of_lt hgood.length_le hroom)
  have hlt : ∀ s ∈ (forceLeaves 2 (usedSymbols t.freq) (topOf (usedSymbols t.freq))).1, s < n :=
    fun s hs => lt_of_lt_of_le (hgood.below s hs) hgood.top
  refine ⟨_, _, ?_, mem_lengthVector_le hlen hgood.nodup hlt, max_le hgood.top hmin⟩
  rw [HuffTree.build]
  exact if_pos (validLengths_lengthVector hlen hgood.nodup hlt h2)

/-! ## Fields that fit their width (R141) -/

/-- Every field's value fits its width, which WriteBits admits. -/
def FieldsFit (fields : List (Nat × Nat)) : Prop := ∀ f ∈ fields, f.2 ≤ 16 ∧ f.1 < 2 ^ f.2

@[simp] theorem fieldsFit_nil : FieldsFit [] := by simp [FieldsFit]

@[simp] theorem fieldsFit_cons {f : Nat × Nat} {fs : List (Nat × Nat)} :
    FieldsFit (f :: fs) ↔ (f.2 ≤ 16 ∧ f.1 < 2 ^ f.2) ∧ FieldsFit fs := by
  simp [FieldsFit]

@[simp] theorem fieldsFit_append {fs gs : List (Nat × Nat)} : FieldsFit (fs ++ gs) ↔ FieldsFit fs ∧ FieldsFit gs := by
  exact List.forall_mem_append

theorem fieldsFit_flatMap {α : Type} {l : List α} {f : α → List (Nat × Nat)} (h : ∀ a ∈ l, FieldsFit (f a)) : FieldsFit (l.flatMap f) := by
  intro p hp
  obtain ⟨a, ha, hpa⟩ := List.mem_flatMap.mp hp
  exact h a ha p hpa

theorem fieldsFit_extraField {v n : Nat} (hn : n ≤ 16) (hv : v < 2 ^ n) : FieldsFit (extraField v n) := by
  unfold extraField
  split
  · simp [hn, hv]
  · exact fieldsFit_nil

theorem BitOut.Settled.writeFields {o : BitOut} (h : o.Settled) {fields : List (Nat × Nat)} (hf : FieldsFit fields) :
    (o.writeFields fields).Settled := (BitOut.writeFields_spec h hf).2

/-! ## Codes (R209) -/

theorem bitrev_lt (n v : Nat) : bitrev n v < 2 ^ n := by
  induction n generalizing v with
  | zero => simp [bitrev]
  | succ n ih =>
    have hr := ih (v / 2)
    have hb : v % 2 * 2 ^ n ≤ 1 * 2 ^ n := Nat.mul_le_mul_right _ (by omega)
    rw [bitrev, pow_succ]
    omega

/-- Every symbol's code fits its length, and no length is over the longest that a code may have. -/
def HuffTree.Coded (t : HuffTree) : Prop := ∀ s, t.len.getD s 0 ≤ 15 ∧ t.code.getD s 0 < 2 ^ t.len.getD s 0

theorem HuffTree.Coded.codeField {t : HuffTree} (h : t.Coded) (s : Nat) : (t.codeField s).2 ≤ 16 ∧ (t.codeField s).1 < 2 ^ (t.codeField s).2 :=
  ⟨(h s).1.trans (by decide), (h s).2⟩

theorem reversedCodes_getD_lt (lens : List Nat) (s : Nat) : (reversedCodes lens).getD s 0 < 2 ^ lens.getD s 0 := by
  rw [reversedCodes, List.getD_eq_getElem?_getD, List.getElem?_map]
  cases hz : (lens.zip (canon lens))[s]? with
  | none => simp
  | some p =>
    obtain ⟨hl, -⟩ := List.getElem?_zip_eq_some.mp hz
    simp only [Option.map_some, Option.getD_some, List.getD_eq_getElem?_getD, hl]
    split
    · exact Nat.two_pow_pos _
    · exact bitrev_lt _ _

theorem getD_le_of_forall {l : List Nat} {b : Nat} (h : ∀ x ∈ l, x ≤ b) (s : Nat) : l.getD s 0 ≤ b := by
  by_cases hs : s < l.length
  · rw [List.getD_eq_getElem _ _ hs]; exact h _ (List.getElem_mem hs)
  · rw [List.getD_eq_default _ _ (by omega)]; exact Nat.zero_le _

theorem HuffTree.coded_buildCodes {t : HuffTree} (h : ∀ l ∈ t.len, l ≤ 15) : t.buildCodes.Coded :=
  fun s => ⟨getD_le_of_forall h s, reversedCodes_getD_lt t.len s⟩

/-- The first symbols of a code with lengths up to 15, as SetFixed takes them. -/
theorem HuffTree.coded_take {t : HuffTree} {lens : List Nat} {n : Nat} (h : ∀ l ∈ lens, l ≤ 15) :
    { t with len := lens.take n, code := (reversedCodes lens).take n : HuffTree }.Coded := by
  intro s
  refine ⟨getD_le_of_forall (fun l hl => h l (List.mem_of_mem_take hl)) s, ?_⟩
  by_cases hs : s < n
  · have hr := reversedCodes_getD_lt lens s
    simpa [List.getD_eq_getElem?_getD, hs] using hr
  · simp [List.getD_eq_getElem?_getD, hs]

/-! ## Run lengths (R207) -/

/-- An item's extra value fits its extra bits. -/
def RleItem.Fits (r : RleItem) : Prop := r.xbits ≤ 16 ∧ r.xval < 2 ^ r.xbits

theorem takeRun_le {cur maxc : Nat} (count : Nat) (ls : List Nat) (h : count < maxc) : (takeRun cur maxc count ls).1 ≤ maxc := by
  induction ls generalizing count with
  | nil => exact h.le
  | cons l ls ih =>
    simp only [takeRun]
    split
    · split
      · exact h
      · exact ih (count + 1) (by omega)
    · exact h.le

theorem runItems_fit {cur count : Nat} (h : count ≤ if cur = 0 then 138 else 6) : ∀ r ∈ runItems cur count, r.Fits := by
  unfold runItems
  split
  · intro r hr
    rw [List.eq_of_mem_replicate hr]
    exact ⟨Nat.zero_le _, Nat.one_pos⟩
  · split
    · rename_i hc
      rw [if_neg hc] at h
      simp only [List.mem_singleton, forall_eq, RleItem.Fits]
      omega
    · rename_i hc
      rw [if_pos (not_not.mp hc)] at h
      split <;> simp only [List.mem_singleton, forall_eq, RleItem.Fits] <;> omega

theorem rleFrom_fit (n : Nat) (last : Option Nat) (ls : List Nat) : ∀ r ∈ rleFrom n last ls, r.Fits := by
  induction n generalizing last ls with
  | zero => simp [rleFrom]
  | succ n ih =>
    cases ls with
    | nil => simp [rleFrom]
    | cons l ls =>
      simp only [rleFrom, List.mem_append, or_imp, forall_and]
      refine ⟨⟨?_, runItems_fit (takeRun_le _ _ ?_)⟩, ih _ _⟩
      · intro r hr
        split at hr
        · rw [List.mem_singleton.mp hr]; exact ⟨by simp, by simp⟩
        · simp at hr
      · split <;> split <;> decide

theorem rle_fit (lens : List Nat) : ∀ r ∈ rle lens, r.Fits := rleFrom_fit _ _ _

theorem blCountFrom_le (lens : List Nat) (i : Nat) (h : i ≤ 18) : blCountFrom lens i ≤ 19 := by
  induction i with
  | zero => exact (by decide : 4 ≤ 19)
  | succ i ih =>
    simp only [blCountFrom]
    split
    · omega
    · split
      · omega
      · exact ih (by omega)

theorem blcodes_le (lens : List Nat) : blcodes lens ≤ 19 := blCountFrom_le lens 18 (by decide)

/-! ## Extra bits of lengths and distances (30_encoding.md R105, R106) -/

theorem extraL_le (s : Nat) : extraL s ≤ 5 := getD_le_of_forall (by decide) _

theorem extraD_le (s : Nat) : extraD s ≤ 13 := getD_le_of_forall (by decide) _

theorem sub_baseL_lcode_lt : ∀ v : Fin 256, v.val + 3 - baseL (lcode (v.val + 3)) < 2 ^ extraL (lcode (v.val + 3)) := by
  decide +kernel

/-- The distances of a symbol end where those of the next begin. -/
theorem baseD_succ : ∀ k : Fin 29, baseD (k.val + 1) = baseD k.val + 2 ^ extraD k.val := by
  decide +kernel

/-- The first entry of a table after those at most x is over x. -/
theorem lt_getD_takeWhile (table : List Nat) (x : Nat) (h : (table.takeWhile (· ≤ x)).length < table.length) :
    x < table.getD (table.takeWhile (· ≤ x)).length 0 := by
  induction table with
  | nil => simp at h
  | cons a table ih =>
    by_cases ha : a ≤ x
    · simp only [List.takeWhile_cons, decide_eq_true ha, if_true, List.length_cons, List.getD_cons_succ] at h ⊢
      exact ih (by omega)
    · simp only [List.takeWhile_cons, decide_eq_false ha]; exact Nat.lt_of_not_le ha

theorem sub_baseD_dcode_lt {d : Nat} (h1 : 1 ≤ d) (h : d ≤ 32768) : d - baseD (dcode d) < 2 ^ extraD (dcode d) := by
  have hlen : (baseDTable.takeWhile (· ≤ d)).length ≤ 30 := (List.takeWhile_sublist _).length_le
  have hnext := lt_getD_takeWhile baseDTable d
  unfold dcode lastAtMost
  generalize (baseDTable.takeWhile (· ≤ d)).length = k at *
  rcases Nat.lt_or_ge k 30 with hk | hk
  · have hd : d < baseD k := hnext hk
    cases k with
    | zero => exact absurd hd (by simp [baseD, baseDTable]; omega)
    | succ k =>
      have hs : baseD (k + 1) = baseD k + 2 ^ extraD k := baseD_succ ⟨k, by omega⟩
      rw [Nat.add_sub_cancel]
      have hpos := Nat.two_pow_pos (extraD k)
      omega
  · obtain rfl : k = 30 := by omega
    have e : baseD (30 - 1) = 24577 ∧ extraD (30 - 1) = 13 := by decide
    rw [e.1, e.2]
    omega

end Sys2Proof.Machine

/-! PROOFS. What a flushed block leaves of the CU (42_huffman_encoder.md R201 to R203, R210 to R213). -/

namespace Sys2Proof.Machine

/-! ## The token buffer (R201 to R203) -/

/-- The token buffer and the frequency tables, with at most TOKEN_CAP tokens: between commands there are fewer (10_state.md R33, R35). -/
structure CU.Tokens (c : CU) : Prop where
  count : c.tokN ≤ 16384
  range : ∀ i, i < c.tokN → c.tokD.tok i ≤ 32768 ∧ c.tokL.tok i < 256
  litSize : c.lit.freq.length = 286
  distSize : c.dist.freq.length = 30
  blSize : c.bl.freq.length = 19

@[simp] theorem HuffTree.count_size (t : HuffTree) (s : Nat) : (t.count s).freq.length = t.freq.length := by
  simp [HuffTree.count]

@[simp] theorem HuffTree.clear_size (t : HuffTree) : t.clear.freq.length = t.freq.length := by
  simp [HuffTree.clear]

@[simp] theorem HuffTree.foldl_count_size (t : HuffTree) (items : List RleItem) :
    (items.foldl (fun t r => t.count r.sym) t).freq.length = t.freq.length := by
  induction items generalizing t with
  | nil => rfl
  | cons r items ih => rw [List.foldl_cons, ih, HuffTree.count_size]

theorem CU.Tokens.push {c : CU} (h : c.Tokens) (hn : c.tokN < 16384) {d l : Nat} (hd : d ≤ 32768) (hl : l < 256) :
    (c.pushToken d l).Tokens := by
  refine ⟨hn, fun i hi => ?_, h.litSize, h.distSize, h.blSize⟩
  have hi' : i < c.tokN + 1 := hi
  simp only [CU.pushToken, Tbl.tok]
  rw [Tbl.get_set _ _ (by omega) (by omega), Tbl.get_set _ _ (by omega) (by omega)]
  split
  · exact ⟨hd, hl⟩
  · exact h.range i (by omega)

@[simp] theorem CU.tallyLit_lit (c : CU) (b : Nat) : (c.tallyLit b).lit = c.lit.count b := rfl
@[simp] theorem CU.tallyDist_lit (c : CU) (d l : Nat) : (c.tallyDist d l).lit = c.lit.count (lcode l) := rfl
@[simp] theorem CU.tallyDist_dist (c : CU) (d l : Nat) : (c.tallyDist d l).dist = c.dist.count (dcode d) := rfl

theorem CU.Tokens.tallyLit {c : CU} (h : c.Tokens) (hn : c.tokN < 16384) {b : Nat} (hb : b < 256) : (c.tallyLit b).Tokens := by
  obtain ⟨hcount, hrange, -, hdist, hbl⟩ := h.push hn (Nat.zero_le _) hb
  exact ⟨hcount, hrange, by simpa using h.litSize, hdist, hbl⟩

theorem CU.Tokens.tallyDist {c : CU} (h : c.Tokens) (hn : c.tokN < 16384) {d l : Nat} (hd : d ≤ 32768) (hl : l ≤ 258) :
    (c.tallyDist d l).Tokens := by
  obtain ⟨hcount, hrange, -, -, hbl⟩ := h.push hn hd (show l - 3 < 256 by omega)
  exact ⟨hcount, hrange, by simpa using h.litSize, by simpa using h.distSize, hbl⟩

/-! ## Emission (R211 to R213) -/

/-- While a block is emitted, the output stays settled and the frequency tables keep their sizes; nothing but these and the codes is
written. -/
def CU.Emitting (c e : CU) : Prop :=
  ∃ out lit dist bl, e = { c with out := out, lit := lit, dist := dist, bl := bl } ∧ out.Settled ∧
    lit.freq.length = c.lit.freq.length ∧ dist.freq.length = c.dist.freq.length ∧ bl.freq.length = c.bl.freq.length

/-- What a block leaves: no token, settled output, and frequency tables of the same sizes; nothing else is written. -/
def CU.Emitted (c e : CU) : Prop :=
  ∃ out lit dist bl, e = { c with tokN := 0, extra := 0, out := out, lit := lit, dist := dist, bl := bl } ∧ out.Settled ∧
    lit.freq.length = c.lit.freq.length ∧ dist.freq.length = c.dist.freq.length ∧ bl.freq.length = c.bl.freq.length

theorem CU.Emitting.trans {c e f : CU} (h : c.Emitting e) (h' : e.Emitting f) : c.Emitting f := by
  obtain ⟨out, lit, dist, bl, rfl, -, hl, hd, hb⟩ := h
  obtain ⟨out', lit', dist', bl', rfl, hout, hl', hd', hb'⟩ := h'
  exact ⟨out', lit', dist', bl', rfl, hout, hl'.trans hl, hd'.trans hd, hb'.trans hb⟩

theorem CU.Emitting.settled {c e : CU} (h : c.Emitting e) : e.out.Settled := by
  obtain ⟨out, lit, dist, bl, rfl, hout, -⟩ := h
  exact hout

theorem CU.Emitting.tokens {c e : CU} (h : c.Emitting e) (hc : c.Tokens) : e.Tokens := by
  obtain ⟨out, lit, dist, bl, rfl, -, hl, hd, hb⟩ := h
  exact ⟨hc.count, hc.range, hl.trans hc.litSize, hd.trans hc.distSize, hb.trans hc.blSize⟩

/-- The token buffer cleared ends a block (R201). -/
theorem CU.Emitting.huffReset {c e : CU} (h : c.Emitting e) : c.Emitted e.huffReset := by
  obtain ⟨out, lit, dist, bl, rfl, hout, hl, hd, hb⟩ := h
  exact ⟨out, lit.clear, dist.clear, bl.clear, rfl, hout, by rwa [HuffTree.clear_size], by rwa [HuffTree.clear_size],
    by rwa [HuffTree.clear_size]⟩

theorem CU.Emitting.emitted {c e f : CU} (h : c.Emitting e) (h' : e.Emitted f) : c.Emitted f := by
  obtain ⟨out, lit, dist, bl, rfl, -, hl, hd, hb⟩ := h
  obtain ⟨out', lit', dist', bl', rfl, hout, hl', hd', hb'⟩ := h'
  exact ⟨out', lit', dist', bl', rfl, hout, hl'.trans hl, hd'.trans hd, hb'.trans hb⟩

theorem CU.Emitted.tokens {c e : CU} (h : c.Emitted e) (hc : c.Tokens) : e.Tokens ∧ e.tokN = 0 := by
  obtain ⟨out, lit, dist, bl, rfl, -, hl, hd, hb⟩ := h
  exact ⟨⟨Nat.zero_le _, fun i hi => absurd hi (Nat.not_lt_zero i), hl.trans hc.litSize, hd.trans hc.distSize, hb.trans hc.blSize⟩, rfl⟩

theorem CU.Emitting.withOut {c : CU} {out : BitOut} (h : out.Settled) : c.Emitting { c with out := out } :=
  ⟨out, c.lit, c.dist, c.bl, rfl, h, rfl, rfl, rfl⟩

theorem CU.emitting_writeFields {c : CU} (h : c.out.Settled) {fields : List (Nat × Nat)} (hf : FieldsFit fields) :
    c.Emitting (c.writeFields fields) := .withOut (h.writeFields hf)

/-- One token's fields fit (R211). -/
theorem CU.fieldsFit_token {c : CU} {t : Nat} (hd : c.tokD.tok t ≤ 32768) (hl : c.tokL.tok t < 256) (hlit : c.lit.Coded)
    (hdist : c.dist.Coded) : FieldsFit (c.tokenFields t) := by
  unfold CU.tokenFields
  simp only
  split
  · exact fieldsFit_cons.mpr ⟨hlit.codeField _, fieldsFit_nil⟩
  · have hlx := sub_baseL_lcode_lt ⟨c.tokL.tok t, hl⟩
    have hdx := sub_baseD_dcode_lt (show 1 ≤ c.tokD.tok t by omega) hd
    simp only [fieldsFit_append, fieldsFit_cons, fieldsFit_nil, and_true]
    exact ⟨⟨⟨hlit.codeField _, fieldsFit_extraField ((extraL_le _).trans (by decide)) hlx⟩, hdist.codeField _⟩,
      fieldsFit_extraField ((extraD_le _).trans (by decide)) hdx⟩

theorem CU.emitting_compressBlock {c : CU} (ho : c.out.Settled) (ht : c.Tokens) (hlit : c.lit.Coded) (hdist : c.dist.Coded) :
    c.Emitting c.compressBlock := by
  refine CU.emitting_writeFields ho (fieldsFit_append.mpr ⟨fieldsFit_flatMap fun t h => ?_, ?_⟩)
  · have hr := ht.range t (List.mem_range.mp h)
    exact CU.fieldsFit_token hr.1 hr.2 hlit hdist
  · exact fieldsFit_cons.mpr ⟨hlit.codeField _, fieldsFit_nil⟩

theorem BitOut.Settled.push {o : BitOut} (h : o.Settled) (bs : List Byte) : (o.push bs).Settled := ⟨h.few, h.bits⟩

@[simp] theorem BitOut.push_nbits (o : BitOut) (bs : List Byte) : (o.push bs).nbits = o.nbits := rfl

theorem BitOut.writeBlock_aligned {o : BitOut} (h : o.nbits = 0) (bs : List Byte) : o.writeBlock bs = .done () (o.push bs) :=
  (BitOut.writeBlock_spec h bs).1

theorem BitOut.writeShort_aligned {o : BitOut} (h : o.nbits = 0) (s : Nat) :
    o.writeShort s = .done () (o.push [BitVec.ofNat 8 (s % 256), BitVec.ofNat 8 (s / 256)]) := by
  simp [BitOut.writeShort, BitOut.writeByte, BitOut.writeBlock, BitOut.push, h]

/-- A stored block is emitted without an error (R212). -/
theorem CU.emitStored_ends {c : CU} (ho : c.out.Settled) (data : List Byte) (last : Bool) :
    (c.emitStored data last).Ends (fun _ e => c.Emitted e) fun _ _ => False := by
  obtain ⟨-, hset⟩ := BitOut.writeBits_spec ho (n := 3) (v := last.toNat) (by decide) (by cases last <;> decide)
  obtain ⟨-, hset, hn, -⟩ := BitOut.alignToByte_spec hset
  simp only [CU.emitStored, BitOut.writeShort_aligned, BitOut.writeBlock_aligned, BitOut.push_nbits, hn, Run.bind_done]
  exact CU.Emitting.huffReset (.withOut (((hset.push _).push _).push data))

/-! ## A block flushed (R210) -/

/-- A tree built for n symbols with lengths up to `limit`. -/
structure HuffTree.Built (t : HuffTree) (n limit : Nat) : Prop where
  size : t.freq.length = n
  lens : ∀ l ∈ t.len, l ≤ limit
  num : t.num ≤ n

theorem HuffTree.Built.coded {t : HuffTree} {n limit : Nat} (h : t.Built n limit) (hl : limit ≤ 15) : t.buildCodes.Coded :=
  HuffTree.coded_buildCodes fun l hm => (h.lens l hm).trans hl

theorem HuffTree.build_eq_built (t : HuffTree) {n min limit : Nat} (hf : t.freq.length = n) (hn : 3 ≤ n) (h1 : 1 ≤ limit) (h15 : limit ≤ 15)
    (hroom : n < 2 ^ limit) (hmin : min ≤ n) : ∃ b, t.build n min limit = some b ∧ b.Built n limit := by
  obtain ⟨len, num, hb, hlen, hnum⟩ := t.build_eq_some hf hn h1 h15 hroom hmin
  exact ⟨_, hb, hf, hlen, hnum⟩

/-- The three trees of a CU that has built them for its block. -/
structure CU.Planned (c : CU) : Prop where
  lit : c.lit.Built 286 15
  dist : c.dist.Built 30 15
  bl : c.bl.Built 19 7

/-- The three trees are built without an error, and the run lengths to send fit their extra bits. -/
theorem CU.buildTrees_ends {c : CU} (h : c.Tokens) (ho : c.out.Settled) :
    c.buildTrees.Ends (fun items e => c.Emitting e ∧ e.Planned ∧ ∀ r ∈ items, r.Fits) fun _ _ => False := by
  obtain ⟨lit, hlit, hl⟩ := (c.lit.count 256).build_eq_built (n := 286) (min := 257) (limit := 15) (by simp [h.litSize])
    (by decide) (by decide) (by decide) (by decide) (by decide)
  obtain ⟨dist, hdist, hd⟩ := c.dist.build_eq_built (n := 30) (min := 1) (limit := 15) h.distSize
    (by decide) (by decide) (by decide) (by decide) (by decide)
  obtain ⟨bl, hbl, hb⟩ := ((rle (lit.len.take lit.num) ++ rle (dist.len.take dist.num)).foldl (fun t r => t.count r.sym) c.bl).build_eq_built
    (n := 19) (min := 4) (limit := 7) (by simp [h.blSize]) (by decide) (by decide) (by decide) (by decide) (by decide)
  simp only [CU.buildTrees, LIT_NUM, DIST_NUM, BL_NUM, MAX_BITS, MAX_BL_BITS, hlit, hdist, hbl, Run.ends_done]
  exact ⟨⟨c.out, lit, dist, bl, rfl, ho, hl.size.trans h.litSize.symm, hd.size.trans h.distSize.symm, hb.size.trans h.blSize.symm⟩,
    ⟨hl, hd, hb⟩, List.forall_mem_append.mpr ⟨rle_fit _, rle_fit _⟩⟩

/-- The block in the fixed code (R209 to R211). -/
def CU.fixedBlock (c : CU) (last : Bool) : CU := (c.writeFields [(2 + last.toNat, 3)]).setFixed.compressBlock.huffReset

/-- The codes of the three trees (R209). -/
def CU.withCodes (c : CU) : CU := { c with bl := c.bl.buildCodes, lit := c.lit.buildCodes, dist := c.dist.buildCodes }

/-- The block in its own code (R209 to R211, R213). -/
def CU.dynamicBlock (c : CU) (last : Bool) (items : List RleItem) : CU :=
  ((c.writeFields [(4 + last.toNat, 3)]).withCodes.emitDynamicHeader items (blcodes c.bl.len)).compressBlock.huffReset

/-- The three encodings of a block. -/
theorem CU.emitBlock_cases (c : CU) (start : Int) (n : Nat) (last : Bool) (items : List RleItem) :
    c.emitBlock start n last items = c.emitStored (c.winBytes start.toNat n) last ∨
    c.emitBlock start n last items = .done () (c.fixedBlock last) ∨ c.emitBlock start n last items = .done () (c.dynamicBlock last items) := by
  unfold CU.emitBlock
  extract_lets n dyn stat opt d e
  split
  · exact .inl rfl
  · split
    · exact .inr (.inl rfl)
    · exact .inr (.inr rfl)

theorem fixedL_le : ∀ l ∈ fixedL, l ≤ 15 := by
  intro l hl
  simp only [fixedL, List.mem_append, List.mem_replicate] at hl
  omega

theorem fixedD_le : ∀ l ∈ fixedD, l ≤ 15 := by
  intro l hl
  simp only [fixedD, List.mem_replicate] at hl
  omega

theorem CU.emitting_setFixed {c : CU} (h : c.out.Settled) : c.Emitting c.setFixed ∧ c.setFixed.lit.Coded ∧ c.setFixed.dist.Coded :=
  ⟨⟨c.out, _, _, c.bl, rfl, h, rfl, rfl, rfl⟩, HuffTree.coded_take fixedL_le, HuffTree.coded_take fixedD_le⟩

theorem CU.emitting_withCodes {c : CU} (h : c.out.Settled) : c.Emitting c.withCodes :=
  ⟨c.out, _, _, _, rfl, h, rfl, rfl, rfl⟩

theorem CU.fixedBlock_emitted {c : CU} (ht : c.Tokens) (ho : c.out.Settled) (last : Bool) : c.Emitted (c.fixedBlock last) := by
  have hw := CU.emitting_writeFields (c := c) ho (fields := [(2 + last.toNat, 3)]) (by cases last <;> simp)
  obtain ⟨hf, hlit, hdist⟩ := CU.emitting_setFixed hw.settled
  have hs := hw.trans hf
  exact (hs.trans (CU.emitting_compressBlock hs.settled (hs.tokens ht) hlit hdist)).huffReset

/-- The fields of a dynamic header fit (R213). -/
theorem CU.emitting_dynamicHeader {c : CU} (ho : c.out.Settled) (hlit : c.lit.num ≤ 286) (hdist : c.dist.num ≤ 30)
    (hlen : ∀ l ∈ c.bl.len, l ≤ 7)
    (hbl : c.bl.Coded) {items : List RleItem} (hi : ∀ r ∈ items, r.Fits) {n : Nat} (hn : n ≤ 19) :
    c.Emitting (c.emitDynamicHeader items n) := by
  refine CU.emitting_writeFields ho (fieldsFit_append.mpr ⟨fieldsFit_append.mpr ⟨?_, ?_⟩, fieldsFit_flatMap fun r hr => ?_⟩)
  · simp only [fieldsFit_cons, fieldsFit_nil, and_true]
    omega
  · intro f hf
    obtain ⟨s, -, rfl⟩ := List.mem_map.mp hf
    exact ⟨Nat.le_add_right 3 13, Nat.lt_succ_of_le (getD_le_of_forall hlen s)⟩
  · exact fieldsFit_cons.mpr ⟨hbl.codeField _, fieldsFit_extraField (hi r hr).1 (hi r hr).2⟩

theorem CU.dynamicBlock_emitted {c : CU} (ht : c.Tokens) (ho : c.out.Settled) (hp : c.Planned) {items : List RleItem}
    (hi : ∀ r ∈ items, r.Fits) (last : Bool) : c.Emitted (c.dynamicBlock last items) := by
  have hw := CU.emitting_writeFields (c := c) ho (fields := [(4 + last.toNat, 3)]) (by cases last <;> simp)
  have hc := hw.trans (CU.emitting_withCodes hw.settled)
  have hh := hc.trans (CU.emitting_dynamicHeader hc.settled hp.lit.num hp.dist.num hp.bl.lens (hp.bl.coded (by decide)) hi
    (blcodes_le c.bl.len))
  exact (hh.trans (CU.emitting_compressBlock hh.settled (hh.tokens ht) (hp.lit.coded (le_refl _)) (hp.dist.coded (le_refl _)))).huffReset

/-- A block is flushed without an error (R210; 60_exceptions.md R366). -/
theorem CU.flushBlock_ends {c : CU} (ht : c.Tokens) (ho : c.out.Settled) (start : Int) (n : Nat) (last : Bool) :
    (c.flushBlock start n last).Ends (fun _ e => c.Emitted e) fun _ _ => False := by
  refine (CU.buildTrees_ends ht ho).bind fun items e ⟨he, hp, hi⟩ => ?_
  rcases e.emitBlock_cases start n last items with h | h | h <;> rw [h]
  · exact (CU.emitStored_ends he.settled _ last).mono (fun _ _ h => he.emitted h) fun _ _ => id
  · exact he.emitted (CU.fixedBlock_emitted (he.tokens ht) he.settled last)
  · exact he.emitted (CU.dynamicBlock_emitted (he.tokens ht) he.settled hp hi last)

end Sys2Proof.Machine

/-! PROOFS. What the match engine keeps (41_match_engine.md R160 to R171): its positions stay inside the window, its chains hold positions
already known, and a match that is held ends inside the lookahead and is near enough. -/

namespace Sys2Proof.Machine

/-! ## Positions, chains and the held match -/

/-- The window's positions and what stands in the window and its chains (10_state.md R30, R32, R36 (a) to (c)). -/
structure CU.Window (c : CU) : Prop where
  strstartLow : 1 ≤ c.strstart
  positionHigh : c.strstart + c.lookahead ≤ 65536
  blockStart : c.blockStart ≤ c.strstart
  head : c.head.allBelow 15 (c.strstart + c.lookahead)
  prev : c.prev.allBelow 15 (c.strstart + c.lookahead)
  window : ∀ i, c.win.get 16 i < 256

/-- A match held from one position to the next (10_state.md R32): it ends inside the lookahead and is near enough. -/
structure CU.Held (c : CU) : Prop where
  low : 2 ≤ c.matchLen
  high : c.matchLen ≤ 258
  startHigh : c.matchStart ≤ 65535
  inside : c.matchLen = 2 ∨ c.matchLen ≤ c.lookahead + 1
  near : c.matchLen = 2 ∨ (c.strstart : Int) - 1 - c.matchStart ≤ 32506
  lazily : (levelRow c.level).func ≠ .slow → c.matchLen = 2

theorem CU.Held.of_none {c : CU} (h : c.matchLen = 2) (hs : c.matchStart ≤ 65535) : c.Held :=
  ⟨h.ge, by omega, hs, .inl h, .inl h, fun _ => h⟩

theorem Tbl.allBelow_mono {d a b : Nat} {t : Tbl} (h : t.allBelow d a) (hab : a ≤ b) : t.allBelow d b :=
  fun i => (h i).imp_right fun hlt => lt_of_lt_of_le hlt hab

theorem Tbl.allBelow_set {d b : Nat} {t : Tbl} (h : t.allBelow d b) (i : Nat) {v : Nat} (hv : v = 0 ∨ v < b) : (t.set d i v).allBelow d b :=
  Tbl.forall_set (P := fun v => v = 0 ∨ v < b) h i hv

theorem Tbl.allBelow_rebase {d b k : Nat} {t : Tbl} (h : t.allBelow d (b + k)) : (t.rebase k).allBelow d b := by
  intro i
  rw [Tbl.get_rebase]
  have := h i
  split
  · omega
  · exact .inl rfl

/-- Bytes put into a window of bytes. -/
theorem Tbl.setList_bytes_lt {t : Tbl} (p : Nat) (bytes : List Byte) (h : ∀ i, t.get 16 i < 256) :
    ∀ i, (t.setList 16 p (bytes.map BitVec.toNat)).get 16 i < 256 := by
  refine Tbl.forall_setList (P := fun v => v < 256) h p fun v hv => ?_
  obtain ⟨b, -, rfl⟩ := List.mem_map.mp hv
  exact b.isLt

/-- Moving on within what the window holds, with chains of known positions. -/
theorem CU.Window.advance {c e : CU} (h : c.Window) (htotal : e.strstart + e.lookahead = c.strstart + c.lookahead)
    (hs : c.strstart ≤ e.strstart) (hb : e.blockStart = c.blockStart) (hw : e.win = c.win)
    (hhead : e.head.allBelow 15 (c.strstart + c.lookahead)) (hprev : e.prev.allBelow 15 (c.strstart + c.lookahead)) : e.Window := by
  refine ⟨h.strstartLow.trans hs, by rw [htotal]; exact h.positionHigh, ?_, by rwa [htotal], by rwa [htotal], by rw [hw]; exact h.window⟩
  have := h.blockStart
  omega

/-! ## Slide and fill (R161, R162) -/

theorem CU.Window.slide {c : CU} (h : c.Window) (hs : 32769 ≤ c.strstart) : c.slide.Window := by
  obtain ⟨hlow, hhigh, hblock, hhead, hprev, hwin⟩ := h
  have hk : c.strstart - 32768 + c.lookahead + 32768 = c.strstart + c.lookahead := by omega
  refine ⟨?_, ?_, ?_, ?_, ?_, fun i => ?_⟩
  · simp only [CU.slide_strstart, WSIZE]; omega
  · simp only [CU.slide, WSIZE]; omega
  · simp only [CU.slide_blockStart, CU.slide_strstart, WSIZE]; omega
  · exact Tbl.allBelow_rebase (k := 32768) (by simpa [CU.slide, hk] using hhead)
  · exact Tbl.allBelow_rebase (k := 32768) (by simpa [CU.slide, hk] using hprev)
  · obtain ⟨j, hj⟩ := Tbl.get_copyUpper_mem 15 c.win i
    exact hj ▸ hwin j

theorem CU.Held.slide {c : CU} (h : c.Held) (hs : 32769 ≤ c.strstart) : c.slide.Held := by
  obtain ⟨hlow, hhigh, hstart, hinside, hnear, hlazy⟩ := h
  refine ⟨hlow, hhigh, ?_, hinside, hnear.imp_right fun hn => ?_, hlazy⟩
  · simp only [CU.slide_matchStart, WSIZE]; omega
  · simp only [CU.slide_matchStart, CU.slide_strstart, WSIZE]; omega

theorem CU.Window.take {c : CU} (h : c.Window) (m : Memory) : (c.take m).Window := by
  obtain ⟨hlow, hhigh, hblock, hhead, hprev, hwin⟩ := h
  have hmore : c.fillCount ≤ 65536 - c.lookahead - c.strstart := min_le_left _ _
  refine ⟨hlow, ?_, hblock, Tbl.allBelow_mono hhead ?_, Tbl.allBelow_mono hprev ?_, ?_⟩
  · simp only [CU.take]; omega
  · simp only [CU.take]; omega
  · simp only [CU.take]; omega
  · exact Tbl.setList_bytes_lt _ _ hwin

theorem CU.Held.take {c : CU} (h : c.Held) (m : Memory) : (c.take m).Held :=
  ⟨h.low, h.high, h.startHigh, h.inside.imp_right fun hi => by simp only [CU.take]; omega, h.near, h.lazily⟩

/-! ## Insert (R164, R165, R168, R169) -/

/-- Only the chains, with positions below b, C_STRSTART and C_LOOKAHEAD have changed. -/
def CU.MovedTo (c : CU) (b s l : Nat) (e : CU) : Prop :=
  ∃ head prev, e = { c with head := head, prev := prev, strstart := s, lookahead := l } ∧ head.allBelow 15 b ∧ prev.allBelow 15 b

theorem CU.MovedTo.trans {c e f : CU} {b s l s' l' : Nat} (h : c.MovedTo b s l e) (h' : e.MovedTo b s' l' f) : c.MovedTo b s' l' f := by
  obtain ⟨head, prev, rfl, -, -⟩ := h
  obtain ⟨head', prev', rfl, hh, hp⟩ := h'
  exact ⟨head', prev', rfl, hh, hp⟩

/-- The chains with positions below b only. -/
def CU.ChainsBelow (c : CU) (b : Nat) : Prop := c.head.allBelow 15 b ∧ c.prev.allBelow 15 b

theorem CU.MovedTo.chains {c e : CU} {b s l : Nat} (h : c.MovedTo b s l e) : e.ChainsBelow b := by
  obtain ⟨head, prev, rfl, hh, hp⟩ := h
  exact ⟨hh, hp⟩

theorem CU.MovedTo.strstart {c e : CU} {b s l : Nat} (h : c.MovedTo b s l e) : e.strstart = s := by
  obtain ⟨head, prev, rfl, -, -⟩ := h
  rfl

theorem CU.MovedTo.lookahead {c e : CU} {b s l : Nat} (h : c.MovedTo b s l e) : e.lookahead = l := by
  obtain ⟨head, prev, rfl, -, -⟩ := h
  rfl

theorem CU.MovedTo.setStart {c e : CU} {b s l : Nat} (h : c.MovedTo b s l e) (s' : Nat) : c.MovedTo b s' l { e with strstart := s' } := by
  obtain ⟨head, prev, rfl, hh, hp⟩ := h
  exact ⟨head, prev, rfl, hh, hp⟩

theorem CU.Window.chains {c : CU} (h : c.Window) : c.ChainsBelow (c.strstart + c.lookahead) := ⟨h.head, h.prev⟩

theorem CU.ChainsBelow.stay {c : CU} {b : Nat} (h : c.ChainsBelow b) (s l : Nat) : c.MovedTo b s l { c with strstart := s, lookahead := l } :=
  ⟨c.head, c.prev, rfl, h.1, h.2⟩

theorem CU.ChainsBelow.insert {c : CU} {b : Nat} (h : c.ChainsBelow b) (hs : c.strstart < b) :
    c.MovedTo b c.strstart c.lookahead c.insert :=
  ⟨_, _, rfl, Tbl.allBelow_set h.1 _ (.inr hs), Tbl.allBelow_set h.2 _ (h.1 _)⟩

theorem CU.insertRun_moved {b : Nat} (n : Nat) {c : CU} (h : c.ChainsBelow b) (hs : c.strstart + n ≤ b) :
    c.MovedTo b (c.strstart + n) c.lookahead (CU.insertRun n c) := by
  induction n generalizing c with
  | zero => exact h.stay _ _
  | succ n ih =>
    have hi := h.insert (by omega)
    have hm := hi.trans (hi.chains.stay (c.strstart + 1) c.lookahead)
    have hr := ih hm.chains (by rw [hm.strstart]; omega)
    rw [hm.strstart, hm.lookahead, show c.strstart + 1 + n = c.strstart + (n + 1) by omega] at hr
    exact hm.trans hr

theorem CU.insertAhead_moved {b : Nat} (n : Nat) {c : CU} (h : c.ChainsBelow b) (hs : c.strstart + n < b) :
    c.MovedTo b (c.strstart + n) c.lookahead (CU.insertAhead n c) := by
  induction n generalizing c with
  | zero => exact h.stay _ _
  | succ n ih =>
    have hm := h.stay (c.strstart + 1) c.lookahead
    have hi := hm.trans (hm.chains.insert (by rw [hm.strstart]; omega))
    have hr := ih hi.chains (by rw [hi.strstart]; simp only; omega)
    rw [hi.strstart, hi.lookahead, show c.strstart + 1 + n = c.strstart + (n + 1) by omega] at hr
    exact hi.trans hr

theorem CU.slowSkip_moved {b : Nat} {c : CU} (h : c.ChainsBelow b) (hb : c.strstart + c.lookahead ≤ b) :
    c.MovedTo b (c.strstart + 1) (c.lookahead - 1) c.slowSkip := by
  have hm := h.stay (c.strstart + 1) (c.lookahead - 1)
  unfold CU.slowSkip
  extract_lets e
  split
  · next hl =>
    have h3 : 3 ≤ c.lookahead - 1 := hl
    exact hm.trans (hm.chains.insert (by rw [hm.strstart]; omega))
  · exact hm

theorem CU.slowSkips_moved {b : Nat} (n : Nat) {c : CU} (h : c.ChainsBelow b) (hb : c.strstart + c.lookahead ≤ b) (hn : n ≤ c.lookahead) :
    c.MovedTo b (c.strstart + n) (c.lookahead - n) (CU.slowSkips n c) := by
  induction n generalizing c with
  | zero => exact h.stay _ _
  | succ n ih =>
    have hm := CU.slowSkip_moved h hb
    have hr := ih hm.chains (by rw [hm.strstart, hm.lookahead]; omega) (by rw [hm.lookahead]; omega)
    rw [hm.strstart, hm.lookahead, show c.strstart + 1 + n = c.strstart + (n + 1) by omega,
      show c.lookahead - 1 - n = c.lookahead - (n + 1) by omega] at hr
    exact hm.trans hr

/-! ## The match search (R166) -/

theorem matchLength_le (win : Tbl) (a b cap : Nat) : matchLength win a b cap ≤ cap := by
  induction cap generalizing a b with
  | zero => exact le_refl _
  | succ cap ih =>
    simp only [matchLength]
    split
    · exact Nat.succ_le_succ (ih _ _)
    · exact Nat.zero_le _

/-- A candidate position that a search may take: near enough, and inside the window. -/
def CU.Candidate (c : CU) (p : Nat) : Prop := c.strstart ≤ p + 32506 ∧ p ≤ 65535

/-- What a search leaves: the held match as it was, or a longer one, of at most `cap` bytes, at a candidate. -/
def CU.Found (cap : Nat) (c e : CU) : Prop :=
  e = c ∨ ∃ p l : Nat, e = { c with matchStart := p, matchLen := l } ∧ c.matchLen < l ∧ l ≤ cap ∧ c.Candidate p

theorem CU.Found.trans {cap : Nat} {c e f : CU} (h : CU.Found cap c e) (h' : CU.Found cap e f) : CU.Found cap c f := by
  rcases h with rfl | ⟨p, l, rfl, hl, hc, hp⟩
  · exact h'
  · rcases h' with rfl | ⟨p', l', rfl, hl', hc', hp'⟩
    · exact .inr ⟨p, l, rfl, hl, hc, hp⟩
    · exact .inr ⟨p', l', rfl, hl.trans hl', hc', hp'⟩

theorem CU.searchChain_found {cap nice : Nat} (chain : Nat) {c : CU} (hprev : c.prev.allBelow 15 65536) {cur : Nat} (hcur : c.Candidate cur) :
    CU.Found cap c (CU.searchChain c.strstart cap (c.strstart - 32506) nice chain cur c) := by
  induction chain generalizing c cur with
  | zero => exact .inl rfl
  | succ chain ih =>
    simp only [CU.searchChain]
    have hle := matchLength_le c.win cur c.strstart cap
    generalize matchLength c.win cur c.strstart cap = l at *
    have hfound : CU.Found cap c (if c.matchLen < l then { c with matchStart := cur, matchLen := l } else c) := by
      split
      · exact .inr ⟨cur, l, rfl, ‹_›, hle, hcur⟩
      · exact .inl rfl
    generalize he : (if c.matchLen < l then { c with matchStart := cur, matchLen := l } else c : CU) = e at *
    have hstr : e.strstart = c.strstart := by rw [← he]; split <;> rfl
    have hprv : e.prev = c.prev := by rw [← he]; split <;> rfl
    split
    · exact hfound
    · split
      · exact hfound
      · rename_i hlim
        have hb := hprev (cur &&& WMASK)
        have hrec := ih (c := e) (by rwa [hprv]) (cur := c.prev.get 15 (cur &&& WMASK)) ⟨by omega, by omega⟩
        rw [hstr] at hrec
        exact hfound.trans hrec

/-- LongestMatch, from a held length of at least 2: no search, or a search and whether a match is held then. -/
theorem CU.longestMatch_cases {c : CU} (hlen : 2 ≤ c.matchLen) (cur : Nat) :
    c.longestMatch cur = (false, c) ∨ ∃ nice chain e,
      e = CU.searchChain c.strstart (min 258 c.lookahead) (c.strstart - 32506) nice chain cur c ∧
      c.longestMatch cur = (decide (3 ≤ e.matchLen), e) := by
  unfold CU.longestMatch
  extract_lets row s cap e
  have he : e = c := by
    show ({ c with matchLen := max c.matchLen 2 } : CU) = c
    rw [max_eq_left hlen]
  clear_value e
  subst he
  split
  · exact .inl rfl
  · exact .inr ⟨_, _, _, rfl, rfl⟩

/-- What LongestMatch leaves, and that nothing longer is held where it answers no. -/
theorem CU.longestMatch_spec {c : CU} (hprev : c.prev.allBelow 15 65536) (hlen : 2 ≤ c.matchLen) {cur : Nat} (hcur : c.Candidate cur) :
    CU.Found (min 258 c.lookahead) c (c.longestMatch cur).2 ∧ ((c.longestMatch cur).1 = true → 3 ≤ (c.longestMatch cur).2.matchLen) ∧
      ((c.longestMatch cur).1 = false → (c.longestMatch cur).2.matchLen = c.matchLen) := by
  rcases CU.longestMatch_cases hlen cur with h | ⟨nice, chain, e, he, h⟩ <;> rw [h]
  · exact ⟨.inl rfl, nofun, fun _ => rfl⟩
  · have hf : CU.Found (min 258 c.lookahead) c e := he ▸ CU.searchChain_found chain hprev hcur
    refine ⟨hf, fun h => of_decide_eq_true h, fun h => ?_⟩
    have hshort : ¬ 3 ≤ e.matchLen := of_decide_eq_false h
    rcases hf with rfl | ⟨p, l, rfl, hl, -, -⟩
    · rfl
    · exact absurd hl (by simp only at hshort; omega)

end Sys2Proof.Machine

/-! PROOFS. The three algorithms and their driver keep the CU's invariant, but for the phase (41_match_engine.md R167 to R170). -/

namespace Sys2Proof.Machine

/-- What the engine relies on and does not change: the end of the binding, the phase, and the requests (10_state.md R26, R27, R29, R36 (f)). -/
structure CU.Busy (c : CU) (top : Nat) : Prop where
  bindingLow : c.inPtr ≤ c.inEnd
  bindingHigh : c.inEnd ≤ top
  phase : c.phase = .busy
  fault : c.fault = none
  finish : c.finishReq = true → c.flushReq = true

/-- The CU's invariant inside the engine, where the token buffer may be full for a moment. -/
structure CU.Engine (c : CU) (top : Nat) : Prop where
  window : c.Window
  held : c.Held
  tokens : c.Tokens
  out : c.out.Settled
  busy : c.Busy top

theorem CU.Inv.engine {c : CU} {top : Nat} (h : c.Inv top) (hp : c.phase = .busy) : c.Engine top where
  window := { h with }
  held := { low := h.matchLow, high := h.matchHigh, startHigh := h.matchStartHigh, inside := h.heldInside, near := h.heldNear
            lazily := h.heldLazily }
  tokens := { h with count := h.tokens.le, range := h.tokenRange }
  out := ⟨h.nbits, h.bits⟩
  busy := { h with phase := hp, finish := fun hf => (h.finish hf).resolve_right (by simp [hp]) }

theorem CU.Engine.inv {c : CU} {top : Nat} (h : c.Engine top) (hn : c.tokN < 16384) : c.Inv top where
  positionLow := Nat.le_add_right_of_le h.window.strstartLow
  strstartLow := h.window.strstartLow
  positionHigh := h.window.positionHigh
  blockStart := h.window.blockStart
  head := h.window.head
  prev := h.window.prev
  tokens := hn
  nbits := h.out.few
  finish := fun hf => .inl (h.busy.finish hf)
  fresh := by simp [h.busy.phase]
  notClosed := by simp [h.busy.phase]
  fault := h.busy.fault
  bindingLow := h.busy.bindingLow
  bindingHigh := h.busy.bindingHigh
  bits := h.out.bits
  matchLow := h.held.low
  matchHigh := h.held.high
  matchStartHigh := h.held.startHigh
  litSize := h.tokens.litSize
  distSize := h.tokens.distSize
  blSize := h.tokens.blSize
  window := h.window.window
  tokenRange := h.tokens.range
  atStart := by simp [h.busy.phase]
  heldLazily := h.held.lazily
  heldInside := h.held.inside
  heldNear := h.held.near

/-! ## Slide and fill (R161, R162) -/

theorem CU.Engine.slide {c : CU} {top : Nat} (h : c.Engine top) (hs : 32769 ≤ c.strstart) : c.slide.Engine top :=
  ⟨h.window.slide hs, h.held.slide hs, { h.tokens with }, h.out, { h.busy with }⟩

theorem CU.Engine.slideIf {c : CU} {top : Nat} (h : c.Engine top) {p : Prop} [Decidable p] (hp : p → 32769 ≤ c.strstart) :
    (if p then c.slide else c).Engine top := by
  split
  · exact h.slide (hp ‹_›)
  · exact h

theorem CU.Engine.take {c : CU} {top : Nat} (h : c.Engine top) (m : Memory) : (c.take m).Engine top := by
  refine ⟨h.window.take m, h.held.take m, { h.tokens with }, h.out, { h.busy with bindingLow := ?_ }⟩
  have hmore : c.fillCount ≤ c.inEnd - c.inPtr := min_le_right _ _
  have hlow := h.busy.bindingLow
  simp only [CU.take]
  omega

theorem CU.Engine.fill {c : CU} {top : Nat} (h : c.Engine top) (m : Memory) : (c.fill m).Engine top := by
  have hs : c.slideIfFull.Engine top := h.slideIf fun hp => by simp only [WSIZE, MAX_DIST] at hp; omega
  unfold CU.fill
  extract_lets e
  split
  · exact hs.take m
  · exact hs

theorem CU.fill_keeps (c : CU) (m : Memory) : (c.fill m).tokN = c.tokN := by
  have hs : c.slideIfFull.tokN = c.tokN := by unfold CU.slideIfFull; split <;> rfl
  unfold CU.fill
  extract_lets e
  split <;> exact hs

/-! ## Search (R166, R168, R169) -/

/-- What the search at a position changes: the chains, and the held match, which is none, the one before, or one found inside the
lookahead and near enough. -/
def CU.Searched (c e : CU) : Prop :=
  ∃ head prev start len, e = { c with head := head, prev := prev, matchStart := start, matchLen := len } ∧
    head.allBelow 15 (c.strstart + c.lookahead) ∧ prev.allBelow 15 (c.strstart + c.lookahead) ∧ start ≤ 65535 ∧
    (len = 2 ∨ len = c.matchLen ∨ (3 ≤ len ∧ len ≤ min 258 c.lookahead ∧ (c.strstart : Int) - start ≤ 32506))

theorem CU.searched_refl {c : CU} (hw : c.Window) (hh : c.Held) : c.Searched c :=
  ⟨c.head, c.prev, c.matchStart, c.matchLen, rfl, hw.head, hw.prev, hh.startHigh, .inr (.inl rfl)⟩

theorem CU.searched_insert {c : CU} (hw : c.Window) (hh : c.Held) (hl : 3 ≤ c.lookahead) : c.Searched c.insert := by
  obtain ⟨head, prev, he, hhead, hprev⟩ := hw.chains.insert (by omega)
  exact ⟨head, prev, c.matchStart, c.matchLen, he, hhead, hprev, hh.startHigh, .inr (.inl rfl)⟩

/-- A search from the chain's head, after Insert. -/
theorem CU.searched_longestMatch {c : CU} (hw : c.Window) (hh : c.Held) (hl : 3 ≤ c.lookahead) (hne : c.headHere ≠ 0)
    (hnear : c.strstart - c.headHere ≤ 32506) :
    c.Searched (c.insert.longestMatch c.headHere).2 ∧
      ((c.insert.longestMatch c.headHere).1 = true → 3 ≤ (c.insert.longestMatch c.headHere).2.matchLen) ∧
      ((c.insert.longestMatch c.headHere).1 = false → (c.insert.longestMatch c.headHere).2.matchLen = c.matchLen) := by
  have hhigh := hw.positionHigh
  have hlow := hh.low
  have hcur : c.headHere < c.strstart + c.lookahead := (hw.head _).resolve_left hne
  obtain ⟨head, prev, he, hhead, hprev⟩ := hw.chains.insert (by omega)
  rw [he]
  obtain ⟨hf, hyes, hno⟩ := CU.longestMatch_spec (c := { c with head := head, prev := prev, strstart := c.strstart, lookahead := c.lookahead })
    (Tbl.allBelow_mono hprev hhigh) hlow (cur := c.headHere) ⟨show c.strstart ≤ _ by omega, by omega⟩
  refine ⟨?_, hyes, hno⟩
  rcases hf with h | ⟨p, l, h, hlen, hcap, hstr, hp⟩ <;> rw [h]
  · exact ⟨head, prev, c.matchStart, c.matchLen, rfl, hhead, hprev, hh.startHigh, .inr (.inl rfl)⟩
  · simp only at hlen hcap hstr
    exact ⟨head, prev, p, l, rfl, hhead, hprev, by omega, .inr (.inr ⟨by omega, hcap, by omega⟩)⟩

/-- The greedy algorithm's search (R168). -/
theorem CU.fastSearch_spec {c : CU} (hw : c.Window) (hh : c.Held) :
    c.Searched c.fastSearch.2 ∧ (c.fastSearch.1 = true → 3 ≤ c.fastSearch.2.matchLen) ∧
      (c.fastSearch.1 = false → c.fastSearch.2.matchLen = c.matchLen) := by
  unfold CU.fastSearch
  split
  · next hl =>
    extract_lets hh' e
    split
    · next hc => exact CU.searched_longestMatch hw hh hl hc.1 hc.2.2
    · exact ⟨CU.searched_insert hw hh hl, nofun, fun _ => rfl⟩
  · exact ⟨CU.searched_refl hw hh, nofun, fun _ => rfl⟩

theorem CU.Searched.slowFilter {c e : CU} (h : c.Searched e) : c.Searched e.slowFilter := by
  unfold CU.slowFilter
  split
  · obtain ⟨head, prev, start, len, rfl, hhead, hprev, hstart, -⟩ := h
    exact ⟨head, prev, start, 2, rfl, hhead, hprev, hstart, .inl rfl⟩
  · exact h

/-- The lazy algorithm's search (R169). -/
theorem CU.slowSearch_searched {c : CU} (hw : c.Window) (hh : c.Held) : c.Searched c.slowSearch := by
  unfold CU.slowSearch
  split
  · next hl =>
    extract_lets prevLen hh' e r
    split
    · next hc =>
      have hs := (CU.searched_longestMatch hw hh hl hc.2.1 hc.2.2.2).1
      split
      · exact hs.slowFilter
      · exact hs
    · exact CU.searched_insert hw hh hl
  · exact CU.searched_refl hw hh

/-! ## The greedy algorithm (R168) -/

/-- A match emitted moves on past its bytes. -/
theorem CU.fastMatch_moved {e : CU} {b : Nat} (hc : e.ChainsBelow b) (hb : e.strstart + e.lookahead ≤ b) (hlow : 1 ≤ e.matchLen)
    (hlen : e.matchLen ≤ e.lookahead) :
    ∃ f, (e.tallyDist (e.strstart - e.matchStart).toNat e.matchLen).MovedTo b (e.strstart + e.matchLen) (e.lookahead - e.matchLen) f ∧
      e.fastMatch = { f with matchLen := 2 } := by
  unfold CU.fastMatch
  extract_lets t g a f
  have hm : t.MovedTo b e.strstart (e.lookahead - e.matchLen) g := ⟨e.head, e.prev, rfl, hc.1, hc.2⟩
  refine ⟨f, ?_, rfl⟩
  by_cases hi : g.matchLen ≤ (levelRow g.level).lazyLen ∧ MIN_MATCH ≤ g.lookahead
  · have hr : 3 ≤ e.lookahead - e.matchLen := hi.2
    have hf : f = { a with strstart := a.strstart + 1 } := if_pos hi
    have ha : g.MovedTo b (g.strstart + (e.matchLen - 1)) g.lookahead a :=
      CU.insertAhead_moved (e.matchLen - 1) hm.chains (by rw [hm.strstart]; omega)
    have hs : a.strstart + 1 = e.strstart + e.matchLen := by rw [ha.strstart, hm.strstart]; omega
    rw [hf, hs]
    exact (hm.trans ha).setStart _
  · have hf : f = { g with strstart := g.strstart + g.matchLen } := if_neg hi
    rw [hf]
    exact hm.setStart _

theorem CU.Engine.fastMatch {c e : CU} {top : Nat} (h : c.Engine top) (hn : c.tokN < 16384) (hs : c.Searched e) (hm : c.matchLen = 2)
    (h3 : 3 ≤ e.matchLen) : e.fastMatch.Engine top ∧ e.fastMatch.matchLen = 2 := by
  obtain ⟨head, prev, start, len, rfl, hhead, hprev, hstart, hlen⟩ := hs
  obtain ⟨-, hcap, hnear⟩ := (hlen.resolve_left (by simp only at h3; omega)).resolve_left (by simp only at h3; omega)
  obtain ⟨f, ⟨head', prev', rfl, hhead', hprev'⟩, he⟩ :=
    CU.fastMatch_moved (e := { c with head := head, prev := prev, matchStart := start, matchLen := len }) ⟨hhead, hprev⟩ (le_refl _)
      (by simp only; omega) (by simp only; omega)
  rw [he]
  refine ⟨⟨?_, .of_none rfl hstart, { h.tokens.tallyDist hn (d := (c.strstart - start).toNat) (l := len) (by omega) (by omega) with }, h.out,
    { h.busy with }⟩, rfl⟩
  exact h.window.advance (by simp only; omega) (by simp only; omega) rfl rfl hhead' hprev'

theorem CU.Engine.fastLiteral {c e : CU} {top : Nat} (h : c.Engine top) (hn : c.tokN < 16384) (hs : c.Searched e) (hm : e.matchLen = 2)
    (hl : c.lookahead ≠ 0) : e.fastLiteral.Engine top ∧ e.fastLiteral.matchLen = 2 := by
  obtain ⟨head, prev, start, len, rfl, hhead, hprev, hstart, -⟩ := hs
  refine ⟨⟨?_, .of_none hm hstart, { h.tokens.tallyLit hn (h.window.window c.strstart) with }, h.out, { h.busy with }⟩, hm⟩
  exact h.window.advance (show c.strstart + 1 + (c.lookahead - 1) = _ by omega) (Nat.le_succ _) rfl rfl hhead hprev

theorem CU.Engine.fastToken {c : CU} {top : Nat} (h : c.Engine top) (hn : c.tokN < 16384) (hm : c.matchLen = 2) (hl : c.lookahead ≠ 0) :
    c.fastToken.Engine top ∧ c.fastToken.matchLen = 2 := by
  unfold CU.fastToken
  extract_lets d r
  have hd : d.Engine top := h.slideIf fun hp => by simp only [CWIN, MIN_LOOKAHEAD] at hp; omega
  have hkeep : d.tokN = c.tokN ∧ d.matchLen = c.matchLen ∧ d.lookahead = c.lookahead := by
    simp only [d]
    split <;> exact ⟨rfl, rfl, rfl⟩
  obtain ⟨hntok, hlen, hlook⟩ := hkeep
  obtain ⟨hs, hyes, hno⟩ := CU.fastSearch_spec hd.window hd.held
  split
  · next hr => exact hd.fastMatch (hntok ▸ hn) hs (hlen.trans hm) (hyes hr)
  · next hr => exact hd.fastLiteral (hntok ▸ hn) hs ((hno (by simpa using hr)).trans (hlen.trans hm)) (hlook ▸ hl)

/-! ## The end of a block (R167 to R169) -/

theorem CU.Engine.emitted {c e : CU} {top : Nat} (h : c.Engine top) (he : c.Emitted e) : e.Engine top ∧ e.tokN < 16384 := by
  obtain ⟨htok, hn⟩ := he.tokens h.tokens
  obtain ⟨out, lit, dist, bl, rfl, hout, -⟩ := he
  exact ⟨⟨{ h.window with }, { h.held with }, htok, hout, { h.busy with }⟩, by rw [hn]; decide⟩

theorem CU.Engine.setBlock {c : CU} {top : Nat} (h : c.Engine top) {b : Int} (hb : b ≤ c.strstart) :
    ({ c with blockStart := b } : CU).Engine top :=
  ⟨{ h.window with blockStart := hb }, { h.held with }, { h.tokens with }, h.out, { h.busy with }⟩

/-- What a pass of the engine leaves: its invariant, with room in the token buffer. -/
def CU.Passed (top : Nat) (c : CU) : Prop := c.Engine top ∧ c.tokN < 16384

theorem CU.Engine.flushAll {c : CU} {top : Nat} (h : c.Engine top) (n : Nat) (last progress : Bool) :
    ((c.flushBlock c.blockStart n last).bind fun _ c => .done progress { c with blockStart := c.strstart }).Ends
      (fun _ => CU.Passed top) fun _ _ => False := by
  refine (CU.flushBlock_ends h.tokens h.out c.blockStart n last).bind fun _ e he => ?_
  obtain ⟨hE, hn⟩ := h.emitted he
  exact ⟨hE.setBlock (le_refl _), hn⟩

theorem CU.tokN_lt_of_not_full {c : CU} (h : ¬ c.tokensFull = true) : c.tokN < 16384 :=
  Nat.lt_of_not_le fun hle => h (decide_eq_true hle)

theorem CU.fastLoop_ends {top : Nat} (flush finish : Bool) (fuel : Nat) {c : CU} (h : c.Engine top) (hn : c.tokN < 16384)
    (hm : c.matchLen = 2) : (CU.fastLoop flush finish fuel c).Ends (fun _ => CU.Passed top) fun _ _ => False := by
  induction fuel generalizing c with
  | zero => trivial
  | succ fuel ih =>
    unfold CU.fastLoop
    split
    · exact ⟨h, hn⟩
    · split
      · exact h.flushAll _ _ _
      · next hl =>
        obtain ⟨ht, htm⟩ := h.fastToken hn hm hl
        simp only
        generalize c.fastToken = e at ht htm
        split
        · exact ht.flushAll _ _ _
        · next hfull => exact ih ht (CU.tokN_lt_of_not_full hfull) htm

/-! ## The lazy algorithm (R169) -/

theorem CU.Engine.slowMatch {c e : CU} {top : Nat} (h : c.Engine top) (hn : c.tokN < 16384) (hs : c.Searched e) (h3 : 3 ≤ c.matchLen) :
    (e.slowMatch c.matchStart c.matchLen).Engine top ∧ (e.slowMatch c.matchStart c.matchLen).level = c.level := by
  obtain ⟨head, prev, start, len, rfl, hhead, hprev, hstart, -⟩ := hs
  have hhigh := h.held.high
  have hinside := h.held.inside.resolve_left (by omega)
  have hnear := h.held.near.resolve_left (by omega)
  unfold CU.slowMatch
  extract_lets t f
  have ht : t.Tokens := CU.Tokens.tallyDist (c := { c with head := head, prev := prev, matchStart := start, matchLen := len })
    { h.tokens with } hn (by simp only; omega) hhigh
  have hf : t.MovedTo (c.strstart + c.lookahead) (c.strstart + max 1 (c.matchLen - 2)) (c.lookahead - max 1 (c.matchLen - 2)) f :=
    CU.slowSkips_moved _ ⟨hhead, hprev⟩ (le_refl _) (show max 1 (c.matchLen - 2) ≤ c.lookahead by omega)
  clear_value f
  obtain ⟨head', prev', rfl, hhead', hprev'⟩ := hf
  refine ⟨⟨?_, .of_none rfl hstart, { ht with }, h.out, { h.busy with }⟩, rfl⟩
  exact h.window.advance (by simp only; omega) (by simp only; omega) rfl rfl hhead' hprev'

theorem CU.owedLiteral_cases (c : CU) : c.owedLiteral = c ∨ c.owedLiteral = c.tallyLit (c.winAt (c.strstart - 1)) := by
  unfold CU.owedLiteral
  split
  · exact .inr rfl
  · exact .inl rfl

theorem CU.Engine.owedLiteral {c : CU} {top : Nat} (h : c.Engine top) (hn : c.tokN < 16384) :
    c.owedLiteral.Engine top ∧ c.owedLiteral.level = c.level := by
  rcases c.owedLiteral_cases with he | he <;> rw [he]
  · exact ⟨h, rfl⟩
  · exact ⟨⟨{ h.window with }, { h.held with }, h.tokens.tallyLit hn (h.window.window _), h.out, { h.busy with }⟩, rfl⟩

/-- A position passed over, its literal still owed; the match found at it, if any, is held. -/
theorem CU.Engine.slowDefer {c e : CU} {top : Nat} (h : c.Engine top) (hn : c.tokN < 16384) (hs : c.Searched e)
    (hf : (levelRow c.level).func = .slow) (hl : c.lookahead ≠ 0) (hkeep : ¬ (3 ≤ c.matchLen ∧ e.matchLen ≤ c.matchLen)) :
    ({ e.owedLiteral with
        prevAvail := true, strstart := e.owedLiteral.strstart + 1, lookahead := e.owedLiteral.lookahead - 1 } : CU).Engine top ∧
      e.owedLiteral.level = c.level := by
  obtain ⟨head, prev, start, len, rfl, hhead, hprev, hstart, hlen⟩ := hs
  have hlow := h.held.low
  simp only at hkeep
  have hheld : len = 2 ∨ (3 ≤ len ∧ len ≤ min 258 c.lookahead ∧ (c.strstart : Int) - start ≤ 32506) := by
    rcases hlen with hlen | hlen | hlen
    · exact .inl hlen
    · exact .inl (by omega)
    · exact .inr hlen
  have hadv (e' : CU) (hstr : e'.strstart = c.strstart + 1) (hlook : e'.lookahead = c.lookahead - 1) (hb : e'.blockStart = c.blockStart)
      (hw : e'.win = c.win) (hhd : e'.head = head) (hpv : e'.prev = prev) : e'.Window :=
    h.window.advance (by omega) (by omega) hb hw (hhd ▸ hhead) (hpv ▸ hprev)
  have hheld' (e' : CU) (hstr : e'.strstart = c.strstart + 1) (hlook : e'.lookahead = c.lookahead - 1) (hms : e'.matchStart = start)
      (hml : e'.matchLen = len) (hlv : e'.level = c.level) : e'.Held :=
    ⟨by omega, by omega, by omega, by omega, by omega, fun hne => absurd (hlv ▸ hf) hne⟩
  rcases CU.owedLiteral_cases { c with head := head, prev := prev, matchStart := start, matchLen := len } with he | he <;> rw [he]
  · exact ⟨⟨hadv _ rfl rfl rfl rfl rfl rfl, hheld' _ rfl rfl rfl rfl rfl, { h.tokens with }, h.out, { h.busy with }⟩, rfl⟩
  · exact ⟨⟨hadv _ rfl rfl rfl rfl rfl rfl, hheld' _ rfl rfl rfl rfl rfl,
      { h.tokens.tallyLit hn (h.window.window (c.strstart - 1)) with }, h.out, { h.busy with }⟩, rfl⟩

theorem CU.Engine.slowToken {c : CU} {top : Nat} (h : c.Engine top) (hn : c.tokN < 16384) (hf : (levelRow c.level).func = .slow)
    (hl : c.lookahead ≠ 0) : c.slowToken.Engine top ∧ c.slowToken.level = c.level := by
  unfold CU.slowToken
  extract_lets d prevMatch prevLen e o
  have hd : d.Engine top := h.slideIf fun hp => by simp only [CWIN, MIN_LOOKAHEAD] at hp; omega
  have hkeep : d.tokN = c.tokN ∧ d.level = c.level ∧ d.lookahead = c.lookahead := by
    simp only [d]
    split <;> exact ⟨rfl, rfl, rfl⟩
  obtain ⟨hntok, hlevel, hlook⟩ := hkeep
  have hs := CU.slowSearch_searched hd.window hd.held
  split
  · next hm =>
    obtain ⟨hE, hlv⟩ := hd.slowMatch (hntok ▸ hn) hs hm.1
    exact ⟨hE, hlv.trans hlevel⟩
  · next hm =>
    obtain ⟨hE, hlv⟩ := hd.slowDefer (hntok ▸ hn) hs (hlevel ▸ hf) (hlook ▸ hl) hm
    exact ⟨hE, hlv.trans hlevel⟩

/-- A block flushed up to a position that is not past C_STRSTART. -/
theorem CU.Engine.flushPart {c : CU} {top : Nat} (h : c.Engine top) {n : Nat} (hn : n ≤ c.blockLength) (last progress : Bool) :
    ((c.flushBlock c.blockStart n last).bind fun _ c => .done progress { c with blockStart := c.blockStart + n }).Ends
      (fun _ => CU.Passed top) fun _ _ => False := by
  refine (CU.flushBlock_ends h.tokens h.out c.blockStart n last).bind fun _ e he => ?_
  obtain ⟨hE, hroom⟩ := h.emitted he
  obtain ⟨out, lit, dist, bl, rfl, -⟩ := he
  have hb := h.window.blockStart
  refine ⟨hE.setBlock ?_, hroom⟩
  simp only [CU.blockLength] at hn ⊢
  omega

theorem CU.slowLoop_ends {top : Nat} (flush finish : Bool) (fuel : Nat) {c : CU} (h : c.Engine top) (hn : c.tokN < 16384)
    (hf : (levelRow c.level).func = .slow) : (CU.slowLoop flush finish fuel c).Ends (fun _ => CU.Passed top) fun _ _ => False := by
  induction fuel generalizing c with
  | zero => trivial
  | succ fuel ih =>
    unfold CU.slowLoop
    split
    · exact ⟨h, hn⟩
    · split
      · have ho := (h.owedLiteral hn).1
        have hp : ({ c.owedLiteral with prevAvail := false } : CU).Engine top :=
          ⟨{ ho.window with }, { ho.held with }, { ho.tokens with }, ho.out, { ho.busy with }⟩
        exact hp.flushAll _ _ _
      · next hl =>
        obtain ⟨ht, htl⟩ := h.slowToken hn hf hl
        simp only
        generalize c.slowToken = e at ht htl
        split
        · refine ht.flushPart ?_ _ _
          split <;> omega
        · next hfull => exact ih ht (CU.tokN_lt_of_not_full hfull) (htl ▸ hf)

/-! ## Level 0, and the driver (R167, R170) -/

theorem CU.Engine.deflateStored {c : CU} {top : Nat} (h : c.Engine top) (hn : c.tokN < 16384) (hm : c.matchLen = 2) (flush finish : Bool) :
    (c.deflateStored flush finish).Ends (fun _ => CU.Passed top) fun _ _ => False := by
  unfold CU.deflateStored
  split
  · exact ⟨h, hn⟩
  · extract_lets e n last n'
    have he : e.Engine top :=
      ⟨h.window.advance (Nat.add_zero _) (Nat.le_add_right _ _) rfl rfl h.window.head h.window.prev, .of_none hm h.held.startHigh,
        { h.tokens with }, h.out, { h.busy with }⟩
    split
    · refine (CU.emitStored_ends he.out _ last).bind fun _ f hf => ?_
      obtain ⟨hE, hroom⟩ := he.emitted hf
      obtain ⟨out, lit, dist, bl, rfl, -⟩ := hf
      have hb := he.window.blockStart
      have hle : n' ≤ e.blockLength := min_le_left _ _
      refine ⟨hE.setBlock ?_, hroom⟩
      simp only [CU.blockLength] at hle ⊢
      omega
    · exact ⟨he, hn⟩

theorem CU.Engine.deflateFunc {c : CU} {top : Nat} (h : c.Engine top) (hn : c.tokN < 16384) (flush finish : Bool) :
    (c.deflateFunc flush finish).Ends (fun _ => CU.Passed top) fun _ _ => False := by
  unfold CU.deflateFunc
  split
  · next hf => exact h.deflateStored hn (h.held.lazily (by simp [hf])) flush finish
  · next hf =>
    unfold CU.deflateFast
    split
    · exact ⟨h, hn⟩
    · exact CU.fastLoop_ends flush finish _ h hn (h.held.lazily (by simp [hf]))
  · next hf =>
    unfold CU.deflateSlow
    split
    · exact ⟨h, hn⟩
    · exact CU.slowLoop_ends flush finish _ h hn hf

theorem CU.engineLoop_ends {top : Nat} (m : Memory) (flush finish : Bool) (fuel : Nat) {c : CU} (h : c.Engine top) (hn : c.tokN < 16384) :
    (CU.engineLoop m flush finish fuel c).Ends (fun _ => CU.Passed top) fun _ _ => False := by
  induction fuel generalizing c with
  | zero => trivial
  | succ fuel ih =>
    refine ((h.fill m).deflateFunc (by rwa [CU.fill_keeps]) _ finish).bind fun progress e he => ?_
    split
    · exact ih he.1 he.2
    · exact he

theorem CU.Engine.engineDeflate {c : CU} {top : Nat} (h : c.Engine top) (hn : c.tokN < 16384) (m : Memory) (flush finish : Bool) :
    (c.engineDeflate m flush finish).Ends (fun _ => CU.Passed top) fun _ _ => False :=
  CU.engineLoop_ends m flush finish _ h hn

end Sys2Proof.Machine

/-! PROOFS. Every step keeps the CU's invariant (10_state.md R36; 43_compressor.md R240 to R251). -/

namespace Sys2Proof.Machine

/-! ## The stream's frame and the loop of C.DEFLATE (R243 to R247) -/

/-- Past the start of its stream, a CU keeps its invariant whatever settled output it holds, and with a flush request that a finish request
calls for. -/
theorem CU.Inv.started {c : CU} {top : Nat} (h : c.Inv top) {out : BitOut} (ho : out.Settled) {p : CPhase} (hp : p = .busy ∨ p = .finished)
    {f : Bool} (hf : c.finishReq = true → f = true ∨ p = .finished) (a : Word) (n : DWord) :
    ({ c with out := out, phase := p, flushReq := f, adler := a, totalOut := n } : CU).Inv top :=
  { h with
    nbits := ho.few, bits := ho.bits, finish := hf
    fresh := by rcases hp with rfl | rfl <;> simp
    notClosed := by rcases hp with rfl | rfl <;> simp
    atStart := by rcases hp with rfl | rfl <;> simp }

theorem CU.Inv.settled {c : CU} {top : Nat} (h : c.Inv top) : c.out.Settled := ⟨h.nbits, h.bits⟩

/-- The invariant of a CU inside C.DEFLATE, once its header is out. -/
def CU.Streaming (top : Nat) (c : CU) : Prop := c.Inv top ∧ (c.phase = .busy ∨ c.phase = .finished)

theorem BitOut.writeByte_aligned {o : BitOut} (h : o.nbits = 0) (b : Nat) : o.writeByte b = .done () (o.push [BitVec.ofNat 8 b]) :=
  BitOut.writeBlock_aligned h _

/-- The header is written without an error, and begins the stream (R244). -/
theorem CU.Inv.startStream {c : CU} {top : Nat} (h : c.Inv top) :
    c.startStream.Ends (fun _ => CU.Streaming top) fun _ _ => False := by
  unfold CU.startStream
  split
  · next hp =>
    have hn := (h.fresh hp).2.1
    have hf : c.finishReq = true → c.flushReq = true ∨ CPhase.busy = .finished := fun hq =>
      .inl ((h.finish hq).resolve_right (by rcases hp with hp | hp <;> simp [hp]))
    have hset := (h.settled.push [BitVec.ofNat 8 cmf]).push [BitVec.ofNat 8 (flg c.level c.dictSet)]
    simp only [CU.emitZlibHeader, BitOut.writeByte_aligned, BitOut.push_nbits, hn, Run.bind_done, CU.withOut, Run.within_done]
    split
    · simp only [BitOut.writeAdler_spec, BitOut.push_nbits, hn, Run.bind_done, Run.within_done, Run.ends_done]
      exact ⟨h.started (hset.push _) (.inl rfl) hf 1 c.totalOut, .inl rfl⟩
    · exact ⟨h.started hset (.inl rfl) hf c.adler c.totalOut, .inl rfl⟩
  · next hp =>
    refine ⟨h, ?_⟩
    have hc := h.notClosed
    cases hph : c.phase <;> simp_all

theorem BitOut.Settled.withFifo {o : BitOut} (h : o.Settled) (fifo : List Byte) : ({ o with fifo := fifo } : BitOut).Settled :=
  ⟨h.few, h.bits⟩

theorem CU.Streaming.flush {top : Nat} {x : Xfer CU} (h : x.unit.Streaming top) : x.flush.unit.Streaming top := by
  obtain ⟨hinv, hp⟩ := h
  obtain ⟨k, -, e⟩ := x.flush_spec
  obtain ⟨-, -, hset⟩ := BitOut.settle_spec hinv.settled
  rw [e]
  exact ⟨hinv.started (hset.withFifo _) hp hinv.finish x.unit.adler _, hp⟩

/-- The filler fits its widths (R246). -/
theorem CU.emitFlushFiller_settled {c : CU} (h : c.out.Settled) :
    ∃ out, c.emitFlushFiller = { c with out := out, flushReq := false } ∧ out.Settled := by
  unfold CU.emitFlushFiller
  extract_lets need e
  refine ⟨e.out, ?_, ?_⟩ <;> simp only [e] <;> split
  · rfl
  · rfl
  · exact h
  · refine h.writeFields fun f hf => ?_
    rw [List.eq_of_mem_replicate hf]
    decide

/-- The trailer is written without an error (R247). -/
theorem CU.emitTrailer_settled {c : CU} (h : c.out.Settled) :
    ∃ out, c.emitTrailer = .done () { c with out := out, phase := .finished } ∧ out.Settled := by
  obtain ⟨-, hset, hn, -⟩ := BitOut.alignToByte_spec h
  simp only [CU.emitTrailer]
  split
  · exact ⟨_, rfl, hset⟩
  · rw [BitOut.writeAdler_spec hn]
    exact ⟨_, rfl, hset.push _⟩

theorem CU.Streaming.afterNoProgress {top : Nat} {c : CU} (h : c.Streaming top) :
    c.afterNoProgress.Ends (fun _ => CU.Streaming top) fun _ _ => False := by
  obtain ⟨hinv, hp⟩ := h
  unfold CU.afterNoProgress
  split
  · exact ⟨hinv, hp⟩
  · split
    · next hq =>
      obtain ⟨out, he, hset⟩ := CU.emitFlushFiller_settled hinv.settled
      rw [he]
      exact ⟨hinv.started hset hp (fun h => by simp [h] at hq) c.adler c.totalOut, hp⟩
    · obtain ⟨out, he, hset⟩ := CU.emitTrailer_settled hinv.settled
      rw [he]
      exact ⟨hinv.started hset (.inr rfl) (fun _ => .inr rfl) c.adler c.totalOut, .inr rfl⟩

theorem CU.Streaming.engineDeflate {top : Nat} {c : CU} (h : c.Streaming top) (hp : c.phase ≠ .finished) (m : Memory) (flush finish : Bool) :
    (c.engineDeflate m flush finish).Ends (fun _ => CU.Streaming top) fun _ _ => False :=
  ((h.1.engine (h.2.resolve_right hp)).engineDeflate h.1.tokens m flush finish).mono
    (fun _ _ he => ⟨he.1.inv he.2, .inl he.1.busy.phase⟩) fun _ _ => id

theorem deflateLoop_streaming {top : Nat} (fuel : Nat) {x : Xfer CU} (h : x.unit.Streaming top) :
    (deflateLoop fuel x).Ends (fun _ y => y.unit.Streaming top) fun _ _ => False := by
  induction fuel generalizing x with
  | zero => trivial
  | succ fuel ih =>
    have hx := h.flush
    simp only [deflateLoop]
    split
    · exact hx
    · next hgo =>
      refine Run.Ends.bind (P := fun _ y => y.unit.Streaming top)
        (Run.Ends.within (hx.engineDeflate (fun hp => hgo (.inr hp)) _ _ _)) fun progress y hy => ?_
      split
      · exact ih hy
      · refine Run.Ends.bind (P := fun _ z => z.unit.Streaming top) (Run.Ends.within hy.afterNoProgress) fun again z hz => ?_
        split
        · exact ih hz
        · exact hz

theorem deflateRun_streaming {top : Nat} {x : Xfer CU} (h : x.unit.Inv top) :
    (deflateRun x).Ends (fun _ y => y.unit.Streaming top) fun _ _ => False :=
  Run.Ends.bind (P := fun _ y => y.unit.Streaming top) (Run.Ends.within h.startStream) fun _ _ hy => deflateLoop_streaming _ hy

/-! ## The other commands -/

theorem CU.Inv.reset {c : CU} {top : Nat} (h : c.Inv top) (level : Fin 10) (strategy : Strategy) (nohdr : Bool) :
    ({ c with level := level, strategy := strategy, nohdr := nohdr } : CU).reset.Inv top where
  positionLow := Nat.le_refl 1
  strstartLow := Nat.le_refl 1
  positionHigh := (by decide : 1 + 0 ≤ 65536)
  blockStart := Int.le_refl 1
  head := fun _ => .inl rfl
  prev := fun _ => .inl rfl
  tokens := (by decide : 0 < 16384)
  nbits := Nat.zero_le _
  finish := nofun
  fresh := fun _ => ⟨rfl, rfl, rfl⟩
  notClosed := by cases nohdr <;> simp [CU.reset, CU.engineReset, CU.huffReset]
  fault := rfl
  bindingLow := Nat.le_refl 0
  bindingHigh := Nat.zero_le _
  bits := (by decide : 0 < 2 ^ 0)
  matchLow := Nat.le_refl 2
  matchHigh := (by decide : 2 ≤ 258)
  matchStartHigh := (by decide : (0 : Int) ≤ 65535)
  litSize := (HuffTree.clear_size _).trans h.litSize
  distSize := (HuffTree.clear_size _).trans h.distSize
  blSize := (HuffTree.clear_size _).trans h.blSize
  window := h.window
  tokenRange := fun i hi => absurd hi (Nat.not_lt_zero i)
  atStart := fun _ => ⟨rfl, rfl, rfl, rfl⟩
  heldLazily := fun _ => rfl
  heldInside := .inl rfl
  heldNear := .inl rfl

theorem CU.Inv.bind {c : CU} {top : Nat} (h : c.Inv top) {a n : Nat} (hn : a + n ≤ top) :
    ({ c with inPtr := a, inEnd := a + n } : CU).Inv top :=
  { h with bindingLow := Nat.le_add_right _ _, bindingHigh := hn }

/-- A dictionary of at least three bytes goes into the window, its positions into the chains (41_match_engine.md R165). -/
theorem CU.engineSetDict_eq {c : CU} {dict : List Byte} (h3 : ¬ dict.length < MIN_MATCH) {b : Nat} (hc : c.ChainsBelow b)
    (hb : c.strstart + min dict.length 32506 ≤ b) :
    ∃ win head prev, c.engineSetDict dict =
        { c with
          win := win, head := head, prev := prev, strstart := c.strstart + min dict.length 32506
          blockStart := ((c.strstart + min dict.length 32506 : Nat) : Int) } ∧
      head.allBelow 15 b ∧ prev.allBelow 15 b ∧ ((∀ i, c.win.get 16 i < 256) → ∀ i, win.get 16 i < 256) := by
  have hlong : 3 ≤ dict.length := Nat.le_of_not_lt h3
  unfold CU.engineSetDict
  rw [if_neg h3]
  extract_lets d e f
  have hlen : d.length = min dict.length 32506 := by simp only [d, List.length_drop, MAX_DIST]; omega
  have hm : e.MovedTo b (e.strstart + (d.length - 2)) e.lookahead f :=
    CU.insertRun_moved _ (c := e) ⟨hc.1, hc.2⟩ (show c.strstart + (d.length - 2) ≤ b by omega)
  have hs : f.strstart + 2 = c.strstart + min dict.length 32506 := by
    rw [hm.strstart]
    show c.strstart + (d.length - 2) + 2 = _
    omega
  rw [hs]
  clear_value f
  obtain ⟨head, prev, rfl, hhead, hprev⟩ := hm
  exact ⟨c.win.setList 16 c.strstart (d.map BitVec.toNat), head, prev, by dsimp only [e], hhead, hprev, Tbl.setList_bytes_lt c.strstart d⟩

theorem CU.Inv.setDict {c : CU} {top : Nat} (h : c.Inv top) (hp : c.phase = .init) (dict : List Byte) (a : Word) :
    ({ ({ c with adler := a } : CU).engineSetDict dict with phase := .setDict, dictSet := true } : CU).Inv top := by
  obtain ⟨hstr, hlook, hblock, -⟩ := h.atStart hp
  have hnone : c.matchLen = 2 := h.heldInside.resolve_right (by have := h.matchLow; omega)
  have hreq : c.finishReq = true → c.flushReq = true ∨ CPhase.setDict = .finished := fun hf =>
    .inl ((h.finish hf).resolve_right (by simp [hp]))
  by_cases h3 : dict.length < MIN_MATCH
  · have he : ({ c with adler := a } : CU).engineSetDict dict = { c with adler := a } := if_pos h3
    rw [he]
    exact { h with finish := hreq, fresh := fun _ => h.fresh (.inl hp), notClosed := nofun, atStart := nofun }
  · have hchain (t : Tbl) (ht : t.allBelow 15 (c.strstart + c.lookahead)) : t.allBelow 15 (c.strstart + min dict.length 32506) :=
      Tbl.allBelow_mono ht (by omega)
    obtain ⟨win, head, prev, he, hhead, hprev, hwin⟩ :=
      CU.engineSetDict_eq (c := { c with adler := a }) h3 (b := c.strstart + min dict.length 32506) ⟨hchain _ h.head, hchain _ h.prev⟩
        (le_refl _)
    rw [he]
    exact { h with
      positionLow := by simp only; omega
      strstartLow := by simp only; omega
      positionHigh := by simp only; omega
      blockStart := le_refl _
      head := Tbl.allBelow_mono hhead (Nat.le_add_right _ _)
      prev := Tbl.allBelow_mono hprev (Nat.le_add_right _ _)
      window := hwin h.window
      finish := hreq, fresh := fun _ => h.fresh (.inl hp), notClosed := nofun, atStart := nofun
      heldNear := .inl hnone }

/-! ## Every step -/

/-- A command whose checks raise no aborting error keeps what holds of the CU, if its effect does. -/
theorem State.guardCU_keeps {s t : State} {P : CU → Prop} (hs : P s.cu) {checks : List (Bool × Err)}
    {effect : Host.Outcome State Fault Refusal} (hc : ∀ c ∈ checks, c.2.sticky = false)
    (heffect : (∀ c ∈ checks, c.1 = false) → effect = .next t → P t.cu) (h : s.guardCU checks effect = .next t) : P t.cu := by
  rcases State.guardCU_cases h with ⟨e, -, hmem, rfl⟩ | ⟨hnone, h⟩
  · rw [State.raise_of_not_sticky (hc _ hmem)]
    exact hs
  · exact heffect (firstErr_eq_none.mp hnone) h

theorem execCConfig_keeps {s t : State} {top : Nat} (hs : s.cu.Inv top) {level strategy : Nat} {nohdr : Bool}
    (h : execCConfig level strategy nohdr s = .next t) : t.cu.Inv top := by
  unfold execCConfig at h
  split at h <;> cases h
  · rw [State.raise_of_not_sticky rfl]; exact hs
  · rw [State.raise_of_not_sticky rfl]; exact hs
  · exact hs.reset _ _ nohdr

theorem execCSetInput_keeps {s t : State} (hs : s.cu.Inv (2 ^ s.params.aw)) (h : execCSetInput s = .next t) :
    t.cu.Inv (2 ^ s.params.aw) := by
  refine State.guardCU_keeps (P := fun c => c.Inv (2 ^ s.params.aw)) hs ?_ (fun hpass he => ?_) h
  · simp [State.cuBufferChecks, Err.sticky, Err.classSub]
  · cases he
    have hfits : s.bufferWraps = false := hpass (s.bufferWraps, .rangeAddress) (by simp [State.cuBufferChecks])
    exact hs.bind (by simpa [State.bufferWraps] using hfits)

theorem execCSetDict_keeps {s t : State} {top : Nat} (hs : s.cu.Inv top) (h : execCSetDict s = .next t) : t.cu.Inv top := by
  refine State.guardCU_keeps (P := fun c => c.Inv top) hs ?_ (fun hpass he => ?_) h
  · simp [State.cuBufferChecks, Err.sticky, Err.classSub]
  · cases he
    have hinit : (s.cu.phase != .init) = false := hpass (s.cu.phase != .init, .dictNotInit) (by simp)
    exact hs.setDict (by simpa using hinit) _ _

theorem execCDeflate_keeps {s t : State} {top : Nat} (hs : s.cu.Inv top) (h : execCDeflate s = .next t) : t.cu.Inv top := by
  refine State.guardCU_keeps (P := fun c => c.Inv top) hs ?_ (fun _ he => ?_) h
  · simp [State.cuBufferChecks, Err.sticky, Err.classSub]
  · have hrun := deflateRun_streaming (x := { unit := s.cu, mem := s.mem, dest := s.argAddr, left := s.argLen }) hs
    rcases State.endCU_cases he with ⟨x, hx, rfl⟩ | ⟨e, x, hx, -⟩ <;> rw [hx] at hrun
    · exact hrun.1
    · exact hrun.elim

theorem exec_keeps_cu {i : Instr} {s t : State} (hs : s.cu.Inv (2 ^ s.params.aw)) (h : exec i s = .next t) :
    t.cu.Inv (2 ^ s.params.aw) := by
  have hframe := (exec_frame h).cu
  cases i
  case cConfig => exact execCConfig_keeps hs h
  case cSetInput => exact execCSetInput_keeps hs h
  case cSetDict => exact execCSetDict_keeps hs h
  case cDeflate => exact execCDeflate_keeps hs h
  case cFlush =>
    refine State.guardCU_keeps (P := fun c => c.Inv (2 ^ s.params.aw)) hs (by simp [Err.sticky, Err.classSub]) (fun _ he => ?_) h
    cases he
    exact { hs with finish := fun _ => .inl rfl }
  case cFinish =>
    refine State.guardCU_keeps (P := fun c => c.Inv (2 ^ s.params.aw)) hs (by simp [Err.sticky, Err.classSub]) (fun _ he => ?_) h
    cases he
    exact { hs with finish := fun _ => .inl rfl }
  case cReset => cases h; exact hs.reset s.cu.level s.cu.strategy s.cu.nohdr
  case cIsFinished | cIsNeedingInput | cAdler | cTotalIn | cTotalOut => cases h; exact hs
  case dConfig nohdr => rw [hframe (Instr.unit_dConfig nohdr)]; exact hs
  case dSetInput | dSetDict | dInflate | dReset | dIsFinished | dIsNeedingInput | dAdler | dTotalIn | dTotalOut | dIsNeedingDict =>
    rw [hframe rfl]; exact hs

theorem State.writePort_keeps (s : State) (r : PortReg) (v : DWord) :
    (s.writePort r v).params = s.params ∧ (s.writePort r v).cu = s.cu ∧ (s.writePort r v).du = s.du := by
  cases r <;> exact ⟨rfl, rfl, rfl⟩

/-- A step other than a command changes neither unit and no parameter; a command keeps the parameters. -/
theorem step_units {s t : State} (h : step s = .next t) :
    t.params = s.params ∧ ((t.cu = s.cu ∧ t.du = s.du) ∨ ∃ i, exec i s.takeCmd = .next t) := by
  rcases step_cases h with ⟨w, e, -, -, rfl⟩ | ⟨w, i, -, -, hi⟩ | ⟨-, -, rfl⟩ | ⟨r, v, rest, -, -, rfl⟩ | ⟨a, b, rest, -, -, -, rfl⟩
  · rw [State.raise_of_not_sticky (by cases e <;> rfl)]
    exact ⟨rfl, .inl ⟨rfl, rfl⟩⟩
  · exact ⟨(exec_frame hi).params, .inr ⟨i, hi⟩⟩
  · exact ⟨rfl, .inl ⟨rfl, rfl⟩⟩
  · obtain ⟨hp, hc, hd⟩ := State.writePort_keeps { s with host := rest } r v
    exact ⟨hp, .inl ⟨hc, hd⟩⟩
  · exact ⟨rfl, .inl ⟨rfl, rfl⟩⟩

/-- Settles O58: a command of the CU keeps the invariant, C.DEFLATE by the engine's own; every other step leaves the CU as it is. -/
theorem compressorInvariantKept : Obligations.CompressorInvariantKept := by
  intro s t hs h
  obtain ⟨hparams, ⟨hcu, -⟩ | ⟨i, hi⟩⟩ := step_units h
  · rw [hparams, hcu]; exact hs
  · rw [hparams]; exact exec_keeps_cu (s := s.takeCmd) hs hi

end Sys2Proof.Machine

/-! PROOFS. What the DU's bit reader and output window keep (45_huffman_decode.md R320 to R329; 44_decompressor.md R291). -/

namespace Sys2Proof.Machine

/-! ## The bit reader (R321 to R325) -/

theorem DU.SameButReader.exists {d e : DU} (h : d.SameButReader e) : ∃ res cnt inPtr, e = { d with res := res, cnt := cnt, inPtr := inPtr } :=
  ⟨_, _, _, h⟩

theorem DU.refill_cnt_mod (m : Memory) (n fuel : Nat) (d : DU) : (DU.refill m n fuel d).cnt % 8 = d.cnt % 8 := by
  induction fuel generalizing d with
  | zero => rfl
  | succ k ih =>
    simp only [DU.refill]
    split
    · rw [ih, DU.readByte_cnt, Nat.add_mod_right]
    · rfl

/-- Whole bytes, taken or not, leave the reservoir as far from a byte boundary as it was. -/
theorem DU.tryGet_cnt_mod (d : DU) (m : Memory) {n : Nat} (hn : n % 8 = 0) : (d.tryGet m n).2.cnt % 8 = d.cnt % 8 := by
  have hmod := DU.refill_cnt_mod m n n d
  unfold DU.tryGet DU.peek
  extract_lets e
  by_cases hlt : e.cnt < n
  · rw [if_pos hlt]; exact hmod
  · rw [if_neg hlt]
    show (e.cnt - n) % 8 = _
    have : e.cnt % 8 = d.cnt % 8 := hmod
    omega

/-- What a read of n bits leaves, and the bound of its value (R323). -/
theorem DU.ReaderInv.tryGet {d : DU} (h : d.ReaderInv) (m : Memory) {n : Nat} (hn : n ≤ 16) :
    d.SameButReader (d.tryGet m n).2 ∧ (d.tryGet m n).2.ReaderInv ∧ ∀ v, (d.tryGet m n).1 = some v → v < 2 ^ n := by
  obtain ⟨hsame, hreader, -, hval⟩ := DU.tryGet_spec d m hn h
  refine ⟨hsame, hreader, fun v hv => ?_⟩
  rcases hval with ⟨-, hsome, -⟩ | ⟨-, hnone, -⟩
  · obtain rfl := Option.some.inj (hsome.symm.trans hv)
    exact lt_of_lt_of_le (valueOf_lt _) (Nat.pow_le_pow_right (by decide) (List.length_take_le _ _))
  · rw [hnone] at hv; cases hv

theorem DU.ReaderInv.drop {d : DU} (h : d.ReaderInv) {n : Nat} (hn : n ≤ d.cnt) : (d.drop n).ReaderInv :=
  ⟨h.binding, (DU.drop_spec [] hn h.reservoir).2, (Nat.sub_le _ _).trans h.count⟩

theorem DU.ReaderInv.align {d : DU} (h : d.ReaderInv) : d.align.ReaderInv ∧ d.align.cnt % 8 = 0 := by
  refine ⟨h.drop (Nat.mod_le _ _), ?_⟩
  simp only [DU.align, DU.drop]
  omega

/-- The whole bytes at the front of the reservoir (R325). -/
theorem DU.copyReservoir_spec (n : Nat) {d : DU} (hr : d.res.toNat < 2 ^ d.cnt) :
    ∃ res, (DU.copyReservoir n d).2 = { d with res := res, cnt := d.cnt - 8 * min n (d.cnt / 8) } ∧
      res.toNat < 2 ^ (d.cnt - 8 * min n (d.cnt / 8)) ∧ (DU.copyReservoir n d).1.length = min n (d.cnt / 8) := by
  induction n generalizing d with
  | zero => exact ⟨d.res, by simp [DU.copyReservoir], by simpa using hr, by simp [DU.copyReservoir]⟩
  | succ n ih =>
    simp only [DU.copyReservoir]
    split
    · next h8 =>
      obtain ⟨res, he, hres, hlen⟩ := ih (d := d.drop 8) (DU.drop_spec [] h8 hr).2
      have hk : (d.cnt - 8) - 8 * min n ((d.cnt - 8) / 8) = d.cnt - 8 * min (n + 1) (d.cnt / 8) := by omega
      simp only [DU.drop, hk] at he hres hlen ⊢
      exact ⟨res, he, hres, by rw [List.length_cons, hlen]; omega⟩
    · next h8 =>
      have hk : min (n + 1) (d.cnt / 8) = 0 := by omega
      rw [hk]
      exact ⟨d.res, rfl, hr, rfl⟩

/-- BRCopy of no more bytes than there are (R325). -/
theorem DU.ReaderInv.copy {d : DU} (h : d.ReaderInv) (m : Memory) {n : Nat} (hn : n ≤ d.avail / 8) :
    d.SameButReader (d.copy m n).2 ∧ (d.copy m n).2.ReaderInv ∧ (d.copy m n).2.cnt % 8 = d.cnt % 8 ∧ (d.copy m n).1.length = n := by
  obtain ⟨hb, hr, hc⟩ := h
  obtain ⟨res, he, hres, hlen⟩ := DU.copyReservoir_spec n hr
  simp only [DU.avail] at hn
  simp only [DU.copy, he, hlen]
  refine ⟨rfl, ⟨?_, hres, ?_⟩, ?_, ?_⟩
  · simp only; omega
  · simp only; omega
  · omega
  · rw [List.length_append, hlen, Memory.readBytes_length]; omega

/-! ## Decode (R329) -/

/-- A reader that INVALID_CODE has stopped may hold more bits than a running one (log 12). -/
structure DU.ReaderStopped (d : DU) : Prop where
  binding : d.inPtr ≤ d.inEnd
  reservoir : d.res.toNat < 2 ^ d.cnt
  count : d.cnt ≤ 22

/-- The loop of Decode at length l: each peek may read one byte more than the code needs. -/
theorem decodeFrom_ends (m : Memory) (codes : List (Nat × Nat)) (left l c : Nat) (hl : 1 ≤ l) (hmax : left + l ≤ 16) {d : DU}
    (hb : d.inPtr ≤ d.inEnd) (hr : d.res.toNat < 2 ^ d.cnt) (hc : d.cnt ≤ max 15 (l + 6)) :
    (decodeFrom m codes left l c d).Ends (fun _ e => e.ReaderInv) fun err e => err = .invalidCode ∧ e.ReaderStopped := by
  induction left generalizing l c d with
  | zero => exact ⟨rfl, hb, hr, by omega⟩
  | succ left ih =>
    simp only [decodeFrom]
    split
    · next hlt => exact ⟨hb, hr, by simp only [DU.avail] at hlt; omega⟩
    · obtain ⟨-, -, hr', hb', -, -, hc', hval⟩ := DU.peek_spec d m (show l ≤ 16 by omega) hb hr
      generalize d.peek m l = p at hr' hb' hc' hval
      obtain ⟨v, e⟩ := p
      simp only at hr' hb' hc' hval
      rcases hval with ⟨-, hle, rfl⟩ | ⟨-, hlt, -, rfl⟩
      · simp only
        split
        · exact ⟨hb', (DU.drop_spec m hle hr').2, by simp only [DU.drop]; omega⟩
        · split
          · exact ih (l + 1) _ (by omega) (by omega) hb' hr' (by omega)
          · exact ⟨rfl, hb', hr', by omega⟩
      · exact ⟨hb', hr', by omega⟩

theorem maxLength_le {lens : List Nat} {b : Nat} (h : ∀ l ∈ lens, l ≤ b) : maxLength lens ≤ b := by
  have key (ls : List Nat) (a : Nat) (ha : a ≤ b) (hls : ∀ l ∈ ls, l ≤ b) : ls.foldl max a ≤ b := by
    induction ls generalizing a with
    | nil => exact ha
    | cons x xs ih => exact ih (max a x) (max_le ha (hls x (by simp))) fun l hl => hls l (by simp [hl])
  exact key lens 0 (Nat.zero_le _) h

/-- What Decode leaves, for a code with lengths up to 15. -/
theorem DU.ReaderInv.decode {d : DU} (h : d.ReaderInv) (m : Memory) {lens : List Nat} (hlens : ∀ l ∈ lens, l ≤ 15) :
    (d.decode m lens).Ends (fun _ e => d.SameButReader e ∧ e.ReaderInv) fun err e =>
      err = .invalidCode ∧ d.SameButReader e ∧ e.ReaderStopped := by
  have hends : (d.decode m lens).Ends (fun _ e => e.ReaderInv) fun err e => err = .invalidCode ∧ e.ReaderStopped :=
    decodeFrom_ends m (lens.zip (canon lens)) (maxLength lens) 1 0 (le_refl _) (by have := maxLength_le hlens; omega) h.binding
      h.reservoir (by have := h.count; omega)
  cases hd : d.decode m lens <;> rw [hd] at hends
  case done o e => exact ⟨(DU.decode_done hd).1, hends⟩
  case raise err e => exact ⟨hends.1, DU.decode_raise hd, hends.2⟩
  case stuck => trivial

/-! ## The output window (R291) -/

/-- n bytes put into the window, which had room for them. -/
def DU.Written (n : Nat) (d e : DU) : Prop :=
  ∃ owin wend hist, e = { d with owin := owin, wend := wend, filled := d.filled + n, hist := hist } ∧ wend < 65536 ∧
    d.filled + n ≤ hist ∧ hist ≤ 65536

theorem DU.WindowInv.written_zero {d : DU} (h : d.WindowInv) : DU.Written 0 d d := ⟨d.owin, d.wend, d.hist, rfl, h.wend, h.filled, h.hist⟩

theorem DU.Written.trans {a b : Nat} {d e f : DU} (h : DU.Written a d e) (h' : DU.Written b e f) : DU.Written (a + b) d f := by
  obtain ⟨owin, wend, hist, rfl, -, -, -⟩ := h
  obtain ⟨owin', wend', hist', rfl, hw, hf, hh⟩ := h'
  simp only [Nat.add_assoc] at hf ⊢
  exact ⟨owin', wend', hist', rfl, hw, hf, hh⟩

theorem DU.Written.window {n : Nat} {d e : DU} (h : DU.Written n d e) : e.WindowInv ∧ e.filled = d.filled + n := by
  obtain ⟨owin, wend, hist, rfl, hw, hf, hh⟩ := h
  exact ⟨⟨hw, hf, hh⟩, rfl⟩

theorem DU.WindowInv.wput {d : DU} (h : d.WindowInv) (hroom : d.filled + 1 ≤ 65536) (b : Nat) : DU.Written 1 d (d.wput b) :=
  ⟨_, _, _, rfl, Nat.mod_lt _ (by decide), le_min (Nat.succ_le_succ h.filled) hroom, min_le_right _ _⟩

theorem DU.WindowInv.wputs {d : DU} (h : d.WindowInv) {bs : List Byte} (hroom : d.filled + bs.length ≤ 65536) :
    DU.Written bs.length d (bs.foldl (fun d b => d.wput b.toNat) d) := by
  induction bs generalizing d with
  | nil => exact h.written_zero
  | cons b bs ih =>
    rw [List.length_cons] at hroom ⊢
    have hw := h.wput (by omega) b.toNat
    obtain ⟨hwin, hfill⟩ := hw.window
    rw [Nat.add_comm]
    exact hw.trans (ih hwin (by omega))

theorem DU.WindowInv.replay {d : DU} (h : d.WindowInv) (dist : Nat) {l : Nat} (hroom : d.filled + l ≤ 65536) :
    DU.Written l d (DU.replay dist l d) := by
  induction l generalizing d with
  | zero => exact h.written_zero
  | succ l ih =>
    have hw := h.wput (by omega) (d.owin.get 16 (d.back dist))
    obtain ⟨hwin, hfill⟩ := hw.window
    have hboth : DU.Written (1 + l) d (DU.replay dist (l + 1) d) := hw.trans (ih hwin (by omega))
    rwa [Nat.add_comm 1 l] at hboth

end Sys2Proof.Machine

/-! PROOFS. The DU's invariant mode by mode, for a unit that is not aborted (10_state.md R46), and the rules for reading on
(44_decompressor.md R283). -/

namespace Sys2Proof.Machine

/-! ## The invariant of a running DU -/

/-- What holds of a running DU in every mode. -/
structure DU.Core (d : DU) (top : Nat) : Prop where
  fault : d.fault = none
  binding : d.inPtr ≤ d.inEnd
  bindingHigh : d.inEnd ≤ top
  reservoir : d.res.toNat < 2 ^ d.cnt
  count : d.cnt ≤ 15
  wend : d.wend < 65536
  filled : d.filled ≤ d.hist
  hist : d.hist ≤ 65536
  rdist : d.rdist ≤ 32768
  header : d.dh.Ranges

theorem DU.Core.reader {d : DU} {top : Nat} (h : d.Core top) : d.ReaderInv := ⟨h.binding, h.reservoir, h.count⟩

theorem DU.Core.window {d : DU} {top : Nat} (h : d.Core top) : d.WindowInv := ⟨h.wend, h.filled, h.hist⟩

/-- Nothing is decoded before the header's end, and there is a header only in zlib framing (10_state.md R46). -/
structure DU.Fresh (d : DU) : Prop where
  filled : d.filled = 0
  hist : d.hist = 0
  framed : d.nohdr = false

/-- A checksum field of four bytes is being read. -/
structure DU.ChecksumOpen (d : DU) : Prop where
  few : d.needed ≤ 32
  whole : d.needed % 8 = 0

/-- The codes decoded with are accepted (30_encoding.md R112). -/
structure DU.CodesInv (d : DU) : Prop where
  lit : acceptedLens d.ltab.litLens
  dist : acceptedLens d.dtab.distLens

/-- A length of 3 to 258 once its extra bits are added. -/
structure DU.LengthOpen (d : DU) : Prop where
  low : 3 ≤ d.rlen
  few : d.needed ≤ 5
  high : d.rlen + 2 ^ d.needed ≤ 259

/-- A complete length. -/
structure DU.LengthKnown (d : DU) : Prop where
  low : 3 ≤ d.rlen
  high : d.rlen ≤ 258

/-- A distance of 1 to 32768 once its extra bits are added. -/
structure DU.DistOpen (d : DU) : Prop where
  low : 1 ≤ d.rdist
  few : d.needed ≤ 13
  high : d.rdist + 2 ^ d.needed ≤ 32769

/-- The trailer is read in zlib framing, once all output is delivered. -/
structure DU.Drained (d : DU) : Prop where
  filled : d.filled = 0
  framed : d.nohdr = false

/-- A header that is not complete: the lengths read so far, and the code they are read with (46_dynamic_header.md R345 to R347). -/
structure DHState.Open (h : DHState) : Prop where
  lengths : ∀ l ∈ h.cl, l ≤ 15
  metaLengths : ∀ l ∈ h.metaLen, l ≤ 7
  unfinished : h.phase ≠ .done
  metaCode : h.phase = .sym ∨ h.phase = .rep → oversubscribed h.metaLen = false

/-- The clauses of the invariant that a mode calls for, but for the byte boundary. -/
@[reducible] def DU.ModeInv (d : DU) : DMode → Prop
  | .header => d.Fresh
  | .dict => d.Fresh ∧ d.ChecksumOpen
  | .blocks => True
  | .slen1 => True
  | .slen2 => True
  | .stored => True
  | .dyn => d.dh.Open
  | .huf => d.CodesInv
  | .hufLb => d.CodesInv ∧ d.LengthOpen
  | .hufD => d.CodesInv ∧ d.LengthKnown
  | .hufDb => d.CodesInv ∧ d.LengthKnown ∧ d.DistOpen
  | .chk => d.Drained ∧ d.ChecksumOpen
  | .fin => d.filled = 0

/-- The invariant of a DU that is not aborted. -/
structure DU.Running (d : DU) (top : Nat) : Prop where
  core : d.Core top
  aligned : d.mode.byteAligned = true → d.cnt % 8 = 0
  mode : d.ModeInv d.mode

theorem DU.Inv.core {d : DU} {top : Nat} (h : d.Inv top) (hf : d.fault = none) : d.Core top :=
  { h with fault := hf, binding := h.bindingLow, count := h.countRunning hf, header := h.headerRanges }

theorem DU.Inv.codes {d : DU} {top : Nat} (h : d.Inv top) (hf : d.fault = none) (hm : d.mode.inSymbols = true) : d.CodesInv :=
  ⟨h.litCode hf hm, h.distCode hf hm⟩

theorem DU.Inv.framed {d : DU} {top : Nat} (h : d.Inv top) (hm : d.mode = .header ∨ d.mode = .dict ∨ d.mode = .chk) : d.nohdr = false := by
  by_contra hn
  obtain ⟨hheader, hdict, hchk⟩ := h.raw (by simpa using hn)
  rcases hm with hm | hm | hm
  · exact hheader hm
  · exact hdict hm
  · exact hchk hm

theorem DU.Inv.isFresh {d : DU} {top : Nat} (h : d.Inv top) (hm : d.mode = .header ∨ d.mode = .dict) : d.Fresh :=
  have ⟨hfilled, hhist⟩ := h.fresh hm
  ⟨hfilled, hhist, h.framed (by rcases hm with hm | hm <;> simp [hm])⟩

theorem DU.Inv.checksumOpen {d : DU} {top : Nat} (h : d.Inv top) (hf : d.fault = none) (hm : d.mode = .dict ∨ d.mode = .chk) :
    d.ChecksumOpen :=
  have ⟨hfew, hwhole⟩ := h.checksumBits hf hm
  ⟨hfew, hwhole⟩

theorem DU.Inv.running {d : DU} {top : Nat} (h : d.Inv top) (hf : d.fault = none) : d.Running top := by
  refine ⟨h.core hf, h.aligned hf, ?_⟩
  cases hm : d.mode
  case header => exact h.isFresh (.inl hm)
  case dict => exact ⟨h.isFresh (.inr hm), h.checksumOpen hf (.inl hm)⟩
  case blocks | slen1 | slen2 | stored => trivial
  case dyn => exact ⟨h.lengthsRead hf hm, h.metaRead hf hm, h.headerOpen hf hm, h.metaCode hf hm⟩
  case huf => exact h.codes hf (by rw [hm]; rfl)
  case hufLb =>
    obtain ⟨hfew, hhigh⟩ := h.lenBits hf hm
    exact ⟨h.codes hf (by rw [hm]; rfl), h.lenLow (.inl hm), hfew, hhigh⟩
  case hufD => exact ⟨h.codes hf (by rw [hm]; rfl), h.lenLow (.inr (.inl hm)), h.lenKnown hf (.inl hm)⟩
  case hufDb =>
    obtain ⟨hfew, hhigh⟩ := h.distBits hf hm
    exact ⟨h.codes hf (by rw [hm]; rfl), ⟨h.lenLow (.inr (.inr hm)), h.lenKnown hf (.inr hm)⟩, h.distLow hm, hfew, hhigh⟩
  case chk => exact ⟨⟨h.chkDrained hm, h.framed (.inr (.inr hm))⟩, h.checksumOpen hf (.inr hm)⟩
  case fin => exact h.finDrained hm

theorem DU.Running.inMode {d : DU} {top : Nat} (h : d.Running top) {k : DMode} (hm : d.mode = k) : d.ModeInv k := hm ▸ h.mode

theorem DU.Running.codes {d : DU} {top : Nat} (h : d.Running top) (hs : d.mode.inSymbols = true) : d.CodesInv := by
  have hmode := h.mode
  generalize d.mode = k at hs hmode
  cases k
  case huf => exact hmode
  case hufLb | hufD | hufDb => exact hmode.1
  all_goals cases hs

theorem DU.Running.framed {d : DU} {top : Nat} (h : d.Running top) (hn : d.nohdr = true) :
    d.mode ≠ .header ∧ d.mode ≠ .dict ∧ d.mode ≠ .chk := by
  have hne {b : Bool} (hb : d.nohdr = b) : b ≠ false := by rw [← hb, hn]; decide
  exact ⟨fun hm => hne (h.inMode hm).framed rfl, fun hm => hne (h.inMode hm).1.framed rfl, fun hm => hne (h.inMode hm).1.framed rfl⟩

theorem DU.Running.inv {d : DU} {top : Nat} (h : d.Running top) : d.Inv top where
  filled := h.core.filled
  hist := h.core.hist
  rdist := h.core.rdist
  finDrained := fun hm => h.inMode hm
  chkDrained := fun hm => (h.inMode hm).1.filled
  fresh
    | .inl hm => ⟨(h.inMode hm).filled, (h.inMode hm).hist⟩
    | .inr hm => ⟨(h.inMode hm).1.filled, (h.inMode hm).1.hist⟩
  raw := h.framed
  bindingLow := h.core.binding
  bindingHigh := h.core.bindingHigh
  reservoir := h.core.reservoir
  count := h.core.count.trans (by decide)
  countRunning := fun _ => h.core.count
  sticky := fun e he => by simp [h.core.fault] at he
  wend := h.core.wend
  lenLow
    | .inl hm => (h.inMode hm).2.low
    | .inr (.inl hm) => (h.inMode hm).2.low
    | .inr (.inr hm) => (h.inMode hm).2.1.low
  distLow := fun hm => (h.inMode hm).2.2.low
  headerRanges := h.core.header
  aligned := fun _ => h.aligned
  lenBits := fun _ hm => ⟨(h.inMode hm).2.few, (h.inMode hm).2.high⟩
  lenKnown
    | _, .inl hm => (h.inMode hm).2.high
    | _, .inr hm => (h.inMode hm).2.1.high
  distBits := fun _ hm => ⟨(h.inMode hm).2.2.few, (h.inMode hm).2.2.high⟩
  checksumBits
    | _, .inl hm => ⟨(h.inMode hm).2.few, (h.inMode hm).2.whole⟩
    | _, .inr hm => ⟨(h.inMode hm).2.few, (h.inMode hm).2.whole⟩
  litCode := fun _ hs => (h.codes hs).lit
  distCode := fun _ hs => (h.codes hs).dist
  lengthsRead := fun _ hm => (h.inMode hm).lengths
  metaRead := fun _ hm => (h.inMode hm).metaLengths
  headerOpen := fun _ hm => (h.inMode hm).unfinished
  metaCode := fun _ hm => (h.inMode hm).metaCode

/-! ## Errors that abort -/

/-- The invariant after an aborting error (10_state.md R42, 60_exceptions.md R364). -/
def DU.Aborts (top : Nat) (e : Err) (d : DU) : Prop := e.sticky = true ∧ ({ d with fault := some e } : DU).Inv top

/-- A unit that raises an aborting error where its invariant holds, but for what its mode promises while it runs. -/
theorem DU.Running.abort {d : DU} {top : Nat} (h : d.Running top) {e : Err} (he : e.sticky = true) : DU.Aborts top e d :=
  ⟨he, { h.inv with
    countRunning := nofun, sticky := fun _ hf => Option.some.inj hf ▸ he, aligned := nofun, lenBits := nofun, lenKnown := nofun
    distBits := nofun, checksumBits := nofun, litCode := nofun, distCode := nofun, lengthsRead := nofun, metaRead := nofun
    headerOpen := nofun, metaCode := nofun }⟩

/-- INVALID_CODE, with the reader as Decode leaves it (log 12). -/
theorem DU.Running.abort_reader {d e : DU} {top : Nat} (h : d.Running top) (hs : d.SameButReader e) (hr : e.ReaderStopped) :
    DU.Aborts top .invalidCode e := by
  obtain ⟨hsticky, hinv⟩ := h.abort (e := .invalidCode) rfl
  obtain ⟨res, cnt, inPtr, rfl⟩ := hs.exists
  exact ⟨hsticky, { hinv with
    bindingLow := hr.binding, reservoir := hr.reservoir, count := hr.count, countRunning := nofun, aligned := nofun }⟩

/-! ## Rules for reading on -/

/-- Two DUs that are alike in what a mode's clauses speak of, the second with no more bytes to deliver. -/
structure DU.SameClauses (d e : DU) : Prop where
  mode : e.mode = d.mode
  nohdr : e.nohdr = d.nohdr
  needed : e.needed = d.needed
  rlen : e.rlen = d.rlen
  rdist : e.rdist = d.rdist
  ltab : e.ltab = d.ltab
  dtab : e.dtab = d.dtab
  dh : e.dh = d.dh
  hist : e.hist = d.hist
  filled : e.filled ≤ d.filled

theorem DU.SameClauses.modeInv {d e : DU} (h : d.SameClauses e) {k : DMode} (hk : d.ModeInv k) : e.ModeInv k := by
  obtain ⟨-, hnohdr, hneeded, hrlen, hrdist, hltab, hdtab, hdh, hhist, hfilled⟩ := h
  have hcodes (hc : d.CodesInv) : e.CodesInv := ⟨hltab ▸ hc.lit, hdtab ▸ hc.dist⟩
  have hsum (hc : d.ChecksumOpen) : e.ChecksumOpen := ⟨hneeded ▸ hc.few, hneeded ▸ hc.whole⟩
  have hzero (hz : d.filled = 0) : e.filled = 0 := Nat.eq_zero_of_le_zero (hz ▸ hfilled)
  have hfresh (hf : d.Fresh) : e.Fresh := ⟨hzero hf.filled, hhist.trans hf.hist, hnohdr.trans hf.framed⟩
  have hknown (hl : d.LengthKnown) : e.LengthKnown := ⟨hrlen ▸ hl.low, hrlen ▸ hl.high⟩
  cases k
  case header => exact hfresh hk
  case dict => exact ⟨hfresh hk.1, hsum hk.2⟩
  case blocks | slen1 | slen2 | stored => trivial
  case dyn => rw [DU.ModeInv, hdh]; exact hk
  case huf => exact hcodes hk
  case hufLb => exact ⟨hcodes hk.1, hrlen ▸ hk.2.low, hneeded ▸ hk.2.few, by rw [hrlen, hneeded]; exact hk.2.high⟩
  case hufD => exact ⟨hcodes hk.1, hknown hk.2⟩
  case hufDb =>
    exact ⟨hcodes hk.1, hknown hk.2.1, hrdist ▸ hk.2.2.low, hneeded ▸ hk.2.2.few, by rw [hrdist, hneeded]; exact hk.2.2.high⟩
  case chk => exact ⟨⟨hzero hk.1.filled, hnohdr.trans hk.1.framed⟩, hsum hk.2⟩
  case fin => exact hzero hk

theorem DU.Running.alike {d e : DU} {top : Nat} (h : d.Running top) (hs : d.SameClauses e) (hc : e.Core top)
    (ha : e.mode.byteAligned = true → e.cnt % 8 = 0) : e.Running top :=
  ⟨hc, ha, hs.mode ▸ hs.modeInv h.mode⟩

/-- Reading keeps the invariant, if it keeps to whole bytes where the mode does. -/
theorem DU.Running.reader {d e : DU} {top : Nat} (h : d.Running top) (hs : d.SameButReader e) (hr : e.ReaderInv)
    (ha : d.mode.byteAligned = true → e.cnt % 8 = 0) : e.Running top := by
  obtain ⟨res, cnt, inPtr, rfl⟩ := hs.exists
  exact h.alike ⟨rfl, rfl, rfl, rfl, rfl, rfl, rfl, rfl, rfl, le_refl _⟩
    { h.core with binding := hr.binding, reservoir := hr.reservoir, count := hr.count } ha

/-- A field of n bits, read and used; without enough input the DU keeps its mode. -/
theorem DU.Running.needBits {d : DU} {top : Nat} (h : d.Running top) (m : Memory) {n : Nat} (hn : n ≤ 16)
    (ha : d.mode.byteAligned = true → n % 8 = 0) {f : Nat → DU → Run DU Bool} {Q : Bool → DU → Prop}
    (hnone : ∀ e, d.SameButReader e → e.Running top → Q false e)
    (hsome : ∀ v e, d.SameButReader e → e.Running top → v < 2 ^ n → (f v e).Ends Q (DU.Aborts top)) :
    (Machine.needBits (d.tryGet m n) f).Ends Q (DU.Aborts top) := by
  obtain ⟨hsame, hreader, hval⟩ := h.core.reader.tryGet m hn
  have hrun := h.reader hsame hreader fun hb => (DU.tryGet_cnt_mod d m (ha hb)).trans (h.aligned hb)
  generalize d.tryGet m n = p at hsame hval hrun
  obtain ⟨v, e⟩ := p
  cases v with
  | none => exact hnone e hsame hrun
  | some v => exact hsome v e hsame hrun (hval v rfl)

/-- A symbol, read and used; without enough input the DU keeps its mode. -/
theorem DU.Running.decodeThen {d : DU} {top : Nat} (h : d.Running top) (m : Memory) {lens : List Nat} (hlens : ∀ l ∈ lens, l ≤ 15)
    (ha : d.mode.byteAligned = false) {f : Nat → DU → Run DU Bool} {Q : Bool → DU → Prop}
    (hnone : ∀ e, d.SameButReader e → e.Running top → Q false e)
    (hsome : ∀ s e, d.SameButReader e → e.Running top → (f s e).Ends Q (DU.Aborts top)) :
    (d.decodeThen m lens f).Ends Q (DU.Aborts top) := by
  have hends := h.core.reader.decode m hlens
  unfold DU.decodeThen
  cases hd : d.decode m lens <;> rw [hd] at hends
  case done o e =>
    have hrun := h.reader hends.1 hends.2 (by simp [ha])
    cases o with
    | none => exact hnone e hends.1 hrun
    | some s => exact hsome s e hends.1 hrun
  case raise err e =>
    obtain ⟨rfl, hsame, hstop⟩ := hends
    exact h.abort_reader hsame hstop
  case stuck => trivial

/-- Extra bits, read and added. -/
theorem DU.Running.withExtra {d : DU} {top : Nat} (h : d.Running top) (m : Memory) (hn : d.needed ≤ 16)
    (ha : d.mode.byteAligned = false) {f : Nat → DU → Run DU Bool} {Q : Bool → DU → Prop}
    (hnone : ∀ e, d.SameButReader e → e.Running top → Q false e)
    (hsome : ∀ v e, d.SameButReader e → e.Running top → v < 2 ^ d.needed → (f v e).Ends Q (DU.Aborts top)) :
    (d.withExtra m f).Ends Q (DU.Aborts top) := by
  unfold DU.withExtra
  split
  · exact h.needBits m hn (by simp [ha]) hnone hsome
  · exact hsome 0 d rfl h (Nat.two_pow_pos _)

end Sys2Proof.Machine

/-! PROOFS. A decode step keeps the DU's invariant, or ends in an aborting error that keeps what is left of it
(44_decompressor.md R283 to R297). -/

namespace Sys2Proof.Machine

/-- A decode step that is done leaves a running DU; one that raises leaves an aborted one. -/
@[reducible] def DU.Keeps (top : Nat) (r : Run DU Bool) : Prop := r.Ends (fun _ e => e.Running top) (DU.Aborts top)

theorem DU.ChecksumOpen.start {d : DU} (h : d.needed = 32) : d.ChecksumOpen := ⟨by omega, by omega⟩

/-! ## Headers and checksums (R285 to R289, R297) -/

theorem DU.Running.stepHeader {d : DU} {top : Nat} (h : d.Running top) (hm : d.mode = .header) (m : Memory) :
    DU.Keeps top (d.stepHeader m) := by
  refine h.needBits m (by decide) (fun _ => by decide) (fun e _ he => he) fun v e hs he _ => ?_
  obtain ⟨res, cnt, inPtr, rfl⟩ := hs.exists
  have hfresh : DU.Fresh _ := he.inMode hm
  have hal := he.aligned (by rw [hm]; rfl)
  extract_lets g
  split
  · exact he.abort rfl
  · split
    · exact he.abort rfl
    · split
      · exact ⟨{ he.core with }, fun _ => hal, ⟨{ hfresh with }, .start rfl⟩⟩
      · exact ⟨{ he.core with }, nofun, trivial⟩

/-- A move to another mode whose clauses hold. -/
theorem DU.Running.go {d : DU} {top : Nat} (h : d.Running top) {k : DMode} (ha : k.byteAligned = true → d.cnt % 8 = 0)
    (hk : (d.go k).ModeInv k) : (d.go k).Running top :=
  ⟨{ h.core with }, ha, hk⟩

theorem DU.Running.align {d : DU} {top : Nat} (h : d.Running top) : d.align.Running top ∧ d.align.cnt % 8 = 0 := by
  obtain ⟨hr, hc⟩ := h.core.reader.align
  exact ⟨h.reader rfl hr fun _ => hc, hc⟩

theorem DU.Running.stepLast {d : DU} {top : Nat} (h : d.Running top) : DU.Keeps top d.stepLast := by
  unfold DU.stepLast
  split
  · exact h
  · next hfill =>
    have hz : d.filled = 0 := by omega
    split
    · exact h.go nofun hz
    · next hraw =>
      obtain ⟨ha, hc⟩ := h.align
      exact ⟨{ ha.core with }, fun _ => hc, ⟨⟨hz, eq_false_of_ne_true hraw⟩, .start rfl⟩⟩

theorem kraft_fixedL : oversubscribed fixedL = false := by decide +kernel

theorem kraft_fixedD : oversubscribed fixedD = false := by decide +kernel

theorem DU.Running.stepBlock {d : DU} {top : Nat} (h : d.Running top) (hm : d.mode = .blocks) (m : Memory) :
    DU.Keeps top (d.stepBlock m) := by
  refine h.needBits m (by decide) (fun hb => by simp [hm, DMode.byteAligned] at hb) (fun e _ he => he) fun t e hs he _ => ?_
  have hem : e.mode = .blocks := by rw [hs]; exact hm
  extract_lets g
  have hg : g.Running top := he.alike ⟨rfl, rfl, rfl, rfl, rfl, rfl, rfl, rfl, rfl, le_refl _⟩ { he.core with } he.aligned
  clear_value g
  split
  · obtain ⟨ha, hc⟩ := hg.align
    exact ha.go (fun _ => hc) trivial
  · split
    · exact ⟨{ hg.core with }, nofun, ⟨⟨fixedL_le, kraft_fixedL⟩, ⟨fixedD_le, kraft_fixedD⟩⟩⟩
    · split
      · have hr := hg.core.header
        refine ⟨{ hg.core with
          header := ⟨hr.hlit, hr.hdist, hr.hclen, Nat.zero_le _, List.length_replicate, Nat.zero_le _, List.length_replicate⟩ }, nofun, ?_⟩
        exact ⟨fun l hl => by simp [List.eq_of_mem_replicate hl], fun l hl => by simp [List.eq_of_mem_replicate hl], nofun, nofun⟩
      · exact hg.abort rfl

/-- A checksum field in part (R288, R297). -/
theorem DU.Running.pushAdler {d : DU} {top : Nat} (h : d.Running top) (hm : d.mode = .dict ∨ d.mode = .chk) (v : Nat) :
    (d.pushAdler v).Running top := by
  refine ⟨{ h.core with }, h.aligned, ?_⟩
  have hopen {n : Nat} (hc : n ≤ 32 ∧ n % 8 = 0) : n - 8 ≤ 32 ∧ (n - 8) % 8 = 0 := by omega
  show DU.ModeInv _ d.mode
  rcases hm with hm | hm <;> rw [hm]
  · obtain ⟨hfresh, hfew, hwhole⟩ := h.inMode hm
    have ⟨hf, hw⟩ := hopen ⟨hfew, hwhole⟩
    exact ⟨{ hfresh with }, ⟨hf, hw⟩⟩
  · obtain ⟨hdrained, hfew, hwhole⟩ := h.inMode hm
    have ⟨hf, hw⟩ := hopen ⟨hfew, hwhole⟩
    exact ⟨{ hdrained with }, ⟨hf, hw⟩⟩

theorem DU.Running.readAdlerField {top : Nat} (m : Memory) (n : Nat) {d : DU} (h : d.Running top) {k : DMode} (hk : k = .dict ∨ k = .chk)
    (hm : d.mode = k) : (DU.readAdlerField m n d).Ends (fun _ e => e.Running top ∧ e.mode = k) (DU.Aborts top) := by
  induction n generalizing d with
  | zero => exact ⟨h, hm⟩
  | succ n ih =>
    simp only [DU.readAdlerField]
    split
    · refine h.needBits m (by decide) (fun _ => rfl) (fun e hs he => ⟨he, ?_⟩) fun v e hs he _ => ?_
      · rw [hs]; exact hm
      · have hem : e.mode = k := by rw [hs]; exact hm
        exact ih (he.pushAdler (by rw [hem]; exact hk) v) hem
    · exact ⟨h, hm⟩

theorem DU.Running.stepDict {d : DU} {top : Nat} (h : d.Running top) (hm : d.mode = .dict) (m : Memory) : DU.Keeps top (d.stepDict m) :=
  (h.readAdlerField m _ (.inl rfl) hm).bind fun _ _ he => he.1

theorem DU.Running.stepChk {d : DU} {top : Nat} (h : d.Running top) (hm : d.mode = .chk) (m : Memory) : DU.Keeps top (d.stepChk m) := by
  refine (h.readAdlerField m _ (.inr rfl) hm).bind fun complete e he => ?_
  obtain ⟨he, hem⟩ := he
  split
  · exact he
  · split
    · exact he.abort rfl
    · exact he.go nofun (he.inMode hem).1.filled

/-! ## Stored blocks (R289, R290) -/

theorem DU.storedCount_le {d : DU} (h : d.filled ≤ 65536) : d.filled + d.storedCount ≤ 65536 ∧ d.storedCount ≤ d.avail / 8 := by
  unfold DU.storedCount DWIN
  omega

theorem DU.Written.core {n : Nat} {d e : DU} {top : Nat} (h : d.Core top) (hw : DU.Written n d e) : e.Core top := by
  obtain ⟨owin, wend, hist, rfl, hwend, hfilled, hhist⟩ := hw
  exact { h with wend := hwend, filled := hfilled, hist := hhist }

theorem DU.Running.stepStored {d : DU} {top : Nat} (h : d.Running top) (hm : d.mode = .stored) (m : Memory) :
    DU.Keeps top (d.stepStored m) := by
  obtain ⟨hroom, havail⟩ := DU.storedCount_le (h.core.filled.trans h.core.hist)
  obtain ⟨hsame, hreader, hcnt, hlen⟩ := h.core.reader.copy m havail
  have hal : (d.copy m d.storedCount).2.cnt % 8 = 0 := hcnt.trans (h.aligned (by rw [hm]; rfl))
  have hrun := h.reader hsame hreader fun _ => hal
  have hmode : (d.copy m d.storedCount).2.mode = .stored := by rw [hsame]; exact hm
  have hfit : (d.copy m d.storedCount).2.filled + (d.copy m d.storedCount).1.length ≤ 65536 := by rw [hlen, hsame]; exact hroom
  have hw := hrun.core.window.wputs hfit
  have hcore := hw.core hrun.core
  unfold DU.stepStored
  extract_lets n r e f
  change DU.Written _ r.2 e at hw
  change e.Core top at hcore
  have hf : f.Core top := { hcore with }
  split
  · exact ⟨{ hf with }, nofun, trivial⟩
  · obtain ⟨owin, wend, hist, he, -⟩ := hw
    refine ⟨hf, fun _ => ?_, ?_⟩
    · show e.cnt % 8 = 0
      rw [he]; exact hal
    · show DU.ModeInv _ e.mode
      rw [he, hmode]
      trivial

theorem DU.Running.stepSlen2 {d : DU} {top : Nat} (h : d.Running top) (hm : d.mode = .slen2) (m : Memory) :
    DU.Keeps top (d.stepSlen2 m) := by
  refine h.needBits m (by decide) (fun _ => rfl) (fun e _ he => he) fun v e hs he _ => ?_
  split
  · exact he.abort rfl
  · have hem : e.mode = .slen2 := by rw [hs]; exact hm
    exact (he.go (k := .stored) (fun _ => he.aligned (by rw [hem]; rfl)) trivial).stepStored rfl m

theorem DU.Running.stepSlen1 {d : DU} {top : Nat} (h : d.Running top) (hm : d.mode = .slen1) (m : Memory) :
    DU.Keeps top (d.stepSlen1 m) := by
  refine h.needBits m (by decide) (fun _ => rfl) (fun e _ he => he) fun v e hs he _ => ?_
  have hem : e.mode = .slen1 := by rw [hs]; exact hm
  have hnext : ({ e with ulen := BitVec.ofNat 16 v, mode := .slen2 } : DU).Running top :=
    ⟨{ he.core with }, fun _ => he.aligned (by rw [hem]; rfl), trivial⟩
  exact hnext.stepSlen2 rfl m

end Sys2Proof.Machine

/-! PROOFS. The dynamic header and the symbol loop keep the DU's invariant (46_dynamic_header.md R340 to R348; 44_decompressor.md R292
to R296). -/

namespace Sys2Proof.Machine

/-! ## The dynamic header (R341 to R348) -/

/-- A running DU that parses a dynamic header. -/
structure DU.InHeader (top : Nat) (d : DU) : Prop where
  running : d.Running top
  mode : d.mode = .dyn

theorem DU.InHeader.ranges {d : DU} {top : Nat} (h : d.InHeader top) : d.dh.Ranges := h.running.core.header

theorem DU.InHeader.isOpen {d : DU} {top : Nat} (h : d.InHeader top) : d.dh.Open := h.running.inMode h.mode

theorem DU.InHeader.reader {d e : DU} {top : Nat} (h : d.InHeader top) (hs : d.SameButReader e) (he : e.Running top) : e.InHeader top :=
  ⟨he, by rw [hs]; exact h.mode⟩

/-- The parser's registers in their ranges, with the header still open. -/
theorem DU.InHeader.set {d : DU} {top : Nat} (h : d.InHeader top) {g : DHState} (hr : g.Ranges) (ho : g.Open) :
    ({ d with dh := g } : DU).InHeader top :=
  ⟨⟨{ h.running.core with header := hr }, h.running.aligned, by show DU.ModeInv _ d.mode; rw [h.mode]; exact ho⟩, h.mode⟩

theorem DU.InHeader.dhHlit {d : DU} {top : Nat} (h : d.InHeader top) {v : Nat} (hv : v < 2 ^ 5) : (d.dhHlit v).InHeader top :=
  h.set { h.ranges with hlit := by simp only; omega } { h.isOpen with unfinished := nofun, metaCode := nofun }

theorem DU.InHeader.dhHdist {d : DU} {top : Nat} (h : d.InHeader top) {v : Nat} (hv : v < 2 ^ 5) : (d.dhHdist v).InHeader top :=
  h.set { h.ranges with hdist := by simp only; omega } { h.isOpen with unfinished := nofun, metaCode := nofun }

theorem DU.InHeader.dhHclen {d : DU} {top : Nat} (h : d.InHeader top) {v : Nat} (hv : v < 2 ^ 4) :
    ({ d with dh := { d.dh with hclen := v + 4 } } : DU).InHeader top :=
  h.set { h.ranges with hclen := by simp only; omega } { h.isOpen with }

theorem DU.InHeader.dhGoClen {d : DU} {top : Nat} (h : d.InHeader top) : (d.dhGo .clen).InHeader top :=
  h.set { h.ranges with } { h.isOpen with unfinished := nofun, metaCode := nofun }

theorem DU.InHeader.dhGoSym {d : DU} {top : Nat} (h : d.InHeader top) (hk : oversubscribed d.dh.metaLen = false) :
    (d.dhGo .sym).InHeader top :=
  h.set { h.ranges with } { h.isOpen with unfinished := nofun, metaCode := fun _ => hk }

/-- A bound on every element, kept where one of them is replaced. -/
theorem forall_mem_set_le {l : List Nat} {b v : Nat} (h : ∀ x ∈ l, x ≤ b) (hv : v ≤ b) (i : Nat) : ∀ x ∈ l.set i v, x ≤ b :=
  fun x hx => (List.mem_or_eq_of_mem_set hx).elim (h x) fun he => he ▸ hv

theorem DU.InHeader.dhClen {d : DU} {top : Nat} (h : d.InHeader top) (hp : d.dh.phase = .clen) (hi : d.dh.i < d.dh.hclen) {v : Nat}
    (hv : v < 2 ^ 3) : (d.dhClen v).InHeader top :=
  h.set
    { h.ranges with i := hi.trans_le h.ranges.hclen.2, metaSize := List.length_set.trans h.ranges.metaSize }
    { h.isOpen with metaLengths := forall_mem_set_le h.isOpen.metaLengths (by omega) _, metaCode := by simp [hp] }

theorem DHState.Ranges.total_le {h : DHState} (hr : h.Ranges) : h.total ≤ 320 := Nat.add_le_add hr.hlit.2 hr.hdist.2

theorem DU.InHeader.dhLength {d : DU} {top : Nat} (h : d.InHeader top) (hi : d.dh.index < d.dh.total) {s : Nat} (hs : s < 16) :
    (d.dhLength s).InHeader top :=
  h.set
    { h.ranges with index := hi.trans_le h.ranges.total_le, clSize := List.length_set.trans h.ranges.clSize }
    { h.isOpen with lengths := forall_mem_set_le h.isOpen.lengths (by omega) _ }

theorem DU.InHeader.dhRepeat {d : DU} {top : Nat} (h : d.InHeader top) (hp : d.dh.phase = .sym) (s : Nat) : (d.dhRepeat s).InHeader top :=
  h.set { h.ranges with } { h.isOpen with unfinished := nofun, metaCode := fun _ => h.isOpen.metaCode (.inl hp) }

theorem setRun_keeps {v b : Nat} (hv : v ≤ b) (n : Nat) {l : List Nat} (h : ∀ x ∈ l, x ≤ b) (i : Nat) :
    (setRun v n l i).length = l.length ∧ ∀ x ∈ setRun v n l i, x ≤ b := by
  induction n generalizing l i with
  | zero => exact ⟨rfl, h⟩
  | succ n ih =>
    obtain ⟨hlen, hall⟩ := ih (forall_mem_set_le h hv i) (i + 1)
    exact ⟨hlen.trans List.length_set, hall⟩

theorem DHState.Open.repeated_le {h : DHState} (ho : h.Open) : h.repeated ≤ 15 := by
  unfold DHState.repeated
  split
  · exact getD_le_of_forall ho.lengths _
  · exact Nat.zero_le _
  · exact Nat.zero_le _

theorem DU.InHeader.dhFill {d : DU} {top : Nat} (h : d.InHeader top) (hp : d.dh.phase = .rep) {n : Nat}
    (hn : d.dh.index + n ≤ d.dh.total) : (d.dhFill n).InHeader top :=
  have hrun := setRun_keeps h.isOpen.repeated_le n h.isOpen.lengths d.dh.index
  h.set
    { h.ranges with index := hn.trans h.ranges.total_le, clSize := hrun.1.trans h.ranges.clSize }
    { h.isOpen with lengths := hrun.2, unfinished := nofun, metaCode := fun _ => h.isOpen.metaCode (.inr hp) }

/-- A complete header without an error gives codes to decode with (R348, 30_encoding.md R112). -/
theorem DU.InHeader.takeCodes {d : DU} {top : Nat} (h : d.InHeader top) (he : d.dh.headerErr = none) :
    (d.dhGo .done).takeCodes.Running top := by
  have hchecks := firstErr_eq_none.mp he
  have hlit : oversubscribed d.dh.litLens = false := hchecks (oversubscribed d.dh.litLens, .oversubscribed) (by simp)
  have hdist : oversubscribed d.dh.distLens = false := hchecks (oversubscribed d.dh.distLens, .oversubscribed) (by simp)
  have hcl := h.isOpen.lengths
  refine ⟨{ h.running.core with header := { h.ranges with } }, nofun, ⟨⟨fun l hl => ?_, hlit⟩, ⟨fun l hl => ?_, hdist⟩⟩⟩
  · exact hcl l (List.mem_of_mem_take hl)
  · exact hcl l (List.mem_of_mem_drop (List.mem_of_mem_take hl))

theorem DHState.hclenErr_sticky {h : DHState} {e : Err} (he : h.hclenErr = some e) : e.sticky = true := by
  have hmem := firstErr_mem he
  simp only [List.mem_cons, Prod.mk.injEq, List.not_mem_nil, or_false] at hmem
  rcases hmem with ⟨-, rfl⟩ | ⟨-, rfl⟩ <;> rfl

theorem DHState.headerErr_sticky {h : DHState} {e : Err} (he : h.headerErr = some e) : e.sticky = true := by
  have hmem := firstErr_mem he
  simp only [List.mem_cons, Prod.mk.injEq, List.not_mem_nil, or_false] at hmem
  rcases hmem with ⟨-, rfl⟩ | ⟨-, rfl⟩ | ⟨-, rfl⟩ <;> rfl

/-- After the header's loop: a complete header's codes can be taken; else the DU runs on. -/
@[reducible] def DU.HeaderEnds (top : Nat) (complete : Bool) (d : DU) : Prop :=
  if complete = true then d.takeCodes.Running top else d.Running top

theorem DU.dhLoop_ends {top : Nat} (m : Memory) (fuel : Nat) {d : DU} (h : d.InHeader top) :
    (DU.dhLoop m fuel d).Ends (DU.HeaderEnds top) (DU.Aborts top) := by
  have hdyn {e : DU} {k : Nat} (he : e.InHeader top) : e.mode.byteAligned = true → k % 8 = 0 := by rw [he.mode]; nofun
  induction fuel generalizing d with
  | zero => trivial
  | succ fuel ih =>
    simp only [DU.dhLoop]
    cases hp : d.dh.phase <;> simp only
    case hlit => exact h.running.needBits m (by decide) (hdyn h) (fun _ _ he => he) fun v e hs he hv => ih ((h.reader hs he).dhHlit hv)
    case hdist => exact h.running.needBits m (by decide) (hdyn h) (fun _ _ he => he) fun v e hs he hv => ih ((h.reader hs he).dhHdist hv)
    case hclen =>
      refine h.running.needBits m (by decide) (hdyn h) (fun _ _ he => he) fun v e hs he hv => ?_
      have hnext := (h.reader hs he).dhHclen hv
      split
      · next hfail => exact hnext.running.abort (DHState.hclenErr_sticky hfail)
      · exact ih hnext.dhGoClen
    case clen =>
      split
      · next hi =>
        refine h.running.needBits m (by decide) (hdyn h) (fun _ _ he => he) fun v e hs he hv => ih ?_
        exact (h.reader hs he).dhClen (by rw [hs]; exact hp) (by rw [hs]; exact hi) hv
      · split
        · exact h.running.abort rfl
        · next hk => exact ih (h.dhGoSym (eq_false_of_ne_true hk))
    case sym =>
      split
      · next hi =>
        have hmeta : ∀ l ∈ d.dh.metaLen, l ≤ 15 := fun l hl => (h.isOpen.metaLengths l hl).trans (by decide)
        refine h.running.decodeThen m hmeta (by rw [h.mode]; rfl) (fun _ _ he => he) fun s e hs he => ?_
        have hnext := h.reader hs he
        have hindex : e.dh.index < e.dh.total := by rw [hs]; exact hi
        split
        · next hlt => exact ih (hnext.dhLength hindex hlt)
        · split
          · exact he.abort rfl
          · exact ih (hnext.dhRepeat (by rw [hs]; exact hp) s)
      · split
        · next hfail => exact h.running.abort (DHState.headerErr_sticky hfail)
        · next hnone => exact h.takeCodes hnone
    case rep =>
      have hbits : d.dh.rsym.extraBase.1 ≤ 16 := by cases d.dh.rsym <;> decide
      refine h.running.needBits m hbits (hdyn h) (fun _ _ he => he) fun v e hs he _ => ?_
      split
      · exact he.abort rfl
      · next hfit => exact ih ((h.reader hs he).dhFill (by rw [hs]; exact hp) (Nat.le_of_not_lt hfit))
    case done => exact absurd hp h.isOpen.unfinished

/-! ## The symbol loop (R293 to R296) -/

theorem DU.room_of_free {d : DU} {n : Nat} (hfree : ¬ d.free < 258) (hn : n ≤ 258) : d.filled + n ≤ 65536 := by
  unfold DU.free DWIN at hfree
  omega

/-- A symbol's lengths lie between 3 and 258 (30_encoding.md R105). -/
theorem lengthSymbol_range {s : Nat} (hlow : 257 ≤ s) (hhigh : s ≤ 285) :
    3 ≤ baseL s ∧ extraL s ≤ 5 ∧ baseL s + 2 ^ extraL s ≤ 259 := by
  have hall : ∀ k < 29, 3 ≤ baseL (257 + k) ∧ extraL (257 + k) ≤ 5 ∧ baseL (257 + k) + 2 ^ extraL (257 + k) ≤ 259 := by decide
  have hk := hall (s - 257) (by omega)
  rwa [Nat.add_sub_cancel' hlow] at hk

/-- A symbol's distances lie between 1 and 32768 (30_encoding.md R106). -/
theorem distSymbol_range : ∀ s < 30, 1 ≤ baseD s ∧ extraD s ≤ 13 ∧ baseD s + 2 ^ extraD s ≤ 32769 := by
  decide

theorem DU.Running.takeLength {d : DU} {top : Nat} (h : d.Running top) (hm : d.mode = .huf) {s : Nat} (hlow : 257 ≤ s) (hhigh : s ≤ 285) :
    (d.takeLength s).Running top := by
  obtain ⟨hbase, hfew, hmax⟩ := lengthSymbol_range hlow hhigh
  have hcodes : d.CodesInv := h.inMode hm
  refine ⟨{ h.core with }, nofun, { hcodes with }, ?_⟩
  constructor <;> simp only [DU.takeLength, hbase, hfew, hmax]

theorem DU.Running.takeDist {d : DU} {top : Nat} (h : d.Running top) (hm : d.mode = .hufD) {s : Nat} (hs : s ≤ 29) :
    (d.takeDist s).Running top := by
  obtain ⟨hbase, hfew, hmax⟩ := distSymbol_range s (by omega)
  obtain ⟨hcodes, hlen⟩ := h.inMode hm
  have hhigh : baseD s ≤ 32768 := by have := Nat.one_le_two_pow (n := extraD s); omega
  exact ⟨{ h.core with rdist := hhigh }, nofun, ⟨{ hcodes with }, ⟨{ hlen with }, ⟨hbase, hfew, hmax⟩⟩⟩⟩

/-- A length complete with its extra bits (R294). -/
theorem DU.Running.lengthRead {d : DU} {top : Nat} (h : d.Running top) (hm : d.mode = .hufLb) {v : Nat} (hv : v < 2 ^ d.needed) :
    ({ d with rlen := d.rlen + v, mode := .hufD } : DU).Running top := by
  obtain ⟨hcodes, hlow, hfew, hhigh⟩ := h.inMode hm
  exact ⟨{ h.core with }, nofun, ⟨{ hcodes with }, ⟨by simp only; omega, by simp only; omega⟩⟩⟩

/-- With bytes written, the DU can go on to the next symbol. -/
theorem DU.Written.goHuf {d e : DU} {top n : Nat} (hw : DU.Written n d e) (hd : d.Core top) (hc : d.CodesInv) : (e.go .huf).Running top := by
  have hcore := hw.core hd
  obtain ⟨owin, wend, hist, rfl, -⟩ := hw
  exact ⟨{ hcore with }, nofun, { hc with }⟩

/-- A distance complete with its extra bits: too far, or replayed (R296). -/
theorem DU.Running.distRead {d : DU} {top : Nat} (h : d.Running top) (hm : d.mode = .hufDb) {v : Nat} (hv : v < 2 ^ d.needed) :
    ({ d with rdist := d.rdist + v } : DU).Core top ∧ DU.Aborts top .distanceTooFar { d with rdist := d.rdist + v } := by
  obtain ⟨-, -, hlow, -, hhigh⟩ := h.inMode hm
  obtain ⟨hsticky, hinv⟩ := h.abort (e := .distanceTooFar) rfl
  have hle : d.rdist + v ≤ 32768 := by omega
  have hge : 1 ≤ d.rdist + v := by omega
  exact ⟨{ h.core with rdist := hle }, hsticky, { hinv with rdist := hle, distLow := fun _ => hge, distBits := nofun }⟩

theorem DU.hufLoop_ends {top : Nat} (m : Memory) (fuel : Nat) {d : DU} (h : d.Running top) : DU.Keeps top (DU.hufLoop m fuel d) := by
  induction fuel generalizing d with
  | zero => trivial
  | succ fuel ih =>
    simp only [DU.hufLoop]
    split
    · exact h
    · next hfree =>
      cases hm : d.mode <;> simp only
      case huf =>
        have hcodes : d.CodesInv := h.inMode hm
        refine h.decodeThen m hcodes.lit.1 (by rw [hm]; rfl) (fun _ _ he => he) fun s e hs he => ?_
        have hem : e.mode = .huf := by rw [hs]; exact hm
        split
        · have hroom : e.filled + 1 ≤ 65536 := by rw [hs]; exact DU.room_of_free hfree (by decide)
          have hnext := (he.core.window.wput hroom s).goHuf he.core (he.inMode hem)
          have hgo : (e.wput s).go .huf = e.wput s := by simp only [DU.go, DU.wput, DU.putHistory, hem]
          exact ih (hgo ▸ hnext)
        · split
          · exact he.go nofun trivial
          · split
            · exact he.abort rfl
            · exact ih (he.takeLength hem (by omega) (by omega))
      case hufLb =>
        obtain ⟨-, -, hfew, -⟩ := h.inMode hm
        refine h.withExtra m (by omega) (by rw [hm]; rfl) (fun _ _ he => he) fun v e hs he hv => ?_
        exact ih (he.lengthRead (by rw [hs]; exact hm) (by rw [hs]; exact hv))
      case hufD =>
        obtain ⟨hcodes, -⟩ := h.inMode hm
        refine h.decodeThen m hcodes.dist.1 (by rw [hm]; rfl) (fun _ _ he => he) fun s e hs he => ?_
        split
        · exact he.abort rfl
        · exact ih (he.takeDist (by rw [hs]; exact hm) (by omega))
      case hufDb =>
        obtain ⟨-, -, -, hfew, -⟩ := h.inMode hm
        refine h.withExtra m (by omega) (by rw [hm]; rfl) (fun _ _ he => he) fun v e hs he hv => ?_
        have hem : e.mode = .hufDb := by rw [hs]; exact hm
        obtain ⟨hcodes, hlen, -⟩ := he.inMode hem
        obtain ⟨hcore, habort⟩ := he.distRead hem (v := v) (by rw [hs]; exact hv)
        split
        · exact habort
        · have hroom : e.filled + e.rlen ≤ 65536 := by
            have hef : e.filled = d.filled := by rw [hs]
            rw [hef]; exact DU.room_of_free hfree hlen.high
          exact ih ((hcore.window.replay _ hroom).goHuf hcore { hcodes with })
      all_goals exact h

/-! ## A decode step (R283, R292) -/

theorem DU.Running.stepDyn {d : DU} {top : Nat} (h : d.Running top) (hm : d.mode = .dyn) (m : Memory) : DU.Keeps top (d.stepDyn m) := by
  refine (DU.dhLoop_ends m _ ⟨h, hm⟩).bind fun complete e he => ?_
  cases complete with
  | true => exact DU.hufLoop_ends m _ he
  | false => exact he

theorem DU.Running.step {d : DU} {top : Nat} (h : d.Running top) (m : Memory) : DU.Keeps top (d.step m) := by
  unfold DU.step
  cases hm : d.mode <;> simp only
  case header => exact h.stepHeader hm m
  case dict => exact h.stepDict hm m
  case blocks =>
    split
    · exact h.stepLast
    · exact h.stepBlock hm m
  case slen1 => exact h.stepSlen1 hm m
  case slen2 => exact h.stepSlen2 hm m
  case stored => exact h.stepStored hm m
  case dyn => exact h.stepDyn hm m
  case huf | hufLb | hufD | hufDb => exact DU.hufLoop_ends m _ h
  case chk => exact h.stepChk hm m
  case fin => exact h

end Sys2Proof.Machine

/-! PROOFS. Every step keeps the DU's invariant (10_state.md R46; 44_decompressor.md R280 to R284, R299). -/

namespace Sys2Proof.Machine

/-! ## D.INFLATE (R284) -/

/-- Delivering output keeps the DU running. -/
theorem Xfer.deliver_running {top : Nat} {x : Xfer DU} (h : x.unit.Running top) : x.deliver.unit.Running top := by
  unfold Xfer.deliver
  split
  · exact h
  · exact h.alike ⟨rfl, rfl, rfl, rfl, rfl, rfl, rfl, rfl, rfl, Nat.sub_le _ _⟩
      { h.core with filled := (Nat.sub_le _ _).trans h.core.filled } h.aligned

theorem Xfer.step_ends {top : Nat} {x : Xfer DU} (h : x.unit.Running top) :
    x.step.Ends (fun _ y => y.unit.Running top) fun e y => DU.Aborts top e y.unit :=
  Run.Ends.within (h.step x.mem)

theorem inflateLoop_ends {top : Nat} (fuel : Nat) {x : Xfer DU} (h : x.unit.Running top) :
    (inflateLoop fuel x).Ends (fun _ y => y.unit.Running top) fun e y => DU.Aborts top e y.unit := by
  induction fuel generalizing x with
  | zero => trivial
  | succ fuel ih =>
    have hdeliver := Xfer.deliver_running h
    simp only [inflateLoop]
    split
    · exact hdeliver
    · refine (Xfer.step_ends hdeliver).bind fun more y hy => ?_
      split
      · exact ih hy
      · exact hy

theorem inflateRun_ends {top : Nat} {x : Xfer DU} (h : x.unit.Running top) :
    (inflateRun x).Ends (fun _ y => y.unit.Running top) fun e y => DU.Aborts top e y.unit := by
  unfold inflateRun
  split
  · split
    · exact h
    · exact (Xfer.step_ends h).bind fun _ _ hy => hy
  · exact inflateLoop_ends _ h

/-! ## The other commands -/

/-- A reset DU, whatever its framing, but for the codes and the parser's registers, which it keeps (R299). -/
theorem DU.Inv.reset {d : DU} {top : Nat} (h : d.Inv top) (nohdr : Bool) : ({ d with nohdr := nohdr } : DU).reset.Inv top := by
  refine DU.Running.inv ⟨?_, ?_, ?_⟩
  · exact {
      fault := rfl, binding := Nat.le_refl 0, bindingHigh := Nat.zero_le _, reservoir := (by decide : 0 < 2 ^ 0), count := Nat.zero_le _
      wend := (by decide : 0 < 65536), filled := Nat.le_refl 0, hist := Nat.zero_le _, rdist := Nat.zero_le _, header := h.headerRanges }
  · exact fun _ => rfl
  · cases nohdr
    · exact ⟨rfl, rfl, rfl⟩
    · trivial

theorem DU.Running.bind {d : DU} {top : Nat} (h : d.Running top) {a n : Nat} (hn : a + n ≤ top) (b : DWord) :
    ({ d with inPtr := a, inEnd := a + n, bound := b } : DU).Running top :=
  h.alike ⟨rfl, rfl, rfl, rfl, rfl, rfl, rfl, rfl, rfl, le_refl _⟩
    { h.core with binding := Nat.le_add_right _ _, bindingHigh := hn } h.aligned

/-- Bytes put into the history, none of them to be delivered (R282). -/
theorem DU.Core.putHistory {d : DU} {top : Nat} (h : d.Core top) (b : Nat) : (d.putHistory b).Core top :=
  { h with
    wend := Nat.mod_lt _ (by decide)
    filled := le_min (h.filled.trans (Nat.le_succ _)) (h.filled.trans h.hist)
    hist := min_le_right _ _ }

theorem DU.Core.putAll {top : Nat} (bs : List Byte) {d : DU} (h : d.Core top) :
    (bs.foldl (fun d b => d.putHistory b.toNat) d).Core top := by
  induction bs generalizing d with
  | nil => exact h
  | cons b bs ih => exact ih (h.putHistory b.toNat)

theorem DU.Core.go {d : DU} {top : Nat} (h : d.Core top) (k : DMode) : (d.go k).Core top := { h with }

theorem DU.Core.loadDict {d : DU} {top : Nat} (h : d.Core top) (bytes : List Byte) : (d.loadDict bytes).Core top := by
  have hstart : ({ d with adler := 1 } : DU).Core top := { h with }
  exact (hstart.putAll (bytes.drop (bytes.length - DWIN))).go .blocks

/-- With its dictionary the DU goes on to the blocks. -/
theorem DU.Running.loadDict {d : DU} {top : Nat} (h : d.Running top) (bytes : List Byte) : (d.loadDict bytes).Running top :=
  ⟨h.core.loadDict bytes, nofun, trivial⟩

/-! ## Every step -/

/-- A command whose checks raise no aborting error keeps what holds of the DU, if its effect does. -/
theorem State.guardDU_keeps {s t : State} {P : DU → Prop} (hs : P s.du) {checks : List (Bool × Err)}
    {effect : Host.Outcome State Fault Refusal} (hc : ∀ c ∈ checks, c.2.sticky = false)
    (heffect : (∀ c ∈ checks, c.1 = false) → effect = .next t → P t.du) (h : s.guardDU checks effect = .next t) : P t.du := by
  rcases State.guardDU_cases h with ⟨e, -, hmem, rfl⟩ | ⟨hnone, h⟩
  · rw [State.raise_of_not_sticky (hc _ hmem)]
    exact hs
  · exact heffect (firstErr_eq_none.mp hnone) h

/-- The buffer commands' own check, and a DU that is not aborted, where the checks pass. -/
theorem State.guardDU_buffer_keeps {s t : State} {top : Nat} (hs : s.du.Inv top) {c : Bool × Err} (hc : c.2.sticky = false)
    {effect : Host.Outcome State Fault Refusal}
    (heffect : s.bufferWraps = false → s.du.Running top → c.1 = false → effect = .next t → t.du.Inv top)
    (h : s.guardDU (s.duBufferChecks ++ [c]) effect = .next t) : t.du.Inv top := by
  refine State.guardDU_keeps (P := fun d => d.Inv top) hs ?_ (fun hpass => ?_) h
  · simpa [State.duBufferChecks, Err.sticky, Err.classSub] using hc
  · have hfault : s.du.fault.isSome = false := hpass (s.du.fault.isSome, .aborted) (by simp [State.duBufferChecks])
    exact heffect (hpass (s.bufferWraps, .rangeAddress) (by simp [State.duBufferChecks])) (hs.running (by simpa using hfault))
      (hpass c (by simp))

theorem execDSetInput_keeps {s t : State} (hs : s.du.Inv (2 ^ s.params.aw)) (h : execDSetInput s = .next t) :
    t.du.Inv (2 ^ s.params.aw) := by
  refine State.guardDU_buffer_keeps hs rfl (fun hfits hrun _ he => ?_) h
  cases he
  exact (hrun.bind (by simpa [State.bufferWraps] using hfits) _).inv

/-- The DU's state after an aborting error is the one that Aborts speaks of. -/
theorem State.raise_keeps_du {s : State} {top : Nat} {e : Err} (h : DU.Aborts top e s.du) (n : Nat) : (s.raise .du e n).du.Inv top := by
  rw [State.raise_du_of_sticky h.1]
  exact h.2

theorem execDSetDict_keeps {s t : State} {top : Nat} (hs : s.du.Inv top) (h : execDSetDict s = .next t) : t.du.Inv top := by
  refine State.guardDU_buffer_keeps hs rfl (fun _ hrun _ he => ?_) h
  split at he <;> cases he
  · exact (hrun.loadDict _).inv
  · exact State.raise_keeps_du (hrun.abort rfl) 0

theorem execDInflate_keeps {s t : State} {top : Nat} (hs : s.du.Inv top) (h : execDInflate s = .next t) : t.du.Inv top := by
  refine State.guardDU_buffer_keeps hs rfl (fun _ hrun _ he => ?_) h
  have hends := inflateRun_ends (x := { unit := s.du, mem := s.mem, dest := s.argAddr, left := s.argLen }) hrun
  rcases State.endDU_cases he with ⟨x, hx, rfl⟩ | ⟨e, x, hx, rfl⟩ <;> rw [hx] at hends
  · exact hends.inv
  · exact State.raise_keeps_du (s := { s with du := x.unit, mem := x.mem }) hends _

theorem exec_keeps_du {i : Instr} {s t : State} (hs : s.du.Inv (2 ^ s.params.aw)) (h : exec i s = .next t) :
    t.du.Inv (2 ^ s.params.aw) := by
  have hframe := (exec_frame h).du
  cases i
  case dConfig nohdr => cases h; exact hs.reset nohdr
  case dSetInput => exact execDSetInput_keeps hs h
  case dSetDict => exact execDSetDict_keeps hs h
  case dInflate => exact execDInflate_keeps hs h
  case dReset => cases h; exact hs.reset s.du.nohdr
  case dIsFinished | dIsNeedingInput | dAdler | dTotalIn | dTotalOut | dIsNeedingDict => cases h; exact hs
  case cConfig level strategy nohdr => rw [hframe (Instr.unit_cConfig level strategy nohdr)]; exact hs
  case cSetInput | cSetDict | cDeflate | cFlush | cFinish | cReset | cIsFinished | cIsNeedingInput | cAdler | cTotalIn | cTotalOut =>
    rw [hframe rfl]; exact hs

/-- Settles O59: a command of the DU keeps the invariant, D.INFLATE as each decode step does; every other step leaves the DU as it is. -/
theorem decompressorInvariantKept : Obligations.DecompressorInvariantKept := by
  intro s t hs h
  obtain ⟨hparams, ⟨-, hdu⟩ | ⟨i, hi⟩⟩ := step_units h
  · rw [hparams, hdu]; exact hs
  · rw [hparams]; exact exec_keeps_du (s := s.takeCmd) hs hi

end Sys2Proof.Machine

/-! PROOFS. Every step keeps host memory in its form and the port's responses listed (20_memory.md R70; 10_state.md R22, R23): a transfer only
delivers bytes into the room of its buffer, and every command ends in a success or in a listed error. -/

namespace Sys2Proof.Machine

/-! ## What a transfer keeps (20_memory.md R79) -/

/-- A property of a transfer that a change of its unit keeps, and a delivery of bytes that there is room for: all that the loops of the two
transfers do (43_compressor.md R243, 44_decompressor.md R284), so they keep it. -/
structure Xfer.Closed {σ : Type} (P : Xfer σ → Prop) : Prop where
  unit : ∀ x u, P x → P { x with unit := u }
  deliver : ∀ x u bs, bs.length ≤ x.left → P x →
    P { unit := u, mem := x.mem.writeBytes x.dest bs, dest := x.dest + bs.length, left := x.left - bs.length }

theorem Xfer.Closed.run {σ α : Type} {P : Xfer σ → Prop} (hP : Xfer.Closed P) {x : Xfer σ} (h : P x) (r : Run σ α) :
    (x.run r).Ends (fun _ => P) fun _ => P :=
  Run.Ends.within (r.ends_true.mono (fun _ u _ => hP.unit x u h) fun _ u _ => hP.unit x u h)

theorem Xfer.Closed.flush {P : Xfer CU → Prop} (hP : Xfer.Closed P) {x : Xfer CU} (h : P x) : P x.flush := by
  obtain ⟨k, hk, e⟩ := x.flush_spec
  have hlen : (x.unit.out.settle.fifo.take k).length = k := by rw [List.length_take]; omega
  have hd := hP.deliver x x.flush.unit (x.unit.out.settle.fifo.take k) (by omega) h
  rw [hlen] at hd
  rw [e] at hd ⊢
  exact hd

theorem Xfer.Closed.copyOut {P : Xfer DU → Prop} (hP : Xfer.Closed P) {x : Xfer DU} (h : P x) : P x.copyOut := by
  have hlen : (x.unit.oldest (min x.left x.unit.filled)).length = min x.left x.unit.filled := by simp [DU.oldest]
  have hd := hP.deliver x x.copyOut.unit (x.unit.oldest (min x.left x.unit.filled)) (by omega) h
  rw [hlen] at hd
  exact hd

theorem Xfer.Closed.deflateLoop {P : Xfer CU → Prop} (hP : Xfer.Closed P) (fuel : Nat) {x : Xfer CU} (h : P x) :
    (Machine.deflateLoop fuel x).Ends (fun _ => P) fun _ => P := by
  induction fuel generalizing x with
  | zero => trivial
  | succ fuel ih =>
    simp only [Machine.deflateLoop]
    split
    · exact hP.flush h
    · refine (hP.run (hP.flush h) _).bind fun progress y hy => ?_
      split
      · exact ih hy
      · refine (hP.run hy _).bind fun again z hz => ?_
        split
        · exact ih hz
        · exact hz

theorem Xfer.Closed.deflateRun {P : Xfer CU → Prop} (hP : Xfer.Closed P) {x : Xfer CU} (h : P x) :
    (Machine.deflateRun x).Ends (fun _ => P) fun _ => P :=
  (hP.run h _).bind fun _ _ hy => hP.deflateLoop _ hy

theorem Xfer.Closed.deliverDU {P : Xfer DU → Prop} (hP : Xfer.Closed P) {x : Xfer DU} (h : P x) : P x.deliver := by
  unfold Xfer.deliver
  split
  · exact h
  · exact hP.copyOut h

theorem Xfer.Closed.inflateLoop {P : Xfer DU → Prop} (hP : Xfer.Closed P) (fuel : Nat) {x : Xfer DU} (h : P x) :
    (Machine.inflateLoop fuel x).Ends (fun _ => P) fun _ => P := by
  induction fuel generalizing x with
  | zero => trivial
  | succ fuel ih =>
    simp only [Machine.inflateLoop]
    split
    · exact hP.deliverDU h
    · refine (hP.run (hP.deliverDU h) _).bind fun more y hy => ?_
      split
      · exact ih hy
      · exact hy

theorem Xfer.Closed.inflateRun {P : Xfer DU → Prop} (hP : Xfer.Closed P) {x : Xfer DU} (h : P x) :
    (Machine.inflateRun x).Ends (fun _ => P) fun _ => P := by
  unfold Machine.inflateRun
  split
  · split
    · exact h
    · exact (hP.run h _).bind fun _ _ hy => hy
  · exact hP.inflateLoop _ h

/-! ## Host memory (R70) -/

/-- A memory in canonical form that lists no address from `top` on. -/
structure Memory.Inside (top : Nat) (m : Memory) : Prop where
  canonical : m.wf = true
  inside : ∀ c ∈ m, c.1 < top

theorem State.memInv_iff {s : State} : s.MemInv ↔ s.mem.Inside (2 ^ s.params.aw) :=
  ⟨fun ⟨hwf, hin⟩ => ⟨hwf, hin⟩, fun ⟨hwf, hin⟩ => ⟨hwf, hin⟩⟩

theorem Memory.Inside.write {top : Nat} {m : Memory} (h : m.Inside top) {a : Nat} (ha : a < top) (b : Byte) : (m.write a b).Inside top := by
  refine ⟨Memory.wf_write h.canonical a b, fun c hc => ?_⟩
  rcases Memory.mem_write hc with hc | rfl
  · exact h.inside c hc
  · exact ha

theorem Memory.Inside.writeBytes {top : Nat} {m : Memory} (h : m.Inside top) {a : Nat} {bs : List Byte} (ha : a + bs.length ≤ top) :
    (m.writeBytes a bs).Inside top := by
  refine ⟨Memory.wf_writeBytes h.canonical a bs, fun c hc => ?_⟩
  rcases Memory.mem_writeBytes hc with hc | ⟨-, hlt⟩
  · exact h.inside c hc
  · exact hlt.trans_le ha

/-- A transfer whose memory and remaining room lie below `top`. -/
structure Xfer.Inside {σ : Type} (top : Nat) (x : Xfer σ) : Prop where
  mem : x.mem.Inside top
  room : x.dest + x.left ≤ top

theorem Xfer.closed_inside {σ : Type} (top : Nat) : Xfer.Closed (σ := σ) (Xfer.Inside top) where
  unit _ _ h := ⟨h.mem, h.room⟩
  deliver x u bs hbs h := by
    have hroom := h.room
    exact ⟨h.mem.writeBytes (by omega), by simp only; omega⟩

/-! ## Every command -/

/-- The port holds the response of a success, or of a listed error (10_state.md R23, 60_exceptions.md R363). -/
def State.Answered (s : State) : Prop :=
  (s.port.errcode = 0 ∧ s.port.lasterr = false) ∨ ∃ e : Err, s.port.errcode = e.code ∧ s.port.lasterr = true

theorem State.succeed_answered (r : DWord) (s : State) : (s.succeed r).Answered := .inl ⟨rfl, rfl⟩

@[simp] theorem State.raise_port (u : UnitId) (e : Err) (n : Nat) (s : State) :
    (s.raise u e n).port = { s.port with result := BitVec.ofNat 64 n, errcode := e.code, lasterr := true } :=
  (s.raise_fields u e n).2.2.2.1

@[simp] theorem State.raise_mem (u : UnitId) (e : Err) (n : Nat) (s : State) : (s.raise u e n).mem = s.mem := (s.raise_fields u e n).2.1

@[simp] theorem State.raise_params (u : UnitId) (e : Err) (n : Nat) (s : State) : (s.raise u e n).params = s.params :=
  (s.raise_fields u e n).1

theorem State.raise_answered (u : UnitId) (e : Err) (n : Nat) (s : State) : (s.raise u e n).Answered := .inr ⟨e, by simp, by simp⟩

/-- Where the range check is the first and none fails, the buffer lies in the address space (R72). -/
theorem State.fits_of_firstErr {s : State} {e : Err} {checks : List (Bool × Err)} (h : firstErr ((s.bufferWraps, e) :: checks) = none) :
    s.argAddr + s.argLen ≤ 2 ^ s.params.aw := by
  have hwraps : s.bufferWraps = false := firstErr_eq_none.mp h (s.bufferWraps, e) (by simp)
  simpa [State.bufferWraps] using hwraps

/-- A command leaves a listed response in the port, and host memory in its form. -/
structure State.Kept (s t : State) : Prop where
  answered : t.Answered
  mem : s.mem.Inside (2 ^ s.params.aw) → t.mem.Inside (2 ^ s.params.aw)

theorem State.Kept.raise (u : UnitId) (e : Err) (n : Nat) (s : State) : s.Kept (s.raise u e n) :=
  ⟨s.raise_answered u e n, by simp⟩

theorem State.Ordinary.kept {u : UnitId} {s t : State} (h : s.Ordinary u t) : s.Kept t := by
  refine ⟨?_, fun hs => h.frame.2 ▸ hs⟩
  rcases h with ⟨e, rfl⟩ | ⟨-, c, r, rfl⟩ | ⟨-, d, r, rfl⟩
  · exact s.raise_answered u e 0
  · exact State.succeed_answered r _
  · exact State.succeed_answered r _

theorem execCDeflate_kept {s t : State} (h : execCDeflate s = .next t) : s.Kept t := by
  rcases State.guardCU_cases h with ⟨e, -, -, rfl⟩ | ⟨hpass, h⟩
  · exact .raise .cu e 0 s
  · have hends (hs : s.mem.Inside (2 ^ s.params.aw)) :=
      (Xfer.closed_inside (2 ^ s.params.aw)).deflateRun (x := { unit := s.cu, mem := s.mem, dest := s.argAddr, left := s.argLen })
        ⟨hs, State.fits_of_firstErr hpass⟩
    rcases State.endCU_cases h with ⟨x, hx, rfl⟩ | ⟨e, x, hx, rfl⟩ <;> rw [hx] at hends
    · exact ⟨State.succeed_answered _ _, fun hs => (hends hs).mem⟩
    · exact ⟨State.raise_answered _ _ _ _, fun hs => by simpa using (hends hs).mem⟩

theorem execDInflate_kept {s t : State} (h : execDInflate s = .next t) : s.Kept t := by
  rcases State.guardDU_cases h with ⟨e, -, -, rfl⟩ | ⟨hpass, h⟩
  · exact .raise .du e 0 s
  · have hends (hs : s.mem.Inside (2 ^ s.params.aw)) :=
      (Xfer.closed_inside (2 ^ s.params.aw)).inflateRun (x := { unit := s.du, mem := s.mem, dest := s.argAddr, left := s.argLen })
        ⟨hs, State.fits_of_firstErr hpass⟩
    rcases State.endDU_cases h with ⟨x, hx, rfl⟩ | ⟨e, x, hx, rfl⟩ <;> rw [hx] at hends
    · exact ⟨State.succeed_answered _ _, fun hs => (hends hs).mem⟩
    · exact ⟨State.raise_answered _ _ _ _, fun hs => by simpa using (hends hs).mem⟩

theorem exec_kept {i : Instr} {s t : State} (h : exec i s = .next t) : s.Kept t := by
  by_cases hc : i = .cDeflate
  · subst hc; exact execCDeflate_kept h
  · by_cases hd : i = .dInflate
    · subst hd; exact execDInflate_kept h
    · exact (exec_ordinary h hc hd).kept

/-! ## Every step -/

theorem State.Kept.of_takeCmd {s t : State} (h : s.takeCmd.Kept t) : s.Kept t := ⟨h.answered, h.mem⟩

theorem State.Kept.invariants {s t : State} (h : s.Kept t) (hparams : t.params = s.params) (haddr : t.port.argAddr = s.port.argAddr) :
    (s.MemInv → t.MemInv) ∧ (s.PortInv → t.PortInv) := by
  refine ⟨fun hm => State.memInv_iff.mpr ?_, fun hp => ⟨?_, h.answered⟩⟩
  · rw [hparams]; exact h.mem (State.memInv_iff.mp hm)
  · rw [hparams, haddr]; exact hp.argAddr

/-- A write of a port register cuts an address to the address space, and leaves the response and host memory alone (R22). -/
theorem State.PortInv.writePort {s : State} (h : s.PortInv) (r : PortReg) (v : DWord) : (s.writePort r v).PortInv := by
  cases r
  case argAddr => exact ⟨Nat.mod_lt _ (Nat.two_pow_pos _), h.response⟩
  all_goals exact ⟨h.argAddr, h.response⟩

theorem State.MemInv.writePort {s : State} (h : s.MemInv) (r : PortReg) (v : DWord) : (s.writePort r v).MemInv := by
  cases r <;> exact ⟨h.canonical, h.inside⟩

/-- Settles O57: a command keeps both by its response and its transfer; the host writes inside the address space only. -/
theorem memoryAndPortInvariantKept : Obligations.MemoryAndPortInvariantKept := by
  intro s t h
  rcases step_cases h with ⟨w, e, -, -, rfl⟩ | ⟨w, i, -, -, hi⟩ | ⟨-, -, rfl⟩ | ⟨r, v, rest, -, -, rfl⟩ | ⟨a, b, rest, -, -, ha, rfl⟩
  · exact (State.Kept.raise .cu (illegalErr e) 0 s.takeCmd).of_takeCmd.invariants (by simp) (by simp [State.takeCmd])
  · exact (exec_kept hi).of_takeCmd.invariants (exec_frame hi).params (exec_frame hi).argAddr
  · exact ⟨id, id⟩
  · exact ⟨fun hm => State.MemInv.writePort (s := { s with host := rest }) ⟨hm.canonical, hm.inside⟩ r v,
      fun hp => State.PortInv.writePort (s := { s with host := rest }) ⟨hp.argAddr, hp.response⟩ r v⟩
  · exact ⟨fun hm => State.memInv_iff.mpr ((State.memInv_iff.mp hm).write ha b), fun hp => ⟨hp.argAddr, hp.response⟩⟩

end Sys2Proof.Machine

/-! PROOFS. A buffer that wraps the address space is refused first, and ADDRESS tells of nothing else (20_memory.md R72): what a command raises
after its checks aborts its unit's stream, as a RANGE error does not (60_exceptions.md R361, R364). -/

namespace Sys2Proof.Machine

/-! ## Procedures that raise aborting errors only -/

/-- Every error that the procedure raises aborts the unit's stream. -/
@[reducible] def Run.OnlyAborts {σ α : Type} (r : Run σ α) : Prop := r.Ends (fun _ _ => True) fun e _ => e.sticky = true

theorem Run.OnlyAborts.bind {σ α β : Type} {r : Run σ α} {f : α → σ → Run σ β} (h : r.OnlyAborts) (hf : ∀ a s, (f a s).OnlyAborts) :
    (r.bind f).OnlyAborts :=
  Run.Ends.bind h fun a s _ => hf a s

theorem Run.OnlyAborts.within {σ τ α : Type} {r : Run σ α} (h : r.OnlyAborts) (put : σ → τ) : (r.within put).OnlyAborts :=
  Run.Ends.within h

/-! ## The CU's header (43_compressor.md R244) -/

theorem BitOut.writeBlock_onlyAborts (o : BitOut) (bs : List Byte) : (o.writeBlock bs).OnlyAborts := by
  unfold BitOut.writeBlock
  split
  · trivial
  · exact rfl

theorem BitOut.writeByte_onlyAborts (o : BitOut) (b : Nat) : (o.writeByte b).OnlyAborts := o.writeBlock_onlyAborts _

theorem BitOut.writeShortMSB_onlyAborts (o : BitOut) (v : Nat) : (o.writeShortMSB v).OnlyAborts :=
  (o.writeByte_onlyAborts _).bind fun _ o => o.writeByte_onlyAborts _

theorem BitOut.writeAdler_onlyAborts (o : BitOut) (a : Word) : (o.writeAdler a).OnlyAborts :=
  (o.writeShortMSB_onlyAborts _).bind fun _ o => o.writeShortMSB_onlyAborts _

theorem CU.startStream_onlyAborts (c : CU) : c.startStream.OnlyAborts := by
  unfold CU.startStream
  split
  · refine (((c.out.writeByte_onlyAborts _).bind fun _ o => o.writeByte_onlyAborts _).within _).bind fun _ c =>
      Run.OnlyAborts.bind ?_ fun _ _ => trivial
    split
    · exact ((c.out.writeAdler_onlyAborts _).within _).bind fun _ _ => trivial
    · trivial
  · trivial

/-- The loop of C.DEFLATE without room. -/
theorem deflateLoop_of_full (fuel : Nat) {x : Xfer CU} (h : x.left = 0) : deflateLoop (fuel + 1) x = .done () x.flush := by
  simp [deflateLoop, Xfer.flush, h]

theorem deflateRun_onlyAborts {x : Xfer CU} (h : x.left = 0) : (deflateRun x).OnlyAborts := by
  refine Run.Ends.bind (P := fun _ y => y.left = 0) (Run.Ends.within (x.unit.startStream_onlyAborts.mono (fun _ _ _ => h) fun _ _ he => he))
    fun _ y hy => ?_
  rw [deflateLoop_of_full _ hy]
  trivial

/-! ## A decode step of the DU (44_decompressor.md R283) -/

theorem needBits_onlyAborts (r : Option Nat × DU) {f : Nat → DU → Run DU Bool} (h : ∀ v d, (f v d).OnlyAborts) : (needBits r f).OnlyAborts := by
  obtain ⟨v, d⟩ := r
  cases v with
  | none => trivial
  | some v => exact h v d

theorem decodeFrom_onlyAborts (m : Memory) (codes : List (Nat × Nat)) (left l c : Nat) (d : DU) : (decodeFrom m codes left l c d).OnlyAborts := by
  induction left generalizing l c d with
  | zero => exact rfl
  | succ left ih =>
    simp only [decodeFrom]
    split
    · trivial
    · split
      · trivial
      · split
        · trivial
        · split
          · exact ih _ _ _
          · exact rfl

theorem DU.decodeThen_onlyAborts (d : DU) (m : Memory) (lens : List Nat) {f : Nat → DU → Run DU Bool} (h : ∀ s d, (f s d).OnlyAborts) :
    (d.decodeThen m lens f).OnlyAborts :=
  Run.OnlyAborts.bind (decodeFrom_onlyAborts m _ _ _ _ d) fun _ _ => needBits_onlyAborts _ h

theorem DU.withExtra_onlyAborts (d : DU) (m : Memory) {f : Nat → DU → Run DU Bool} (h : ∀ v d, (f v d).OnlyAborts) :
    (d.withExtra m f).OnlyAborts := by
  unfold DU.withExtra
  split
  · exact needBits_onlyAborts _ h
  · exact h 0 d

theorem DU.stepHeader_onlyAborts (d : DU) (m : Memory) : (d.stepHeader m).OnlyAborts := by
  refine needBits_onlyAborts _ fun v d => ?_
  simp only
  split
  · exact rfl
  · split
    · exact rfl
    · split <;> trivial

theorem DU.readAdlerField_onlyAborts (m : Memory) (n : Nat) (d : DU) : (DU.readAdlerField m n d).OnlyAborts := by
  induction n generalizing d with
  | zero => trivial
  | succ n ih =>
    simp only [DU.readAdlerField]
    split
    · exact needBits_onlyAborts _ fun v d => ih _
    · trivial

theorem DU.stepLast_onlyAborts (d : DU) : d.stepLast.OnlyAborts := by
  unfold DU.stepLast
  split
  · trivial
  · split <;> trivial

theorem DU.stepBlock_onlyAborts (d : DU) (m : Memory) : (d.stepBlock m).OnlyAborts := by
  refine needBits_onlyAborts _ fun t d => ?_
  split
  · trivial
  · split
    · trivial
    · split
      · trivial
      · exact rfl

theorem DU.stepStored_onlyAborts (d : DU) (m : Memory) : (d.stepStored m).OnlyAborts := by
  simp only [DU.stepStored]
  split <;> trivial

theorem DU.stepSlen2_onlyAborts (d : DU) (m : Memory) : (d.stepSlen2 m).OnlyAborts := by
  refine needBits_onlyAborts _ fun v d => ?_
  split
  · exact rfl
  · exact DU.stepStored_onlyAborts _ m

theorem DU.stepChk_onlyAborts (d : DU) (m : Memory) : (d.stepChk m).OnlyAborts := by
  refine (DU.readAdlerField_onlyAborts m _ d).bind fun complete d => ?_
  split
  · trivial
  · split
    · exact rfl
    · trivial

theorem DU.hufLoop_onlyAborts (m : Memory) (fuel : Nat) (d : DU) : (DU.hufLoop m fuel d).OnlyAborts := by
  induction fuel generalizing d with
  | zero => trivial
  | succ fuel ih =>
    simp only [DU.hufLoop]
    split
    · trivial
    · cases d.mode
      case huf =>
        refine d.decodeThen_onlyAborts m _ fun s d => ?_
        split
        · exact ih _
        · split
          · trivial
          · split
            · exact rfl
            · exact ih _
      case hufLb => exact d.withExtra_onlyAborts m fun v d => ih _
      case hufD =>
        refine d.decodeThen_onlyAborts m _ fun s d => ?_
        split
        · exact rfl
        · exact ih _
      case hufDb =>
        refine d.withExtra_onlyAborts m fun v d => ?_
        split
        · exact rfl
        · exact ih _
      all_goals trivial

theorem DU.dhLoop_onlyAborts (m : Memory) (fuel : Nat) (d : DU) : (DU.dhLoop m fuel d).OnlyAborts := by
  induction fuel generalizing d with
  | zero => trivial
  | succ fuel ih =>
    simp only [DU.dhLoop]
    cases d.dh.phase <;> simp only
    case hlit | hdist => exact needBits_onlyAborts _ fun v d => ih _
    case hclen =>
      refine needBits_onlyAborts _ fun v d => ?_
      split
      · next he => exact DHState.hclenErr_sticky he
      · exact ih _
    case clen =>
      split
      · exact needBits_onlyAborts _ fun v d => ih _
      · split
        · exact rfl
        · exact ih _
    case sym =>
      split
      · refine d.decodeThen_onlyAborts m _ fun s d => ?_
        split
        · exact ih _
        · split
          · exact rfl
          · exact ih _
      · split
        · next he => exact DHState.headerErr_sticky he
        · trivial
    case rep =>
      refine needBits_onlyAborts _ fun v d => ?_
      split
      · exact rfl
      · exact ih _
    case done => trivial

theorem DU.stepDyn_onlyAborts (d : DU) (m : Memory) : (d.stepDyn m).OnlyAborts := by
  refine (DU.dhLoop_onlyAborts m _ d).bind fun complete d => ?_
  split
  · exact DU.hufLoop_onlyAborts m _ _
  · trivial

theorem DU.step_onlyAborts (d : DU) (m : Memory) : (d.step m).OnlyAborts := by
  unfold DU.step
  cases d.mode
  case header => exact d.stepHeader_onlyAborts m
  case dict => exact (DU.readAdlerField_onlyAborts m _ d).bind fun _ _ => trivial
  case blocks =>
    simp only
    split
    · exact d.stepLast_onlyAborts
    · exact d.stepBlock_onlyAborts m
  case slen1 => exact needBits_onlyAborts _ fun v d => DU.stepSlen2_onlyAborts _ m
  case slen2 => exact d.stepSlen2_onlyAborts m
  case stored => exact d.stepStored_onlyAborts m
  case dyn => exact d.stepDyn_onlyAborts m
  case huf | hufLb | hufD | hufDb => exact DU.hufLoop_onlyAborts m _ d
  case chk => exact d.stepChk_onlyAborts m
  case fin => trivial

theorem Xfer.step_onlyAborts (x : Xfer DU) : x.step.OnlyAborts := (x.unit.step_onlyAborts x.mem).within _

theorem inflateLoop_onlyAborts (fuel : Nat) (x : Xfer DU) : (inflateLoop fuel x).OnlyAborts := by
  induction fuel generalizing x with
  | zero => trivial
  | succ fuel ih =>
    simp only [inflateLoop]
    split
    · trivial
    · refine x.deliver.step_onlyAborts.bind fun more y => ?_
      split
      · exact ih y
      · trivial

theorem inflateRun_onlyAborts (x : Xfer DU) : (inflateRun x).OnlyAborts := by
  unfold inflateRun
  split
  · split
    · trivial
    · exact x.step_onlyAborts.bind fun _ _ => trivial
  · exact inflateLoop_onlyAborts _ x

/-! ## The range check (R72) -/

theorem Err.code_eq_address {e : Err} : e.code = 0x0301 ↔ e = .rangeAddress := by
  cases e <;> decide

theorem Err.code_ne_address_of_sticky {e : Err} (h : e.sticky = true) : e.code ≠ 0x0301 := by
  rw [ne_eq, Err.code_eq_address]
  rintro rfl
  exact absurd h (by decide)

theorem State.bufferWraps_iff {s : State} : s.bufferWraps = true ↔ 2 ^ s.params.aw < s.port.argAddr + s.port.argLen.toNat :=
  decide_eq_true_iff

theorem State.raise_address (u : UnitId) (s : State) : s.raise u .rangeAddress 0 = s.refuse 0x0301 := State.raise_of_not_sticky rfl u 0 s

/-- A buffer command whose buffer wraps ends with ADDRESS, whatever check comes after it. -/
theorem exec_of_bufferWraps {i : Instr} {s : State} (hi : i.takesBuffer = true) (h : s.bufferWraps = true) :
    exec i s = .next (s.refuse 0x0301) := by
  have hfirst (checks : List (Bool × Err)) : firstErr ((s.bufferWraps, .rangeAddress) :: checks) = some .rangeAddress := by simp [firstErr, h]
  cases i
  case cSetInput | cSetDict | cDeflate => exact (State.guardCU_fail (hfirst _)).trans (congrArg _ (s.raise_address .cu))
  case dSetInput | dSetDict | dInflate => exact (State.guardDU_fail (hfirst _)).trans (congrArg _ (s.raise_address .du))
  all_goals cases hi

/-- A check that fails behind a range check that passes is another one. -/
theorem code_ne_address_of_failed {b : Bool} {e : Err} {rest : List (Bool × Err)} (hb : b = false)
    (hrest : ∀ c ∈ rest, c.2 ≠ .rangeAddress) (h : (true, e) ∈ (b, .rangeAddress) :: rest) : e.code ≠ 0x0301 := by
  rw [ne_eq, Err.code_eq_address]
  rcases List.mem_cons.mp h with heq | hmem
  · simp [hb] at heq
  · exact hrest _ hmem

section
variable {s t : State} {effect : Host.Outcome State Fault Refusal} {c : List (Bool × Err)}

/-- A buffer command of the CU whose buffer does not wrap answers ADDRESS only where its effect does. -/
theorem State.guardCU_ne_address (hw : s.bufferWraps = false) (hc : ∀ x ∈ c, x.2 ≠ .rangeAddress)
    (heffect : effect = .next t → t.port.errcode ≠ 0x0301) (h : s.guardCU (s.cuBufferChecks ++ c) effect = .next t) :
    t.port.errcode ≠ 0x0301 := by
  rcases State.guardCU_cases h with ⟨e, -, hmem, rfl⟩ | ⟨-, h⟩
  · rw [State.raise_port]
    exact code_ne_address_of_failed hw (List.forall_mem_cons.mpr ⟨by simp, hc⟩) hmem
  · exact heffect h

/-- A buffer command of the DU whose buffer does not wrap answers ADDRESS only where its effect does. -/
theorem State.guardDU_ne_address (hw : s.bufferWraps = false) (hc : ∀ x ∈ c, x.2 ≠ .rangeAddress)
    (heffect : effect = .next t → t.port.errcode ≠ 0x0301) (h : s.guardDU (s.duBufferChecks ++ c) effect = .next t) :
    t.port.errcode ≠ 0x0301 := by
  rcases State.guardDU_cases h with ⟨e, -, hmem, rfl⟩ | ⟨-, h⟩
  · rw [State.raise_port]
    exact code_ne_address_of_failed hw (List.forall_mem_cons.mpr ⟨by simp, hc⟩) hmem
  · exact heffect h

theorem State.endCU_ne_address {r : Run (Xfer CU) Unit} (hr : r.OnlyAborts) (h : s.endCU r = .next t) : t.port.errcode ≠ 0x0301 := by
  rcases State.endCU_cases h with ⟨x, rfl, rfl⟩ | ⟨e, x, rfl, rfl⟩
  · exact nofun
  · rw [State.raise_port]
    exact Err.code_ne_address_of_sticky hr

theorem State.endDU_ne_address {r : Run (Xfer DU) Unit} (hr : r.OnlyAborts) (h : s.endDU r = .next t) : t.port.errcode ≠ 0x0301 := by
  rcases State.endDU_cases h with ⟨x, rfl, rfl⟩ | ⟨e, x, rfl, rfl⟩
  · exact nofun
  · rw [State.raise_port]
    exact Err.code_ne_address_of_sticky hr

theorem execCSetInput_ne_address (hw : s.bufferWraps = false) (h : execCSetInput s = .next t) : t.port.errcode ≠ 0x0301 := by
  refine State.guardCU_ne_address hw (by simp) (fun he => ?_) h
  cases he; exact nofun

theorem execCSetDict_ne_address (hw : s.bufferWraps = false) (h : execCSetDict s = .next t) : t.port.errcode ≠ 0x0301 := by
  refine State.guardCU_ne_address hw (by simp) (fun he => ?_) h
  cases he; exact nofun

/-- C.DEFLATE without room gives the engine no turn, so only the header's alignment can fail (43_compressor.md R243). -/
theorem execCDeflate_ne_address (hw : s.bufferWraps = false) (h0 : s.argLen = 0) (h : execCDeflate s = .next t) :
    t.port.errcode ≠ 0x0301 :=
  State.guardCU_ne_address hw (by simp) (State.endCU_ne_address (deflateRun_onlyAborts h0)) h

theorem execDSetInput_ne_address (hw : s.bufferWraps = false) (h : execDSetInput s = .next t) : t.port.errcode ≠ 0x0301 := by
  refine State.guardDU_ne_address hw (by simp) (fun he => ?_) h
  cases he; exact nofun

theorem execDSetDict_ne_address (hw : s.bufferWraps = false) (h : execDSetDict s = .next t) : t.port.errcode ≠ 0x0301 := by
  refine State.guardDU_ne_address hw (by simp) (fun he => ?_) h
  split at he <;> cases he
  · exact nofun
  · exact Err.code_ne_address_of_sticky (e := .dictChecksum) rfl

theorem execDInflate_ne_address (hw : s.bufferWraps = false) (h : execDInflate s = .next t) : t.port.errcode ≠ 0x0301 :=
  State.guardDU_ne_address hw (by simp) (State.endDU_ne_address (inflateRun_onlyAborts _)) h

end

/-- Settles O8: the range check is the first of each buffer command, and nothing else in it raises ADDRESS. -/
theorem bufferRangeCheck : Obligations.BufferRangeCheck := by
  intro i s hi
  refine ⟨fun hwraps => exec_of_bufferWraps hi (State.bufferWraps_iff.mpr hwraps), fun h0 haddr t h => ?_⟩
  have hlen : s.argLen = 0 := by simp [State.argLen, h0]
  have hw : s.bufferWraps = false := by simpa [State.bufferWraps, State.argAddr, hlen] using haddr.le
  cases i
  case cSetInput => exact execCSetInput_ne_address hw h
  case cSetDict => exact execCSetDict_ne_address hw h
  case cDeflate => exact execCDeflate_ne_address hw hlen h
  case dSetInput => exact execDSetInput_ne_address hw h
  case dSetDict => exact execDSetDict_ne_address hw h
  case dInflate => exact execDInflate_ne_address hw h
  all_goals cases hi

end Sys2Proof.Machine

/-! PROOFS. Canonical codes (30_encoding.md R108, R112): what code each symbol has, and that codewords of an accepted vector of lengths begin
no other. -/

namespace Sys2Proof.Machine

/-! ## The first code of a length -/

/-- The first code of length b, which the spec's loop over the lengths computes (R108). -/
def firstCode (lens : List Nat) : Nat → Nat
  | 0 => 0
  | b + 1 => (firstCode lens b + blCount lens b) * 2

theorem blCount_succ (lens : List Nat) (b : Nat) : blCount lens (b + 1) = lens.count (b + 1) := rfl

theorem nextCodesFrom_getD (lens : List Nat) (b : Nat) {n k : Nat} (hk : k < n) :
    (nextCodesFrom lens (firstCode lens b) (b + 1) n).getD k 0 = firstCode lens (b + 1 + k) := by
  induction n generalizing b k with
  | zero => omega
  | succ n ih =>
    have hfirst : (firstCode lens b + blCount lens b) <<< 1 = firstCode lens (b + 1) := Nat.shiftLeft_eq _ 1
    simp only [nextCodesFrom, Nat.add_sub_cancel, hfirst]
    cases k with
    | zero => rfl
    | succ k =>
      rw [List.getD_cons_succ, ih (b + 1) (Nat.lt_of_succ_lt_succ hk), Nat.add_assoc (b + 1) 1 k, Nat.add_comm 1 k]

theorem nextCodes_getD (lens : List Nat) {l : Nat} (hl : l ≤ 15) : (nextCodes lens).getD l 0 = firstCode lens l := by
  cases l with
  | zero => rfl
  | succ l => rw [nextCodes, List.getD_cons_succ, Nat.add_comm l 1]; exact nextCodesFrom_getD lens 0 hl

theorem nextCodes_length (lens : List Nat) : (nextCodes lens).length = 16 := rfl

/-! ## The code of a symbol -/

/-- A symbol's code is the next code of its length, after those of the earlier symbols of that length. -/
theorem assignCodes_getD {next lens : List Nat} {s l : Nat} (hs : lens[s]? = some l) (h0 : l ≠ 0) (hl : l < next.length) :
    (assignCodes next lens).getD s 0 = next.getD l 0 + (lens.take s).count l := by
  induction lens generalizing next s with
  | nil => simp at hs
  | cons a lens ih =>
    cases s with
    | zero =>
      obtain rfl : a = l := by simpa using hs
      simp [assignCodes, h0]
    | succ s =>
      have hs : lens[s]? = some l := by simpa using hs
      by_cases ha : a = 0
      · subst ha
        rw [assignCodes, if_pos rfl, List.getD_cons_succ, ih hs hl, List.take_succ_cons, List.count_cons_of_ne h0.symm]
      · rw [assignCodes, if_neg ha, List.getD_cons_succ, ih hs (by simpa using hl), List.take_succ_cons, List.count_cons]
        by_cases hal : a = l
        · subst hal
          simp [List.getD_eq_getElem?_getD, hl]; omega
        · simp [List.getD_eq_getElem?_getD, List.getElem?_set_ne hal, hal]

theorem canon_getD {lens : List Nat} {s l : Nat} (hs : lens[s]? = some l) (h0 : l ≠ 0) (hl : l ≤ 15) :
    (canon lens).getD s 0 = firstCode lens l + (lens.take s).count l := by
  rw [canon, assignCodes_getD hs h0 (nextCodes_length lens ▸ Nat.lt_succ_of_le hl), nextCodes_getD lens hl]

/-- The rank of a symbol among those of its length is below that of any later one, and below their number. -/
theorem count_take_lt {lens : List Nat} {s t l : Nat} (hs : lens[s]? = some l) (hst : s < t) :
    (lens.take s).count l < (lens.take t).count l := by
  have hnext : (lens.take (s + 1)).count l = (lens.take s).count l + 1 := by
    rw [List.take_add_one, hs, List.count_append]; simp
  have hle : (lens.take (s + 1)).count l ≤ (lens.take t).count l := (List.take_prefix_take_left hst).sublist.count_le l
  omega

theorem canon_lt_add_blCount {lens : List Nat} {s l : Nat} (hs : lens[s]? = some l) (h0 : l ≠ 0) (hl : l ≤ 15) :
    (canon lens).getD s 0 < firstCode lens l + blCount lens l := by
  obtain ⟨hlt, -⟩ := List.getElem?_eq_some_iff.mp hs
  have hrank := count_take_lt hs hlt
  rw [List.take_length] at hrank
  obtain ⟨l, rfl⟩ := Nat.exists_eq_add_one_of_ne_zero h0
  rw [canon_getD hs h0 hl, blCount_succ]
  omega

/-! ## Room for the codes (R112) -/

theorem kraft_cons (a : Nat) (lens : List Nat) : kraft (a :: lens) = (if a = 0 then 0 else 2 ^ (15 - a)) + kraft lens := rfl

/-- The share of the lengths up to b + 1 is that of the lengths up to b and those of length b + 1. -/
theorem kraft_filter_succ (lens : List Nat) (b : Nat) :
    kraft (lens.filter (· ≤ b + 1)) = kraft (lens.filter (· ≤ b)) + lens.count (b + 1) * 2 ^ (15 - (b + 1)) := by
  induction lens with
  | nil => simp [kraft]
  | cons a lens ih =>
    rcases Nat.lt_trichotomy a (b + 1) with h | rfl | h
    · simp [kraft_cons, ih, show a ≤ b by omega, show a ≤ b + 1 by omega, show a ≠ b + 1 by omega, Nat.add_assoc]
    · simp [kraft_cons, ih, Nat.add_mul]; omega
    · simp [ih, show ¬ a ≤ b by omega, show ¬ a ≤ b + 1 by omega, show a ≠ b + 1 by omega]

theorem kraft_filter_le (lens : List Nat) (p : Nat → Bool) : kraft (lens.filter p) ≤ kraft lens :=
  (List.filter_sublist.map _).sum_le_sum fun _ _ => Nat.zero_le _

theorem kraft_filter_zero (lens : List Nat) : kraft (lens.filter (· ≤ 0)) = 0 := by
  induction lens with
  | nil => rfl
  | cons a lens ih => cases a <;> simpa [kraft_cons] using ih

/-- The codes up to length b take the share of the lengths up to b. -/
theorem firstCode_add_blCount_mul (lens : List Nat) {b : Nat} (hb : b ≤ 15) :
    (firstCode lens b + blCount lens b) * 2 ^ (15 - b) = kraft (lens.filter (· ≤ b)) := by
  induction b with
  | zero => rw [kraft_filter_zero, firstCode, blCount, if_pos rfl, Nat.zero_add, Nat.zero_mul]
  | succ b ih =>
    have hexp : 15 - b = 15 - (b + 1) + 1 := by omega
    rw [kraft_filter_succ, ← ih (by omega), hexp, pow_succ, firstCode, blCount_succ]
    ring

/-- An accepted vector leaves room for every code of length b. -/
theorem firstCode_add_blCount_le {lens : List Nat} (h : oversubscribed lens = false) {b : Nat} (hb : b ≤ 15) :
    firstCode lens b + blCount lens b ≤ 2 ^ b := by
  have hkraft : kraft lens ≤ 2 ^ 15 := by simpa [oversubscribed] using h
  refine Nat.le_of_mul_le_mul_right ?_ (Nat.two_pow_pos (15 - b))
  calc (firstCode lens b + blCount lens b) * 2 ^ (15 - b)
      = kraft (lens.filter (· ≤ b)) := firstCode_add_blCount_mul lens hb
    _ ≤ 2 ^ 15 := (kraft_filter_le lens _).trans hkraft
    _ = 2 ^ b * 2 ^ (15 - b) := by rw [← pow_add, Nat.add_sub_cancel' hb]

/-- The longer codes start behind the continuations of every shorter one. -/
theorem firstCode_add_blCount_mul_le (lens : List Nat) {l m : Nat} (h : l < m) :
    (firstCode lens l + blCount lens l) * 2 ^ (m - l) ≤ firstCode lens m := by
  induction m, h using Nat.le_induction with
  | base => rw [Nat.succ_sub (le_refl l), Nat.sub_self]; rfl
  | succ m hm ih =>
    rw [Nat.sub_add_comm (by omega), pow_succ, ← Nat.mul_assoc, firstCode]
    exact Nat.mul_le_mul_right 2 (ih.trans (Nat.le_add_right _ _))

/-! ## Codewords -/

/-- A codeword that begins another is the other's code without its last bits. -/
theorem eq_div_of_codeword_prefix {l m c d : Nat} (hc : c < 2 ^ l) (hd : d < 2 ^ m) (h : codeword l c <+: codeword m d) :
    l ≤ m ∧ c = d / 2 ^ (m - l) := by
  have hsuffix : bitsOf l c <:+ bitsOf m d := List.reverse_prefix.mp h
  have hlm : l ≤ m := by simpa [bitsOf_length] using hsuffix.length_le
  have hpow : 2 ^ m = 2 ^ (m - l) * 2 ^ l := by rw [← pow_add, Nat.sub_add_cancel hlm]
  refine ⟨hlm, bitsOf_inj hc (Nat.div_lt_of_lt_mul (hpow ▸ hd)) ?_⟩
  have hdrop := List.suffix_iff_eq_drop.mp hsuffix
  rwa [bitsOf_length, bitsOf_length, bitsOf_drop (Nat.sub_le m l), Nat.sub_sub_self hlm] at hdrop

section
variable {lens : List Nat} {s t l m : Nat}

theorem canon_lt (h : oversubscribed lens = false) (hs : lens[s]? = some l) (h0 : l ≠ 0) (hl : l ≤ 15) :
    (canon lens).getD s 0 < 2 ^ l :=
  (canon_lt_add_blCount hs h0 hl).trans_le (firstCode_add_blCount_le h hl)

/-- Two symbols of one length have different codes. -/
theorem canon_ne_of_same_length (hs : lens[s]? = some l) (ht : lens[t]? = some l) (hst : s ≠ t) (h0 : l ≠ 0) (hl : l ≤ 15) :
    (canon lens).getD s 0 ≠ (canon lens).getD t 0 := by
  rw [canon_getD hs h0 hl, canon_getD ht h0 hl]
  rcases Nat.lt_or_gt_of_ne hst with h | h
  · have := count_take_lt hs h; omega
  · have := count_take_lt ht h; omega

/-- A longer code, cut to a shorter length, is above every code of that length. -/
theorem canon_lt_div_of_length_lt (hs : lens[s]? = some l) (ht : lens[t]? = some m) (h0 : l ≠ 0) (hlm : l < m) (hm : m ≤ 15) :
    (canon lens).getD s 0 < (canon lens).getD t 0 / 2 ^ (m - l) := by
  have hnext : (canon lens).getD s 0 + 1 ≤ firstCode lens l + blCount lens l := canon_lt_add_blCount hs h0 (by omega)
  refine (Nat.le_div_iff_mul_le (Nat.two_pow_pos _)).mpr ?_
  calc ((canon lens).getD s 0 + 1) * 2 ^ (m - l)
      ≤ (firstCode lens l + blCount lens l) * 2 ^ (m - l) := Nat.mul_le_mul_right _ hnext
    _ ≤ firstCode lens m := firstCode_add_blCount_mul_le lens hlm
    _ ≤ (canon lens).getD t 0 := by rw [canon_getD ht (by omega) hm]; exact Nat.le_add_right _ _

end

/-- Settles O44: a codeword that begins another would be the other's code cut to its length, but codes of one length differ by their rank and a
longer code lies above every continuation of a shorter one. -/
theorem canonicalCodesArePrefixFree : Obligations.CanonicalCodesArePrefixFree := by
  intro lens haccepted s t hs ht hst hs0 ht0 hprefix
  obtain ⟨hle, hroom⟩ := haccepted
  have getElem?_getD {k : Nat} (hk : k < lens.length) : lens[k]? = some (lens.getD k 0) := by simp [hk]
  have hl := getD_le_of_forall hle s
  have hm := getD_le_of_forall hle t
  obtain ⟨hlm, hcode⟩ := eq_div_of_codeword_prefix (canon_lt hroom (getElem?_getD hs) hs0 hl)
    (canon_lt hroom (getElem?_getD ht) ht0 hm) hprefix
  rcases hlm.eq_or_lt with heq | hlt
  · rw [heq, Nat.sub_self, pow_zero, Nat.div_one] at hcode
    exact canon_ne_of_same_length (heq ▸ getElem?_getD hs) (getElem?_getD ht) hst ht0 hm hcode
  · exact (canon_lt_div_of_length_lt (getElem?_getD hs) (getElem?_getD ht) hs0 hlt hm).ne hcode

end Sys2Proof.Machine

/-! PROOFS. Command words (30_encoding.md R90 to R95): the fields of a word, the word of a command and back, which words are legal, and how an
illegal one ends. -/

namespace Sys2Proof.Machine

/-! ## The formats (R90, R92) -/

/-- The command that a word of a format holds. -/
def formatInstr (w : Word) : Format → Instr
  | .cmd i => i
  | .cfg => .cConfig (bitField w 11 8) (bitField w 13 12) (bitField w 14 14 == 1)
  | .dcfg => .dConfig (bitField w 14 14 == 1)

/-- The reserved and unused fields of a word of a format are 0 (R93). -/
def FieldsClear (w : Word) : Format → Prop
  | .cmd _ => bitField w 31 8 = 0
  | .cfg => bitField w 31 15 = 0
  | .dcfg => bitField w 31 15 = 0 ∧ bitField w 13 8 = 0

theorem decode_of_formatOf_none {w : Word} (h : formatOf (bitField w 7 0) = none) : decode w = .error .unassigned := by
  simp [decode, h]

theorem decode_of_fieldsClear {w : Word} {f : Format} (h : formatOf (bitField w 7 0) = some f) (hclear : FieldsClear w f) :
    decode w = .ok (formatInstr w f) := by
  cases f <;> simp only [decode, h] <;> exact if_pos hclear

theorem decode_of_not_fieldsClear {w : Word} {f : Format} (h : formatOf (bitField w 7 0) = some f) (hclear : ¬ FieldsClear w f) :
    decode w = .error .reserved := by
  cases f <;> simp only [decode, h] <;> exact if_neg hclear

/-- A word decodes exactly when its opcode is assigned and the fields that its format does not use are 0. -/
theorem decode_eq_ok_iff_format {w : Word} {i : Instr} :
    decode w = .ok i ↔ ∃ f, formatOf (bitField w 7 0) = some f ∧ FieldsClear w f ∧ formatInstr w f = i := by
  cases h : formatOf (bitField w 7 0) with
  | none => simp [decode_of_formatOf_none h]
  | some f =>
    by_cases hclear : FieldsClear w f
    · simp [decode_of_fieldsClear h hclear, hclear]
    · simp [decode_of_not_fieldsClear h hclear, hclear]

/-- The assigned opcodes (R92). -/
def assignedOpcodes : List Nat :=
  [0x01, 0x02, 0x03, 0x04, 0x05, 0x06, 0x07, 0x08, 0x09, 0x0A, 0x0B, 0x0C, 0x21, 0x22, 0x23, 0x24, 0x27, 0x28, 0x29, 0x2A, 0x2B,
    0x2C, 0x2D]

/-- What an opcode's format says: CFG and DCFG are the formats of one opcode each, and CMD names the command of the opcode. -/
theorem formatOf_eq_some {op : Nat} {f : Format} (h : formatOf op = some f) :
    op ∈ assignedOpcodes ∧
    ((f = .cfg ∧ op = 0x01) ∨ (f = .dcfg ∧ op = 0x21) ∨
      ∃ i, f = .cmd i ∧ op ≠ 0x01 ∧ op ≠ 0x21 ∧ opcode i = op ∧ fieldBits i = 0 ∧ i.wf = true) := by
  unfold formatOf at h
  split at h <;> cases h
  -- the rows of CFG and DCFG, then those of CMD
  case h_1 => exact ⟨by decide, .inl ⟨rfl, rfl⟩⟩
  case h_13 => exact ⟨by decide, .inr (.inl ⟨rfl, rfl⟩)⟩
  all_goals exact ⟨by decide, .inr (.inr ⟨_, rfl, by decide, by decide, rfl, rfl, rfl⟩)⟩

theorem formatOf_isSome_of_mem : ∀ op ∈ assignedOpcodes, (formatOf op).isSome = true := by decide

theorem exists_formatOf_iff {op : Nat} : (∃ f, formatOf op = some f) ↔ op ∈ assignedOpcodes :=
  ⟨fun ⟨_, h⟩ => (formatOf_eq_some h).1, fun h => Option.isSome_iff_exists.mp (formatOf_isSome_of_mem op h)⟩

/-! ## The word of a command (R95) -/

/-- A word is the sum of its fields (R90). -/
theorem ofNat_fields (w : Word) :
    BitVec.ofNat 32 (bitField w 7 0 + bitField w 11 8 * 2 ^ 8 + bitField w 13 12 * 2 ^ 12 + bitField w 14 14 * 2 ^ 14 +
      bitField w 31 15 * 2 ^ 15) = w := by
  apply BitVec.eq_of_toNat_eq
  simp only [bitField, Nat.shiftRight_eq_div_pow, BitVec.toNat_ofNat]
  omega

theorem bitField_lt (w : Word) (hi lo : Nat) : bitField w hi lo < 2 ^ (hi + 1 - lo) := Nat.mod_lt _ (Nat.two_pow_pos _)

theorem toNat_beq_one {n : Nat} (h : n < 2) : (n == 1).toNat = n := by
  interval_cases n <;> rfl

theorem bitField_31_8_eq_zero {w : Word} :
    bitField w 31 8 = 0 ↔ bitField w 31 15 = 0 ∧ bitField w 14 8 = 0 := by
  simp only [bitField, Nat.shiftRight_eq_div_pow]
  omega

theorem bitField_14_8_eq_zero {w : Word} :
    bitField w 14 8 = 0 ↔ bitField w 11 8 = 0 ∧ bitField w 13 12 = 0 ∧ bitField w 14 14 = 0 := by
  simp only [bitField, Nat.shiftRight_eq_div_pow]
  omega

theorem bitField_13_8_eq_zero {w : Word} : bitField w 13 8 = 0 ↔ bitField w 11 8 = 0 ∧ bitField w 13 12 = 0 := by
  simp only [bitField, Nat.shiftRight_eq_div_pow]
  omega

/-- The word of C.CONFIG as the sum of its fields. -/
theorem encode_cConfig {level strategy : Nat} (hl : level < 16) (hs : strategy < 4) (nohdr : Bool) :
    encode (.cConfig level strategy nohdr) = BitVec.ofNat 32 (1 + level * 2 ^ 8 + strategy * 2 ^ 12 + nohdr.toNat * 2 ^ 14) := by
  have hlevel : 1 + level * 2 ^ 8 < 2 ^ 12 := by omega
  have hstrategy : 1 + level * 2 ^ 8 + strategy * 2 ^ 12 < 2 ^ 14 := by omega
  rw [encode, opcode, fieldBits, ← Nat.or_assoc, ← Nat.or_assoc, or_shift_eq_add (by decide : 1 < 2 ^ 8), or_shift_eq_add hlevel,
    or_shift_eq_add hstrategy]

theorem encode_dConfig (nohdr : Bool) : encode (.dConfig nohdr) = BitVec.ofNat 32 (0x21 + nohdr.toNat * 2 ^ 14) := by
  rw [encode, opcode, fieldBits, or_shift_eq_add (by decide)]

/-- A word whose reserved and unused fields are 0 is the word of the command it holds, which is well formed. -/
theorem encode_formatInstr {w : Word} {f : Format} (h : formatOf (bitField w 7 0) = some f) (hclear : FieldsClear w f) :
    (formatInstr w f).wf = true ∧ encode (formatInstr w f) = w := by
  have hfields := ofNat_fields w
  have hnohdr := toNat_beq_one (bitField_lt w 14 14)
  obtain ⟨-, ⟨rfl, hop⟩ | ⟨rfl, hop⟩ | ⟨i, rfl, -, -, hop, hbits, hwf⟩⟩ := formatOf_eq_some h
  · have hlevel := bitField_lt w 11 8
    have hstrategy := bitField_lt w 13 12
    have hhigh : bitField w 31 15 = 0 := hclear
    refine ⟨Bool.and_eq_true_iff.mpr ⟨decide_eq_true hlevel, decide_eq_true hstrategy⟩, ?_⟩
    rw [formatInstr, encode_cConfig hlevel hstrategy, hnohdr]
    simpa [hop, hhigh] using hfields
  · obtain ⟨hhigh, hlow⟩ := hclear
    obtain ⟨hlevel, hstrategy⟩ := bitField_13_8_eq_zero.mp hlow
    refine ⟨rfl, ?_⟩
    rw [formatInstr, encode_dConfig, hnohdr]
    simpa [hop, hlevel, hstrategy, hhigh] using hfields
  · obtain ⟨hhigh, hlow⟩ := bitField_31_8_eq_zero.mp hclear
    obtain ⟨hlevel, hstrategy, hnohdr0⟩ := bitField_14_8_eq_zero.mp hlow
    refine ⟨hwf, ?_⟩
    rw [formatInstr, encode, hop, hbits, Nat.or_zero]
    simpa [hlevel, hstrategy, hnohdr0, hhigh] using hfields

/-- The words that hold a command are those of the well-formed commands. -/
theorem decode_eq_ok_iff {w : Word} {i : Instr} : decode w = .ok i ↔ i.wf = true ∧ encode i = w := by
  constructor
  · intro h
    obtain ⟨f, hf, hclear, rfl⟩ := decode_eq_ok_iff_format.mp h
    exact encode_formatInstr hf hclear
  · rintro ⟨hwf, rfl⟩
    exact decode_encode_of_wf hwf

theorem decodeTableWord_32 (w : Word) : decodeTableWord 32 w.toNat = (decode w).toOption := by
  have hw : BitVec.ofNat 32 (w.toNat % 2 ^ 32) = w := commandWord_toNat w
  rw [decodeTableWord, hw]
  cases decode w <;> rfl

/-- Settles O1: a legal word is the sum of the fields of the command that it holds. -/
theorem commandWordsRoundTrip : Obligations.CommandWordsRoundTrip := by
  refine ⟨fun i hi => ?_, fun w i h => decode_eq_ok_iff.mp h⟩
  have hdecode := decode_encode_of_wf hi
  exact ⟨hdecode, by rw [decodeTableWord_32, hdecode]; rfl⟩

/-! ## Illegal words (R93) -/

theorem bitField_eq_extractLsb' (w : Word) (hi lo : Nat) : bitField w hi lo = (w.extractLsb' lo (hi + 1 - lo)).toNat :=
  (BitVec.extractLsb'_toNat ..).symm

theorem bitField_eq_zero_iff {w : Word} {hi lo : Nat} : bitField w hi lo = 0 ↔ w.extractLsb' lo (hi + 1 - lo) = 0 := by
  rw [bitField_eq_extractLsb', BitVec.toNat_eq]; rfl

/-- A field that a mask keeps whole. -/
theorem bitField_of_and_eq {w mask m : Word} (h : w &&& mask = m) {hi lo : Nat}
    (hmask : mask.extractLsb' lo (hi + 1 - lo) = BitVec.allOnes _) : bitField w hi lo = bitField m hi lo := by
  rw [bitField_eq_extractLsb', bitField_eq_extractLsb', ← h, BitVec.extractLsb'_and, hmask, BitVec.and_allOnes]

/-- The bits that a format fixes: OPCODE and the reserved and unused fields. -/
def formatMask : Format → Word
  | .cmd _ => 0xFFFFFFFF
  | .cfg => 0xFFFF80FF
  | .dcfg => 0xFFFFBFFF

/-- The opcode table has a row for each assigned opcode. -/
theorem opcodeRows_eq :
    opcodeRows = assignedOpcodes.filterMap fun op => (formatOf op).map fun f => (formatMask f, BitVec.ofNat 32 op) := rfl

theorem lt_of_mem_assignedOpcodes : ∀ op ∈ assignedOpcodes, op < 256 := by decide

/-- A word whose fields are clear agrees with its opcode's row. -/
theorem and_formatMask_of_fieldsClear {w : Word} {f : Format} (h : formatOf (bitField w 7 0) = some f) (hclear : FieldsClear w f) :
    w &&& formatMask f = BitVec.ofNat 32 (bitField w 7 0) := by
  obtain ⟨hwf, hw⟩ := encode_formatInstr h hclear
  obtain ⟨-, ⟨rfl, hop⟩ | ⟨rfl, hop⟩ | ⟨i, rfl, -, -, hop, hbits, -⟩⟩ := formatOf_eq_some h
  · rw [hop, ← hw]
    exact Laws.legal_cfg ⟨_, bitField_lt w 11 8⟩ ⟨_, bitField_lt w 13 12⟩ _
  · rw [hop, ← hw, formatInstr]
    cases bitField w 14 14 == 1 <;> decide
  · rw [← hop]
    conv_lhs => rw [← hw, formatInstr, encode, hbits, Nat.or_zero]
    exact BitVec.and_allOnes

/-- A word that agrees with an opcode's row has that opcode, and its fields are clear. -/
theorem fieldsClear_of_and_formatMask {w : Word} {f : Format} {op : Nat} (h : formatOf op = some f)
    (hw : w &&& formatMask f = BitVec.ofNat 32 op) : bitField w 7 0 = op ∧ FieldsClear w f := by
  obtain ⟨hmem, ⟨rfl, rfl⟩ | ⟨rfl, rfl⟩ | ⟨i, rfl, -, -, -, -, -⟩⟩ := formatOf_eq_some h
  · exact ⟨bitField_of_and_eq hw (by decide), bitField_of_and_eq hw (by decide)⟩
  · exact ⟨bitField_of_and_eq hw (by decide), bitField_of_and_eq hw (by decide), bitField_of_and_eq hw (by decide)⟩
  · have hlt := lt_of_mem_assignedOpcodes op hmem
    have hw : w = BitVec.ofNat 32 op := BitVec.and_allOnes.symm.trans hw
    simp only [FieldsClear, bitField, hw, BitVec.toNat_ofNat, Nat.shiftRight_eq_div_pow]
    omega

/-- A word is legal exactly when it agrees with a row of the opcode table. -/
theorem exists_row_iff {w : Word} :
    (∃ row ∈ opcodeRows, w &&& row.1 = row.2) ↔ ∃ f, formatOf (bitField w 7 0) = some f ∧ FieldsClear w f := by
  simp only [opcodeRows_eq, List.mem_filterMap, Option.map_eq_some_iff]
  constructor
  · rintro ⟨-, ⟨op, -, f, hf, rfl⟩, hw⟩
    obtain ⟨rfl, hclear⟩ := fieldsClear_of_and_formatMask hf hw
    exact ⟨f, hf, hclear⟩
  · rintro ⟨f, hf, hclear⟩
    exact ⟨_, ⟨_, exists_formatOf_iff.mp ⟨f, hf⟩, f, hf, rfl⟩, and_formatMask_of_fieldsClear hf hclear⟩

theorem exists_decode_iff {w : Word} : (∃ i, decode w = .ok i) ↔ ∃ f, formatOf (bitField w 7 0) = some f ∧ FieldsClear w f := by
  simp only [decode_eq_ok_iff_format]
  exact ⟨fun ⟨_, f, hf, hclear, _⟩ => ⟨f, hf, hclear⟩, fun ⟨f, hf, hclear⟩ => ⟨_, f, hf, hclear, rfl⟩⟩

/-- R93(b), (c), (d) in the terms of the statement. -/
theorem not_fieldsClear_iff {w : Word} {f : Format} (h : formatOf (bitField w 7 0) = some f) :
    ¬ FieldsClear w f ↔
      w.extractLsb' 15 17 ≠ 0 ∨ (bitField w 7 0 ≠ 0x01 ∧ bitField w 7 0 ≠ 0x21 ∧ w.extractLsb' 8 7 ≠ 0) ∨
        (bitField w 7 0 = 0x21 ∧ w.extractLsb' 8 6 ≠ 0) := by
  have h31 : bitField w 31 15 = 0 ↔ w.extractLsb' 15 17 = 0 := bitField_eq_zero_iff
  have h14 : bitField w 14 8 = 0 ↔ w.extractLsb' 8 7 = 0 := bitField_eq_zero_iff
  have h13 : bitField w 13 8 = 0 ↔ w.extractLsb' 8 6 = 0 := bitField_eq_zero_iff
  obtain ⟨-, ⟨rfl, hop⟩ | ⟨rfl, hop⟩ | ⟨i, rfl, h1, h2, -, -, -⟩⟩ := formatOf_eq_some h
  · simp [FieldsClear, hop, h31]
  · simp [FieldsClear, hop, h31, h13, imp_iff_not_or]
  · simp [FieldsClear, h1, h2, bitField_31_8_eq_zero, h31, h14, imp_iff_not_or]

theorem step_of_illegal {s : State} {w : Word} {e : Illegal} (hw : s.port.cmd = some w) (he : decode w = .error e) :
    step s = .next (s.takeCmd.refuse (illegalErr e).code) := by
  have hsticky : (illegalErr e).sticky = false := by cases e <;> rfl
  simp only [step, hw, issue, he]
  exact congrArg _ (State.raise_of_not_sticky hsticky .cu 0 s.takeCmd)

/-- Settles O2: the formats say which opcodes are assigned and which fields must be 0, and each row of the table is an opcode's format. -/
theorem illegalCommandWords : Obligations.IllegalCommandWords := by
  intro s w hw op assigned reserved taken
  have hop : bitField w 7 0 = op := bitField_eq_extractLsb' w 7 0
  have hassigned : (∃ f, formatOf (bitField w 7 0) = some f) ↔ assigned := hop ▸ exists_formatOf_iff
  have hreserved {f : Format} (hf : formatOf (bitField w 7 0) = some f) : ¬ FieldsClear w f ↔ reserved := by
    rw [not_fieldsClear_iff hf, hop]
  have hlegal : (∃ f, formatOf (bitField w 7 0) = some f ∧ FieldsClear w f) ↔ assigned ∧ ¬ reserved := by
    rw [← hassigned]
    exact ⟨fun ⟨f, hf, hclear⟩ => ⟨⟨f, hf⟩, fun h => (hreserved hf).mpr h hclear⟩,
      fun ⟨⟨f, hf⟩, h⟩ => ⟨f, hf, not_not.mp (mt (hreserved hf).mp h)⟩⟩
  refine ⟨fun h => ?_, fun h hr => ?_, exists_decode_iff.trans hlegal, ?_⟩
  · have hnone : formatOf (bitField w 7 0) = none := Option.eq_none_iff_forall_ne_some.mpr fun f hf => h (hassigned.mp ⟨f, hf⟩)
    exact step_of_illegal hw (decode_of_formatOf_none hnone)
  · obtain ⟨f, hf⟩ := hassigned.mpr h
    exact step_of_illegal hw (decode_of_not_fieldsClear hf ((hreserved hf).mpr hr))
  · exact exists_decode_iff.trans exists_row_iff.symm

/-! ## Words written out (R90, R92) -/

/-- Settles O3, by decoding each word. -/
theorem specWordsDecode : Obligations.SpecWordsDecode :=
  ⟨rfl, rfl, rfl, rfl, rfl, rfl, rfl, rfl, rfl⟩

/-! ## The fields of C.CONFIG (R94) -/

theorem levelOf_fifteen : levelOf 15 = some 6 := rfl

theorem levelOf_eq_none {level : Nat} (h10 : 10 ≤ level) (h14 : level ≤ 14) : levelOf level = none := by
  rw [levelOf, dif_neg (by omega), if_neg (by omega)]

theorem exists_levelOf {level : Nat} (h : level < 10 ∨ level = 15) : ∃ l, levelOf level = some l := by
  rcases h with h | rfl
  · exact ⟨⟨level, h⟩, dif_pos h⟩
  · exact ⟨6, levelOf_fifteen⟩

theorem exists_strategyOf {strategy : Nat} (h : strategy < 3) : ∃ st, strategyOf strategy = some st := by
  interval_cases strategy <;> exact ⟨_, rfl⟩

section
variable {level strategy : Nat} (nohdr : Bool) (s : State)

theorem exec_cConfig_of_levelOf_none (h : levelOf level = none) : exec (.cConfig level strategy nohdr) s = .next (s.refuse 0x0101) := by
  simp only [exec, execCConfig, h]
  exact congrArg _ (State.raise_of_not_sticky rfl .cu 0 s)

theorem exec_cConfig_of_strategyOf_none {l : Fin 10} (h : levelOf level = some l) (hs : strategyOf strategy = none) :
    exec (.cConfig level strategy nohdr) s = .next (s.refuse 0x0201) := by
  simp only [exec, execCConfig, h, hs]
  exact congrArg _ (State.raise_of_not_sticky rfl .cu 0 s)

theorem exec_cConfig_of_legal {l : Fin 10} {st : Strategy} (h : levelOf level = some l) (hs : strategyOf strategy = some st) :
    exec (.cConfig level strategy nohdr) s =
      .next ({ s with cu := { s.cu with level := l, strategy := st, nohdr := nohdr }.reset }.ok 0) := by
  simp only [exec, execCConfig, h, hs, State.succeed_eq_ok]

end

theorem CU.reset_level (c : CU) : c.reset.level = c.level := rfl

/-- Settles O12: LEVEL is found first, then STRATEGY, and only a command with both legal writes the CU. -/
theorem configFieldRanges : Obligations.ConfigFieldRanges := by
  intro s level strategy nohdr
  refine ⟨?_, fun h10 h14 => exec_cConfig_of_levelOf_none nohdr s (levelOf_eq_none h10 h14), ?_⟩
  · rintro rfl hstrategy
    obtain ⟨st, hst⟩ := exists_strategyOf hstrategy
    exact ⟨_, exec_cConfig_of_legal nohdr s levelOf_fifteen hst, CU.reset_level _⟩
  · rintro hlevel rfl
    obtain ⟨l, hl⟩ := exists_levelOf hlevel
    exact exec_cConfig_of_strategyOf_none nohdr s hl rfl

end Sys2Proof.Machine

/-! PROOFS. The symbols of lengths and distances (30_encoding.md R105, R106): each is the last of its table whose base is not above the value. -/

namespace Sys2Proof.Machine

theorem lastAtMost_lt {table : List Nat} (h : table ≠ []) (x : Nat) : lastAtMost table x < table.length := by
  have hle : (table.takeWhile (· ≤ x)).length ≤ table.length := (List.takeWhile_sublist _).length_le
  have hpos := List.length_pos_iff.mpr h
  rw [lastAtMost]
  omega

/-- The entry found is at most x, where the first entry is. -/
theorem getD_lastAtMost_le {a x : Nat} (table : List Nat) (h : a ≤ x) : (a :: table).getD (lastAtMost (a :: table) x) 0 ≤ x := by
  have hlt : lastAtMost (a :: table) x < ((a :: table).takeWhile (· ≤ x)).length := by simp [lastAtMost, h]
  have hmem := List.getElem_mem hlt
  rw [List.getD_eq_getElem _ _ (lastAtMost_lt (List.cons_ne_nil a table) x), ← (List.takeWhile_prefix _).getElem hlt]
  simpa using List.mem_takeWhile_imp hmem

theorem lcode_of_ne {l : Nat} (h : l ≠ 258) : lcode l = 257 + lastAtMost (baseLTable.take 28) l := if_neg h

theorem lcode_range (l : Nat) : 257 ≤ lcode l ∧ lcode l ≤ 285 ∧ (lcode l = 285 ↔ l = 258) := by
  by_cases h : l = 258
  · subst h; decide
  · have hlt : lastAtMost (baseLTable.take 28) l < 28 := lastAtMost_lt (by decide) l
    rw [lcode_of_ne h]
    omega

/-- The symbols below 285 have the first 28 bases. -/
theorem baseL_add {k : Nat} (hk : k < 28) : baseL (257 + k) = (baseLTable.take 28).getD k 0 := by
  rw [baseL, Nat.add_sub_cancel_left, List.getD_eq_getElem?_getD, List.getD_eq_getElem?_getD, List.getElem?_take_of_lt hk]

theorem baseL_lcode_le {l : Nat} (h : 3 ≤ l) : baseL (lcode l) ≤ l := by
  by_cases h258 : l = 258
  · subst h258; decide
  · rw [lcode_of_ne h258, baseL_add (lastAtMost_lt (by decide) l)]
    exact getD_lastAtMost_le _ h

theorem dcode_le (d : Nat) : dcode d ≤ 29 := Nat.le_of_lt_succ (lastAtMost_lt (by decide) d)

theorem baseD_dcode_le {d : Nat} (h : 1 ≤ d) : baseD (dcode d) ≤ d := getD_lastAtMost_le _ h

/-- Settles O43: the value is not below its symbol's base, and its extra value fits. -/
theorem lengthAndDistanceCodes : Obligations.LengthAndDistanceCodes := by
  refine ⟨fun l h3 h258 => ?_, fun d h1 h => ?_⟩
  · obtain ⟨hlo, hhi, hiff⟩ := lcode_range l
    have hbase := baseL_lcode_le h3
    have hextra := sub_baseL_lcode_lt ⟨l - 3, by omega⟩
    simp only [Nat.sub_add_cancel h3] at hextra
    exact ⟨hlo, hhi, hiff, hbase, by omega⟩
  · have hbase := baseD_dcode_le h1
    have hextra := sub_baseD_dcode_lt h1 h
    exact ⟨dcode_le d, hbase, by omega⟩

end Sys2Proof.Machine

/-! PROOFS. The pending output as a bit string (40_bit_output.md R141 to R143, R148, R151), from the spec lemma of each operation. -/

namespace Sys2Proof.Machine

theorem BitOut.writeByte_unaligned {o : BitOut} (h : o.nbits ≠ 0) (b : Nat) : o.writeByte b = .raise .bitAlignment o :=
  BitOut.writeBlock_unaligned h _

theorem bitsOfBytes_ofNat (b : Nat) : bitsOfBytes [BitVec.ofNat 8 b] = bitsOf 8 b := by
  rw [bitsOfBytes_cons, bitsOfBytes_nil, List.append_nil, BitVec.toNat_ofNat, bitsOf_mod]

/-- WriteByte on a byte boundary appends the byte and stays on the boundary (R143). -/
theorem BitOut.writeByte_spec {o : BitOut} (h : o.nbits = 0) (b : Nat) :
    ∃ o', o.writeByte b = .done () o' ∧ o'.stream = o.stream ++ bitsOf 8 b ∧ o'.nbits = 0 := by
  obtain ⟨-, hstream, hn, -⟩ := BitOut.writeBlock_spec h [BitVec.ofNat 8 b]
  exact ⟨_, BitOut.writeByte_aligned h b, by rw [hstream, bitsOfBytes_ofNat], hn⟩

/-- With no bits pending the stream is whole bytes. -/
theorem BitOut.stream_length_mod_eight {o : BitOut} (h : o.nbits = 0) : o.stream.length % 8 = 0 := by
  rw [BitOut.stream_length, h]
  omega

/-- Settles O38: the hypotheses say that the output is settled, and each clause is what the one operation appends to a settled output. -/
theorem outputKeepsBitStream : Obligations.OutputKeepsBitStream := by
  intro o hfew hbits
  have hset : o.Settled := ⟨hfew, hbits⟩
  obtain ⟨halign, -, hn, hb⟩ := BitOut.alignToByte_spec hset
  obtain ⟨hsettle, hseven, -⟩ := BitOut.settle_spec hset
  refine ⟨fun v n hle hv => ?_, ?_, fun b _ h0 => BitOut.writeByte_spec h0 b, fun b h0 => BitOut.writeByte_unaligned h0 b,
    hsettle, hseven⟩
  · obtain ⟨hstream, hset'⟩ := BitOut.writeBits_spec hset hle hv
    exact ⟨hstream, hset'.few, hset'.bits⟩
  · exact ⟨(8 - o.nbits % 8) % 8, Nat.mod_lt _ (by decide), halign, BitOut.stream_length_mod_eight hn, hn, hb⟩

end Sys2Proof.Machine

/-! PROOFS. The window and the match search (41_match_engine.md R161, R162, R166): what a slide and a fill leave in each place, and that a match
found is a match. -/

namespace Sys2Proof.Machine

/-! ## Slide (R162) -/

/-- The move of R162 keeps the upper half. -/
theorem Tbl.get_copyUpper_upper {d : Nat} (t : Tbl) {i : Nat} (hlow : 2 ^ d ≤ i) (hhigh : i < 2 ^ (d + 1)) :
    Tbl.get (d + 1) t.copyUpper i = Tbl.get (d + 1) t i := by
  have hbit : i.testBit d = true := by
    rw [← Nat.add_sub_of_le hlow, Nat.testBit_two_pow_add_eq, Nat.testBit_lt_two_pow (by omega)]; rfl
  rw [Tbl.copyUpper, Tbl.get_join, Tbl.get_succ, if_pos hbit, if_pos hbit]

/-- Settles O33: the window by the move of its upper half, the chains by rebasing each entry, and the registers by definition. -/
theorem slideRebasesPositions : Obligations.SlideRebasesPositions := by
  intro c
  refine ⟨fun i hi => ?_, fun i hlow hhigh => ?_, CU.slide_matchStart c, CU.slide_strstart c, CU.slide_blockStart c,
    Tbl.get_rebase 15 WSIZE c.head, Tbl.get_rebase 15 WSIZE c.prev, rfl⟩
  · exact Tbl.get_copyUpper c.win hi
  · exact Tbl.get_copyUpper_upper c.win hlow hhigh

/-! ## Fill (R161) -/

theorem CU.fill_of_ready {c : CU} {m : Memory} (hl : c.slideIfFull.lookahead < MIN_LOOKAHEAD)
    (hb : c.slideIfFull.inPtr < c.slideIfFull.inEnd) : c.fill m = c.slideIfFull.take m :=
  if_pos (Bool.and_eq_true_iff.mpr ⟨decide_eq_true hl, decide_eq_true hb⟩)

theorem CU.fill_of_not_ready {c : CU} {m : Memory}
    (h : ¬ (c.slideIfFull.lookahead < MIN_LOOKAHEAD ∧ c.slideIfFull.inPtr < c.slideIfFull.inEnd)) : c.fill m = c.slideIfFull :=
  if_neg fun hready => h (by simpa only [Bool.and_eq_true, decide_eq_true_eq] using hready)

section
variable {c : CU} (hfit : c.strstart + c.lookahead ≤ 65536) (m : Memory)
include hfit

theorem CU.fillCount_fits : c.strstart + c.lookahead + c.fillCount ≤ 65536 := by
  have hroom : c.fillCount ≤ 65536 - c.lookahead - c.strstart := min_le_left _ _
  omega

/-- The bytes taken stand in order after the lookahead. -/
theorem CU.take_winAt_in {k : Nat} (hk : k < c.fillCount) :
    (c.take m).winAt (c.strstart + c.lookahead + k) = (m.read (c.inPtr + k)).toNat := by
  have hroom := CU.fillCount_fits hfit
  simp only [CU.winAt, CU.take]
  rw [Tbl.get_setList_in _ (by simpa using hk) (by simpa using hroom)]
  simp [Memory.readBytes_getElem? m c.inPtr c.fillCount k hk]

theorem CU.take_winAt_out {p : Nat} (hp : p < c.strstart + c.lookahead ∨ (c.strstart + c.lookahead + c.fillCount ≤ p ∧ p < 65536)) :
    (c.take m).winAt p = c.winAt p := by
  have hroom := CU.fillCount_fits hfit
  exact Tbl.get_setList_out _ (by simp; omega) (by simpa using hroom) (by omega)

end

/-- Settles O34: Fill is the slide, and then the move of bound bytes where its condition holds. -/
theorem fillMovesBoundInput : Obligations.FillMovesBoundInput := by
  intro c m c1 n
  refine ⟨CU.fill_of_not_ready, fun hl hb hfit => ?_⟩
  have hfill : c.fill m = c1.take m := CU.fill_of_ready hl hb
  rw [hfill]
  exact ⟨rfl, fun k => CU.take_winAt_in hfit m, fun p => CU.take_winAt_out hfit m⟩

/-! ## The match search (R166, R172) -/

/-- The bytes counted as equal are equal. -/
theorem winAt_eq_of_lt_matchLength (win : Tbl) {a b cap k : Nat} (hk : k < matchLength win a b cap) :
    win.get 16 (a + k) = win.get 16 (b + k) := by
  induction cap generalizing a b k with
  | zero => exact absurd hk (Nat.not_lt_zero k)
  | succ cap ih =>
    rw [matchLength] at hk
    split at hk
    · next heq =>
      cases k with
      | zero => exact heq
      | succ k => simpa only [Nat.add_assoc, Nat.add_comm 1] using ih (Nat.lt_of_succ_lt_succ hk)
    · exact absurd hk (Nat.not_lt_zero k)

/-- The match registers after a candidate p is examined (R166). -/
def CU.examine (c : CU) (cap p : Nat) : CU :=
  if c.matchLen < matchLength c.win p c.strstart cap then { c with matchStart := p, matchLen := matchLength c.win p c.strstart cap } else c

/-- The search ends at a candidate or goes on, and goes on only at a chain entry above the limit. -/
theorem CU.searchChain_succ (c : CU) (cap limit nice chain cur : Nat) :
    CU.searchChain c.strstart cap limit nice (chain + 1) cur c = c.examine cap cur ∨
      ∃ i, limit < c.prev.get 15 i ∧ CU.searchChain c.strstart cap limit nice (chain + 1) cur c =
        CU.searchChain c.strstart cap limit nice chain (c.prev.get 15 i) (c.examine cap cur) := by
  rw [CU.searchChain]
  split
  · exact .inl rfl
  · split
    · exact .inl rfl
    · next hlimit => exact .inr ⟨_, Nat.lt_of_not_le hlimit, rfl⟩

/-- The held match as it was, or a longer one of at most `cap` bytes at a candidate that satisfies P, where the window holds the same bytes as
at C_STRSTART. -/
def CU.Improved (P : Nat → Prop) (cap : Nat) (c e : CU) : Prop :=
  e = c ∨ ∃ p l : Nat, e = { c with matchStart := p, matchLen := l } ∧ c.matchLen < l ∧ l ≤ cap ∧
    (∀ k, k < l → c.winAt (p + k) = c.winAt (c.strstart + k)) ∧ P p

theorem CU.Improved.trans {P : Nat → Prop} {cap : Nat} {c e f : CU} (h : CU.Improved P cap c e) (h' : CU.Improved P cap e f) :
    CU.Improved P cap c f := by
  rcases h with rfl | ⟨p, l, rfl, hl, hfound⟩
  · exact h'
  · rcases h' with rfl | ⟨p', l', rfl, hl', hfound'⟩
    · exact .inr ⟨p, l, rfl, hl, hfound⟩
    · exact .inr ⟨p', l', rfl, hl.trans hl', hfound'⟩

theorem CU.improved_examine {P : Nat → Prop} (c : CU) (cap : Nat) {p : Nat} (hp : P p) : CU.Improved P cap c (c.examine cap p) := by
  unfold CU.examine
  split
  · next hlonger =>
    exact .inr ⟨p, _, rfl, hlonger, matchLength_le .., fun k => winAt_eq_of_lt_matchLength c.win, hp⟩
  · exact .inl rfl

theorem CU.examine_strstart (c : CU) (cap p : Nat) : (c.examine cap p).strstart = c.strstart := by
  unfold CU.examine; split <;> rfl

theorem CU.examine_prev (c : CU) (cap p : Nat) : (c.examine cap p).prev = c.prev := by
  unfold CU.examine; split <;> rfl

/-- A search improves the held match at a candidate with a property that the first candidate has, and every chain entry above the limit. -/
theorem CU.searchChain_improved {P : Nat → Prop} {cap limit nice : Nat} (chain : Nat) {c : CU} {cur : Nat} (hcur : P cur)
    (hchain : ∀ i, limit < c.prev.get 15 i → P (c.prev.get 15 i)) :
    CU.Improved P cap c (CU.searchChain c.strstart cap limit nice chain cur c) := by
  induction chain generalizing c cur with
  | zero => exact .inl rfl
  | succ chain ih =>
    have hexamined := CU.improved_examine c cap hcur
    obtain h | ⟨i, hi, h⟩ := c.searchChain_succ cap limit nice chain cur <;> rw [h]
    · exact hexamined
    · have hrest := ih (c := c.examine cap cur) (hchain i hi) (by rwa [CU.examine_prev])
      rw [CU.examine_strstart] at hrest
      exact hexamined.trans hrest

/-- The CU as LongestMatch begins: a length of at least 2 is held (R166). -/
def CU.holding (c : CU) : CU := { c with matchLen := max c.matchLen 2 }

/-- LongestMatch does not search where the held length is at the cap. -/
theorem CU.longestMatch_of_cap_le {c : CU} (h : min 258 c.lookahead ≤ max c.matchLen 2) (cur : Nat) :
    c.longestMatch cur = (false, c.holding) := if_pos h

/-- Below the cap LongestMatch searches, and answers whether a match is held then. -/
theorem CU.longestMatch_of_lt_cap {c : CU} (h : max c.matchLen 2 < min 258 c.lookahead) (cur : Nat) :
    ∃ nice chain e, e = CU.searchChain c.strstart (min 258 c.lookahead) (c.strstart - 32506) nice chain cur c.holding ∧
      c.longestMatch cur = (decide (3 ≤ e.matchLen), e) :=
  ⟨_, _, _, rfl, if_neg (Nat.not_le_of_lt h)⟩

/-- A position from 1 to MAX_DIST places before C_STRSTART (R172). -/
def CU.InReach (c : CU) (p : Nat) : Prop := 1 ≤ p ∧ p < c.strstart ∧ c.strstart - p ≤ 32506

theorem CU.inReach_of_chain {c : CU} (h : c.prev.allBelow 15 c.strstart) {i : Nat} (hi : c.strstart - 32506 < c.prev.get 15 i) :
    c.InReach (c.prev.get 15 i) := by
  have hbelow := h i
  unfold CU.InReach
  omega

/-- What LongestMatch leaves, by R166: the held match, or a better one, in reach where the candidate and the chains' entries are. -/
theorem CU.longestMatch_improved (c : CU) (cur : Nat) :
    CU.Improved (fun p => c.InReach cur → c.prev.allBelow 15 c.strstart → c.InReach p) (min 258 c.lookahead) c.holding
      (c.longestMatch cur).2 := by
  rcases Nat.lt_or_ge (max c.matchLen 2) (min 258 c.lookahead) with hcap | hcap
  · obtain ⟨nice, chain, e, rfl, h⟩ := CU.longestMatch_of_lt_cap hcap cur
    rw [h]
    exact CU.searchChain_improved (c := c.holding) chain (fun h _ => h) fun i hi _ hprev => CU.inReach_of_chain hprev hi
  · rw [CU.longestMatch_of_cap_le hcap]
    exact .inl rfl

theorem CU.longestMatch_yes {c : CU} {cur : Nat} (h : (c.longestMatch cur).1 = true) :
    3 ≤ (c.longestMatch cur).2.matchLen ∧ max c.matchLen 2 < min 258 c.lookahead := by
  rcases Nat.lt_or_ge (max c.matchLen 2) (min 258 c.lookahead) with hcap | hcap
  · obtain ⟨nice, chain, e, -, he⟩ := CU.longestMatch_of_lt_cap hcap cur
    rw [he] at h ⊢
    exact ⟨of_decide_eq_true h, hcap⟩
  · rw [CU.longestMatch_of_cap_le hcap] at h
    exact absurd h Bool.false_ne_true

/-- Settles O35: LongestMatch leaves the match held or a better one, whose bytes were compared and whose place is the candidate or a chain entry
above the limit. -/
theorem longestMatchFindsEqualBytes : Obligations.LongestMatchFindsEqualBytes := by
  intro c cur r
  have hyes : r.1 = true → 3 ≤ r.2.matchLen ∧ max c.matchLen 2 < min 258 c.lookahead := CU.longestMatch_yes
  obtain hr | ⟨p, l, hr, hlonger, hcap, hbytes, hreach⟩ : CU.Improved _ _ c.holding r.2 := c.longestMatch_improved cur
  · have hlen : r.2.matchLen = max c.matchLen 2 := by rw [hr]; rfl
    exact ⟨by rw [hr]; rfl, hyes, fun h => absurd hlen h.ne', hlen.ge⟩
  · have hlen : r.2.matchLen = l := by rw [hr]
    have hstart : r.2.matchStart = p := by rw [hr]
    rw [hlen]
    refine ⟨by rw [hr]; rfl, hlen ▸ hyes, fun _ => ⟨hcap, p, hstart, hbytes, fun h1 hlt hnear => ?_⟩, hlonger.le⟩
    exact hreach ⟨h1, hlt, hnear⟩

end Sys2Proof.Machine

/-! PROOFS. The trees that are built (42_huffman_encoder.md R204 to R206, R215): the symbols coded are the leaves, and T.NUM is past them all. -/

namespace Sys2Proof.Machine

theorem validLengths_iff {limit : Nat} {lens : List Nat} :
    validLengths limit lens = true ↔ (∀ l ∈ lens, l ≤ limit) ∧ 2 ≤ (lens.filter fun l => 0 < l).length ∧ kraft lens = 2 ^ 15 := by
  simp only [validLengths, Bool.and_eq_true, List.all_eq_true, decide_eq_true_eq, beq_iff_eq, and_assoc]

/-- The vector has n lengths, and the symbols with a positive one are those that were given one. -/
theorem lengthVector_good {n limit : Nat} {leaves : List Nat} {lengths : List (Nat × Nat)} (h : GoodLengths limit leaves lengths)
    (hnd : leaves.Nodup) (hlt : ∀ s ∈ leaves, s < n) :
    (lengthVector n lengths).length = n ∧ ∀ s, 0 < (lengthVector n lengths).getD s 0 ↔ s ∈ leaves := by
  obtain ⟨hlen, hin, hout, -⟩ := lengthVector_spec n lengths (h.leaves.nodup_iff.mpr hnd)
    fun p hp => hlt p.1 (h.leaves.mem_iff.mp (List.mem_map_of_mem hp))
  refine ⟨hlen, fun s => ?_⟩
  rw [← h.leaves.mem_iff]
  by_cases hs : s ∈ lengths.map Prod.fst
  · obtain ⟨p, hp, rfl⟩ := List.mem_map.mp hs
    rw [hin p hp]
    exact iff_of_true (h.range p hp).1 hs
  · rw [hout s hs]
    exact iff_of_false (Nat.lt_irrefl 0) hs

/-- The leaves of a tree, two at least, and `top`, one more than the largest of them (R204). -/
def HuffTree.leaves (t : HuffTree) : List Nat × Nat := forceLeaves 2 (usedSymbols t.freq) (topOf (usedSymbols t.freq))

/-- What a construction that succeeds has written: only T.LEN and T.NUM, and lengths that pass the check. -/
theorem HuffTree.eq_of_build {t b : HuffTree} {n min limit : Nat} (h : t.build n min limit = some b) :
    validLengths limit b.len = true ∧
    b = { t with
      len := lengthVector n (limitedLengths limit t.freq (leafDepths n t.freq t.leaves.1)), num := max t.leaves.2 min } := by
  simp only [HuffTree.build] at h
  split at h
  · next hvalid =>
    cases h
    exact ⟨hvalid, rfl⟩
  · cases h

/-- The tree built has n lengths, and codes the leaves and no other symbol (R204 to R206). -/
theorem HuffTree.built_codes_leaves {t b : HuffTree} {n min limit : Nat} (hb : t.build n min limit = some b) (hf : t.freq.length = n)
    (hn : 3 ≤ n) (h1 : 1 ≤ limit) (h15 : limit ≤ 15) (hroom : n < 2 ^ limit) :
    b.len.length = n ∧ ∀ s, 0 < b.len.getD s 0 ↔ s ∈ t.leaves.1 := by
  obtain ⟨hgood, h2, -⟩ := forceLeaves_good hn (usedSymbols_good hf)
  obtain ⟨-, rfl⟩ := HuffTree.eq_of_build hb
  exact lengthVector_good (limitedLengths_good n t.freq h2 h1 h15 (hgood.length_le.trans_lt hroom)) hgood.nodup
    fun s hs => (hgood.below s hs).trans_le hgood.top

/-- A tree is built whole: R215's conditions, the frequencies as they were, and T.NUM between the minimum and the size, past every coded symbol;
the symbols in use are coded. -/
theorem HuffTree.build_spec (t : HuffTree) {n min limit : Nat} (hf : t.freq.length = n) (hn : 3 ≤ n) (h1 : 1 ≤ limit) (h15 : limit ≤ 15)
    (hroom : n < 2 ^ limit) (hmin : min ≤ n) :
    ∃ b, t.build n min limit = some b ∧ b.freq = t.freq ∧ b.len.length = n ∧ validLengths limit b.len = true ∧
      min ≤ b.num ∧ b.num ≤ n ∧ (∀ s, b.num ≤ s → b.len.getD s 0 = 0) ∧ ∀ s, 0 < t.freq.getD s 0 → 0 < b.len.getD s 0 := by
  obtain ⟨len, num, hb, -, hnum⟩ := t.build_eq_some hf hn h1 h15 hroom hmin
  obtain ⟨hgood, -, hused⟩ := forceLeaves_good hn (usedSymbols_good hf)
  obtain ⟨hvalid, htree⟩ := HuffTree.eq_of_build hb
  obtain ⟨hlen, hcoded⟩ := HuffTree.built_codes_leaves hb hf hn h1 h15 hroom
  obtain rfl : num = max t.leaves.2 min := congrArg HuffTree.num htree
  refine ⟨_, hb, rfl, hlen, hvalid, le_max_right _ _, hnum, fun s hs => ?_, fun s hs => ?_⟩
  · refine Nat.eq_zero_of_not_pos fun hpos => ?_
    have hbelow : s < t.leaves.2 := hgood.below s ((hcoded s).mp hpos)
    exact Nat.not_le_of_lt hbelow ((le_max_left _ _).trans hs)
  · exact (hcoded s).mpr (hused s (mem_usedSymbols.mpr hs))

/-- Settles O36: the sizes and limits of the three trees leave room for every symbol, and the construction's own specification says the rest. -/
theorem builtTreesAreValid : Obligations.BuiltTreesAreValid := by
  intro t n min limit hsizes hf
  obtain ⟨hn, h1, h15, hroom, hmin⟩ : 3 ≤ n ∧ 1 ≤ limit ∧ limit ≤ 15 ∧ n < 2 ^ limit ∧ min ≤ n := by
    rcases hsizes with ⟨rfl, rfl, rfl⟩ | ⟨rfl, rfl, rfl⟩ | ⟨rfl, rfl, rfl⟩ <;> decide
  obtain ⟨b, hb, hfreq, hlen, hvalid, hnum⟩ := t.build_spec hf hn h1 h15 hroom hmin
  obtain ⟨hle, htwo, hkraft⟩ := validLengths_iff.mp hvalid
  exact ⟨b, hb, hfreq, hlen, hle, htwo, hkraft, hnum⟩

end Sys2Proof.Machine

/-! PROOFS. Run-length coding (42_huffman_encoder.md R207, 30_encoding.md R110): the items of each run expand to the run. -/

namespace Sys2Proof.Machine

/-- A run found: it begins the list, and what is left follows it. -/
theorem takeRun_spec (cur maxc count : Nat) (ls : List Nat) :
    ∃ k, (takeRun cur maxc count ls).1 = count + k ∧ ls = List.replicate k cur ++ (takeRun cur maxc count ls).2 := by
  induction ls generalizing count with
  | nil => exact ⟨0, rfl, rfl⟩
  | cons l ls ih =>
    simp only [takeRun]
    split
    · next hl =>
      subst hl
      split
      · exact ⟨1, rfl, rfl⟩
      · obtain ⟨k, hcount, hls⟩ := ih (count + 1)
        exact ⟨k + 1, by omega, by rw [List.replicate_succ, List.cons_append, ← hls]⟩
    · exact ⟨0, rfl, rfl⟩

/-- One pass of RLE takes k + 1 equal lengths from the front: one and then a run of k, or a run of k + 1 where it may begin with a repeat. -/
theorem rleFrom_cons (n : Nat) (last : Option Nat) (l : Nat) (ls : List Nat) :
    ∃ k rest, l :: ls = List.replicate (k + 1) l ++ rest ∧
      (rleFrom (n + 1) last (l :: ls) = runItems l 1 ++ runItems l k ++ rleFrom n (some l) rest ∨
        (l ≠ 0 → last = some l) ∧ rleFrom (n + 1) last (l :: ls) = runItems l (k + 1) ++ rleFrom n (some l) rest) := by
  simp only [rleFrom]
  generalize (if l = 0 then 138 else 6) = maxc
  by_cases hfresh : l ≠ 0 ∧ last ≠ some l
  · obtain ⟨k, hcount, hls⟩ := takeRun_spec l maxc 0 ls
    refine ⟨k, _, by rw [List.replicate_succ, List.cons_append, ← hls], .inl ?_⟩
    simp [hfresh, hcount, runItems]
  · obtain ⟨k, hcount, hls⟩ := takeRun_spec l maxc 1 ls
    refine ⟨k, _, by rw [List.replicate_succ, List.cons_append, ← hls], .inr ⟨fun hl => by_contra fun h => hfresh ⟨hl, h⟩, ?_⟩⟩
    simp [hfresh, hcount, Nat.add_comm]

/-! ## What the items expand to -/

theorem expandItems_append (xs ys : List RleItem) (acc : List Nat) : expandItems (xs ++ ys) acc = expandItems ys (expandItems xs acc) := by
  induction xs generalizing acc with
  | nil => rfl
  | cons x xs ih => exact ih _

/-- Literal lengths stand for themselves. -/
theorem expandItems_replicate {cur : Nat} (h : cur ≤ 15) (k : Nat) (acc : List Nat) :
    expandItems (List.replicate k ⟨cur, 0, 0⟩) acc = acc ++ List.replicate k cur := by
  induction k generalizing acc with
  | zero => exact (List.append_nil acc).symm
  | succ k ih =>
    simp only [List.replicate_succ, expandItems, ih, List.append_assoc]
    rw [if_neg (by omega), if_neg (by omega), if_neg (by omega), List.singleton_append]

/-- A run expands to its lengths; a repeat of nonzero ones copies the length before it. -/
theorem expandItems_runItems {cur count : Nat} (h : cur ≤ 15) {acc : List Nat} (hlast : 3 ≤ count → cur ≠ 0 → acc.getLast? = some cur) :
    expandItems (runItems cur count) acc = acc ++ List.replicate count cur := by
  unfold runItems
  split
  · exact expandItems_replicate h count acc
  · next h3 =>
    split
    · next hcur => simp [expandItems, hlast (Nat.le_of_not_lt h3) hcur, show 3 + (count - 3) = count by omega]
    · next hcur =>
      obtain rfl := not_not.mp hcur
      split
      · simp [expandItems, show 3 + (count - 3) = count by omega]
      · simp [expandItems, show 11 + (count - 11) = count by omega]

theorem getLast?_append_replicate_succ (acc : List Nat) (k l : Nat) : (acc ++ List.replicate (k + 1) l).getLast? = some l := by
  rw [List.replicate_succ', ← List.append_assoc, List.getLast?_concat]

/-- Lengths coded after those in `acc`, of which only the last is seen, expand to themselves. -/
theorem expandItems_rleFrom (n : Nat) {ls acc : List Nat} (hn : ls.length ≤ n) (hle : ∀ l ∈ ls, l ≤ 15) :
    expandItems (rleFrom n acc.getLast? ls) acc = acc ++ ls := by
  induction n generalizing ls acc with
  | zero =>
    rw [List.eq_nil_of_length_eq_zero (Nat.le_zero.mp hn), List.append_nil]
    rfl
  | succ n ih =>
    cases ls with
    | nil => exact (List.append_nil acc).symm
    | cons l ls =>
      have hl : l ≤ 15 := hle l List.mem_cons_self
      obtain ⟨k, rest, hls, hitems⟩ := rleFrom_cons n acc.getLast? l ls
      rw [hls] at hn hle
      have hrest := ih (ls := rest) (acc := acc ++ List.replicate (k + 1) l)
        (by simp only [List.length_append, List.length_replicate] at hn; omega) fun x hx => hle x (List.mem_append_right _ hx)
      rw [getLast?_append_replicate_succ, List.append_assoc, ← hls] at hrest
      rw [← hrest]
      rcases hitems with hitems | ⟨hlast, hitems⟩
      · have hone : expandItems (runItems l 1) acc = acc ++ [l] := expandItems_runItems hl fun h3 => absurd h3 (by decide)
        have hrun : expandItems (runItems l k) (acc ++ [l]) = acc ++ [l] ++ List.replicate k l :=
          expandItems_runItems hl fun _ _ => List.getLast?_concat
        rw [hitems, expandItems_append, expandItems_append, hone, hrun, List.append_assoc, List.singleton_append, ← List.replicate_succ]
      · rw [hitems, expandItems_append, expandItems_runItems hl fun _ => hlast]

/-! ## The alphabet of the items (R110) -/

/-- A code-length symbol with as many extra bits as it has (R110). -/
def RleItem.InAlphabet (r : RleItem) : Prop :=
  r.sym ≤ 18 ∧ r.xbits = (if r.sym = 16 then 2 else if r.sym = 17 then 3 else if r.sym = 18 then 7 else 0)

theorem runItems_inAlphabet {cur : Nat} (h : cur ≤ 15) (count : Nat) : ∀ r ∈ runItems cur count, r.InAlphabet := by
  unfold runItems
  split
  · intro r hr
    rw [List.eq_of_mem_replicate hr]
    refine ⟨by simp only; omega, ?_⟩
    rw [if_neg (by simp only; omega), if_neg (by simp only; omega), if_neg (by simp only; omega)]
  · split
    · exact List.forall_mem_singleton.mpr ⟨(by decide : 16 ≤ 18), rfl⟩
    · split
      · exact List.forall_mem_singleton.mpr ⟨(by decide : 17 ≤ 18), rfl⟩
      · exact List.forall_mem_singleton.mpr ⟨(by decide : 18 ≤ 18), rfl⟩

theorem rleFrom_inAlphabet (n : Nat) (last : Option Nat) {ls : List Nat} (hle : ∀ l ∈ ls, l ≤ 15) :
    ∀ r ∈ rleFrom n last ls, r.InAlphabet := by
  induction n generalizing last ls with
  | zero => exact fun r hr => absurd hr List.not_mem_nil
  | succ n ih =>
    cases ls with
    | nil => exact fun r hr => absurd hr List.not_mem_nil
    | cons l ls =>
      have hrun := runItems_inAlphabet (hle l List.mem_cons_self)
      obtain ⟨k, rest, hls, hitems⟩ := rleFrom_cons n last l ls
      have hrest := ih (some l) fun x hx => hle x (hls ▸ List.mem_append_right _ hx)
      rcases hitems with hitems | ⟨-, hitems⟩ <;> rw [hitems]
      · exact List.forall_mem_append.mpr ⟨List.forall_mem_append.mpr ⟨hrun 1, hrun k⟩, hrest⟩
      · exact List.forall_mem_append.mpr ⟨hrun (k + 1), hrest⟩

/-- Settles O37: RLE begins with nothing before it, each run expands to itself after the runs before it, and each item fits its extra bits. -/
theorem runLengthCodingIsExact : Obligations.RunLengthCodingIsExact := by
  intro lens hle
  refine ⟨expandItems_rleFrom lens.length (acc := []) le_rfl hle, fun r hr => ?_⟩
  obtain ⟨hsym, hbits⟩ := rleFrom_inAlphabet _ _ hle r hr
  exact ⟨hsym, (rle_fit lens r hr).2, hbits⟩

end Sys2Proof.Machine

/-! PROOFS. The stored block (42_huffman_encoder.md R212, 30_encoding.md R103): what each of its writes appends to the pending output. -/

namespace Sys2Proof.Machine

/-- WriteShort on a byte boundary appends sixteen bits and stays on the boundary (R144). -/
theorem BitOut.writeShort_spec {o : BitOut} (h : o.nbits = 0) (s : Nat) :
    ∃ o', o.writeShort s = .done () o' ∧ o'.stream = o.stream ++ bitsOf 16 s ∧ o'.nbits = 0 := by
  obtain ⟨o₁, hlow, hstream₁, hn₁⟩ := BitOut.writeByte_spec h (s % 256)
  obtain ⟨o₂, hhigh, hstream₂, hn₂⟩ := BitOut.writeByte_spec hn₁ (s / 256)
  have hbytes : bitsOf 16 s = bitsOf 8 (s % 256) ++ bitsOf 8 (s / 256) := by
    rw [show bitsOf 8 (s % 256) = bitsOf 8 s from bitsOf_mod 8 s]
    exact bitsOf_append 8 8 s
  exact ⟨o₂, by rw [BitOut.writeShort, hlow, Run.bind_done, hhigh], by rw [hstream₂, hstream₁, List.append_assoc, hbytes], hn₂⟩

/-- BFINAL and BTYPE 0, and the zeros up to a byte boundary (R103). -/
theorem BitOut.storedHeader_spec {o : BitOut} (h : o.Settled) (last : Bool) :
    ∃ k, k < 8 ∧ (o.stream.length + 3 + k) % 8 = 0 ∧ ((o.writeBits last.toNat 3).alignToByte).nbits = 0 ∧
      ((o.writeBits last.toNat 3).alignToByte).stream = o.stream ++ [last, false, false] ++ List.replicate k false := by
  obtain ⟨hbits, hset⟩ := BitOut.writeBits_spec h (v := last.toNat) (n := 3) (by decide) (by cases last <;> decide)
  obtain ⟨hpad, -, hn, -⟩ := BitOut.alignToByte_spec hset
  have hthree : bitsOf 3 last.toNat = [last, false, false] := by cases last <;> rfl
  rw [hbits, hthree] at hpad
  have hlen := BitOut.stream_length_mod_eight hn
  simp only [hpad, List.length_append, List.length_replicate] at hlen
  exact ⟨_, Nat.mod_lt _ (by decide), hlen, hn, hpad⟩

/-- Settles O39: each write of a stored block appends its bits, the bytes after the padding stand on a byte boundary, and only the output and
the block's tokens and frequencies change. -/
theorem storedBlockLayout : Obligations.StoredBlockLayout := by
  intro c data last hfew hbits _
  obtain ⟨k, hk, hpad, hn, hstream⟩ := BitOut.storedHeader_spec ⟨hfew, hbits⟩ last
  obtain ⟨o₁, hlen, hstream₁, hn₁⟩ := BitOut.writeShort_spec hn data.length
  obtain ⟨o₂, hcompl, hstream₂, hn₂⟩ := BitOut.writeShort_spec hn₁ (data.length ^^^ 0xFFFF)
  obtain ⟨hdata, hstream₃, hn₃, -⟩ := BitOut.writeBlock_spec hn₂ data
  refine ⟨{ c.huffReset with out := o₂.push data }, k, ?_, hk, hpad, ?_, hn₃, rfl⟩
  · rw [CU.emitStored, hlen, Run.bind_done, hcompl, Run.bind_done, hdata]
    rfl
  · rw [hstream₃, hstream₂, hstream₁, hstream]

end Sys2Proof.Machine

/-! PROOFS. What the parts of the compressor's engine leave as it is, from every state (42_huffman_encoder.md R201 to R213; 41_match_engine.md
R162 to R169): a block is flushed, with an error only where the frequency arrays lack their sizes, and a token consumes lookahead and nothing else. -/

namespace Sys2Proof.Machine

/-! ## Procedures that end -/

/-- The procedure ends: its value and state meet P, or it raises, which it does only where X holds. -/
def Run.Finishes {σ α : Type} (P : α → σ → Prop) (X : Prop) : Run σ α → Prop
  | .done a s => P a s
  | .raise _ _ => X
  | .stuck => False

section
variable {σ τ α β : Type} {P Q : α → σ → Prop} {X Y : Prop} {r : Run σ α}

@[simp] theorem Run.finishes_done (a : α) (s : σ) : (Run.done a s).Finishes P X ↔ P a s := Iff.rfl

theorem Run.Finishes.mono (h : r.Finishes P X) (hP : ∀ a s, P a s → Q a s) (hX : X → Y) : r.Finishes Q Y := by
  cases r with
  | done a s => exact hP a s h
  | raise e s => exact hX h
  | stuck => exact h

/-- One procedure after another. -/
theorem Run.Finishes.bind {f : α → σ → Run σ β} {Q : β → σ → Prop} (h : r.Finishes P X)
    (hf : ∀ a s, P a s → (f a s).Finishes Q X) : (r.bind f).Finishes Q X := by
  cases r with
  | done a s => exact hf a s h
  | raise e s => exact h
  | stuck => exact h

theorem Run.Finishes.within {P : α → τ → Prop} {put : σ → τ} (h : r.Finishes (fun a s => P a (put s)) X) : (r.within put).Finishes P X := by
  cases r with
  | done a s => exact h
  | raise e s => exact h
  | stuck => exact h

/-- A procedure that ends and does not raise is done. -/
theorem Run.Finishes.eq_done (h : r.Finishes P X) (hX : ¬ X) : ∃ a s, r = .done a s ∧ P a s := by
  cases r with
  | done a s => exact ⟨a, s, rfl, h⟩
  | raise e s => exact absurd h hX
  | stuck => exact h.elim

end

/-! ## What the engine does not write -/

/-- What the engine's parts keep of a CU, or change only as they say: the configuration, the phase and the requests, the fault, the binding, the
lookahead, the bytes delivered, and the sizes of the frequency arrays. -/
structure CU.Setting where
  level : Fin 10
  strategy : Strategy
  nohdr : Bool
  phase : CPhase
  flushReq : Bool
  finishReq : Bool
  dictSet : Bool
  fault : Option Err
  totalOut : DWord
  inPtr : Nat
  inEnd : Nat
  lookahead : Nat
  litSize : Nat
  distSize : Nat
  blSize : Nat

def CU.setting (c : CU) : CU.Setting :=
  { level := c.level, strategy := c.strategy, nohdr := c.nohdr, phase := c.phase, flushReq := c.flushReq, finishReq := c.finishReq
    dictSet := c.dictSet, fault := c.fault, totalOut := c.totalOut, inPtr := c.inPtr, inEnd := c.inEnd, lookahead := c.lookahead
    litSize := c.lit.freq.length, distSize := c.dist.freq.length, blSize := c.bl.freq.length }

/-- The sizes of the frequency arrays (10_state.md R35). -/
def CU.Setting.Sized (v : CU.Setting) : Prop := v.litSize = 286 ∧ v.distSize = 30 ∧ v.blSize = 19

/-! ## A block flushed (42_huffman_encoder.md R201 to R213) -/

theorem CU.setting_huffReset (c : CU) : c.huffReset.setting = c.setting := by
  simp [CU.setting, CU.huffReset]

theorem CU.setting_tallyLit (c : CU) (b : Nat) : (c.tallyLit b).setting = c.setting := by
  simp [CU.setting, CU.tallyLit, CU.pushToken]

theorem CU.setting_tallyDist (c : CU) (d l : Nat) : (c.tallyDist d l).setting = c.setting := by
  simp [CU.setting, CU.tallyDist, CU.pushToken]

theorem HuffTree.size_of_build {t b : HuffTree} {n min limit : Nat} (h : t.build n min limit = some b) : b.freq.length = t.freq.length := by
  rw [(HuffTree.eq_of_build h).2]

/-- A tree of its size is built (R206, R215), so the construction fails only for another size. -/
theorem HuffTree.size_ne_of_build_none {t : HuffTree} {n min limit : Nat} (h : t.build n min limit = none) (hn : 3 ≤ n) (h1 : 1 ≤ limit)
    (h15 : limit ≤ 15) (hroom : n < 2 ^ limit) (hmin : min ≤ n) : t.freq.length ≠ n := by
  intro hf
  obtain ⟨b, hb, -⟩ := t.build_eq_built hf hn h1 h15 hroom hmin
  simp [h] at hb

theorem CU.buildTrees_finishes (c : CU) : c.buildTrees.Finishes (fun _ e => e.setting = c.setting) (¬ c.setting.Sized) := by
  unfold CU.buildTrees
  extract_lets c₁
  have h₁ : c₁.setting = c.setting := by simp [CU.setting, c₁]
  split
  · next hb =>
    have hsize := HuffTree.size_ne_of_build_none hb (by decide) (by decide) (by decide) (by decide) (by decide)
    exact fun hs => hsize (h₁ ▸ hs).1
  · next lit hlit =>
    extract_lets c₂
    have h₂ : c₂.setting = c.setting := by rw [← h₁]; simp [CU.setting, c₂, HuffTree.size_of_build hlit]
    split
    · next hb =>
      have hsize := HuffTree.size_ne_of_build_none hb (by decide) (by decide) (by decide) (by decide) (by decide)
      exact fun hs => hsize (h₂ ▸ hs).2.1
    · next dist hdist =>
      extract_lets c₃ items c₄
      have h₃ : c₃.setting = c.setting := by rw [← h₂]; simp [CU.setting, c₃, HuffTree.size_of_build hdist]
      have h₄ : c₄.setting = c.setting := by rw [← h₃]; simp [CU.setting, c₄]
      split
      · next hb =>
        have hsize := HuffTree.size_ne_of_build_none hb (by decide) (by decide) (by decide) (by decide) (by decide)
        exact fun hs => hsize (h₄ ▸ hs).2.2
      · next bl hbl =>
        rw [Run.finishes_done, ← h₄]
        simp [CU.setting, HuffTree.size_of_build hbl]

/-- A stored block always leaves bytes to deliver: its length at least (R212). -/
theorem CU.emitStored_finishes (c : CU) (data : List Byte) (last : Bool) :
    (c.emitStored data last).Finishes (fun _ e => e.setting = c.setting ∧ e.out.fifo ≠ []) False := by
  have hn : ((c.out.writeBits last.toNat 3).alignToByte).nbits = 0 := rfl
  simp only [CU.emitStored, BitOut.writeShort_aligned, BitOut.writeBlock_aligned, BitOut.push_nbits, hn, Run.bind_done]
  exact ⟨CU.setting_huffReset _, by simp [CU.huffReset, BitOut.push]⟩

@[simp] theorem CU.setting_writeFields (c : CU) (fields : List (Nat × Nat)) : (c.writeFields fields).setting = c.setting := rfl

theorem CU.setting_fixedBlock (c : CU) (last : Bool) : (c.fixedBlock last).setting = c.setting := by
  have hset (e : CU) : e.setFixed.setting = e.setting := rfl
  rw [CU.fixedBlock, CU.setting_huffReset, CU.compressBlock, CU.setting_writeFields, hset, CU.setting_writeFields]

theorem CU.setting_dynamicBlock (c : CU) (last : Bool) (items : List RleItem) : (c.dynamicBlock last items).setting = c.setting := by
  have hcodes (e : CU) : e.withCodes.setting = e.setting := rfl
  rw [CU.dynamicBlock, CU.setting_huffReset, CU.compressBlock, CU.setting_writeFields, CU.emitDynamicHeader, CU.setting_writeFields, hcodes,
    CU.setting_writeFields]

theorem CU.flushBlock_finishes (c : CU) (start : Int) (n : Nat) (last : Bool) :
    (c.flushBlock start n last).Finishes (fun _ e => e.setting = c.setting) (¬ c.setting.Sized) := by
  refine c.buildTrees_finishes.bind fun items e he => ?_
  rcases e.emitBlock_cases start n last items with h | h | h <;> rw [h, ← he]
  · exact (e.emitStored_finishes _ last).mono (fun _ _ hf => hf.1) False.elim
  · exact e.setting_fixedBlock last
  · exact e.setting_dynamicBlock last items

/-! ## Search (41_match_engine.md R166, R168, R169) -/

theorem CU.setting_searchChain (s cap limit nice chain cur : Nat) (c : CU) :
    (CU.searchChain s cap limit nice chain cur c).setting = c.setting := by
  induction chain generalizing c cur with
  | zero => rfl
  | succ chain ih =>
    have he (l : Nat) : (if c.matchLen < l then { c with matchStart := cur, matchLen := l } else c : CU).setting = c.setting := by
      split <;> rfl
    simp only [CU.searchChain]
    split
    · exact he _
    · split
      · exact he _
      · exact (ih _ _).trans (he _)

theorem CU.setting_longestMatch (c : CU) (cur : Nat) : (c.longestMatch cur).2.setting = c.setting := by
  unfold CU.longestMatch
  extract_lets row s cap e
  split
  · rfl
  · exact CU.setting_searchChain _ _ _ _ _ _ _

theorem CU.setting_fastSearch (c : CU) : c.fastSearch.2.setting = c.setting := by
  unfold CU.fastSearch
  extract_lets hh e
  split
  · split
    · exact CU.setting_longestMatch _ _
    · rfl
  · rfl

/-- The greedy search takes a match of at least three bytes. -/
theorem CU.fastSearch_matchLen {c : CU} (h : c.fastSearch.1 = true) : 3 ≤ c.fastSearch.2.matchLen := by
  revert h
  unfold CU.fastSearch
  extract_lets hh e
  split
  · split
    · exact fun h => (CU.longestMatch_yes h).1
    · exact nofun
  · exact nofun

theorem CU.setting_slowFilter (c : CU) : c.slowFilter.setting = c.setting := by
  unfold CU.slowFilter
  split <;> rfl

theorem CU.setting_slowSearch (c : CU) : c.slowSearch.setting = c.setting := by
  unfold CU.slowSearch
  extract_lets prevLen hh e r
  split
  · split
    · have hr : r.2.setting = c.setting := CU.setting_longestMatch _ _
      split
      · exact (CU.setting_slowFilter _).trans hr
      · exact hr
    · rfl
  · rfl

/-! ## Tokens (R168, R169) -/

theorem CU.setting_slideIf (c : CU) (p : Prop) [Decidable p] : (if p then c.slide else c).setting = c.setting := by
  split <;> rfl

/-- Only lookahead is consumed. -/
def CU.Consumed (c e : CU) : Prop := e.setting = { c.setting with lookahead := e.lookahead } ∧ e.lookahead ≤ c.lookahead

theorem CU.consumed_of_setting_eq {c e : CU} (h : e.setting = c.setting) : c.Consumed e := by
  have hl : e.lookahead = c.lookahead := congrArg Setting.lookahead h
  exact ⟨by rw [h, hl]; rfl, hl.le⟩

theorem CU.Consumed.trans {c e f : CU} (h : c.Consumed e) (h' : e.Consumed f) : c.Consumed f :=
  ⟨by rw [h'.1, h.1], h'.2.trans h.2⟩

theorem CU.Consumed.sized_iff {c e : CU} (h : c.Consumed e) : e.setting.Sized ↔ c.setting.Sized := by rw [h.1]; rfl

theorem CU.setting_insertAhead (n : Nat) (c : CU) : (CU.insertAhead n c).setting = c.setting := by
  induction n generalizing c with
  | zero => rfl
  | succ n ih => exact ih _

/-- A match takes its bytes from the lookahead. -/
theorem CU.setting_fastMatch (c : CU) : c.fastMatch.setting = { c.setting with lookahead := c.lookahead - c.matchLen } := by
  unfold CU.fastMatch
  extract_lets t e a f
  have he : e.setting = { c.setting with lookahead := c.lookahead - c.matchLen } := by
    show ({ t.setting with lookahead := t.lookahead - t.matchLen } : Setting) = _
    rw [CU.setting_tallyDist]
    rfl
  have hf : f.setting = e.setting := by
    simp only [f]
    split
    · exact CU.setting_insertAhead _ _
    · rfl
  exact hf.trans he

theorem CU.setting_fastLiteral (c : CU) : c.fastLiteral.setting = { c.setting with lookahead := c.lookahead - 1 } := by
  unfold CU.fastLiteral
  extract_lets t
  show ({ t.setting with lookahead := t.lookahead - 1 } : Setting) = _
  rw [CU.setting_tallyLit]
  rfl

/-- A token consumes some of the lookahead, where there is any. -/
theorem CU.consumed_of_setting {c e : CU} {n : Nat} (h : e.setting = { c.setting with lookahead := c.lookahead - n }) (hn : 1 ≤ n)
    (hl : c.lookahead ≠ 0) : c.Consumed e ∧ e.lookahead < c.lookahead := by
  have hlook : e.lookahead = c.lookahead - n := congrArg Setting.lookahead h
  exact ⟨⟨by rw [h, hlook], by omega⟩, by omega⟩

theorem CU.fastToken_consumed {c : CU} (hl : c.lookahead ≠ 0) : c.Consumed c.fastToken ∧ c.fastToken.lookahead < c.lookahead := by
  unfold CU.fastToken
  extract_lets d r
  have hr : r.2.setting = c.setting := (CU.setting_fastSearch d).trans (CU.setting_slideIf c _)
  have hlook : r.2.lookahead = c.lookahead := congrArg Setting.lookahead hr
  split
  · next hm =>
    have h3 := CU.fastSearch_matchLen hm
    exact CU.consumed_of_setting (by rw [CU.setting_fastMatch, hr, hlook]) (le_trans (by decide) h3) hl
  · exact CU.consumed_of_setting (by rw [CU.setting_fastLiteral, hr, hlook]) (le_refl 1) hl

theorem CU.setting_slowSkip (c : CU) : c.slowSkip.setting = { c.setting with lookahead := c.lookahead - 1 } := by
  unfold CU.slowSkip
  extract_lets e
  split <;> rfl

theorem CU.setting_slowSkips (n : Nat) (c : CU) : (CU.slowSkips n c).setting = { c.setting with lookahead := c.lookahead - n } := by
  induction n generalizing c with
  | zero => rfl
  | succ n ih =>
    have hl : c.slowSkip.lookahead = c.lookahead - 1 := congrArg Setting.lookahead c.setting_slowSkip
    rw [CU.slowSkips, ih, CU.setting_slowSkip, hl, Nat.sub_sub, Nat.add_comm 1 n]

theorem CU.setting_owedLiteral (c : CU) : c.owedLiteral.setting = c.setting := by
  rcases c.owedLiteral_cases with h | h <;> rw [h]
  exact CU.setting_tallyLit _ _

theorem CU.setting_slowMatch (m : Int) (n : Nat) (c : CU) :
    (c.slowMatch m n).setting = { c.setting with lookahead := c.lookahead - (max 1 (n - 2) + 1) } := by
  unfold CU.slowMatch
  extract_lets t f
  have hf : f.setting = { c.setting with lookahead := c.lookahead - max 1 (n - 2) } := by
    rw [CU.setting_slowSkips, CU.setting_tallyDist]
    rfl
  have hl : f.lookahead = c.lookahead - max 1 (n - 2) := congrArg Setting.lookahead hf
  show ({ f.setting with lookahead := f.lookahead - 1 } : Setting) = _
  rw [hf, hl, Nat.sub_sub]

theorem CU.slowToken_consumed {c : CU} (hl : c.lookahead ≠ 0) : c.Consumed c.slowToken ∧ c.slowToken.lookahead < c.lookahead := by
  unfold CU.slowToken
  extract_lets d prevMatch prevLen e o
  have he : e.setting = c.setting := (CU.setting_slowSearch d).trans (CU.setting_slideIf c _)
  have hlook : e.lookahead = c.lookahead := congrArg Setting.lookahead he
  split
  · exact CU.consumed_of_setting (by rw [CU.setting_slowMatch, he, hlook]) (Nat.le_add_left 1 _) hl
  · have ho : o.setting = c.setting := (CU.setting_owedLiteral e).trans he
    refine CU.consumed_of_setting (n := 1) ?_ (le_refl 1) hl
    show ({ o.setting with lookahead := o.lookahead - 1 } : Setting) = _
    rw [ho, show o.lookahead = c.lookahead from congrArg Setting.lookahead ho]

end Sys2Proof.Machine

/-! PROOFS. The loops of the compressor end (41_match_engine.md R167 to R170; 43_compressor.md R243; 70_reset_and_hazards.md R403): a pass that is
repeated has consumed input, and a pass of C.DEFLATE that is repeated has left bytes to deliver or ended a request. -/

namespace Sys2Proof.Machine

/-! ## The three algorithms (R167 to R169) -/

/-- What a pass of an algorithm has done: only lookahead is consumed, and some of it where the pass reports progress and leaves no byte to
deliver. -/
def CU.Advanced (c : CU) (progress : Bool) (e : CU) : Prop :=
  c.Consumed e ∧ (progress = true → e.out.fifo = [] → e.lookahead < c.lookahead)

/-- A block flushed at the end of a pass: it reports progress after a token only. -/
theorem CU.Consumed.flushed {c e : CU} (h : c.Consumed e) {start : Int} {n : Nat} {last progress : Bool}
    (hlt : progress = true → e.lookahead < c.lookahead) (block : CU → Int) :
    ((e.flushBlock start n last).bind fun _ f => .done progress { f with blockStart := block f }).Finishes c.Advanced
      (¬ c.setting.Sized) := by
  refine ((e.flushBlock_finishes start n last).mono (Y := ¬ c.setting.Sized) (fun _ _ => id) ?_).bind fun _ f hf => ?_
  · rw [h.sized_iff]
    exact id
  · have hl : f.lookahead = e.lookahead := congrArg Setting.lookahead hf
    exact ⟨h.trans (CU.consumed_of_setting_eq hf), fun hp _ => (show f.lookahead < _ from hl ▸ hlt hp)⟩

theorem CU.fastLoop_finishes (flush finish : Bool) (fuel : Nat) {c e : CU} (h : c.Consumed e) (hfuel : e.lookahead < fuel)
    (hgo : e.lookahead < c.lookahead ∨ ¬ (decide (e.lookahead < MIN_LOOKAHEAD) && !flush) = true) :
    (CU.fastLoop flush finish fuel e).Finishes c.Advanced (¬ c.setting.Sized) := by
  induction fuel generalizing e with
  | zero => omega
  | succ fuel ih =>
    unfold CU.fastLoop
    split
    · next hlow => exact ⟨h, fun _ _ => hgo.resolve_right (not_not_intro hlow)⟩
    · split
      · exact h.flushed (progress := false) nofun fun f => f.strstart
      · next hl =>
        obtain ⟨ht, hlt⟩ := CU.fastToken_consumed hl
        simp only
        generalize e.fastToken = f at ht hlt
        have hlt' := lt_of_lt_of_le hlt h.2
        split
        · exact (h.trans ht).flushed (fun _ => hlt') fun f => f.strstart
        · exact ih (h.trans ht) (by omega) (.inl hlt')

theorem CU.slowLoop_finishes (flush finish : Bool) (fuel : Nat) {c e : CU} (h : c.Consumed e) (hfuel : e.lookahead < fuel)
    (hgo : e.lookahead < c.lookahead ∨ ¬ (decide (e.lookahead < MIN_LOOKAHEAD) && !flush) = true) :
    (CU.slowLoop flush finish fuel e).Finishes c.Advanced (¬ c.setting.Sized) := by
  induction fuel generalizing e with
  | zero => omega
  | succ fuel ih =>
    unfold CU.slowLoop
    split
    · next hlow => exact ⟨h, fun _ _ => hgo.resolve_right (not_not_intro hlow)⟩
    · split
      · have ho : ({ e.owedLiteral with prevAvail := false } : CU).setting = e.setting := CU.setting_owedLiteral e
        exact (h.trans (CU.consumed_of_setting_eq ho)).flushed (progress := false) nofun fun f => f.strstart
      · next hl =>
        obtain ⟨ht, hlt⟩ := CU.slowToken_consumed hl
        simp only
        generalize e.slowToken = f at ht hlt
        have hlt' := lt_of_lt_of_le hlt h.2
        split
        · exact (h.trans ht).flushed (fun _ => hlt') _
        · exact ih (h.trans ht) (by omega) (.inl hlt')

theorem CU.consumed_refl (c : CU) : c.Consumed c := CU.consumed_of_setting_eq rfl

/-- Level 0 takes the whole lookahead; a stored block that it emits leaves bytes to deliver. -/
theorem CU.deflateStored_finishes (flush finish : Bool) (c : CU) : (c.deflateStored flush finish).Finishes c.Advanced (¬ c.setting.Sized) := by
  unfold CU.deflateStored
  split
  · exact ⟨c.consumed_refl, nofun⟩
  · next hgo =>
    extract_lets e n last n'
    have he : c.Consumed e := ⟨rfl, Nat.zero_le _⟩
    split
    · refine ((e.emitStored_finishes _ last).mono (fun _ _ => id) False.elim).bind fun _ f ⟨hf, hfifo⟩ => ?_
      exact ⟨he.trans (CU.consumed_of_setting_eq hf), fun _ h => absurd h hfifo⟩
    · next hsmall =>
      refine ⟨he, fun _ _ => Nat.pos_of_ne_zero fun h0 => hgo ?_⟩
      have hflush : flush = false := by simpa using fun hf => hsmall (.inr (.inr hf))
      simp [hflush, h0]

theorem CU.deflateFunc_finishes (flush finish : Bool) (c : CU) : (c.deflateFunc flush finish).Finishes c.Advanced (¬ c.setting.Sized) := by
  unfold CU.deflateFunc
  split
  · exact c.deflateStored_finishes flush finish
  · unfold CU.deflateFast
    split
    · exact ⟨c.consumed_refl, nofun⟩
    · next hgo => exact CU.fastLoop_finishes flush finish _ c.consumed_refl (Nat.lt_succ_self _) (.inr hgo)
  · unfold CU.deflateSlow
    split
    · exact ⟨c.consumed_refl, nofun⟩
    · next hgo => exact CU.slowLoop_finishes flush finish _ c.consumed_refl (Nat.lt_succ_self _) (.inr hgo)

/-! ## The driver (R170) -/

/-- Only input is taken, bound or looked ahead. -/
def CU.Onward (c e : CU) : Prop :=
  e.setting = { c.setting with lookahead := e.lookahead, inPtr := e.inPtr } ∧ c.inPtr ≤ e.inPtr

theorem CU.onward_refl (c : CU) : c.Onward c := ⟨rfl, le_refl _⟩

theorem CU.Onward.trans {c e f : CU} (h : c.Onward e) (h' : e.Onward f) : c.Onward f :=
  ⟨by rw [h'.1, h.1], h.2.trans h'.2⟩

theorem CU.Consumed.onward {c e : CU} (h : c.Consumed e) : c.Onward e := by
  have hp : e.inPtr = c.inPtr := congrArg Setting.inPtr h.1
  exact ⟨by rw [h.1, hp]; rfl, hp.ge⟩

theorem CU.Onward.sized_iff {c e : CU} (h : c.Onward e) : e.setting.Sized ↔ c.setting.Sized := by rw [h.1]; rfl

theorem CU.Consumed.unconsumed {c e : CU} (h : c.Consumed e) : e.unconsumed + c.lookahead = c.unconsumed + e.lookahead := by
  have hp : e.inPtr = c.inPtr := congrArg Setting.inPtr h.1
  have hn : e.inEnd = c.inEnd := congrArg Setting.inEnd h.1
  simp only [CU.unconsumed, hp, hn]
  omega

/-- Fill moves bound bytes into the lookahead (R161). -/
theorem CU.fill_onward (c : CU) (m : Memory) : c.Onward (c.fill m) ∧ (c.fill m).unconsumed = c.unconsumed := by
  have hs : c.slideIfFull.setting = c.setting := CU.setting_slideIf c _
  have hc := CU.consumed_of_setting_eq hs
  have hu : c.slideIfFull.unconsumed = c.unconsumed := by
    have := hc.unconsumed
    have hl : c.slideIfFull.lookahead = c.lookahead := congrArg Setting.lookahead hs
    omega
  unfold CU.fill
  extract_lets d
  split
  · have hmore : d.fillCount ≤ d.inEnd - d.inPtr := min_le_right _ _
    refine ⟨hc.onward.trans ⟨rfl, Nat.le_add_right _ _⟩, Eq.trans (?_ : (d.take m).unconsumed = d.unconsumed) hu⟩
    simp only [CU.unconsumed, CU.take]
    omega
  · exact ⟨hc.onward, hu⟩

/-- The driver's loop ends: a pass that is repeated has consumed input. Where it reports progress, bytes wait to be delivered. -/
theorem CU.engineLoop_finishes (m : Memory) (flush finish : Bool) (fuel : Nat) {c e : CU} (h : c.Onward e) (hfuel : e.unconsumed < fuel) :
    (CU.engineLoop m flush finish fuel e).Finishes (fun progress f => c.Onward f ∧ (progress = true → f.out.fifo ≠ []))
      (¬ c.setting.Sized) := by
  induction fuel generalizing e with
  | zero => omega
  | succ fuel ih =>
    obtain ⟨hfill, hun⟩ := e.fill_onward m
    have hf := h.trans hfill
    refine (((e.fill m).deflateFunc_finishes _ finish).mono (Y := ¬ c.setting.Sized) (fun _ _ => id) ?_).bind fun progress g hg => ?_
    · rw [hf.sized_iff]
      exact id
    · obtain ⟨hcons, hprog⟩ := hg
      have hon := hf.trans hcons.onward
      split
      · next hgo =>
        obtain ⟨hempty, hp⟩ := Bool.and_eq_true_iff.mp hgo
        have hlt := hprog hp (List.isEmpty_iff.mp hempty)
        have hu := hcons.unconsumed
        exact ih hon (by omega)
      · next hstop =>
        refine ⟨hon, fun hp hempty => hstop ?_⟩
        simp [hp, BitOut.isFlushed, hempty]

theorem CU.engineDeflate_finishes (m : Memory) (flush finish : Bool) (c : CU) :
    (c.engineDeflate m flush finish).Finishes (fun progress f => c.Onward f ∧ (progress = true → f.out.fifo ≠ [])) (¬ c.setting.Sized) :=
  CU.engineLoop_finishes m flush finish _ c.onward_refl (Nat.lt_succ_self _)

/-! ## The loop of C.DEFLATE (43_compressor.md R243) -/

/-- The trailer is written without an error, whatever is pending (R247). -/
theorem CU.emitTrailer_eq (c : CU) :
    c.emitTrailer = .done () { c with
      phase := .finished
      out := if c.nohdr then c.out.alignToByte else
        c.out.alignToByte.push [c.adler.extractLsb' 24 8, c.adler.extractLsb' 16 8, c.adler.extractLsb' 8 8, c.adler.extractLsb' 0 8] } := by
  have hn : c.out.alignToByte.nbits = 0 := rfl
  simp only [CU.emitTrailer, BitOut.writeAdler_spec hn]
  cases c.nohdr <;> rfl

theorem CU.setting_emitFlushFiller (c : CU) : c.emitFlushFiller.setting = { c.setting with flushReq := false } := by
  unfold CU.emitFlushFiller
  extract_lets need e
  have he : e.setting = c.setting := by
    simp only [e]
    split <;> rfl
  exact congrArg (fun v => ({ v with flushReq := false } : Setting)) he

/-- What C.DEFLATE keeps of the CU once its header is out, while the bytes it delivers are counted (R243). -/
structure Xfer.Delivers (x y : Xfer CU) : Prop where
  setting : y.unit.setting = { x.unit.setting with
    phase := y.unit.phase, flushReq := y.unit.flushReq, totalOut := y.unit.totalOut, inPtr := y.unit.inPtr, lookahead := y.unit.lookahead }
  inPtr : x.unit.inPtr ≤ y.unit.inPtr
  dest : x.dest ≤ y.dest
  totalOut : y.unit.totalOut = x.unit.totalOut + BitVec.ofNat 64 (y.dest - x.dest)

theorem Xfer.Delivers.refl (x : Xfer CU) : x.Delivers x := ⟨rfl, le_refl _, le_refl _, by simp⟩

theorem Xfer.Delivers.trans {x y z : Xfer CU} (h : x.Delivers y) (h' : y.Delivers z) : x.Delivers z where
  setting := by rw [h'.setting, h.setting]
  inPtr := h.inPtr.trans h'.inPtr
  dest := h.dest.trans h'.dest
  totalOut := by
    have hd := h.dest
    have hd' := h'.dest
    rw [h'.totalOut, h.totalOut, BitVec.add_assoc, ← BitVec.ofNat_add, show y.dest - x.dest + (z.dest - y.dest) = z.dest - x.dest by omega]

theorem Xfer.Delivers.unsized {x y : Xfer CU} (h : x.Delivers y) : ¬ y.unit.setting.Sized → ¬ x.unit.setting.Sized := by
  rw [h.setting]
  exact id

/-- A procedure of the CU that delivers nothing. -/
theorem Xfer.delivers_setUnit {x : Xfer CU} {c : CU}
    (h : c.setting = { x.unit.setting with phase := c.phase, flushReq := c.flushReq, inPtr := c.inPtr, lookahead := c.lookahead })
    (hp : x.unit.inPtr ≤ c.inPtr) : x.Delivers { x with unit := c } := by
  have ht : c.totalOut = x.unit.totalOut := congrArg CU.Setting.totalOut h
  exact ⟨by rw [h]; simp only [ht]; rfl, hp, le_refl _, by simp [ht]⟩

theorem Xfer.delivers_flush (x : Xfer CU) : x.Delivers x.flush :=
  ⟨rfl, le_refl _, Nat.le_add_right _ _, by simp [Xfer.flush]⟩

/-- Where there is room left, bytes that waited have taken some of it. -/
theorem Xfer.flush_left (x : Xfer CU) (h : x.flush.left ≠ 0) :
    x.flush.left ≤ x.left ∧ (x.unit.out.fifo ≠ [] → x.flush.left < x.left) := by
  have hlen : x.unit.out.fifo.length ≤ x.unit.out.settle.fifo.length := by
    unfold BitOut.settle
    split <;> simp
  have hleft : x.flush.left = x.left - min x.left x.unit.out.settle.fifo.length := rfl
  refine ⟨by omega, fun hne => ?_⟩
  have := List.length_pos_of_ne_nil hne
  omega

/-- The loop of C.DEFLATE delivers once more from a stream that is finished. -/
theorem deflateLoop_of_finished (fuel : Nat) {x : Xfer CU} (h : x.unit.phase = .finished) : deflateLoop (fuel + 1) x = .done () x.flush :=
  if_pos (.inr h)

/-- The engine's turn in the loop: where it reports progress, bytes wait. -/
theorem Xfer.engineDeflate_finishes (x : Xfer CU) (flush finish : Bool) :
    (x.run (x.unit.engineDeflate x.mem flush finish)).Finishes
      (fun progress y => x.Delivers y ∧ y.left = x.left ∧ y.unit.flushReq = x.unit.flushReq ∧ (progress = true → y.unit.out.fifo ≠ []))
      (¬ x.unit.setting.Sized) := by
  refine Run.Finishes.within ((x.unit.engineDeflate_finishes x.mem flush finish).mono (fun progress e he => ?_) id)
  obtain ⟨⟨hset, hptr⟩, hprog⟩ := he
  have hphase : e.phase = x.unit.phase := congrArg CU.Setting.phase hset
  have hreq : e.flushReq = x.unit.flushReq := congrArg CU.Setting.flushReq hset
  exact ⟨Xfer.delivers_setUnit (by rw [hset, hphase, hreq]; rfl) hptr, rfl, hreq, hprog⟩

/-- What follows a pass without progress: the loop goes on only where a flush was requested, and then the request or the stream has ended. -/
theorem Xfer.afterNoProgress_finishes (x : Xfer CU) :
    (x.run x.unit.afterNoProgress).Finishes
      (fun again y => x.Delivers y ∧ y.left = x.left ∧
        (again = true → x.unit.flushReq = true ∧ (y.unit.flushReq = false ∨ y.unit.phase = .finished))) False := by
  refine Run.Finishes.within ?_
  unfold CU.afterNoProgress
  split
  · exact ⟨.refl x, rfl, nofun⟩
  · next hreq =>
    have hreq : x.unit.flushReq = true := by simpa using hreq
    split
    · have hset := x.unit.setting_emitFlushFiller
      have hptr : x.unit.emitFlushFiller.inPtr = x.unit.inPtr := congrArg CU.Setting.inPtr hset
      have hlook : x.unit.emitFlushFiller.lookahead = x.unit.lookahead := congrArg CU.Setting.lookahead hset
      have hphase : x.unit.emitFlushFiller.phase = x.unit.phase := congrArg CU.Setting.phase hset
      have hend : x.unit.emitFlushFiller.flushReq = false := rfl
      exact ⟨Xfer.delivers_setUnit (by rw [hset, hphase, hptr, hlook]; rfl) hptr.ge, rfl, fun _ => ⟨hreq, .inl hend⟩⟩
    · rw [CU.emitTrailer_eq]
      exact ⟨Xfer.delivers_setUnit rfl (le_refl _), rfl, fun _ => ⟨hreq, .inr rfl⟩⟩

/-- The loop of C.DEFLATE ends: a pass that goes on leaves bytes, which the next one delivers, or ends the flush request or the stream. -/
theorem deflateLoop_finishes (fuel : Nat) {x y : Xfer CU} (h : x.Delivers y) (hfuel : y.left + y.unit.flushReq.toNat + 1 ≤ fuel)
    (hidle : y.unit.out.fifo = [] → y.left + y.unit.flushReq.toNat + 2 ≤ fuel) :
    (deflateLoop fuel y).Finishes (fun _ z => x.Delivers z) (¬ x.unit.setting.Sized) := by
  induction fuel generalizing y with
  | zero => omega
  | succ fuel ih =>
    have hz := h.trans y.delivers_flush
    have hreq : y.flush.unit.flushReq = y.unit.flushReq := rfl
    have hleft := y.flush_left
    simp only [deflateLoop]
    generalize y.flush = z at *
    split
    · exact hz
    · next hgo =>
      obtain ⟨hle, hlt⟩ := hleft fun h0 => hgo (.inl h0)
      have hroom : z.left + z.unit.flushReq.toNat + 1 ≤ fuel := by
        rw [hreq]
        by_cases hf : y.unit.out.fifo = []
        · have := hidle hf; omega
        · have := hlt hf; omega
      refine ((z.engineDeflate_finishes _ _).mono (fun _ _ => id) hz.unsized).bind fun progress w ⟨hw, hwl, hwr, hwp⟩ => ?_
      split
      · next hp => exact ih (hz.trans hw) (by rwa [hwl, hwr]) fun hf => absurd hf (hwp hp)
      · refine (w.afterNoProgress_finishes.mono (fun _ _ => id) False.elim).bind fun again v ⟨hv, hvl, hva⟩ => ?_
        have hxv := (hz.trans hw).trans hv
        split
        · next ha =>
          obtain ⟨hwreq, hend | hend⟩ := hva ha
          · rw [← hwr, hwreq, Bool.toNat_true] at hroom
            refine ih hxv ?_ fun _ => ?_ <;> rw [hend, Bool.toNat_false] <;> omega
          · obtain ⟨k, rfl⟩ := Nat.exists_eq_add_of_le' (Nat.le_of_add_left_le hroom)
            rw [deflateLoop_of_finished k hend]
            exact hxv.trans v.delivers_flush
        · exact hxv

end Sys2Proof.Machine

/-! PROOFS. C.DEFLATE completes (43_compressor.md R243): its checks, its header, and its loop. -/

namespace Sys2Proof.Machine

/-! ## The command's checks (60_exceptions.md R365; 70_reset_and_hazards.md R398) -/

theorem State.bufferWraps_of_fits {s : State} (h : s.fits) : s.bufferWraps = false :=
  Bool.eq_false_iff.mpr fun hw => absurd (State.bufferWraps_iff.mp hw) (Nat.not_lt.mpr h)

theorem State.buffersMeet_iff (s : State) (p e : Nat) : buffersMeet s.argAddr s.argLen p e = true ↔ s.outputMeets p e := by
  simp only [buffersMeet, Bool.and_eq_true, decide_eq_true_eq, and_assoc]
  exact Iff.rfl

/-- C.DEFLATE whose checks all pass runs. -/
theorem State.exec_cDeflate {s : State} (hfits : s.fits) (hfault : s.cu.fault = none) (hphase : s.cu.phase ≠ .closed)
    (hmeet : ¬ s.outputMeets s.cu.inPtr s.cu.inEnd) :
    exec .cDeflate s = s.endCU (deflateRun { unit := s.cu, mem := s.mem, dest := s.argAddr, left := s.argLen }) := by
  refine State.guardCU_pass (firstErr_eq_none.mpr ?_)
  have hm : buffersMeet s.argAddr s.argLen s.cu.inPtr s.cu.inEnd = false := Bool.eq_false_iff.mpr fun h => hmeet ((s.buffersMeet_iff _ _).mp h)
  simp [State.cuBufferChecks, State.bufferWraps_of_fits hfits, hfault, hphase, hm]

/-! ## The zlib header (43_compressor.md R244) -/

/-- The header's bytes: CMF and FLG, and with a dictionary its Adler-32, the most significant byte first. -/
def CU.headerBytes (c : CU) : List Byte :=
  [BitVec.ofNat 8 cmf, BitVec.ofNat 8 (flg c.level c.dictSet)] ++
    if c.dictSet then [c.adler.extractLsb' 24 8, c.adler.extractLsb' 16 8, c.adler.extractLsb' 8 8, c.adler.extractLsb' 0 8] else []

/-- The CU once its header is out: with a dictionary the checksum restarts. -/
def CU.withHeader (c : CU) : CU :=
  { c with phase := .busy, adler := if c.dictSet then 1 else c.adler, out := c.out.push c.headerBytes }

/-- On a byte boundary the header is written without an error. -/
theorem CU.emitZlibHeader_eq {c : CU} (h : c.out.nbits = 0) : c.emitZlibHeader = .done () c.withHeader := by
  simp only [CU.emitZlibHeader, CU.withHeader, CU.headerBytes, BitOut.writeByte_aligned, BitOut.push_nbits, h, Run.bind_done,
    CU.withOut, Run.within_done, BitOut.writeAdler_spec]
  cases c.dictSet <;> simp [BitOut.push]

theorem CU.startStream_eq_header {c : CU} (hp : c.phase = .init ∨ c.phase = .setDict) (h : c.out.nbits = 0) :
    c.startStream = .done () c.withHeader :=
  (if_pos hp).trans (CU.emitZlibHeader_eq h)

theorem CU.startStream_eq_self {c : CU} (hp : ¬ (c.phase = .init ∨ c.phase = .setDict)) : c.startStream = .done () c := if_neg hp

/-! ## C.DEFLATE (43_compressor.md R243) -/

/-- C.DEFLATE ends, and without an error where the frequency arrays have their sizes and the header, if it is due, meets a byte boundary. -/
theorem deflateRun_finishes {x : Xfer CU} (h : x.unit.phase = .init ∨ x.unit.phase = .setDict → x.unit.out.nbits = 0) :
    (deflateRun x).Finishes (fun _ y => x.Delivers y) (¬ x.unit.setting.Sized) := by
  have hloop (c : CU) (hc : x.Delivers { x with unit := c }) :
      (deflateLoop (2 * x.left + 8) { x with unit := c }).Finishes (fun _ y => x.Delivers y) (¬ x.unit.setting.Sized) := by
    have hbit := c.flushReq.toNat_le
    exact deflateLoop_finishes _ hc (by simp only; omega) fun _ => by simp only; omega
  unfold deflateRun
  by_cases hp : x.unit.phase = .init ∨ x.unit.phase = .setDict
  · rw [CU.startStream_eq_header hp (h hp)]
    exact hloop _ (Xfer.delivers_setUnit rfl (le_refl _))
  · rw [CU.startStream_eq_self hp]
    exact hloop _ (.refl x)

/-- Settles O28: the loop ends without an error, since a pass that goes on delivers bytes or ends a request, and what it delivers is counted. -/
theorem deflateCompletes : Obligations.DeflateCompletes := by
  intro s hfits hfault hphase hmeet hbits hlit hdist hbl
  obtain ⟨u, x, hx, hd⟩ := (deflateRun_finishes (x := { unit := s.cu, mem := s.mem, dest := s.argAddr, left := s.argLen }) hbits).eq_done
    (not_not_intro ⟨hlit, hdist, hbl⟩)
  have hw : x.Within s.mem s.argAddr s.argLen := by
    have := deflateRun_within (Xfer.Within.start s.cu s.mem s.argAddr s.argLen)
    rwa [hx] at this
  have hset := hd.setting
  refine ⟨x.unit, x.mem, x.dest - s.argAddr, ?_, ?_, ?_, hd.totalOut, congrArg CU.Setting.level hset, congrArg CU.Setting.strategy hset,
    congrArg CU.Setting.nohdr hset, congrArg CU.Setting.finishReq hset, congrArg CU.Setting.dictSet hset, congrArg CU.Setting.fault hset,
    congrArg CU.Setting.inEnd hset, hd.inPtr⟩
  · rw [State.exec_cDeflate hfits hfault hphase hmeet, hx]
    rfl
  · have hroom := hw.room
    have hn : s.argLen = s.port.argLen.toNat := rfl
    omega
  · intro a ha
    have hbegun := hw.begun
    refine hw.outside a fun hin => ha ⟨hin.1, ?_⟩
    have hn : s.argAddr = s.port.argAddr := rfl
    omega

end Sys2Proof.Machine

/-! PROOFS. What C.DEFLATE delivers first, and when it stops (43_compressor.md R243, R244): the header, the bytes that wait, and a pass of the
engine without progress. -/

namespace Sys2Proof.Machine

/-! ## Flush with no complete byte in the accumulator (40_bit_output.md R148) -/

theorem BitOut.settle_of_lt {o : BitOut} (h : o.nbits < 8) : o.settle = o := if_neg (Nat.not_le.mpr h)

theorem Xfer.flush_of_lt {x : Xfer CU} (h : x.unit.out.nbits < 8) {n : Nat} (hn : n = min x.left x.unit.out.fifo.length) :
    x.flush = {
      unit := { x.unit with out := { x.unit.out with fifo := x.unit.out.fifo.drop n }, totalOut := x.unit.totalOut + BitVec.ofNat 64 n }
      mem := x.mem.writeBytes x.dest (x.unit.out.fifo.take n), dest := x.dest + n, left := x.left - n } := by
  obtain ⟨m, hm, he⟩ := x.flush_spec
  rw [BitOut.settle_of_lt h] at hm he
  rw [he, hn, hm]

theorem Xfer.flush_of_nothing {x : Xfer CU} (h : x.unit.out.nbits < 8) (hf : x.unit.out.fifo = []) : x.flush = x := by
  rw [Xfer.flush_of_lt h (n := 0) (by simp [hf])]
  simp only [BitVec.add_zero, List.drop_zero, List.take_zero]
  rfl

/-- The loop of C.DEFLATE only delivers where the bytes that wait fill the buffer. -/
theorem deflateLoop_of_filled (fuel : Nat) {x : Xfer CU} (h : x.unit.out.nbits < 8) (hf : x.left ≤ x.unit.out.fifo.length) :
    deflateLoop (fuel + 1) x = .done () x.flush := by
  refine if_pos (.inl ?_)
  rw [Xfer.flush_of_lt h rfl]
  simp only
  omega

/-! ## A command that only delivers -/

/-- The state after bytes of c's FIFO have been delivered to the buffer: as many as there are and fit (R243). -/
def State.delivered (s : State) (c : CU) (n : Nat) : State :=
  { s with
    cu := { c with out := { c.out with fifo := c.out.fifo.drop n }, totalOut := c.totalOut + BitVec.ofNat 64 n }
    mem := s.mem.writeBytes s.argAddr (c.out.fifo.take n) }.ok (BitVec.ofNat 64 n)

theorem State.endCU_flush (s : State) {c : CU} (h : c.out.nbits < 8) {n : Nat} (hn : n = min s.argLen c.out.fifo.length) :
    s.endCU (.done () (Xfer.flush { unit := c, mem := s.mem, dest := s.argAddr, left := s.argLen })) = .next (s.delivered c n) := by
  rw [Xfer.flush_of_lt h hn, State.endCU, Nat.add_sub_cancel_left]
  rfl

/-- Memory after a delivery of n bytes. -/
theorem State.delivered_mem (s : State) (hm : s.mem.wf = true) (c : CU) {n : Nat} (hn : n ≤ c.out.fifo.length) :
    (∀ k, k < n → (s.delivered c n).mem.read (s.port.argAddr + k) = c.out.fifo.getD k 0) ∧
      ∀ a, ¬ s.wrote n a → (s.delivered c n).mem.read a = s.mem.read a := by
  have hlen : (c.out.fifo.take n).length = n := by simp [hn]
  refine ⟨fun k hk => ?_, fun a ha => Memory.read_writeBytes_of_out _ _ _ (by rw [hlen]; exact ha)⟩
  have hread := Memory.read_writeBytes_in hm s.argAddr (c.out.fifo.take n) (k := k) (by rw [hlen]; exact hk)
  simp only [List.getD_eq_getElem?_getD, List.getElem?_take_of_lt hk] at hread ⊢
  exact hread

/-- Settles O31: the loop's first Flush ends it. -/
theorem deflateDeliversPendingBytes : Obligations.DeflateDeliversPendingBytes := by
  intro s hfits hm hfault hmeet hbits hphase n
  have hstart : s.cu.startStream = .done () s.cu := CU.startStream_eq_self (by rcases hphase with h | ⟨h, -⟩ <;> simp [h])
  have hclosed : s.cu.phase ≠ .closed := by rcases hphase with h | ⟨h, -⟩ <;> simp [h]
  obtain ⟨hin, hout⟩ := s.delivered_mem hm s.cu (n := n) (min_le_right _ _)
  refine ⟨_, hin, hout, ?_⟩
  rw [State.exec_cDeflate hfits hfault hclosed hmeet, deflateRun, hstart]
  refine Eq.trans (congrArg s.endCU ?_) (s.endCU_flush hbits rfl)
  rcases hphase with h | ⟨-, h⟩
  · exact deflateLoop_of_finished _ h
  · exact deflateLoop_of_filled _ hbits h

/-! ## The header (R244, R245) -/

/-- FLG by level and dictionary, from R245's table. -/
theorem flg_table : ∀ (level : Fin 10) (dict : Bool), BitVec.ofNat 8 (flg level dict) =
    (if level ≤ 1 then (if dict then 0x20 else 0x01)
      else if level ≤ 5 then (if dict then 0x7D else 0x5E)
      else if level = 6 then (if dict then 0xBB else 0x9C)
      else (if dict then 0xF9 else 0xDA) : Byte) := by
  decide

theorem flg_mod : ∀ (level : Fin 10) (dict : Bool), (0x78 * 256 + (BitVec.ofNat 8 (flg level dict)).toNat) % 31 = 0 := by
  decide

/-- Settles O30: the header's two bytes fill the buffer. -/
theorem deflateEmitsZlibHeader : Obligations.DeflateEmitsZlibHeader := by
  intro s hfits hm hfault hphase hfifo hbits hmeet hlen FLG id
  have hclosed : s.cu.phase ≠ .closed := by rcases hphase with h | h <;> simp [h]
  have hflg : BitVec.ofNat 8 (flg s.cu.level s.cu.dictSet) = FLG := flg_table _ _
  have htwo : s.argLen = 2 := congrArg BitVec.toNat hlen
  have hout : s.cu.withHeader.out.fifo = 0x78 :: FLG :: if s.cu.dictSet then id else [] := by
    simp [CU.withHeader, BitOut.push, hfifo, CU.headerBytes, hflg, cmf, id]
  have hlong : 2 ≤ s.cu.withHeader.out.fifo.length := by simp [hout]
  have hbits' : s.cu.withHeader.out.nbits < 8 := lt_of_eq_of_lt hbits (by decide)
  obtain ⟨hin, hrest⟩ := s.delivered_mem hm s.cu.withHeader hlong
  refine ⟨(s.delivered s.cu.withHeader 2).mem, ?_, ?_, hflg ▸ flg_mod _ _, hrest, ?_⟩
  · simpa [hout] using hin 0 (by decide)
  · simpa [hout] using hin 1 (by decide)
  · have hloop := deflateLoop_of_filled (2 * s.argLen + 7) (x := { unit := s.cu.withHeader, mem := s.mem, dest := s.argAddr, left := s.argLen })
      hbits' (htwo.trans_le hlong)
    rw [State.exec_cDeflate hfits hfault hclosed hmeet, deflateRun, CU.startStream_eq_header hphase hbits]
    refine (congrArg s.endCU hloop).trans ((s.endCU_flush hbits' (n := 2) (by rw [htwo]; exact (min_eq_left hlong).symm)).trans ?_)
    simp only [State.delivered, hout]
    rfl

/-! ## A pass without progress (R167 to R170) -/

theorem levelRow_stored_iff : ∀ l, (levelRow l).func = .stored ↔ l = 0 := by decide

/-- An algorithm without a flush request does nothing while there is too little lookahead. -/
theorem CU.deflateFunc_of_short {c : CU} (h : if c.level = 0 then c.lookahead = 0 else c.lookahead < 262) (finish : Bool) :
    c.deflateFunc false finish = .done false c := by
  have hlevel := levelRow_stored_iff c.level
  unfold CU.deflateFunc
  split
  · next hf =>
    rw [if_pos (hlevel.mp hf)] at h
    simp [CU.deflateStored, h]
  · next hf =>
    rw [if_neg fun h0 => by simp [hlevel.mpr h0] at hf] at h
    simp [CU.deflateFast, h]
  · next hf =>
    rw [if_neg fun h0 => by simp [hlevel.mpr h0] at hf] at h
    simp [CU.deflateSlow, h]

/-- Settles O32: nothing is delivered, Fill finds nothing to do, and the algorithm reports no progress. -/
theorem deflateWaitsForInput : Obligations.DeflateWaitsForInput := by
  intro s hfits hfault hphase hflush hin hfifo hbits hstr hlook
  have hmeet : ¬ s.outputMeets s.cu.inPtr s.cu.inEnd := fun h => absurd h.2.1 (by omega)
  have hslide : s.cu.slideIfFull = s.cu := if_neg (by simp only [WSIZE, MAX_DIST]; omega)
  have hfill : s.cu.fill s.mem = s.cu := (CU.fill_of_not_ready (by rw [hslide]; omega)).trans hslide
  have hengine : s.cu.engineDeflate s.mem false s.cu.finishReq = .done false s.cu := by
    simp [CU.engineDeflate, CU.engineLoop, hfill, CU.deflateFunc_of_short hlook]
  have hstart : s.cu.startStream = .done () s.cu := CU.startStream_eq_self (by simp [hphase])
  have hloop (fuel left : Nat) : deflateLoop (fuel + 1) { unit := s.cu, mem := s.mem, dest := s.argAddr, left := left } =
      .done () { unit := s.cu, mem := s.mem, dest := s.argAddr, left := left } := by
    simp only [deflateLoop, Xfer.flush_of_nothing (x := { unit := s.cu, mem := s.mem, dest := s.argAddr, left := left }) hbits hfifo]
    split
    · rfl
    · simp [hflush, hengine, Xfer.run, CU.afterNoProgress]
  rw [State.exec_cDeflate hfits hfault (by simp [hphase]) hmeet, deflateRun, hstart]
  refine Eq.trans (congrArg s.endCU (hloop _ _)) ?_
  simp [State.endCU, State.succeed_eq_ok]

end Sys2Proof.Machine

/-! PROOFS. Why C.DEFLATE stops before its buffer is full (43_compressor.md R243, 60_exceptions.md R367): without a flush request an algorithm
reports no progress only where there is too little lookahead, which Fill leaves only when the binding is used up. -/

namespace Sys2Proof.Machine

section
variable {σ α : Type} {P Q : α → σ → Prop} {E F : Err → σ → Prop} {r : Run σ α}

theorem Run.Ends.and (h : r.Ends P E) (h' : r.Ends Q F) : r.Ends (fun a s => P a s ∧ Q a s) fun e s => E e s ∧ F e s := by
  cases r with
  | done a s => exact ⟨h, h'⟩
  | raise e s => exact ⟨h, h'⟩
  | stuck => trivial

theorem Run.Finishes.ends {X : Prop} (h : r.Finishes P X) : r.Ends P fun _ _ => X := by
  cases r with
  | done a s => exact h
  | raise e s => exact h
  | stuck => trivial

end

/-! ## Fill and the algorithms (41_match_engine.md R161, R167 to R169) -/

/-- After its slide there is room for more than 262 bytes of lookahead, so Fill leaves less only where no bound byte is left. -/
theorem CU.Window.fill_drains {c : CU} (hw : c.Window) (hb : c.inPtr ≤ c.inEnd) (m : Memory) (hl : (c.fill m).lookahead < 262) :
    (c.fill m).inPtr = (c.fill m).inEnd := by
  have hhigh := hw.positionHigh
  have hslide : c.slideIfFull.strstart < 65274 ∧ c.slideIfFull.inPtr = c.inPtr ∧ c.slideIfFull.inEnd = c.inEnd := by
    unfold CU.slideIfFull
    split
    · exact ⟨by rw [CU.slide_strstart, WSIZE]; omega, rfl, rfl⟩
    · next hlow => exact ⟨Nat.lt_of_not_le hlow, rfl, rfl⟩
  obtain ⟨hroom, hptr, hend⟩ := hslide
  by_cases hready : c.slideIfFull.lookahead < MIN_LOOKAHEAD ∧ c.slideIfFull.inPtr < c.slideIfFull.inEnd
  · rw [CU.fill_of_ready hready.1 hready.2] at hl ⊢
    simp only [CU.take, CU.fillCount, CWIN] at hl ⊢
    omega
  · rw [CU.fill_of_not_ready hready] at hl ⊢
    have : ¬ c.slideIfFull.inPtr < c.slideIfFull.inEnd := fun h => hready ⟨hl, h⟩
    omega

/-- Without a flush request the lookahead never runs out in the greedy loop, which then reports progress. -/
theorem CU.fastLoop_progress (finish : Bool) (fuel : Nat) (c : CU) :
    (CU.fastLoop false finish fuel c).Ends (fun progress _ => progress = true) fun _ _ => True := by
  induction fuel generalizing c with
  | zero => trivial
  | succ fuel ih =>
    unfold CU.fastLoop
    split
    · exact rfl
    · next hlook =>
      split
      · next h0 => simp [h0] at hlook
      · simp only
        generalize c.fastToken = e
        split
        · exact (Run.ends_true _).bind fun _ _ _ => by simp
        · exact ih _

/-- Without a flush request the lookahead never runs out in the lazy loop, which then reports progress. -/
theorem CU.slowLoop_progress (finish : Bool) (fuel : Nat) (c : CU) :
    (CU.slowLoop false finish fuel c).Ends (fun progress _ => progress = true) fun _ _ => True := by
  induction fuel generalizing c with
  | zero => trivial
  | succ fuel ih =>
    unfold CU.slowLoop
    split
    · exact rfl
    · next hlook =>
      split
      · next h0 => simp [h0] at hlook
      · simp only
        generalize c.slowToken = e
        split
        · exact (Run.ends_true _).bind fun _ _ _ => by simp
        · exact ih _

/-- Without a flush request an algorithm that reports no progress has done nothing, for want of lookahead. -/
theorem CU.deflateFunc_no_progress (c : CU) (finish : Bool) :
    (c.deflateFunc false finish).Ends (fun progress e => progress = false → e = c ∧ c.lookahead < 262) fun _ _ => True := by
  unfold CU.deflateFunc
  split
  · unfold CU.deflateStored
    split
    · next hnone =>
      have h0 : c.lookahead = 0 := by simpa using hnone
      exact fun _ => ⟨rfl, h0.trans_lt (by decide)⟩
    · extract_lets e n last n'
      split
      · next hemit =>
        have hlast : last = false := by simp [last]
        have hn : n' ≠ 0 := by
          simp only [n', MAX_STORED, MAX_DIST, Bool.false_eq_true, or_false] at hemit ⊢
          omega
        exact (Run.ends_true _).bind fun _ _ _ => by simp [hlast, hn]
      · exact nofun
  · unfold CU.deflateFast
    split
    · next hlow =>
      have hl : c.lookahead < 262 := of_decide_eq_true (Bool.and_eq_true_iff.mp hlow).1
      exact fun _ => ⟨rfl, hl⟩
    · exact (CU.fastLoop_progress finish _ c).mono (fun _ _ h hp => by simp [h] at hp) fun _ _ => id
  · unfold CU.deflateSlow
    split
    · next hlow =>
      have hl : c.lookahead < 262 := of_decide_eq_true (Bool.and_eq_true_iff.mp hlow).1
      exact fun _ => ⟨rfl, hl⟩
    · exact (CU.slowLoop_progress finish _ c).mono (fun _ _ h hp => by simp [h] at hp) fun _ _ => id

/-! ## The driver and the loop of C.DEFLATE (R170; 43_compressor.md R243) -/

/-- Without a flush request the driver reports no progress only where the binding is used up. -/
theorem CU.engineLoop_drains {top : Nat} (m : Memory) (finish : Bool) (fuel : Nat) {c : CU} (h : c.Engine top) (hn : c.tokN < 16384) :
    (CU.engineLoop m false finish fuel c).Ends (fun progress e => progress = false → e.inPtr = e.inEnd) fun _ _ => True := by
  induction fuel generalizing c with
  | zero => trivial
  | succ fuel ih =>
    have hpass := (h.fill m).deflateFunc (by rwa [CU.fill_keeps]) false finish
    refine ((hpass.and ((c.fill m).deflateFunc_no_progress finish)).mono (F := fun _ _ => True) (fun _ _ => id) fun _ _ _ => trivial).bind
      fun progress e ⟨he, hstop⟩ => ?_
    split
    · exact ih he.1 he.2
    · intro hp
      obtain ⟨rfl, hl⟩ := hstop hp
      exact h.window.fill_drains h.busy.bindingLow m hl

/-- The engine's turn in C.DEFLATE: where it reports no progress and leaves no flush request, the binding is used up. -/
theorem CU.Streaming.engineDeflate_drains {top : Nat} {c : CU} (h : c.Streaming top) (hp : c.phase ≠ .finished) (m : Memory) (finish : Bool) :
    (c.engineDeflate m c.flushReq finish).Ends
      (fun progress e => e.Streaming top ∧ (progress = false → e.flushReq = false → e.inPtr = e.inEnd)) fun _ _ => True := by
  have hkeep := (c.engineDeflate_finishes m c.flushReq finish).ends
  refine (((h.engineDeflate hp m c.flushReq finish).and hkeep).and
    (Q := fun progress e => c.flushReq = false → progress = false → e.inPtr = e.inEnd) (F := fun _ _ => True) ?_).mono (fun progress e ⟨⟨hs, hon, _⟩, hd⟩ => ⟨hs, fun hp hr => hd ?_ hp⟩) fun _ _ _ => trivial
  · cases hf : c.flushReq with
    | false => exact (CU.engineLoop_drains m finish _ (h.1.engine (h.2.resolve_right hp)) h.1.tokens).mono (fun _ _ hd _ => hd) fun _ _ => id
    | true => exact (Run.ends_true _).mono (fun _ _ _ => nofun) fun _ _ => id
  · have hreq : e.flushReq = c.flushReq := congrArg CU.Setting.flushReq hon.1
    rwa [← hreq]

/-- Where the loop is not to go on, nothing was done, and no flush was requested. -/
theorem CU.afterNoProgress_stops (c : CU) :
    c.afterNoProgress.Ends (fun again e => again = false → e = c ∧ c.flushReq = false) fun _ _ => True := by
  unfold CU.afterNoProgress
  split
  · next h => exact fun _ => ⟨rfl, by simpa using h⟩
  · split
    · exact nofun
    · exact (Run.ends_true _).bind fun _ _ _ => nofun

/-- Why the loop of C.DEFLATE ends: its buffer is full, the stream is finished, or all bound input is taken and no flush is left to do. -/
def Xfer.Stopped (x : Xfer CU) : Prop :=
  x.left = 0 ∨ x.unit.phase = .finished ∨ (x.unit.inPtr = x.unit.inEnd ∧ x.unit.flushReq = false)

theorem deflateLoop_stops {top : Nat} (fuel : Nat) {x : Xfer CU} (h : x.unit.Streaming top) :
    (deflateLoop fuel x).Ends (fun _ => Xfer.Stopped) fun _ _ => True := by
  induction fuel generalizing x with
  | zero => trivial
  | succ fuel ih =>
    have hx := h.flush
    simp only [deflateLoop]
    generalize x.flush = y at hx
    split
    · next hend => exact hend.imp_right .inl
    · next hgo =>
      refine Run.Ends.bind
        (P := fun progress z => z.unit.Streaming top ∧ (progress = false → z.unit.flushReq = false → z.unit.inPtr = z.unit.inEnd))
        (Run.Ends.within (hx.engineDeflate_drains (fun hp => hgo (.inr hp)) y.mem y.unit.finishReq)) fun progress z ⟨hz, hdrain⟩ => ?_
      split
      · exact ih hz
      · next hp =>
        refine Run.Ends.bind (P := fun again w => w.unit.Streaming top ∧ (again = false → w.Stopped))
          (Run.Ends.within ((hz.afterNoProgress.and z.unit.afterNoProgress_stops).mono (fun again e ⟨he, hstop⟩ => ⟨he, fun ha => ?_⟩)
            fun _ _ _ => trivial)) fun again w ⟨hw, hstop⟩ => ?_
        · obtain ⟨rfl, hreq⟩ := hstop ha
          exact .inr (.inr ⟨hdrain (by simpa using hp) hreq, hreq⟩)
        · split
          · exact ih hw
          · next ha => exact hstop (by simpa using ha)

theorem deflateRun_stops {top : Nat} {x : Xfer CU} (h : x.unit.Inv top) : (deflateRun x).Ends (fun _ => Xfer.Stopped) fun _ _ => True :=
  Run.Ends.bind (P := fun _ y => y.unit.Streaming top)
    (Run.Ends.within (h.startStream.mono (fun _ _ => id) fun _ _ => False.elim)) fun _ _ hy => deflateLoop_stops _ hy

theorem State.raise_errcode_ne_zero (u : UnitId) (e : Err) (n : Nat) (s : State) : (s.raise u e n).port.errcode ≠ 0 := by
  obtain ⟨-, -, -, hport, -⟩ := State.raise_fields u e n s
  rw [hport]
  exact e.code_ne_zero

/-- Settles O29: a response without an error is a run that ended, and with room left it ended for the other two reasons. -/
theorem deflateShortOnlyWhenDone : Obligations.DeflateShortOnlyWhenDone := by
  intro s t hinv h herr hshort
  have hstops := deflateRun_stops (x := { unit := s.cu, mem := s.mem, dest := s.argAddr, left := s.argLen }) hinv
  have hwithin := deflateRun_within (Xfer.Within.start s.cu s.mem s.argAddr s.argLen)
  rcases State.guardCU_cases h with ⟨e, -, -, rfl⟩ | ⟨-, h⟩
  · exact absurd herr (State.raise_errcode_ne_zero _ _ _ _)
  · rcases State.endCU_cases h with ⟨x, hx, rfl⟩ | ⟨e, x, -, rfl⟩
    · rw [hx] at hstops hwithin
      refine hstops.resolve_left fun h0 => ?_
      have hroom : x.dest + x.left = s.argAddr + s.port.argLen.toNat := hwithin.room
      rw [State.succeed_result, BitVec.toNat_ofNat] at hshort
      have hlen := s.port.argLen.isLt
      have hn : x.dest - s.argAddr = s.port.argLen.toNat := by omega
      rw [hn, Nat.mod_eq_of_lt (by omega)] at hshort
      exact absurd hshort (lt_irrefl _)
    · exact absurd herr (State.raise_errcode_ne_zero _ _ _ _)

end Sys2Proof.Machine

/-! PROOFS. The commands of the CU that transfer nothing (43_compressor.md R240 to R242, R248 to R256): the start of a stream, the queries, the
requests, the binding, and the dictionary. -/

namespace Sys2Proof.Machine

/-! ## The start of a stream (R240, R248) -/

theorem HuffTree.clear_eq_atStart (t : HuffTree) : t.clear = t.atStart := by
  simp [HuffTree.clear, HuffTree.atStart]

/-- CUReset writes every element that the start of a stream specifies, and no other (70_reset_and_hazards.md R391). -/
theorem CU.reset_eq_startOfStream (c : CU) : c.reset = c.startOfStream c.level c.strategy c.nohdr := by
  simp only [CU.reset, CU.engineReset, CU.huffReset, CU.clearFault, CU.startOfStream, HuffTree.clear_eq_atStart]
  rfl

theorem levelOf_val (l : Fin 10) : levelOf l.val = some l := dif_pos l.isLt

/-- Settles O11: the fields name a level and a strategy, and the rest is CUReset. -/
theorem configStartsCompressor : Obligations.ConfigStartsCompressor := by
  intro s level strategy nohdr l st hlevel hstrategy
  have hl : levelOf level = some l := by
    rcases hlevel with ⟨-, rfl⟩ | ⟨rfl, rfl⟩
    · exact levelOf_val l
    · exact levelOf_fifteen
  have hst : strategyOf strategy = some st := by rcases hstrategy with ⟨rfl, rfl⟩ | ⟨rfl, rfl⟩ | ⟨rfl, rfl⟩ <;> rfl
  rw [exec_cConfig_of_legal nohdr s hl hst, CU.reset_eq_startOfStream]
  rfl

/-- Settles O13: C.RESET is CUReset. -/
theorem resetStartsCompressor : Obligations.ResetStartsCompressor := by
  intro s
  rw [← CU.reset_eq_startOfStream]
  rfl

/-! ## Queries (R252 to R256) -/

/-- Settles O17: each query answers with its register, or with its condition as a flag. -/
theorem compressorQueries : Obligations.CompressorQueries := by
  intro s
  refine ⟨rfl, ?_, ?_, rfl, rfl⟩
  · show Host.Outcome.next (s.ok (flagResult s.cu.isFinished)) = _
    simp [flagResult_eq_ite, CU.isFinished, BitOut.isFlushed]
  · show Host.Outcome.next (s.ok (flagResult s.cu.needsInput)) = _
    simp [flagResult_eq_ite, CU.needsInput]

/-! ## The binding and the requests (R241, R250, R251) -/

section
variable {s : State} (hfits : s.fits) (hfault : s.cu.fault = none)
include hfits hfault

/-- A buffer command of the CU whose shared checks pass goes on with its own. -/
theorem State.guardCU_buffer (checks : List (Bool × Err)) (effect : Host.Outcome State Fault Refusal) :
    s.guardCU (s.cuBufferChecks ++ checks) effect = s.guardCU checks effect := by
  simp [State.guardCU, State.cuBufferChecks, firstErr, State.bufferWraps_of_fits hfits, hfault]

theorem exec_cSetInput_of_finish (h : s.cu.finishReq = true) : exec .cSetInput s = .next (s.refuse 0x0103) := by
  refine (State.guardCU_buffer hfits hfault _ _).trans ((State.guardCU_fail (e := .setInputAfterFinish) (by simp [firstErr, h])).trans ?_)
  exact congrArg _ (State.raise_of_not_sticky rfl .cu 0 s)

theorem exec_cSetInput_of_pending (h : s.cu.finishReq = false) (hp : s.cu.inPtr ≠ s.cu.inEnd) : exec .cSetInput s = .next (s.refuse 0x0203) := by
  refine (State.guardCU_buffer hfits hfault _ _).trans
    ((State.guardCU_fail (e := .inputPending) (by simp [firstErr, h, CU.needsInput, hp])).trans ?_)
  exact congrArg _ (State.raise_of_not_sticky rfl .cu 0 s)

theorem exec_cSetInput_of_ready (h : s.cu.finishReq = false) (hp : s.cu.inPtr = s.cu.inEnd) :
    exec .cSetInput s =
      .next ({ s with cu := { s.cu with inPtr := s.port.argAddr, inEnd := s.port.argAddr + s.port.argLen.toNat } }.ok 0) :=
  (State.guardCU_buffer hfits hfault _ _).trans (State.guardCU_pass (by simp [firstErr, h, CU.needsInput, hp]))

end

/-- Settles O19: the two checks of R241 in their order, and then the binding. -/
theorem compressorSetInput : Obligations.CompressorSetInput :=
  fun _ hfits hfault => ⟨exec_cSetInput_of_finish hfits hfault, exec_cSetInput_of_pending hfits hfault, exec_cSetInput_of_ready hfits hfault⟩

theorem State.guardCU_running {s : State} (hfault : s.cu.fault = none) (effect : Host.Outcome State Fault Refusal) :
    s.guardCU [(s.cu.fault.isSome, .aborted)] effect = effect :=
  State.guardCU_pass (by simp [firstErr, hfault])

theorem exec_cFinish {s : State} (hfault : s.cu.fault = none) :
    exec .cFinish s = .next ({ s with cu := { s.cu with flushReq := true, finishReq := true } }.ok 0) :=
  State.guardCU_running hfault _

/-- Settles O23: after C.FINISH both requests stand, so another one writes what is there, and C.SET_INPUT is refused. -/
theorem flushAndFinishRequests : Obligations.FlushAndFinishRequests := by
  intro s hfault
  refine ⟨State.guardCU_running hfault _, exec_cFinish hfault, fun t ht => ?_⟩
  obtain rfl := Host.Outcome.next.inj ((exec_cFinish hfault).symm.trans ht)
  exact ⟨exec_cFinish hfault, fun hfits => exec_cSetInput_of_finish hfits hfault rfl⟩

/-! ## The dictionary (R242; 41_match_engine.md R165) -/

/-- Inserting n positions changes the chains, and moves C_STRSTART past them. -/
theorem CU.insertRun_eq (n : Nat) (c : CU) :
    ∃ head prev, CU.insertRun n c = { c with head := head, prev := prev, strstart := c.strstart + n } := by
  induction n generalizing c with
  | zero => exact ⟨c.head, c.prev, rfl⟩
  | succ n ih =>
    obtain ⟨head, prev, h⟩ := ih { c.insert with strstart := c.strstart + 1 }
    exact ⟨head, prev, by rw [CU.insertRun, h, Nat.add_assoc, Nat.add_comm 1 n]; rfl⟩

/-- The part of a dictionary that goes into the window: its last MAX_DIST bytes. -/
def dictTail (dict : List Byte) : List Byte := dict.drop (dict.length - MAX_DIST)

theorem dictTail_length (dict : List Byte) : (dictTail dict).length = min dict.length 32506 := by
  rw [dictTail, List.length_drop, MAX_DIST]
  omega

/-- A dictionary of at least three bytes goes into the window at C_STRSTART, and both positions move past it. -/
theorem CU.engineSetDict_long {c : CU} {dict : List Byte} (h3 : 3 ≤ dict.length) :
    ∃ head prev, c.engineSetDict dict =
      { c with
        win := c.win.setList 16 c.strstart ((dictTail dict).map BitVec.toNat), head := head, prev := prev
        strstart := c.strstart + min dict.length 32506
        blockStart := ((c.strstart + min dict.length 32506 : Nat) : Int) } := by
  unfold CU.engineSetDict
  rw [if_neg (show ¬ dict.length < MIN_MATCH from Nat.not_lt.mpr h3)]
  extract_lets d e f
  have hlen : d.length = min dict.length 32506 := dictTail_length dict
  obtain ⟨head, prev, hf⟩ : ∃ head prev, f = { e with head := head, prev := prev, strstart := e.strstart + (d.length - 2) } :=
    CU.insertRun_eq (d.length - 2) e
  have hs : f.strstart + 2 = c.strstart + min dict.length 32506 := by
    rw [hf]
    show c.strstart + (d.length - 2) + 2 = _
    omega
  rw [hs]
  clear_value f
  subst hf
  exact ⟨head, prev, by dsimp only [e, d, dictTail]⟩

/-- A shorter dictionary is not taken. -/
theorem CU.engineSetDict_short {c : CU} {dict : List Byte} (h : dict.length < 3) : c.engineSetDict dict = c := if_pos h

/-- Byte k of the dictionary's kept part stands k places after C_STRSTART. -/
theorem Tbl.get_setList_dictTail (t : Tbl) (dict : List Byte) {p k : Nat} (hp : p + 32506 ≤ 65536) (hk : k < min dict.length 32506) :
    BitVec.ofNat 8 ((t.setList 16 p ((dictTail dict).map BitVec.toNat)).get 16 (p + k)) =
      dict.getD (dict.length - min dict.length 32506 + k) 0 := by
  have hlen := dictTail_length dict
  rw [Tbl.get_setList_in _ (by simpa [hlen] using hk) (by simp [hlen]; omega)]
  have hidx : dict.length - 32506 + k = dict.length - min dict.length 32506 + k := by omega
  have hin : dict.length - min dict.length 32506 + k < dict.length := by omega
  simp [dictTail, List.getD_eq_getElem?_getD, hidx, hin]

/-- Settles O21: outside INIT the third check fails; in INIT the checksum is taken, and the engine takes what it keeps. -/
theorem compressorSetDict : Obligations.CompressorSetDict := by
  intro s hfits hfault
  refine ⟨fun hp => ?_, fun hp => ?_⟩
  · refine (State.guardCU_buffer hfits hfault _ _).trans ((State.guardCU_fail (e := .dictNotInit) (by simp [firstErr, hp])).trans ?_)
    exact congrArg _ (State.raise_of_not_sticky rfl .cu 0 s)
  · intro dict kept
    refine ⟨{ ({ s.cu with adler := adler32 dict s.cu.adler } : CU).engineSetDict dict with phase := .setDict, dictSet := true },
      (State.guardCU_buffer hfits hfault _ _).trans (State.guardCU_pass (by simp [firstErr, hp])), fun hshort => ?_, fun hlong => ?_⟩
    · rw [CU.engineSetDict_short hshort]
    · clear_value dict
      obtain ⟨head, prev, he⟩ := CU.engineSetDict_long (c := { s.cu with adler := adler32 dict s.cu.adler }) hlong
      rw [he]
      refine ⟨by dsimp only, fun hone k hk => ?_⟩
      simp only [CU.winAt, hone]
      exact Tbl.get_setList_dictTail _ _ (by decide) hk

end Sys2Proof.Machine

/-! PROOFS. How a stream's output is filled up and ended (43_compressor.md R246, R247), as bit strings. -/

namespace Sys2Proof.Machine

/-! ## The flush filler (R246) -/

/-- The bits that the filler has to cover: 8, and those missing to a byte. -/
def CU.fillerNeed (c : CU) : Nat := 8 + (8 - c.out.nbits % 8) % 8

theorem CU.emitFlushFiller_of_stored {c : CU} (h : c.level = 0) : c.emitFlushFiller = { c with flushReq := false } := by
  simp [CU.emitFlushFiller, h]

theorem CU.emitFlushFiller_of_codes {c : CU} (h : c.level ≠ 0) :
    c.emitFlushFiller = { c with out := c.out.writeFields (List.replicate (fillerGroups c.fillerNeed) (2, 10)), flushReq := false } := by
  simp only [CU.emitFlushFiller, if_neg h]
  rfl

/-- A group is BFINAL 0, BTYPE 1 and the end-of-block code of the fixed code. -/
theorem bitsOf_fillerGroup : bitsOf 10 2 = [false, true, false, false, false, false, false, false, false, false] := rfl

/-- Settles O40: each group appends its ten bits, and there are as few groups as cover the bits needed. -/
theorem flushFillerIsEmptyBlocks : Obligations.FlushFillerIsEmptyBlocks := by
  intro c hfew hbits
  have hset : c.out.Settled := ⟨hfew, hbits⟩
  refine ⟨?_, fun h => by rw [CU.emitFlushFiller_of_stored h], fun h => ⟨fillerGroups c.fillerNeed, ?_⟩⟩
  · obtain ⟨out, he, -⟩ := CU.emitFlushFiller_settled hset
    rw [he]
  · obtain ⟨hstream, -⟩ := BitOut.writeFields_spec hset (fields := List.replicate (fillerGroups c.fillerNeed) (2, 10))
      fun f hf => by rw [List.eq_of_mem_replicate hf]; decide
    have hgroups : (List.replicate (fillerGroups c.fillerNeed) (2, 10)).flatMap (fun f => bitsOf f.2 f.1) =
        (List.replicate (fillerGroups c.fillerNeed) [false, true, false, false, false, false, false, false, false, false]).flatten := by
      rw [List.flatMap_def, List.map_replicate, bitsOf_fillerGroup]
    have hk : c.fillerNeed ≤ 10 * fillerGroups c.fillerNeed ∧ 10 * fillerGroups c.fillerNeed < c.fillerNeed + 10 := by
      unfold fillerGroups
      omega
    rw [CU.emitFlushFiller_of_codes h]
    refine ⟨hstream.trans (by rw [hgroups]), ?_, hk⟩
    have hneed : 8 ≤ c.fillerNeed := Nat.le_add_right _ _
    have hlen : (c.out.writeFields (List.replicate (fillerGroups c.fillerNeed) (2, 10))).stream.length =
        c.out.stream.length + 10 * fillerGroups c.fillerNeed := by
      rw [hstream, hgroups]
      simp [Nat.mul_comm]
    simp only [hlen]
    omega

/-! ## The trailer (R247) -/

/-- Settles O41: AlignToByte ends on a byte boundary, where the checksum's bytes are pushed. -/
theorem trailerEndsStream : Obligations.TrailerEndsStream := by
  intro c hfew hbits
  obtain ⟨hpad, -, hn, -⟩ := BitOut.alignToByte_spec (o := c.out) ⟨hfew, hbits⟩
  have hlen := BitOut.stream_length_mod_eight hn
  rw [hpad, List.length_append, List.length_replicate] at hlen
  refine ⟨_, (8 - c.out.nbits % 8) % 8, c.emitTrailer_eq, ?_, Nat.mod_lt _ (by decide), hlen, ?_⟩
  · split <;> exact hn
  · cases c.nohdr with
    | true => simpa using hpad
    | false =>
      obtain ⟨-, hstream, -⟩ := BitOut.writeBlock_spec hn
        [c.adler.extractLsb' 24 8, c.adler.extractLsb' 16 8, c.adler.extractLsb' 8 8, c.adler.extractLsb' 0 8]
      rw [hpad] at hstream
      simpa using hstream

end Sys2Proof.Machine

/-! PROOFS. The commands of the DU that transfer nothing, but for its dictionary (44_decompressor.md R280, R281, R299 to R305): the start of a
stream, the queries and the binding. -/

namespace Sys2Proof.Machine

/-- DUReset writes every element that the start of a stream specifies, and no other (70_reset_and_hazards.md R391). -/
theorem DU.reset_eq_startOfStream (d : DU) : d.reset = d.startOfStream d.nohdr := rfl

/-- Settles O14: D.CONFIG takes the framing, and the rest is DUReset. -/
theorem configStartsDecompressor : Obligations.ConfigStartsDecompressor := by
  intro s nohdr
  show Host.Outcome.next ({ s with du := ({ s.du with nohdr := nohdr } : DU).reset }.ok 0) = _
  rw [DU.reset_eq_startOfStream]
  rfl

/-- Settles O15: D.RESET is DUReset. -/
theorem resetStartsDecompressor : Obligations.ResetStartsDecompressor := by
  intro s
  rw [← DU.reset_eq_startOfStream]
  rfl

/-- A condition as the value of its query. -/
theorem flagResult_decide {b : Bool} {p : Prop} [Decidable p] (h : b = true ↔ p) : flagResult b = if p then 1 else 0 := by
  rw [flagResult_eq_ite]
  exact if_congr h rfl rfl

theorem DU.needsDict_iff (d : DU) : d.needsDict = true ↔ d.mode = .dict ∧ d.needed = 0 := by simp [DU.needsDict]

theorem DU.isFinished_iff (d : DU) : d.isFinished = true ↔ d.mode = .fin ∧ d.filled = 0 := by simp [DU.isFinished]

theorem DU.needsInput_iff (d : DU) : d.needsInput = true ↔ d.inPtr = d.inEnd := by simp [DU.needsInput]

/-- Settles O18: each query answers with its register, or with its condition as a flag. -/
theorem decompressorQueries : Obligations.DecompressorQueries := by
  intro s
  have hadler : s.du.adlerValue = if s.du.mode = .dict ∧ s.du.needed = 0 then s.du.readAdler else s.du.adler :=
    if_congr s.du.needsDict_iff rfl rfl
  refine ⟨?_, rfl, rfl, ?_, ?_, ?_⟩
  · rw [← hadler]
    rfl
  · exact congrArg (fun r => Host.Outcome.next (s.ok r)) (flagResult_decide s.du.isFinished_iff)
  · exact congrArg (fun r => Host.Outcome.next (s.ok r)) (flagResult_decide s.du.needsInput_iff)
  · exact congrArg (fun r => Host.Outcome.next (s.ok r)) (flagResult_decide s.du.needsDict_iff)

/-- A buffer command of the DU whose shared checks pass goes on with its own. -/
theorem State.guardDU_buffer {s : State} (hfits : s.fits) (hfault : s.du.fault = none) (checks : List (Bool × Err))
    (effect : Host.Outcome State Fault Refusal) : s.guardDU (s.duBufferChecks ++ checks) effect = s.guardDU checks effect := by
  simp [State.guardDU, State.duBufferChecks, firstErr, State.bufferWraps_of_fits hfits, hfault]

/-- Settles O20: the check of R281, and then the binding. -/
theorem decompressorSetInput : Obligations.DecompressorSetInput := by
  intro s hfits hfault
  refine ⟨fun hp => ?_, fun hp => ?_⟩
  · refine (State.guardDU_buffer hfits hfault _ _).trans ((State.guardDU_fail (e := .inputPending) (by simp [firstErr, DU.needsInput, hp])).trans ?_)
    exact congrArg _ (State.raise_of_not_sticky rfl .du 0 s)
  · have hlen : BitVec.ofNat 64 s.argLen = s.port.argLen.zeroExtend 64 := BitVec.eq_of_toNat_eq (by simp [State.argLen])
    rw [← hlen]
    exact (State.guardDU_buffer hfits hfault _ _).trans (State.guardDU_pass (by simp [firstErr, DU.needsInput, hp]))

end Sys2Proof.Machine

/-! PROOFS. The output window as the history it holds (44_decompressor.md R282, R291; 10_state.md R41): a byte put into it is the newest of the
history, of which the undelivered bytes are the last. -/

namespace Sys2Proof.Machine

/-! ## The history -/

/-- The last n bytes put into the window, oldest first. -/
def DU.recent (d : DU) : Nat → List Byte
  | 0 => []
  | n + 1 => d.byteBack (n + 1) :: d.recent n

@[simp] theorem DU.recent_length (d : DU) (n : Nat) : (d.recent n).length = n := by
  induction n with
  | zero => rfl
  | succ n ih => simp [DU.recent, ih]

theorem DU.recent_getElem? (d : DU) {n k : Nat} (h : k < n) : (d.recent n)[k]? = some (d.byteBack (n - k)) := by
  induction n generalizing k with
  | zero => omega
  | succ n ih =>
    cases k with
    | zero => rfl
    | succ k => rw [DU.recent, List.getElem?_cons_succ, ih (by omega), Nat.add_sub_add_right]

theorem DU.recent_getD (d : DU) {n k : Nat} (h : k < n) : (d.recent n).getD k 0 = d.byteBack (n - k) := by
  rw [List.getD_eq_getElem?_getD, d.recent_getElem? h, Option.getD_some]

/-- Only the window's bytes and its end say what the history is. -/
theorem DU.recent_congr {d e : DU} (howin : d.owin = e.owin) (hwend : d.wend = e.wend) (n : Nat) : d.recent n = e.recent n := by
  induction n with
  | zero => rfl
  | succ n ih => rw [DU.recent, DU.recent, ih, DU.byteBack, DU.byteBack, howin, hwend]

theorem DU.recent_filled (d : DU) (k n : Nat) : ({ d with filled := k } : DU).recent n = d.recent n :=
  DU.recent_congr (d := { d with filled := k }) (e := d) rfl rfl n

theorem DU.recent_go (d : DU) (k : DMode) (n : Nat) : (d.go k).recent n = d.recent n := DU.recent_congr (d := d.go k) (e := d) rfl rfl n

@[simp] theorem DU.pending_length (d : DU) : d.pending.length = d.filled := by rw [DU.pending, List.length_map, List.length_range]

/-- The undelivered bytes are the newest of the history. -/
theorem DU.pending_eq_recent (d : DU) (h : d.filled ≤ 65536) : d.pending = d.recent d.filled := by
  refine List.ext_getElem? fun k => ?_
  rcases Nat.lt_or_ge k d.filled with hk | hk
  · rw [d.recent_getElem? hk, DU.pending, List.getElem?_map, List.getElem?_range hk, DU.byteBack]
    simp only [Option.map_some]
    rw [show d.wend + 65536 - d.filled + k = d.wend + 65536 - (d.filled - k) by omega]
  · rw [List.getElem?_eq_none (by simpa using hk), List.getElem?_eq_none (by simpa using hk)]

/-- An index into the window is taken modulo its size. -/
theorem Tbl.get_window (t : Tbl) (i : Nat) : Tbl.get 16 t (i % 65536) = Tbl.get 16 t i := Tbl.get_mod 16 t i

/-- What the next byte put in does to the history. -/
theorem DU.byteBack_putHistory (d : DU) (b : Nat) {k : Nat} (h : k < 65536) :
    (d.putHistory b).byteBack (k + 1) = if k = 0 then BitVec.ofNat 8 b else d.byteBack k := by
  have hget : (d.putHistory b).byteBack (k + 1) = BitVec.ofNat 8 ((d.owin.set 16 d.wend b).get 16 ((d.wend + 65536 - k) % 65536)) := by
    simp only [DU.byteBack, DU.putHistory, DWIN]
    rw [show ((d.wend + 1) % 65536 + 65536 - (k + 1)) % 65536 = (d.wend + 65536 - k) % 65536 by omega]
  rw [hget]
  split
  · next h0 =>
    subst h0
    rw [Nat.sub_zero, Nat.add_mod_right, Tbl.get_window, Tbl.get_set_self]
  · next h0 => rw [Tbl.get_set_ne d.owin b (show d.wend % 65536 ≠ (d.wend + 65536 - k) % 65536 % 65536 by omega), DU.byteBack]

/-- A byte put in is the newest. -/
theorem DU.recent_putHistory (d : DU) (b : Nat) {n : Nat} (h : n < 65536) :
    (d.putHistory b).recent (n + 1) = d.recent n ++ [BitVec.ofNat 8 b] := by
  induction n with
  | zero => simp [DU.recent, d.byteBack_putHistory b h]
  | succ n ih =>
    rw [DU.recent, d.byteBack_putHistory b h, if_neg (Nat.succ_ne_zero n), ih (by omega)]
    rfl

theorem DU.recent_wput_eq (d : DU) (b n : Nat) : (d.wput b).recent n = (d.putHistory b).recent n := DU.recent_filled _ _ n

/-! ## Bytes put in, one after another -/

/-- With bs put into the window of d, newest last, it is that of e. -/
def DU.Grown (bs : List Byte) (d e : DU) : Prop := ∀ n, n + bs.length ≤ 65536 → e.recent (n + bs.length) = d.recent n ++ bs

theorem DU.grown_nil {d e : DU} (howin : e.owin = d.owin) (hwend : e.wend = d.wend) : DU.Grown [] d e := fun n _ => by
  rw [List.length_nil, List.append_nil]
  exact DU.recent_congr howin hwend n

theorem DU.Grown.putHistory {bs : List Byte} {d e : DU} (h : DU.Grown bs d e) (b : Nat) :
    DU.Grown (bs ++ [BitVec.ofNat 8 b]) d (e.putHistory b) := fun n hn => by
  simp only [List.length_append, List.length_singleton] at hn ⊢
  rw [← Nat.add_assoc, e.recent_putHistory b (by omega), h n (by omega), List.append_assoc]

theorem DU.Grown.wput {bs : List Byte} {d e : DU} (h : DU.Grown bs d e) (b : Nat) : DU.Grown (bs ++ [BitVec.ofNat 8 b]) d (e.wput b) :=
  fun n hn => (e.recent_wput_eq b _).trans (h.putHistory b n hn)

section
variable {bs : List Byte} {d e : DU} (h : DU.Grown bs d e)
include h

/-- The newest bytes are those put in. -/
theorem DU.Grown.byteBack_new (hfit : bs.length ≤ 65536) {k : Nat} (hk : k < bs.length) :
    e.byteBack (k + 1) = bs.getD (bs.length - 1 - k) 0 := by
  have hrec := h 0 (by omega)
  rw [Nat.zero_add, DU.recent, List.nil_append] at hrec
  have hget := e.recent_getD (n := bs.length) (k := bs.length - 1 - k) (by omega)
  rw [hrec, show bs.length - (bs.length - 1 - k) = k + 1 by omega] at hget
  exact hget.symm

/-- Behind them stands the older history. -/
theorem DU.Grown.byteBack_old {k : Nat} (hold : bs.length ≤ k) (hk : k < 65536) : e.byteBack (k + 1) = d.byteBack (k + 1 - bs.length) := by
  obtain ⟨n, rfl⟩ := Nat.exists_eq_add_of_le' hold
  have hrec := congrArg (·.getD 0 0) (h (n + 1) (by omega))
  rw [show n + 1 + bs.length = n + bs.length + 1 by omega, DU.recent, DU.recent] at hrec
  rw [show n + bs.length + 1 - bs.length = n + 1 by omega]
  exact hrec

/-- Bytes to deliver come after those that wait already. -/
theorem DU.Grown.pending (hfilled : e.filled = d.filled + bs.length) (hroom : d.filled + bs.length ≤ 65536) : e.pending = d.pending ++ bs := by
  rw [e.pending_eq_recent (by omega), d.pending_eq_recent (by omega), hfilled]
  exact h _ hroom

end

/-- A string put into the history, none of it to be delivered. -/
theorem DU.putAll_grown (bs : List Byte) {as : List Byte} {d e : DU} (h : DU.Grown as d e) :
    DU.Grown (as ++ bs) d (bs.foldl (fun d b => d.putHistory b.toNat) e) := by
  induction bs generalizing as e with
  | nil => rw [List.append_nil]; exact h
  | cons b bs ih =>
    have hb := h.putHistory b.toNat
    rw [BitVec.ofNat_toNat, BitVec.setWidth_eq] at hb
    have := ih hb
    rwa [List.append_assoc, List.singleton_append] at this

theorem DU.putAll_keeps (bs : List Byte) (d : DU) :
    ∃ owin, bs.foldl (fun d b => d.putHistory b.toNat) d =
      { d with
        owin := owin
        wend := if bs.length = 0 then d.wend else (d.wend + bs.length) % 65536
        hist := if bs.length = 0 then d.hist else min (d.hist + bs.length) 65536 } := by
  induction bs generalizing d with
  | nil => exact ⟨d.owin, rfl⟩
  | cons b bs ih =>
    obtain ⟨owin, he⟩ := ih (d.putHistory b.toNat)
    refine ⟨owin, ?_⟩
    have hwend : (if bs.length = 0 then (d.wend + 1) % 65536 else ((d.wend + 1) % 65536 + bs.length) % 65536) =
        (d.wend + (bs.length + 1)) % 65536 := by split <;> omega
    have hhist : (if bs.length = 0 then min (d.hist + 1) 65536 else min (min (d.hist + 1) 65536 + bs.length) 65536) =
        min (d.hist + (bs.length + 1)) 65536 := by split <;> omega
    rw [List.foldl_cons, he, List.length_cons, if_neg (Nat.succ_ne_zero _), if_neg (Nat.succ_ne_zero _), ← hwend, ← hhist]
    rfl

/-- A string put into the window to be delivered is put into the history first. -/
theorem DU.wputs_eq (bs : List Byte) (d : DU) :
    bs.foldl (fun d b => d.wput b.toNat) d = { bs.foldl (fun d b => d.putHistory b.toNat) d with filled := d.filled + bs.length } := by
  have key (f : Nat) (e : DU) : bs.foldl (fun d b => d.wput b.toNat) { e with filled := f } =
      { bs.foldl (fun d b => d.putHistory b.toNat) e with filled := f + bs.length } := by
    induction bs generalizing f e with
    | nil => rfl
    | cons b bs ih =>
      have hb := ih (f + 1) (e.putHistory b.toNat)
      rw [Nat.add_assoc, Nat.add_comm 1] at hb
      exact hb
  exact key d.filled d

theorem DU.wputs_keeps (bs : List Byte) (d : DU) :
    ∃ owin, bs.foldl (fun d b => d.wput b.toNat) d =
      { d with
        owin := owin
        wend := if bs.length = 0 then d.wend else (d.wend + bs.length) % 65536
        filled := d.filled + bs.length
        hist := if bs.length = 0 then d.hist else min (d.hist + bs.length) 65536 } := by
  obtain ⟨owin, he⟩ := DU.putAll_keeps bs d
  exact ⟨owin, by rw [DU.wputs_eq, he]⟩

/-- The undelivered bytes after a string is put into a window that has room for it. -/
theorem DU.pending_wputs (bs : List Byte) (d : DU) (hroom : d.filled + bs.length ≤ 65536) :
    (bs.foldl (fun d b => d.wput b.toNat) d).pending = d.pending ++ bs := by
  have hgrown := DU.putAll_grown bs (DU.grown_nil (d := d) (e := d) rfl rfl)
  rw [List.nil_append] at hgrown
  refine DU.Grown.pending (fun n hn => Eq.trans ?_ (hgrown n hn)) (by rw [DU.wputs_eq]) hroom
  rw [DU.wputs_eq, DU.recent_filled]

/-- WPut's byte is the last of the undelivered ones. -/
theorem DU.pending_wput (d : DU) (b : Nat) (h : d.filled < 65536) : (d.wput b).pending = d.pending ++ [BitVec.ofNat 8 b] :=
  ((DU.grown_nil (d := d) (e := d) rfl rfl).wput b).pending rfl h

/-! ## The dictionary (R282) -/

/-- The part of a dictionary that becomes history: its last 65536 bytes. -/
def historyTail (dict : List Byte) : List Byte := dict.drop (dict.length - DWIN)

theorem historyTail_length (dict : List Byte) : (historyTail dict).length = min dict.length 65536 := by
  rw [historyTail, List.length_drop, DWIN]
  omega

theorem DU.loadDict_eq (d : DU) (dict : List Byte) :
    d.loadDict dict = DU.go ((historyTail dict).foldl (fun d b => d.putHistory b.toNat) { d with adler := 1 }) .blocks := rfl

theorem DU.loadDict_grown (d : DU) (dict : List Byte) : DU.Grown (historyTail dict) d (d.loadDict dict) := fun n hn => by
  have hgrown := DU.putAll_grown (historyTail dict) (DU.grown_nil (d := d) (e := { d with adler := 1 }) rfl rfl)
  rw [List.nil_append] at hgrown
  rw [DU.loadDict_eq, DU.recent_go]
  exact hgrown n hn

theorem DU.loadDict_keeps (d : DU) (dict : List Byte) :
    d.loadDict dict =
      { d with
        adler := 1, mode := .blocks, owin := (d.loadDict dict).owin
        wend := if min dict.length 65536 = 0 then d.wend else (d.wend + min dict.length 65536) % 65536
        hist := if min dict.length 65536 = 0 then d.hist else min (d.hist + min dict.length 65536) 65536 } := by
  obtain ⟨owin, he⟩ := DU.putAll_keeps (historyTail dict) { d with adler := 1 }
  rw [historyTail_length] at he
  rw [DU.loadDict_eq, he]
  rfl

/-- Settles O22: outside DICT the third check fails; the wrong dictionary aborts; the right one is the newest history. -/
theorem decompressorSetDict : Obligations.DecompressorSetDict := by
  intro s hfits hfault dict kept
  have hgo (hm : s.du.mode = .dict) (hn : s.du.needed = 0) (effect : Host.Outcome State Fault Refusal) :
      s.guardDU (s.duBufferChecks ++ [(!s.du.needsDict, .dictNotNeeded)]) effect = effect :=
    (State.guardDU_buffer hfits hfault _ _).trans (State.guardDU_pass (by simp [firstErr, DU.needsDict, hm, hn]))
  refine ⟨fun hno => ?_, fun hm hn hsum => ?_, fun hm hn hsum => ?_⟩
  · have hneeds : s.du.needsDict = false := Bool.eq_false_iff.mpr fun h => hno (s.du.needsDict_iff.mp h)
    refine (State.guardDU_buffer hfits hfault _ _).trans ((State.guardDU_fail (e := .dictNotNeeded) (by simp [firstErr, hneeds])).trans ?_)
    exact congrArg _ (State.raise_of_not_sticky rfl .du 0 s)
  · exact (hgo hm hn _).trans ((if_neg hsum).trans (congrArg _ (State.raise_du_of_sticky rfl 0 s)))
  · have hlen : (historyTail dict).length = kept := historyTail_length dict
    have hgrown := s.du.loadDict_grown dict
    refine ⟨s.du.loadDict dict, (hgo hm hn _).trans (if_pos hsum), s.du.loadDict_keeps dict, fun _ => ⟨fun k hk => ?_, fun k hk hlt => ?_⟩⟩
    · have hidx : dict.length - DWIN + (kept - 1 - k) = dict.length - 1 - k := by simp only [DWIN]; omega
      rw [hgrown.byteBack_new (by omega) (by omega), hlen, historyTail, List.getD_eq_getElem?_getD, List.getElem?_drop, hidx,
        List.getD_eq_getElem?_getD]
    · rw [hgrown.byteBack_old (by omega) hlt, hlen]

/-! ## Repeat (R291) -/

theorem DU.replay_succ (dist l : Nat) (d : DU) :
    DU.replay dist (l + 1) d = (DU.replay dist l d).wput ((DU.replay dist l d).owin.get 16 ((DU.replay dist l d).back dist)) := by
  induction l generalizing d with
  | zero => rfl
  | succ l ih => rw [DU.replay, ih, DU.replay]

theorem DU.byteBack_eq_back (d : DU) {k : Nat} (h : k < 65536) : BitVec.ofNat 8 (d.owin.get 16 (d.back k)) = d.byteBack k := by
  rw [DU.back, DU.byteBack, DWIN, Nat.mod_eq_of_lt h, show d.wend + 65536 - k = d.wend + (65536 - k) by omega]

/-- The bytes a copy makes: from before the copy as far as they reach, and then its own. -/
theorem DU.replay_grown (d : DU) {dist : Nat} (h1 : 1 ≤ dist) (h2 : dist ≤ 32768) {l : Nat} (hl : l ≤ 65536) :
    ∃ bs, bs.length = l ∧ DU.Grown bs d (DU.replay dist l d) ∧
      ∀ k, k < l → bs.getD k 0 = if k < dist then d.byteBack (dist - k) else bs.getD (k - dist) 0 := by
  induction l with
  | zero => exact ⟨[], rfl, DU.grown_nil rfl rfl, fun k hk => absurd hk (Nat.not_lt_zero k)⟩
  | succ l ih =>
    obtain ⟨bs, hlen, hgrown, hbytes⟩ := ih (by omega)
    refine ⟨bs ++ [(DU.replay dist l d).byteBack dist], by simp [hlen], ?_, fun k hk => ?_⟩
    · rw [DU.replay_succ, ← DU.byteBack_eq_back _ (show dist < 65536 by omega)]
      exact hgrown.wput _
    · have hold {j : Nat} (hj : j < l) : (bs ++ [(DU.replay dist l d).byteBack dist]).getD j 0 = bs.getD j 0 :=
        List.getD_append _ _ _ _ (by omega)
      rcases Nat.lt_succ_iff_lt_or_eq.mp hk with hlt | rfl
      · rw [hold hlt, hold (j := k - dist) (by omega), hbytes k hlt]
      · rw [List.getD_append_right _ _ _ _ (by omega), hlen, Nat.sub_self]
        obtain ⟨j, rfl⟩ := Nat.exists_eq_add_of_le' h1
        show (DU.replay (j + 1) k d).byteBack (j + 1) = _
        split
        · rw [hgrown.byteBack_old (by omega) (by omega), hlen]
        · rw [hold (by omega), hgrown.byteBack_new (by omega) (by omega), hlen]
          congr 1
          omega

/-- What a copy of l bytes from dist places back does, where the window has room (30_encoding.md R111). -/
theorem DU.WindowInv.replay_spec {d : DU} (h : d.WindowInv) {dist l : Nat} (h1 : 1 ≤ dist) (h2 : dist ≤ 32768) (hroom : d.filled + l ≤ 65536) :
    let r := DU.replay dist l d
    r.WindowInv ∧ r.filled = d.filled + l ∧ r.pending.take d.filled = d.pending ∧
    (∀ k, k < l → k < dist → r.pending.getD (d.filled + k) 0 = d.byteBack (dist - k)) ∧
    (∀ k, k < l → dist ≤ k → r.pending.getD (d.filled + k) 0 = r.pending.getD (d.filled + k - dist) 0) ∧
    r = { d with owin := r.owin, wend := r.wend, filled := r.filled, hist := r.hist } := by
  intro r
  obtain ⟨hwin, hfilled⟩ := (h.replay dist hroom).window
  obtain ⟨bs, hlen, hgrown, hbytes⟩ := d.replay_grown h1 h2 (show l ≤ 65536 by omega)
  have hpend : r.pending = d.pending ++ bs := hgrown.pending (by rw [hlen]; exact hfilled) (by omega)
  have hnew (k : Nat) : r.pending.getD (d.filled + k) 0 = bs.getD k 0 := by
    rw [hpend, List.getD_append_right _ _ _ _ (by rw [d.pending_length]; omega), d.pending_length, Nat.add_sub_cancel_left]
  refine ⟨hwin, hfilled, ?_, fun k hk hlt => ?_, fun k hk hle => ?_, DU.replay_keeps dist l d⟩
  · rw [hpend, List.take_left' d.pending_length]
  · rw [hnew, hbytes k hk, if_pos hlt]
  · rw [hnew, hbytes k hk, if_neg (Nat.not_lt.mpr hle), Nat.add_sub_assoc hle, hnew]

end Sys2Proof.Machine

/-! PROOFS. What a decode step keeps from every state, and why it ends (44_decompressor.md R283 to R298): it reads bound input in order, and
without an error it either comes on or waits for input or for a dictionary, or has bytes to deliver, or is finished. -/

namespace Sys2Proof.Machine

/-! ## Reading (45_huffman_decode.md R321 to R329) -/

/-- What decoding and delivering keep of a DU: the framing, the fault and the binding, of which bytes are taken in order. -/
structure DU.Onward (d e : DU) : Prop where
  nohdr : e.nohdr = d.nohdr
  fault : e.fault = d.fault
  bound : e.bound = d.bound
  inEnd : e.inEnd = d.inEnd
  inPtr : d.inPtr ≤ e.inPtr
  binding : e.inPtr ≤ e.inEnd

theorem DU.Onward.trans {d e f : DU} (h : d.Onward e) (h' : e.Onward f) : d.Onward f :=
  ⟨h'.nohdr.trans h.nohdr, h'.fault.trans h.fault, h'.bound.trans h.bound, h'.inEnd.trans h.inEnd, h.inPtr.trans h'.inPtr, h'.binding⟩

/-- What a decode step keeps besides: it delivers nothing, takes input and adds output. -/
structure DU.Decoded (d e : DU) : Prop extends d.Onward e where
  totalOut : e.totalOut = d.totalOut
  avail : e.avail ≤ d.avail
  filled : d.filled ≤ e.filled

theorem DU.Decoded.refl {d : DU} (h : d.inPtr ≤ d.inEnd) : d.Decoded d := ⟨⟨rfl, rfl, rfl, rfl, le_refl _, h⟩, rfl, le_refl _, le_refl _⟩

theorem DU.Decoded.trans {d e f : DU} (h : d.Decoded e) (h' : e.Decoded f) : d.Decoded f :=
  ⟨h.toOnward.trans h'.toOnward, h'.totalOut.trans h.totalOut, h'.avail.trans h.avail, h.filled.trans h'.filled⟩

/-- Reading n bits of the input, and nothing else. -/
structure DU.Took (n : Nat) (d e : DU) : Prop where
  same : d.SameButReader e
  inPtr : d.inPtr ≤ e.inPtr
  binding : e.inPtr ≤ e.inEnd
  avail : e.avail + n = d.avail

theorem DU.Took.decoded {n : Nat} {d e : DU} (h : DU.Took n d e) : d.Decoded e := by
  obtain ⟨hsame, hptr, hbind, havail⟩ := h
  obtain ⟨res, cnt, inPtr, rfl⟩ := hsame.exists
  exact ⟨⟨rfl, rfl, rfl, rfl, hptr, hbind⟩, rfl, by omega, le_refl _⟩

theorem DU.Took.zero {d : DU} (h : d.inPtr ≤ d.inEnd) : DU.Took 0 d d := ⟨rfl, le_refl _, h, rfl⟩

theorem DU.Took.trans {a b : Nat} {d e f : DU} (h : DU.Took a d e) (h' : DU.Took b e f) : DU.Took (a + b) d f :=
  ⟨h.same.trans h'.same, h.inPtr.trans h'.inPtr, h'.binding, by rw [← h.avail, ← h'.avail]; omega⟩

/-- Reading after a look ahead. -/
theorem DU.Took.after {n : Nat} {d e f : DU} (h : DU.Took 0 d e) (h' : DU.Took n e f) : DU.Took n d f := by simpa using h.trans h'

/-- Filling the reservoir ends with n bits held or with the binding used up (R321). -/
theorem DU.refill_took (m : Memory) (n fuel : Nat) {d : DU} (h : d.inPtr ≤ d.inEnd) :
    DU.Took 0 d (DU.refill m n fuel d) ∧
      (n ≤ d.cnt + 8 * fuel → n ≤ (DU.refill m n fuel d).cnt ∨ (DU.refill m n fuel d).inPtr = (DU.refill m n fuel d).inEnd) := by
  induction fuel generalizing d with
  | zero => exact ⟨.zero h, .inl⟩
  | succ k ih =>
    simp only [DU.refill, Bool.and_eq_true, decide_eq_true_eq]
    split
    · next hc =>
      obtain ⟨htook, hfull⟩ := ih (d := d.readByte m) (by rw [DU.readByte_inPtr, DU.readByte_inEnd]; omega)
      have hbyte : DU.Took 0 d (d.readByte m) :=
        ⟨rfl, Nat.le_succ _, by rw [DU.readByte_inPtr, DU.readByte_inEnd]; omega, by simp only [DU.avail, DU.readByte]; omega⟩
      rw [DU.readByte_cnt] at hfull
      exact ⟨hbyte.trans htook, fun hn => hfull (by omega)⟩
    · exact ⟨.zero h, fun _ => by omega⟩

theorem DU.Took.drop {d : DU} {n : Nat} (h : d.inPtr ≤ d.inEnd) (hn : n ≤ d.cnt) : DU.Took n d (d.drop n) :=
  ⟨rfl, le_refl _, h, DU.drop_avail hn⟩

/-- BRPeek takes nothing; without enough input it uses up the binding (R321). -/
theorem DU.peek_took (m : Memory) (n : Nat) {d : DU} (h : d.inPtr ≤ d.inEnd) :
    DU.Took 0 d (d.peek m n).2 ∧ ((∃ v, (d.peek m n).1 = some v ∧ n ≤ (d.peek m n).2.cnt) ∨
      ((d.peek m n).1 = none ∧ (d.peek m n).2.inPtr = (d.peek m n).2.inEnd)) := by
  obtain ⟨htook, hfull⟩ := DU.refill_took m n n h
  simp only [DU.peek]
  split
  · exact ⟨htook, .inr ⟨rfl, (hfull (by omega)).resolve_left (by omega)⟩⟩
  · exact ⟨htook, .inl ⟨_, rfl, by simp only; omega⟩⟩

/-- A field of n bits, read and used; without enough input the binding is used up (R323). -/
theorem DU.needBits_rule {d : DU} (h : d.inPtr ≤ d.inEnd) (m : Memory) (n : Nat) {f : Nat → DU → Run DU Bool} {P : Bool → DU → Prop}
    {E : Err → DU → Prop} (hnone : ∀ e, DU.Took 0 d e → e.inPtr = e.inEnd → P false e)
    (hsome : ∀ v e, DU.Took n d e → (f v e).Ends P E) : (Machine.needBits (d.tryGet m n) f).Ends P E := by
  obtain ⟨htook, hval⟩ := DU.peek_took m n h
  unfold DU.tryGet
  generalize d.peek m n = p at htook hval
  obtain ⟨v, e⟩ := p
  rcases hval with ⟨v, rfl, hcnt⟩ | ⟨rfl, hend⟩
  · exact hsome v _ (htook.after (.drop htook.binding hcnt))
  · exact hnone e htook hend

/-- Decode at length l, where the l − 1 bits before are held: a symbol takes a bit or more, and waiting uses up the binding (R329). -/
theorem decodeFrom_rule (m : Memory) (codes : List (Nat × Nat)) (left l c : Nat) (hl : 1 ≤ l) {d : DU} (h : d.inPtr ≤ d.inEnd)
    (hcnt : l ≤ d.cnt + 1) :
    (decodeFrom m codes left l c d).Ends (fun s e => (s = none → DU.Took 0 d e ∧ e.inPtr = e.inEnd) ∧ (s ≠ none → ∃ n, 1 ≤ n ∧ DU.Took n d e))
      fun err e => err = .invalidCode ∧ DU.Took 0 d e := by
  induction left generalizing l c d with
  | zero => exact ⟨rfl, .zero h⟩
  | succ left ih =>
    simp only [decodeFrom]
    split
    · next hlt => exact ⟨fun _ => ⟨.zero h, by unfold DU.avail at hlt; omega⟩, fun hs => absurd rfl hs⟩
    · obtain ⟨htook, hval⟩ := DU.peek_took m l h
      generalize d.peek m l = p at htook hval
      obtain ⟨v, e⟩ := p
      rcases hval with ⟨v, rfl, hheld⟩ | ⟨rfl, hend⟩
      · simp only at htook hheld ⊢
        split
        · exact ⟨nofun, fun _ => ⟨l, hl, htook.after (.drop htook.binding hheld)⟩⟩
        · split
          · refine (ih (l + 1) _ (by omega) htook.binding (by omega)).mono (fun s g ⟨hnone, hsome⟩ => ⟨fun hs => ?_, fun hs => ?_⟩)
              fun err g ⟨herr, hg⟩ => ⟨herr, htook.trans hg⟩
            · obtain ⟨hg, hend⟩ := hnone hs
              exact ⟨htook.trans hg, hend⟩
            · obtain ⟨n, hn, hg⟩ := hsome hs
              exact ⟨n, hn, htook.after hg⟩
          · exact ⟨rfl, htook⟩
      · exact ⟨fun _ => ⟨htook, hend⟩, fun hs => absurd rfl hs⟩

/-- A symbol, read and used; without enough input the binding is used up (R329). -/
theorem DU.decodeThen_rule {d : DU} (h : d.inPtr ≤ d.inEnd) (m : Memory) (lens : List Nat) {f : Nat → DU → Run DU Bool}
    {P : Bool → DU → Prop} {E : Err → DU → Prop} (hnone : ∀ e, DU.Took 0 d e → e.inPtr = e.inEnd → P false e)
    (hsome : ∀ s n e, 1 ≤ n → DU.Took n d e → (f s e).Ends P E) (hbad : ∀ e, DU.Took 0 d e → E .invalidCode e) :
    (d.decodeThen m lens f).Ends P E := by
  have hends : (d.decode m lens).Ends _ _ := decodeFrom_rule m (lens.zip (canon lens)) (maxLength lens) 1 0 (le_refl _) h (Nat.le_add_left _ _)
  refine (hends.mono (fun _ _ => id) fun err e ⟨herr, he⟩ => herr ▸ hbad e he).bind fun s e ⟨hn, hs⟩ => ?_
  cases s with
  | none => exact hnone e (hn rfl).1 (hn rfl).2
  | some s =>
    obtain ⟨n, hn, he⟩ := hs nofun
    exact hsome s n e hn he

/-- Extra bits, read and used, if any are needed (R294, R296). -/
theorem DU.withExtra_rule {d : DU} (h : d.inPtr ≤ d.inEnd) (m : Memory) {f : Nat → DU → Run DU Bool} {P : Bool → DU → Prop}
    {E : Err → DU → Prop} (hnone : ∀ e, DU.Took 0 d e → e.inPtr = e.inEnd → P false e)
    (hsome : ∀ v n e, DU.Took n d e → (f v e).Ends P E) : (d.withExtra m f).Ends P E := by
  unfold DU.withExtra
  split
  · exact DU.needBits_rule h m _ hnone fun v e he => hsome v _ e he
  · exact hsome 0 0 d (.zero h)

/-- The whole bytes at the front of the reservoir, in every state (R325). -/
theorem DU.copyReservoir_took (n : Nat) {d : DU} (h : d.inPtr ≤ d.inEnd) :
    DU.Took (8 * (DU.copyReservoir n d).1.length) d (DU.copyReservoir n d).2 ∧ (DU.copyReservoir n d).1.length = min n (d.cnt / 8) ∧
      (DU.copyReservoir n d).2.inPtr = d.inPtr := by
  induction n generalizing d with
  | zero => exact ⟨.zero h, by simp [DU.copyReservoir], rfl⟩
  | succ n ih =>
    simp only [DU.copyReservoir]
    split
    · next h8 =>
      obtain ⟨htook, hlen, hptr⟩ := ih (d := d.drop 8) h
      refine ⟨?_, ?_, hptr⟩
      · have := (DU.Took.drop h h8).trans htook
        rwa [show 8 + 8 * (DU.copyReservoir n (d.drop 8)).1.length = 8 * ((DU.copyReservoir n (d.drop 8)).1.length + 1) by omega] at this
      · rw [List.length_cons, hlen]
        simp only [DU.drop]
        omega
    · exact ⟨.zero h, by simp only [List.length_nil]; omega, rfl⟩

/-- BRCopy of no more bytes than there are, in every state (R325). -/
theorem DU.copy_took (m : Memory) {n : Nat} {d : DU} (h : d.inPtr ≤ d.inEnd) (hn : n ≤ d.avail / 8) :
    DU.Took (8 * n) d (d.copy m n).2 ∧ (d.copy m n).1.length = n := by
  obtain ⟨⟨hsame, -, -, havail⟩, hlen, hptr⟩ := DU.copyReservoir_took n h
  simp only [DU.copy]
  generalize DU.copyReservoir n d = r at hsame havail hlen hptr
  obtain ⟨bytes, e⟩ := r
  obtain ⟨res, cnt, inPtr, rfl⟩ := hsame.exists
  simp only [DU.avail] at hn havail hlen hptr ⊢
  refine ⟨⟨rfl, by simp only; omega, by simp only; omega, by simp only [DU.avail]; omega⟩, ?_⟩
  rw [List.length_append, Memory.readBytes_length]
  omega

/-! ## Decode steps (R283) -/

/-- A DATA_FORMAT error, raised by a step that has kept what a step keeps. -/
def DU.Failed (d : DU) (err : Err) (e : DU) : Prop := err.classSub.1 = 4 ∧ d.Decoded e

/-- Nothing is left to do: the input is used up, the stream is finished, or a dictionary is needed (R307). -/
def DU.Idle (d : DU) : Prop := d.inPtr = d.inEnd ∨ d.mode = .fin ∨ (d.mode = .dict ∧ d.needed = 0)

/-- Why a step goes no further: nothing is left to do, or output waits to be delivered. -/
def DU.Waits (d : DU) : Prop := d.Idle ∨ (0 < d.filled ∧ d.mode ≠ .chk)

/-- How many steps may follow from a mode without input being taken or output being made: STORED at its end, BLOCKS at the end of the last
block, and the trailer. -/
def DMode.ahead (k : DMode) : Nat := if k = .stored then 3 else if k = .blocks then 2 else if k = .chk then 1 else 0

/-- A decode step that is done. One that answers 1 has taken input, or has made output, or has come to a later mode. -/
structure DU.Passed (d : DU) (more : Bool) (e : DU) : Prop where
  decoded : d.Decoded e
  waits : more = false → e.Waits
  advances : more = true → e.avail < d.avail ∨ 0 < e.filled ∨ e.mode.ahead < d.mode.ahead
  trailer : d.mode = .chk → more = false ∧ (e.mode = .chk ∨ e.mode = .fin)

section
variable {d : DU} (h : d.inPtr ≤ d.inEnd) (m : Memory)
include h

theorem DU.stepHeader_rule (hm : d.mode = .header) : (d.stepHeader m).Ends d.Passed d.Failed := by
  refine DU.needBits_rule h m 16 (fun e he hend => ⟨he.decoded, fun _ => .inl (.inl hend), nofun, by simp [hm]⟩) fun v e he => ?_
  have hd := he.decoded
  have hlt : e.avail < d.avail := by have := he.avail; omega
  extract_lets g
  split
  · exact ⟨rfl, hd⟩
  · split
    · exact ⟨rfl, hd⟩
    · split <;> exact ⟨{ hd with }, nofun, fun _ => .inl hlt, by simp [hm]⟩

theorem DU.stepLast_rule (hm : d.mode = .blocks) : d.stepLast.Ends d.Passed d.Failed := by
  have hd := DU.Decoded.refl h
  unfold DU.stepLast
  split
  · next hfilled => exact ⟨hd, fun _ => .inr ⟨hfilled, by simp [hm]⟩, nofun, by simp [hm]⟩
  · split
    · exact ⟨{ hd with }, fun _ => .inl (.inr (.inl rfl)), nofun, by simp [hm]⟩
    · have ha := (DU.Took.drop (n := d.cnt % 8) h (Nat.mod_le _ _)).decoded
      exact ⟨{ ha with }, nofun, fun _ => .inr (.inr (by rw [hm]; exact (by decide : DMode.ahead .chk < DMode.ahead .blocks))), by simp [hm]⟩

theorem DU.stepBlock_rule (hm : d.mode = .blocks) : (d.stepBlock m).Ends d.Passed d.Failed := by
  refine DU.needBits_rule h m 3 (fun e he hend => ⟨he.decoded, fun _ => .inl (.inl hend), nofun, by simp [hm]⟩) fun t e he => ?_
  extract_lets g
  have hd : d.Decoded g := { he.decoded with }
  have hlt : g.avail < d.avail := by have : g.avail = e.avail := rfl; have := he.avail; omega
  clear_value g
  split
  · have ha := (DU.Took.drop (n := g.cnt % 8) hd.binding (Nat.mod_le _ _)).decoded
    exact ⟨{ hd.trans ha with }, nofun, fun _ => .inl (ha.avail.trans_lt hlt), by simp [hm]⟩
  · split
    · exact ⟨{ hd with }, nofun, fun _ => .inl hlt, by simp [hm]⟩
    · split
      · exact ⟨{ hd with }, nofun, fun _ => .inl hlt, by simp [hm]⟩
      · exact ⟨rfl, hd⟩

end

/-- A checksum field is read to its end, or until the binding is used up (R288, R297). -/
theorem DU.readAdlerField_rule (m : Memory) (n : Nat) {d₀ d : DU} (h : d₀.Decoded d) {k : DMode} (hm : d.mode = k) (hn : d.needed ≤ n) :
    (DU.readAdlerField m n d).Ends
      (fun complete e => d₀.Decoded e ∧ e.mode = k ∧ (complete = false → e.inPtr = e.inEnd) ∧ (complete = true → e.needed = 0)) d₀.Failed := by
  induction n generalizing d with
  | zero => exact ⟨h, hm, nofun, fun _ => by omega⟩
  | succ n ih =>
    simp only [DU.readAdlerField]
    split
    · refine DU.needBits_rule h.binding m 8 (fun e he hend => ⟨h.trans he.decoded, by rw [he.same]; exact hm, fun _ => hend, nofun⟩)
        fun v e he => ih { h.trans he.decoded with } (by rw [he.same]; exact hm) ?_
      have hneeded : (e.pushAdler v).needed = d.needed - 8 := by rw [he.same]; rfl
      omega
    · exact ⟨h, hm, nofun, fun _ => by omega⟩

section
variable {d : DU} (h : d.inPtr ≤ d.inEnd) (m : Memory)
include h

theorem DU.stepDict_rule (hm : d.mode = .dict) : (d.stepDict m).Ends d.Passed d.Failed := by
  refine (DU.readAdlerField_rule m _ (.refl h) hm (le_refl _)).bind fun complete e ⟨hd, hem, hshort, hread⟩ =>
    ⟨hd, fun _ => ?_, nofun, by simp [hm]⟩
  cases complete with
  | false => exact .inl (.inl (hshort rfl))
  | true => exact .inl (.inr (.inr ⟨hem, hread rfl⟩))

theorem DU.stepChk_rule (hm : d.mode = .chk) : (d.stepChk m).Ends d.Passed d.Failed := by
  refine (DU.readAdlerField_rule m _ (.refl h) hm (le_refl _)).bind fun complete e ⟨hd, hem, hshort, hread⟩ => ?_
  cases complete with
  | false => exact ⟨hd, fun _ => .inl (.inl (hshort rfl)), nofun, fun _ => ⟨rfl, .inl hem⟩⟩
  | true =>
    simp only [Bool.not_true, Bool.false_eq_true, if_false]
    split
    · exact ⟨rfl, hd⟩
    · exact ⟨{ hd with }, fun _ => .inl (.inr (.inl rfl)), nofun, fun _ => ⟨rfl, .inr rfl⟩⟩

end

/-- A stored block's bytes, from a DU in STORED that has come from d₀ (R290). -/
theorem DU.stepStored_rule (m : Memory) {d₀ d : DU} (h : d₀.Decoded d) (hm : d.mode = .stored) (hc : d₀.mode ≠ .chk)
    (ha : d.avail < d₀.avail ∨ d₀.mode = .stored) : (d.stepStored m).Ends d₀.Passed d₀.Failed := by
  have hcount : d.storedCount = min (min d.ulen.toNat (65536 - d.filled)) (d.avail / 8) := rfl
  obtain ⟨htook, hlen⟩ := DU.copy_took m h.binding (show d.storedCount ≤ d.avail / 8 by omega)
  have havail := htook.avail
  have hread := h.trans htook.decoded
  have hem : (d.copy m d.storedCount).2.mode = .stored := by rw [htook.same]; exact hm
  have hful : (d.copy m d.storedCount).2.filled = d.filled := by rw [htook.same]
  have hulen : (d.copy m d.storedCount).2.ulen = d.ulen := by rw [htook.same]
  obtain ⟨owin, hput⟩ := DU.wputs_keeps (d.copy m d.storedCount).1 (d.copy m d.storedCount).2
  simp only [DU.stepStored]
  rw [hput, hlen]
  generalize (d.copy m d.storedCount).2 = e at htook havail hread hem hful hulen
  generalize (if d.storedCount = 0 then e.wend else (e.wend + d.storedCount) % 65536) = wend
  generalize (if d.storedCount = 0 then e.hist else min (e.hist + d.storedCount) 65536) = hist
  have hd : d₀.Decoded { e with owin := owin, wend := wend, filled := e.filled + d.storedCount, hist := hist } :=
    ⟨{ hread with }, hread.totalOut, hread.avail, hread.filled.trans (Nat.le_add_right _ _)⟩
  split
  · refine ⟨{ hd with }, nofun, fun _ => ?_, fun hm => absurd hm hc⟩
    rcases ha with hlt | hst
    · exact .inl (htook.decoded.avail.trans_lt hlt)
    · exact .inr (.inr (by rw [hst]; exact (by decide : DMode.ahead .blocks < DMode.ahead .stored)))
  · next hleft =>
    refine ⟨{ hd with }, fun hmore => .inl (.inl ?_), fun hmore => ?_, fun hm => absurd hm hc⟩
    · simpa [DU.needsInput] using hmore
    · have hptr : e.inPtr ≠ e.inEnd := by simpa [DU.needsInput] using hmore
      have hle := h.avail
      by_cases hn : d.storedCount = 0
      · refine .inr (.inl ?_)
        have hu : d.ulen.toNat ≠ 0 := fun hz => hleft (by rw [hn, hulen, BitVec.eq_of_toNat_eq (y := 0) hz]; rfl)
        have hb := htook.binding
        have hcnt : e.avail = e.cnt + 8 * (e.inEnd - e.inPtr) := rfl
        show 0 < e.filled + d.storedCount
        omega
      · exact .inl (show e.avail < d₀.avail by omega)

theorem DU.stepSlen2_rule (m : Memory) {d₀ d : DU} (h : d₀.Decoded d) (hc : d₀.mode ≠ .chk) : (d.stepSlen2 m).Ends d₀.Passed d₀.Failed := by
  refine DU.needBits_rule h.binding m 16 (fun e he hend => ⟨h.trans he.decoded, fun _ => .inl (.inl hend), nofun, fun hm => absurd hm hc⟩)
    fun v e he => ?_
  have hd := h.trans he.decoded
  split
  · exact ⟨rfl, hd⟩
  · refine DU.stepStored_rule m { hd with } rfl hc (.inl ?_)
    have h1 := he.avail
    have h2 := h.avail
    show e.avail < d₀.avail
    omega

theorem DU.stepSlen1_rule (m : Memory) {d : DU} (h : d.inPtr ≤ d.inEnd) (hc : d.mode ≠ .chk) : (d.stepSlen1 m).Ends d.Passed d.Failed :=
  DU.needBits_rule h m 16 (fun _ he hend => ⟨he.decoded, fun _ => .inl (.inl hend), nofun, fun hm => absurd hm hc⟩)
    fun _ _ he => DU.stepSlen2_rule m { he.decoded with } hc

/-! ## Symbols (R293 to R296) -/

/-- Where the symbol loop ends, from a DU that has come from d₀: it waits for input; or it has no room, or has read the block's end. -/
structure DU.LeftSymbols (d₀ : DU) (more : Bool) (e : DU) : Prop where
  decoded : d₀.Decoded e
  waits : more = false → e.inPtr = e.inEnd
  ends : more = true → e.free < 258 ∨ e.avail < d₀.avail

theorem DU.replay_decoded {d₀ d : DU} (h : d₀.Decoded d) (dist l : Nat) : d₀.Decoded (DU.replay dist l d) := by
  induction l generalizing d with
  | zero => exact h
  | succ l ih => exact ih ⟨{ h with }, h.totalOut, h.avail, h.filled.trans (Nat.le_succ _)⟩

theorem DU.hufLoop_rule (m : Memory) (fuel : Nat) {d₀ d : DU} (h : d₀.Decoded d) (hs : d.mode.inSymbols = true) :
    (DU.hufLoop m fuel d).Ends d₀.LeftSymbols d₀.Failed := by
  induction fuel generalizing d with
  | zero => trivial
  | succ fuel ih =>
    have hwait (e : DU) (he : DU.Took 0 d e) (hend : e.inPtr = e.inEnd) : d₀.LeftSymbols false e := ⟨h.trans he.decoded, fun _ => hend, nofun⟩
    have hbad (e : DU) (he : DU.Took 0 d e) : d₀.Failed .invalidCode e := ⟨rfl, h.trans he.decoded⟩
    simp only [DU.hufLoop]
    split
    · next hfree => exact ⟨h, nofun, fun _ => .inl hfree⟩
    · cases hm : d.mode
      case huf =>
        refine DU.decodeThen_rule h.binding m _ hwait (fun s n e hn he => ?_) hbad
        have hd := h.trans he.decoded
        split
        · exact ih ⟨{ hd with }, hd.totalOut, hd.avail, hd.filled.trans (Nat.le_succ _)⟩ (by rw [he.same]; exact hs)
        · split
          · have h1 := he.avail
            have h2 := h.avail
            exact ⟨{ hd with }, nofun, fun _ => .inr (show e.avail < d₀.avail by omega)⟩
          · split
            · exact ⟨rfl, hd⟩
            · exact ih { hd with } rfl
      case hufLb => exact DU.withExtra_rule h.binding m hwait fun v n e he => ih { h.trans he.decoded with } rfl
      case hufD =>
        refine DU.decodeThen_rule h.binding m _ hwait (fun s n e hn he => ?_) hbad
        have hd := h.trans he.decoded
        split
        · exact ⟨rfl, hd⟩
        · exact ih { hd with } rfl
      case hufDb =>
        refine DU.withExtra_rule h.binding m hwait fun v n e he => ?_
        have hd := h.trans he.decoded
        split
        · exact ⟨rfl, { hd with }⟩
        · exact ih { DU.replay_decoded (d := { e with rdist := e.rdist + v }) { hd with } _ _ with } rfl
      all_goals rw [hm] at hs; cases hs

theorem DU.LeftSymbols.passed {d₀ e : DU} {more : Bool} (h : d₀.LeftSymbols more e) (hc : d₀.mode ≠ .chk) : d₀.Passed more e := by
  refine ⟨h.decoded, fun hmore => .inl (.inl (h.waits hmore)), fun hmore => ?_, fun hm => absurd hm hc⟩
  rcases h.ends hmore with hfree | hlt
  · refine .inr (.inl ?_)
    unfold DU.free DWIN at hfree
    omega
  · exact .inl hlt

theorem DU.stepHuf_rule (m : Memory) {d₀ d : DU} (h : d₀.Decoded d) (hs : d.mode.inSymbols = true) (hc : d₀.mode ≠ .chk) :
    (d.stepHuf m).Ends d₀.Passed d₀.Failed :=
  (DU.hufLoop_rule m _ h hs).mono (fun _ _ he => he.passed hc) fun _ _ => id

/-! ## The dynamic header (R292; 46_dynamic_header.md R341) -/

/-- An error of HCLEN is a DATA_FORMAT error (R344). -/
theorem DHState.hclenErr_class {h : DHState} {e : Err} (he : h.hclenErr = some e) : e.classSub.1 = 4 := by
  have hmem := firstErr_mem he
  simp only [List.mem_cons, Prod.mk.injEq, List.not_mem_nil, or_false] at hmem
  rcases hmem with ⟨-, rfl⟩ | ⟨-, rfl⟩ <;> rfl

/-- An error of a complete header is a DATA_FORMAT error (R348). -/
theorem DHState.headerErr_class {h : DHState} {e : Err} (he : h.headerErr = some e) : e.classSub.1 = 4 := by
  have hmem := firstErr_mem he
  simp only [List.mem_cons, Prod.mk.injEq, List.not_mem_nil, or_false] at hmem
  rcases hmem with ⟨-, rfl⟩ | ⟨-, rfl⟩ | ⟨-, rfl⟩ <;> rfl

theorem DU.dhLoop_rule (m : Memory) (fuel : Nat) {d₀ d : DU} (h : d₀.Decoded d) :
    (DU.dhLoop m fuel d).Ends (fun complete e => d₀.Decoded e ∧ (complete = false → e.inPtr = e.inEnd)) d₀.Failed := by
  induction fuel generalizing d with
  | zero => trivial
  | succ fuel ih =>
    have hwait (e : DU) (he : DU.Took 0 d e) (hend : e.inPtr = e.inEnd) : d₀.Decoded e ∧ (false = false → e.inPtr = e.inEnd) :=
      ⟨h.trans he.decoded, fun _ => hend⟩
    simp only [DU.dhLoop]
    cases d.dh.phase <;> simp only
    case hlit | hdist => exact DU.needBits_rule h.binding m _ hwait fun v e he => ih { h.trans he.decoded with }
    case hclen =>
      refine DU.needBits_rule h.binding m _ hwait fun v e he => ?_
      split
      · next hfail => exact ⟨DHState.hclenErr_class hfail, { h.trans he.decoded with }⟩
      · exact ih { h.trans he.decoded with }
    case clen =>
      split
      · exact DU.needBits_rule h.binding m _ hwait fun v e he => ih { h.trans he.decoded with }
      · split
        · exact ⟨rfl, h⟩
        · exact ih { h with }
    case sym =>
      split
      · refine DU.decodeThen_rule h.binding m _ hwait (fun s n e hn he => ?_) fun e he => ⟨rfl, h.trans he.decoded⟩
        split
        · exact ih { h.trans he.decoded with }
        · split
          · exact ⟨rfl, h.trans he.decoded⟩
          · exact ih { h.trans he.decoded with }
      · split
        · next hfail => exact ⟨DHState.headerErr_class hfail, h⟩
        · exact ⟨{ h with }, nofun⟩
    case rep =>
      refine DU.needBits_rule h.binding m _ hwait fun v e he => ?_
      split
      · exact ⟨rfl, h.trans he.decoded⟩
      · exact ih { h.trans he.decoded with }
    case done => exact ⟨h, nofun⟩

theorem DU.stepDyn_rule (m : Memory) {d : DU} (h : d.inPtr ≤ d.inEnd) (hc : d.mode ≠ .chk) : (d.stepDyn m).Ends d.Passed d.Failed := by
  refine (DU.dhLoop_rule m _ (.refl h)).bind fun complete e ⟨hd, hend⟩ => ?_
  cases complete with
  | true => exact DU.stepHuf_rule m { hd with } rfl hc
  | false => exact ⟨hd, fun _ => .inl (.inl (hend rfl)), nofun, fun hm => absurd hm hc⟩

/-- What one decode step does, from every state whose binding is a range (R283). -/
theorem DU.step_rule (m : Memory) {d : DU} (h : d.inPtr ≤ d.inEnd) : (d.step m).Ends d.Passed d.Failed := by
  have hrefl := DU.Decoded.refl h
  unfold DU.step
  cases hm : d.mode <;> simp only
  case header => exact DU.stepHeader_rule h m hm
  case dict => exact DU.stepDict_rule h m hm
  case blocks =>
    split
    · exact DU.stepLast_rule h hm
    · exact DU.stepBlock_rule h m hm
  case slen1 => exact DU.stepSlen1_rule m h (by simp [hm])
  case slen2 => exact DU.stepSlen2_rule m hrefl (by simp [hm])
  case stored => exact DU.stepStored_rule m hrefl hm (by simp [hm]) (.inr hm)
  case dyn => exact DU.stepDyn_rule m h (by simp [hm])
  case huf | hufLb | hufD | hufDb => exact DU.stepHuf_rule m hrefl (by rw [hm]; rfl) (by simp [hm])
  case chk => exact DU.stepChk_rule h m hm
  case fin => exact ⟨hrefl, fun _ => .inl (.inr (.inl hm)), nofun, by simp [hm]⟩

end Sys2Proof.Machine

/-! PROOFS. The loop of D.INFLATE ends, and without an error stops short of its buffer's end only where the DU waits or is finished
(44_decompressor.md R284, R307; 60_exceptions.md R360, R361, R364, R367). -/

namespace Sys2Proof.Machine

/-! ## Procedures that end, with a value or with an error -/

/-- The procedure ends: its value and state meet P, or its error and state meet E. -/
structure Run.Answers {σ α : Type} (P : α → σ → Prop) (E : Err → σ → Prop) (r : Run σ α) : Prop where
  ends : r.Ends P E
  notStuck : r ≠ .stuck

section
variable {σ τ α β : Type} {r : Run σ α}

theorem Run.answers_done {P : α → σ → Prop} (E : Err → σ → Prop) {a : α} {s : σ} (h : P a s) : (Run.done a s).Answers P E := ⟨h, nofun⟩

/-- One procedure after another. -/
theorem Run.Answers.bind {P : α → σ → Prop} {E : Err → σ → Prop} {f : α → σ → Run σ β} {Q : β → σ → Prop} (h : r.Answers P E)
    (hf : ∀ a s, P a s → (f a s).Answers Q E) : (r.bind f).Answers Q E := by
  obtain ⟨hends, hne⟩ := h
  cases r with
  | done a s => exact hf a s hends
  | raise e s => exact ⟨hends, nofun⟩
  | stuck => exact absurd rfl hne

theorem Run.Answers.within {P : α → τ → Prop} {E : Err → τ → Prop} {put : σ → τ}
    (h : r.Answers (fun a s => P a (put s)) fun e s => E e (put s)) : (r.within put).Answers P E := by
  obtain ⟨hends, hne⟩ := h
  cases r with
  | done a s => exact ⟨hends, nofun⟩
  | raise e s => exact ⟨hends, nofun⟩
  | stuck => exact absurd rfl hne

end

/-! ## A decode step ends -/

theorem DU.stepHuf_ne_stuck (d : DU) (m : Memory) : d.stepHuf m ≠ .stuck := DU.hufLoop_ne_stuck m _ d d.symbolPasses_le

theorem DU.readAdlerField_ne_stuck (m : Memory) (n : Nat) (d : DU) : DU.readAdlerField m n d ≠ .stuck := by
  induction n generalizing d with
  | zero => exact nofun
  | succ n ih =>
    simp only [DU.readAdlerField]
    split
    · exact needBits_ne_stuck fun v e _ _ => ih _
    · exact nofun

/-- A procedure after one that ends. -/
theorem Run.bind_ne_stuck {σ α β : Type} {r : Run σ α} {f : α → σ → Run σ β} (h : r ≠ .stuck) (hf : ∀ a s, f a s ≠ .stuck) :
    r.bind f ≠ .stuck := fun hb => by
  rcases Run.bind_eq_stuck hb with hr | ⟨a, s, -, hs⟩
  · exact h hr
  · exact hf a s hs

theorem DU.stepStored_ne_stuck (d : DU) (m : Memory) : d.stepStored m ≠ .stuck := by
  simp only [DU.stepStored]
  split <;> exact nofun

theorem DU.stepSlen2_ne_stuck (d : DU) (m : Memory) : d.stepSlen2 m ≠ .stuck := by
  refine needBits_ne_stuck fun v e _ _ => ?_
  split
  · exact nofun
  · exact DU.stepStored_ne_stuck _ m

theorem DU.stepHeader_ne_stuck (d : DU) (m : Memory) : d.stepHeader m ≠ .stuck := by
  refine needBits_ne_stuck fun v e _ _ => ?_
  extract_lets g
  split
  · exact nofun
  · split
    · exact nofun
    · split <;> exact nofun

theorem DU.stepLast_ne_stuck (d : DU) : d.stepLast ≠ .stuck := by
  unfold DU.stepLast
  split
  · exact nofun
  · split <;> exact nofun

theorem DU.stepBlock_ne_stuck (d : DU) (m : Memory) : d.stepBlock m ≠ .stuck := by
  refine needBits_ne_stuck fun t e _ _ => ?_
  extract_lets g
  split
  · exact nofun
  · split
    · exact nofun
    · split <;> exact nofun

theorem DU.stepChk_ne_stuck (d : DU) (m : Memory) : d.stepChk m ≠ .stuck := by
  refine Run.bind_ne_stuck (DU.readAdlerField_ne_stuck m _ d) fun complete e => ?_
  split
  · exact nofun
  · split <;> exact nofun

theorem DU.stepDyn_ne_stuck (d : DU) (m : Memory) : d.stepDyn m ≠ .stuck := by
  refine Run.bind_ne_stuck (DU.dhLoop_ne_stuck m _ d d.headerPasses_le) fun complete e => ?_
  split
  · exact DU.stepHuf_ne_stuck _ m
  · exact nofun

/-- A decode step never outruns the model's bounds (log 8). -/
theorem DU.step_ne_stuck (d : DU) (m : Memory) : d.step m ≠ .stuck := by
  unfold DU.step
  cases d.mode <;> simp only
  case header => exact d.stepHeader_ne_stuck m
  case dict => exact Run.bind_ne_stuck (DU.readAdlerField_ne_stuck m _ d) fun _ _ => nofun
  case blocks =>
    split
    · exact d.stepLast_ne_stuck
    · exact d.stepBlock_ne_stuck m
  case slen1 => exact needBits_ne_stuck fun _ _ _ _ => DU.stepSlen2_ne_stuck _ m
  case slen2 => exact d.stepSlen2_ne_stuck m
  case stored => exact d.stepStored_ne_stuck m
  case dyn => exact d.stepDyn_ne_stuck m
  case huf | hufLb | hufD | hufDb => exact d.stepHuf_ne_stuck m
  case chk => exact d.stepChk_ne_stuck m
  case fin => exact nofun

/-! ## A transfer of the DU (R284) -/

/-- What D.INFLATE keeps of the DU, while the bytes it delivers are counted. -/
structure Xfer.Inflates (x y : Xfer DU) : Prop where
  onward : x.unit.Onward y.unit
  dest : x.dest ≤ y.dest
  totalOut : y.unit.totalOut = x.unit.totalOut + BitVec.ofNat 64 (y.dest - x.dest)

theorem Xfer.Inflates.refl {x : Xfer DU} (h : x.unit.inPtr ≤ x.unit.inEnd) : x.Inflates x :=
  ⟨(DU.Decoded.refl h).toOnward, le_refl _, by simp⟩

theorem Xfer.Inflates.decoded {x y : Xfer DU} (h : x.Inflates y) {e : DU} (he : y.unit.Decoded e) : x.Inflates { y with unit := e } :=
  ⟨h.onward.trans he.toOnward, h.dest, he.totalOut.trans h.totalOut⟩

theorem Xfer.Inflates.deliver {x y : Xfer DU} (h : x.Inflates y) : x.Inflates y.deliver := by
  unfold Xfer.deliver
  split
  · exact h
  · have hdest := h.dest
    refine ⟨{ h.onward with }, hdest.trans (Nat.le_add_right _ _), ?_⟩
    show y.unit.totalOut + _ = _
    rw [h.totalOut, BitVec.add_assoc, ← BitVec.ofNat_add, ← Nat.sub_add_comm hdest]
    rfl

/-- More than the passes that the loop can still make: the bits that are available, the room that is left once the window is delivered, and the
modes that may follow without either. -/
def Xfer.passes (x : Xfer DU) : Nat := 8 * x.unit.avail + 8 * (x.left - x.unit.filled) + x.unit.mode.ahead

theorem DMode.ahead_le (k : DMode) : k.ahead ≤ 3 := by cases k <;> decide

/-- Delivering makes no pass; outside CHK it fills the buffer or empties the window. -/
theorem Xfer.deliver_passes (x : Xfer DU) :
    x.deliver.passes = x.passes ∧ x.deliver.unit.mode = x.unit.mode ∧
      (x.unit.mode = .chk ∨ x.deliver.left = 0 ∨ x.deliver.unit.filled = 0) := by
  unfold Xfer.deliver
  split
  · next hm => exact ⟨rfl, rfl, .inl hm⟩
  · have hleft : x.copyOut.left = x.left - min x.left x.unit.filled := rfl
    have hfilled : x.copyOut.unit.filled = x.unit.filled - min x.left x.unit.filled := rfl
    have havail : x.copyOut.unit.avail = x.unit.avail := rfl
    have hmode : x.copyOut.unit.mode = x.unit.mode := rfl
    refine ⟨?_, hmode, by omega⟩
    simp only [Xfer.passes, hleft, hfilled, havail, hmode]
    omega

/-- The loop goes on after a step that has come on. -/
theorem Xfer.passes_lt {x : Xfer DU} {more : Bool} {e : DU} (h : x.unit.Passed more e) (hgo : more = true ∨ (0 < e.filled ∧ e.mode ≠ .chk))
    (hready : x.unit.mode = .chk ∨ (x.left ≠ 0 ∧ x.unit.filled = 0)) : Xfer.passes { x with unit := e } < x.passes := by
  have havail := h.decoded.avail
  have hfilled := h.decoded.filled
  have hlow := e.mode.ahead_le
  simp only [Xfer.passes]
  rcases hready with hchk | ⟨hleft, hempty⟩
  · obtain ⟨rfl, hmode⟩ := h.trailer hchk
    obtain ⟨-, hne⟩ := hgo.resolve_left nofun
    rw [hmode.resolve_left hne, hchk, show DMode.ahead .fin = 0 by decide, show DMode.ahead .chk = 1 by decide]
    omega
  · have hadvance : e.avail < x.unit.avail ∨ 0 < e.filled ∨ e.mode.ahead < x.unit.mode.ahead := by
      rcases hgo with hmore | ⟨hheld, -⟩
      · exact h.advances hmore
      · exact .inr (.inl hheld)
    omega

/-- The loop ends, with its buffer full or with nothing left to do, or in a DATA_FORMAT error. -/
theorem inflateLoop_answers (fuel : Nat) {x y : Xfer DU} (h : x.Inflates y) (hfuel : y.passes < fuel) :
    (inflateLoop fuel y).Answers (fun _ z => x.Inflates z ∧ (z.left = 0 ∨ z.unit.Idle)) fun err z => err.classSub.1 = 4 ∧ x.Inflates z := by
  induction fuel generalizing y with
  | zero => omega
  | succ fuel ih =>
    have hd := h.deliver
    obtain ⟨hpasses, hmode, hready⟩ := y.deliver_passes
    simp only [inflateLoop]
    generalize y.deliver = z at hd hpasses hmode hready
    split
    · next hfull => exact Run.answers_done _ ⟨hd, .inl hfull.2⟩
    · next hopen =>
      have hstep : (z.unit.step z.mem).Answers z.unit.Passed z.unit.Failed := ⟨DU.step_rule z.mem hd.onward.binding, DU.step_ne_stuck _ _⟩
      refine Run.Answers.bind (P := fun more w => z.unit.Passed more w.unit ∧ w = { z with unit := w.unit })
        (Run.Answers.within ⟨hstep.ends.mono (fun more e he => ⟨he, rfl⟩) fun err e he => ⟨he.1, hd.decoded he.2⟩, hstep.notStuck⟩)
        fun more w ⟨hpass, hw⟩ => ?_
      have hnext : x.Inflates w := hw ▸ hd.decoded hpass.decoded
      split
      · next hgo =>
        refine ih hnext ?_
        have hstart : z.unit.mode = .chk ∨ (z.left ≠ 0 ∧ z.unit.filled = 0) := by
          rw [hmode]
          by_cases hc : y.unit.mode = .chk
          · exact .inl hc
          · have hleft : z.left ≠ 0 := fun h0 => hopen ⟨hc, h0⟩
            exact .inr ⟨hleft, (hready.resolve_left hc).resolve_left hleft⟩
        have hlt := Xfer.passes_lt hpass (by simpa using hgo) hstart
        rw [← hw] at hlt
        omega
      · next hstop =>
        simp only [Bool.or_eq_true, Bool.and_eq_true, decide_eq_true_eq, bne_iff_ne, not_or] at hstop
        exact Run.answers_done _ ⟨hnext, .inr ((hpass.waits (by simpa using hstop.1)).resolve_right hstop.2)⟩

/-- D.INFLATE's run ends: without an error, with its buffer full or with nothing left to do. -/
theorem inflateRun_answers {x : Xfer DU} (h : x.unit.inPtr ≤ x.unit.inEnd) :
    (inflateRun x).Answers (fun _ z => x.Inflates z ∧ (z.left = 0 ∨ z.unit.Idle)) fun err z => err.classSub.1 = 4 ∧ x.Inflates z := by
  have hrefl := Xfer.Inflates.refl h
  unfold inflateRun
  split
  · next h0 =>
    split
    · exact Run.answers_done _ ⟨hrefl, .inl h0⟩
    · have hstep := DU.step_rule x.mem h
      exact Run.Answers.bind (P := fun _ z => x.Inflates z ∧ z.left = 0)
        (Run.Answers.within ⟨hstep.mono (fun _ e he => ⟨hrefl.decoded he.decoded, h0⟩) fun err e he => ⟨he.1, hrefl.decoded he.2⟩,
          DU.step_ne_stuck _ _⟩)
        fun _ z ⟨hz, hleft⟩ => Run.answers_done _ ⟨hz, .inl hleft⟩
  · refine inflateLoop_answers _ hrefl ?_
    have hlow := x.unit.mode.ahead_le
    unfold Xfer.passes
    omega

/-! ## D.INFLATE -/

/-- D.INFLATE whose checks all pass runs. -/
theorem State.exec_dInflate {s : State} (hfits : s.fits) (hfault : s.du.fault = none) (hmeet : ¬ s.outputMeets s.du.inPtr s.du.inEnd) :
    exec .dInflate s = s.endDU (inflateRun { unit := s.du, mem := s.mem, dest := s.argAddr, left := s.argLen }) := by
  refine State.guardDU_pass (firstErr_eq_none.mpr ?_)
  have hm : buffersMeet s.argAddr s.argLen s.du.inPtr s.du.inEnd = false := Bool.eq_false_iff.mpr fun h => hmeet ((s.buffersMeet_iff _ _).mp h)
  simp [State.duBufferChecks, State.bufferWraps_of_fits hfits, hfault, hm]

section
variable {σ : Type} {s : State} {x : Xfer σ} (h : x.Within s.mem s.argAddr s.argLen)
include h

/-- What a transfer has written, as the statements say it. -/
theorem Xfer.Within.written :
    x.dest - s.argAddr ≤ s.port.argLen.toNat ∧ ∀ a, ¬ s.wrote (x.dest - s.argAddr) a → x.mem.read a = s.mem.read a := by
  obtain ⟨hbegun, hroom, hout⟩ := h
  have hn : s.argLen = s.port.argLen.toNat := rfl
  have ha : s.argAddr = s.port.argAddr := rfl
  exact ⟨by omega, fun a ho => hout a fun hin => ho ⟨hin.1, by omega⟩⟩

/-- A transfer that answers with less than its buffer holds has room left. -/
theorem Xfer.Within.left_ne_zero (hshort : (BitVec.ofNat 64 (x.dest - s.argAddr)).toNat < s.port.argLen.toNat) : x.left ≠ 0 := by
  have hroom : x.dest + x.left = s.argAddr + s.port.argLen.toNat := h.room
  have hle := h.written.1
  have hlen := s.port.argLen.isLt
  rw [BitVec.toNat_ofNat, Nat.mod_eq_of_lt (by omega)] at hshort
  omega

end

/-- Settles O52: the run ends in one of the two ways, and what it delivers is counted. -/
theorem inflateResponds : Obligations.InflateResponds := by
  intro s hfits hfault hmeet hbind
  have hans := inflateRun_answers (x := { unit := s.du, mem := s.mem, dest := s.argAddr, left := s.argLen }) hbind
  have hwithin := inflateRun_within (Xfer.Within.start s.du s.mem s.argAddr s.argLen)
  rw [State.exec_dInflate hfits hfault hmeet]
  obtain ⟨hends, hne⟩ := hans
  cases hr : inflateRun { unit := s.du, mem := s.mem, dest := s.argAddr, left := s.argLen } with
  | done u x =>
    rw [hr] at hends hwithin
    obtain ⟨⟨hon, -, htotal⟩, -⟩ := hends
    obtain ⟨hn, hout⟩ := hwithin.written
    exact ⟨x.unit, x.mem, _, hn, hout, htotal, hon.nohdr, hon.bound, hon.inEnd, hon.inPtr, hon.binding, hon.fault.trans hfault, .inl rfl⟩
  | raise e x =>
    rw [hr] at hends hwithin
    obtain ⟨hclass, hon, -, htotal⟩ := hends
    obtain ⟨hn, hout⟩ := hwithin.written
    refine ⟨x.unit, x.mem, _, hn, hout, htotal, hon.nohdr, hon.bound, hon.inEnd, hon.inPtr, hon.binding, hon.fault.trans hfault,
      .inr ⟨e, hclass, ?_⟩⟩
    exact congrArg _ (State.raise_du_of_sticky (by simp [Err.sticky, hclass]) _ _)
  | stuck => exact absurd hr hne

/-- Settles O56: a response without an error is a run that ended, and with room left it ended because nothing was left to do. -/
theorem inflateShortOnlyWhenDone : Obligations.InflateShortOnlyWhenDone := by
  intro s t hinv h herr hshort
  obtain ⟨hends, -⟩ := inflateRun_answers (x := { unit := s.du, mem := s.mem, dest := s.argAddr, left := s.argLen }) hinv.bindingLow
  have hwithin := inflateRun_within (Xfer.Within.start s.du s.mem s.argAddr s.argLen)
  rcases State.guardDU_cases h with ⟨e, -, -, rfl⟩ | ⟨-, h⟩
  · exact absurd herr (State.raise_errcode_ne_zero _ _ _ _)
  · rcases State.endDU_cases h with ⟨x, hx, rfl⟩ | ⟨e, x, -, rfl⟩
    · rw [hx] at hends hwithin
      exact hends.2.resolve_left (hwithin.left_ne_zero hshort)
    · exact absurd herr (State.raise_errcode_ne_zero _ _ _ _)

end Sys2Proof.Machine

/-! PROOFS. A field of the input, read as the bits of the stream (45_huffman_decode.md R321 to R325), and the steps that take whole bytes: the
zlib header, the checksum fields and stored blocks (44_decompressor.md R285, R288 to R290, R297). -/

namespace Sys2Proof.Machine

/-! ## Fields as bits -/

theorem valueOf_append (as bs : List Bool) : valueOf (as ++ bs) = valueOf as + 2 ^ as.length * valueOf bs := by
  induction as with
  | nil => simp [valueOf, ofBits]
  | cons a as ih =>
    simp only [valueOf] at ih
    simp only [valueOf, List.cons_append, ofBits, ih, List.length_cons, pow_succ]
    ring

/-- A field of m + n bits: its lower m bits and its upper n. -/
theorem valueOf_take_add {bs : List Bool} {m : Nat} (n : Nat) (h : m ≤ bs.length) :
    valueOf (bs.take (m + n)) % 2 ^ m = valueOf (bs.take m) ∧ valueOf (bs.take (m + n)) / 2 ^ m = valueOf ((bs.drop m).take n) := by
  have hlen : (bs.take m).length = m := List.length_take_of_le h
  have hlow := valueOf_lt (bs.take m)
  rw [List.take_add, valueOf_append, hlen] at *
  exact ⟨by rw [Nat.add_mul_mod_self_left, Nat.mod_eq_of_lt hlow], by
    rw [Nat.add_mul_div_left _ _ (Nat.two_pow_pos m), Nat.div_eq_of_lt hlow, Nat.zero_add]⟩

/-- The field of n bits that is read next, and what is done with it; where it is not all there nothing is taken, and the binding is used up. -/
theorem DU.ReaderInv.field {d : DU} (h : d.ReaderInv) (m : Memory) {n : Nat} (hn : n ≤ 16) :
    ∃ e, d.SameButReader e ∧ e.ReaderInv ∧
      ((d.stream m).length < n → (e.stream m = d.stream m ∧ e.inPtr = e.inEnd) ∧ ∀ f, needBits (d.tryGet m n) f = .done false e) ∧
      (n ≤ (d.stream m).length →
        e.stream m = (d.stream m).drop n ∧ ∀ f, needBits (d.tryGet m n) f = f (valueOf ((d.stream m).take n)) e) := by
  obtain ⟨hsame, hreader, -, hval⟩ := DU.tryGet_spec d m hn h
  generalize d.tryGet m n = p at hsame hreader hval
  obtain ⟨v, e⟩ := p
  refine ⟨e, hsame, hreader, fun hlt => ?_, fun hle => ?_⟩
  · obtain ⟨-, rfl, hstream, hend⟩ := hval.resolve_left fun hall => absurd hall.1 (Nat.not_le.mpr hlt)
    exact ⟨⟨hstream, hend⟩, fun _ => rfl⟩
  · obtain ⟨-, rfl, hstream⟩ := hval.resolve_right fun hfew => absurd hfew.1 (Nat.not_lt.mpr hle)
    exact ⟨hstream, fun _ => rfl⟩

/-! ## The zlib header (R285) -/

/-- The header's two bytes, the first the more significant. -/
theorem headerOf_take {bits : List Bool} (h : 16 ≤ bits.length) :
    headerOf (valueOf (bits.take 16)) = valueOf (bits.take 8) * 256 + valueOf ((bits.drop 8).take 8) := by
  obtain ⟨hlow, hhigh⟩ := valueOf_take_add (bs := bits) (m := 8) 8 (by omega)
  rw [headerOf, ← hlow, ← hhigh]
  rfl

/-- Settles O48: the checks are made in their order on the two bytes read. -/
theorem headerModeChecksHeader : Obligations.HeaderModeChecksHeader := by
  intro d m hr hm bits h
  have hstep : d.step m = d.stepHeader m := by simp only [DU.step, hm]
  obtain ⟨e, hsame, -, hshort, hlong⟩ := hr.field m (n := 16) (le_refl _)
  refine ⟨e, hsame, fun hlt => ?_, fun hle => ?_⟩
  · obtain ⟨⟨hstream, hend⟩, hgo⟩ := hshort hlt
    exact ⟨hstep.trans (hgo _), hstream, hend⟩
  · obtain ⟨hstream, hgo⟩ := hlong hle
    have hh : headerOf (valueOf ((d.stream m).take 16)) = h := headerOf_take hle
    have hgo := hstep.trans (hgo _)
    simp only [hh] at hgo
    clear_value h
    refine ⟨hstream, fun hsum => ?_, fun hsum hmethod => ?_, fun hsum hmethod hdict => ?_, fun hsum hmethod hdict => ?_⟩
    · rw [hgo, if_pos hsum]
    · rw [hgo, if_neg (not_not_intro hsum), if_pos hmethod]
    · rw [hgo, if_neg (not_not_intro hsum), if_neg (not_not_intro hmethod), if_pos hdict]
    · rw [hgo, if_neg (not_not_intro hsum), if_neg (not_not_intro hmethod), if_neg (by omega)]
      rfl

/-! ## Checksum fields (R288, R297) -/

/-- A checksum register with the bytes of its field shifted in, the most significant first. -/
def checksumWith (bs : List Byte) (a : Word) : Word := bs.foldl (fun (a : Word) (b : Byte) => (a <<< 8) ||| b.zeroExtend 32) a

/-- How many bytes of its checksum field a DU finds in the input. -/
def DU.checksumBytes (d : DU) (m : Memory) : Nat := min (d.needed / 8) ((d.stream m).length / 8)

/-- The DU once it has read what there is of its checksum field. -/
def DU.ChecksumRead (d : DU) (m : Memory) (e : DU) : Prop :=
  e = { d with
    res := e.res, cnt := e.cnt, inPtr := e.inPtr
    readAdler := checksumWith (bytesOf (d.checksumBytes m) (d.stream m)) d.readAdler, needed := d.needed - 8 * d.checksumBytes m } ∧
  e.stream m = (d.stream m).drop (8 * d.checksumBytes m)

/-- Nothing is read where no byte is needed, or none is there. -/
theorem DU.checksumRead_of_zero {d e : DU} {m : Memory} (h : d.checksumBytes m = 0) (hs : d.SameButReader e) (hstream : e.stream m = d.stream m) :
    d.ChecksumRead m e := by
  refine ⟨?_, ?_⟩
  · rw [h]
    exact hs
  · rw [h, hstream]
    rfl

/-- One byte is read, and then the rest. -/
theorem DU.ChecksumRead.push {d e f : DU} {m : Memory} (hs : d.SameButReader e) (hstream : e.stream m = (d.stream m).drop 8)
    (hcount : d.checksumBytes m = (e.pushAdler (valueOf ((d.stream m).take 8))).checksumBytes m + 1)
    (h : (e.pushAdler (valueOf ((d.stream m).take 8))).ChecksumRead m f) : d.ChecksumRead m f := by
  obtain ⟨hf, hfs⟩ := h
  have hst : (e.pushAdler (valueOf ((d.stream m).take 8))).stream m = (d.stream m).drop 8 := hstream
  rw [hst] at hf hfs
  have hbyte : BitVec.ofNat 32 (valueOf ((d.stream m).take 8)) = (BitVec.ofNat 8 (valueOf ((d.stream m).take 8))).zeroExtend 32 := by
    have hlt := lt_of_lt_of_le (valueOf_lt ((d.stream m).take 8)) (Nat.pow_le_pow_right (by decide) (List.length_take_le _ _))
    exact BitVec.eq_of_toNat_eq (by simp; omega)
  refine ⟨?_, ?_⟩
  · rw [hcount]
    generalize (e.pushAdler (valueOf ((d.stream m).take 8))).checksumBytes m = k at hf
    obtain ⟨res, cnt, inPtr, rfl⟩ := hs.exists
    rw [hf]
    simp only [DU.pushAdler, bytesOf, checksumWith, List.foldl_cons, hbyte]
    rw [show d.needed - 8 - 8 * k = d.needed - 8 * (k + 1) by omega]
  · rw [hfs, List.drop_drop, hcount]
    congr 1
    omega

/-- The loop that reads a checksum field ends with the field complete, or with the binding used up. -/
theorem DU.ReaderInv.readAdlerField {d : DU} (h : d.ReaderInv) (m : Memory) (n : Nat) (hn : d.needed ≤ n) (hw : d.needed % 8 = 0) :
    ∃ e, d.ChecksumRead m e ∧
      (8 * d.checksumBytes m < d.needed → DU.readAdlerField m n d = .done false e ∧ e.inPtr = e.inEnd) ∧
      (8 * d.checksumBytes m = d.needed → DU.readAdlerField m n d = .done true e) := by
  induction n generalizing d with
  | zero =>
    have h0 : d.checksumBytes m = 0 := by unfold DU.checksumBytes; omega
    exact ⟨d, DU.checksumRead_of_zero h0 rfl rfl, fun hlt => by omega, fun _ => rfl⟩
  | succ n ih =>
    by_cases hneed : 0 < d.needed
    · have hloop : DU.readAdlerField m (n + 1) d = Machine.needBits (d.tryGet m 8) fun v d => DU.readAdlerField m n (d.pushAdler v) :=
        if_pos hneed
      obtain ⟨e, hsame, hreader, hshort, hlong⟩ := h.field m (n := 8) (by decide)
      rw [hloop]
      rcases Nat.lt_or_ge (d.stream m).length 8 with hlt | hle
      · obtain ⟨⟨hstream, hend⟩, hgo⟩ := hshort hlt
        have h0 : d.checksumBytes m = 0 := by unfold DU.checksumBytes; omega
        exact ⟨e, DU.checksumRead_of_zero h0 hsame hstream, fun _ => ⟨hgo _, hend⟩, fun hall => by omega⟩
      · obtain ⟨hstream, hgo⟩ := hlong hle
        have hn' : (e.pushAdler (valueOf ((d.stream m).take 8))).needed = d.needed - 8 := by rw [hsame]; rfl
        have hst : (e.pushAdler (valueOf ((d.stream m).take 8))).stream m = (d.stream m).drop 8 := hstream
        have hcount : d.checksumBytes m = (e.pushAdler (valueOf ((d.stream m).take 8))).checksumBytes m + 1 := by
          unfold DU.checksumBytes
          rw [hn', hst, List.length_drop]
          omega
        obtain ⟨f, hread, hfew, hall⟩ := ih (d := e.pushAdler (valueOf ((d.stream m).take 8))) { hreader with } (by omega) (by omega)
        rw [hn'] at hfew hall
        rw [hgo]
        exact ⟨f, DU.ChecksumRead.push hsame hstream hcount hread, fun hlt => hfew (by omega), fun heq => hall (by omega)⟩
    · have h0 : d.checksumBytes m = 0 := by unfold DU.checksumBytes; omega
      exact ⟨d, DU.checksumRead_of_zero h0 rfl rfl, fun hlt => by omega, fun _ => if_neg hneed⟩

/-- Settles O51: both modes read their field by the same loop, and CHK compares it. -/
theorem checksumFieldsAreRead : Obligations.ChecksumFieldsAreRead := by
  intro d m hr hm _ hw bits k field
  obtain ⟨e, ⟨he, hstream⟩, hfew, hall⟩ := hr.readAdlerField m d.needed (le_refl _) hw
  have hdict (hd : d.mode = .dict) : d.step m = (DU.readAdlerField m d.needed d).bind fun _ d => .done false d := by
    simp only [DU.step, hd, DU.stepDict]
  have hchk (hc : d.mode = .chk) : d.step m = (DU.readAdlerField m d.needed d).bind fun complete d =>
      if !complete then .done false d else if d.adler ≠ d.readAdler then .raise .checksum d else .done false (d.go .fin) := by
    simp only [DU.step, hc, DU.stepChk]
  have hadler : e.adler = d.adler := by rw [he]
  have hfield : e.readAdler = field := by rw [he]; rfl
  refine ⟨e, he, hstream, fun hlt => ?_, fun heq => ⟨fun hd => ?_, fun hc hsum => ?_, fun hc hsum => ?_⟩⟩
  · obtain ⟨hgo, hend⟩ := hfew hlt
    refine ⟨?_, hend⟩
    rcases hm with hd | hc
    · rw [hdict hd, hgo]; rfl
    · rw [hchk hc, hgo]; rfl
  · rw [hdict hd, hall heq]; rfl
  · rw [hchk hc, hall heq]
    exact if_neg (not_not_intro ((hadler.trans hsum).trans hfield.symm))
  · rw [hchk hc, hall heq]
    exact if_pos fun hsame => hsum (hadler.symm.trans (hsame.trans hfield))

/-! ## Stored blocks (R289, R290) -/

/-- The whole bytes at the front of the reservoir are those at the front of the input (R325). -/
theorem DU.copyReservoir_stream (m : Memory) (n : Nat) {d : DU} (hr : d.res.toNat < 2 ^ d.cnt) :
    d.stream m = bitsOfBytes (DU.copyReservoir n d).1 ++ (DU.copyReservoir n d).2.stream m := by
  induction n generalizing d with
  | zero => rfl
  | succ n ih =>
    simp only [DU.copyReservoir]
    split
    · next h8 =>
      obtain ⟨hdrop, hres⟩ := DU.drop_spec m h8 hr
      have hbyte : (d.stream m).take 8 = bitsOf 8 (d.res.truncate 8 : Byte).toNat := by
        rw [DU.stream, List.take_append_of_le_length (by rw [bitsOf_length]; exact h8), bitsOf_take h8, BitVec.toNat_setWidth, bitsOf_mod]
      rw [bitsOfBytes_cons, List.append_assoc, ← ih hres, hdrop, ← hbyte, List.take_append_drop]
    · rfl

/-- On a byte boundary BRCopy takes the bytes at the front of the input (R325). -/
theorem DU.ReaderInv.copy_stream {d : DU} (h : d.ReaderInv) (m : Memory) {n : Nat} (hn : n ≤ d.avail / 8) (ha : d.cnt % 8 = 0) :
    (d.copy m n).1 = bytesOf n (d.stream m) ∧ (d.copy m n).2.stream m = (d.stream m).drop (8 * n) := by
  have hall : d.stream m = bitsOfBytes (d.copy m n).1 ++ (d.copy m n).2.stream m := by
    have hres := DU.copyReservoir_stream m n h.reservoir
    obtain ⟨res, he, hlt, hlen⟩ := DU.copyReservoir_spec n h.reservoir
    have hb := h.binding
    unfold DU.avail at hn
    rw [hres]
    simp only [DU.copy]
    generalize DU.copyReservoir n d = r at he hlen
    obtain ⟨bytes, e⟩ := r
    simp only at he hlen ⊢
    subst he
    rw [bitsOfBytes_append, List.append_assoc]
    congr 1
    simp only [DU.stream, hlen]
    by_cases hk : n - min n (d.cnt / 8) = 0
    · rw [hk]
      rfl
    · rw [show d.cnt - 8 * min n (d.cnt / 8) = 0 by omega,
        show d.inEnd - d.inPtr = n - min n (d.cnt / 8) + (d.inEnd - (d.inPtr + (n - min n (d.cnt / 8)))) by omega,
        Memory.readBytes_add, bitsOfBytes_append]
      rfl
  obtain ⟨-, -, -, hlen⟩ := h.copy m hn
  constructor
  · conv_lhs => rw [← bytesOf_bitsOfBytes (d.copy m n).1 ((d.copy m n).2.stream m), ← hall, hlen]
  · rw [hall, List.drop_left' (by rw [bitsOfBytes_length, hlen])]

/-- No byte is left of a stored block exactly when as many are copied as it has left. -/
theorem ulen_sub_eq_zero_iff {u : BitVec 16} {n : Nat} (h : n ≤ u.toNat) : u - BitVec.ofNat 16 n = 0 ↔ n = u.toNat := by
  have hu := u.isLt
  rw [sub_eq_zero]
  constructor
  · intro he
    have := congrArg BitVec.toNat he
    rw [BitVec.toNat_ofNat] at this
    omega
  · rintro rfl
    simp

/-- The DU after the n bytes that STORED copies, which are taken from the reader e of d and put into the window (R290). -/
def DU.storedPut (d e : DU) (owin : Tbl) (n : Nat) : DU :=
  { d with
    res := e.res, cnt := e.cnt, inPtr := e.inPtr, owin := owin, wend := (d.wend + n) % 65536, filled := d.filled + n
    hist := min (d.hist + n) 65536, ulen := d.ulen - BitVec.ofNat 16 n }

/-- The bytes that STORED copies come from the front of the input and go to the window's end, one after another. -/
theorem DU.ReaderInv.stored {d : DU} (hr : d.ReaderInv) (hw : d.WindowInv) (m : Memory) (ha : d.cnt % 8 = 0) {n : Nat} (hn : d.storedCount = n) :
    ∃ e owin, (d.storedPut e owin n).pending = d.pending ++ bytesOf n (d.stream m) ∧
      (d.storedPut e owin n).stream m = (d.stream m).drop (8 * n) ∧
      d.stepStored m =
        if d.ulen - BitVec.ofNat 16 n = 0 then .done true ((d.storedPut e owin n).go .blocks)
        else .done (!(d.storedPut e owin n).needsInput) (d.storedPut e owin n) := by
  obtain ⟨hroom, havail⟩ := DU.storedCount_le (hw.filled.trans hw.hist)
  rw [hn] at hroom havail
  obtain ⟨hbytes, hstream⟩ := hr.copy_stream m havail ha
  obtain ⟨hsame, -, -, hlen⟩ := hr.copy m havail
  obtain ⟨owin, hput⟩ := DU.wputs_keeps (d.copy m n).1 (d.copy m n).2
  have hpend := DU.pending_wputs (d.copy m n).1 (d.copy m n).2 (by rw [hlen, hsame]; exact hroom)
  have hwend : (if n = 0 then d.wend else (d.wend + n) % 65536) = (d.wend + n) % 65536 := by have := hw.wend; split <;> omega
  have hhist : (if n = 0 then d.hist else min (d.hist + n) 65536) = min (d.hist + n) 65536 := by have := hw.hist; split <;> omega
  have hstep : d.stepStored m = (fun f : DU => if f.ulen = 0 then Run.done true (f.go .blocks) else .done (!f.needsInput) f)
      { (d.copy m n).1.foldl (fun d b => d.wput b.toNat) (d.copy m n).2 with
        ulen := ((d.copy m n).1.foldl (fun d b => d.wput b.toNat) (d.copy m n).2).ulen - BitVec.ofNat 16 n } := by
    unfold DU.stepStored
    rw [hn]
  rw [hput, hlen] at hpend hstep
  rw [hbytes] at hpend
  generalize (d.copy m n).2 = e at hsame hstream hpend hstep
  obtain ⟨res, cnt, inPtr, rfl⟩ := hsame.exists
  simp only [hwend, hhist] at hpend hstep
  exact ⟨{ d with res := res, cnt := cnt, inPtr := inPtr }, owin, hpend, hstream, hstep⟩

/-- LEN or NLEN is read by both modes in the same way, and each goes on with the next mode's step (R289). -/
theorem storedLengthIsRead {d : DU} (hr : d.ReaderInv) (m : Memory) (hm : d.mode = .slen1 ∨ d.mode = .slen2) :
    ∃ d' : DU, d' = { d with res := d'.res, cnt := d'.cnt, inPtr := d'.inPtr } ∧
      ((d.stream m).length < 16 → d.step m = .done false d' ∧ d'.stream m = d.stream m ∧ d'.inPtr = d'.inEnd) ∧
      (16 ≤ (d.stream m).length → d'.stream m = (d.stream m).drop 16 ∧
        (d.mode = .slen1 →
          d.step m = DU.step { d' with ulen := BitVec.ofNat 16 (valueOf ((d.stream m).take 16)), mode := .slen2 } m) ∧
        (d.mode = .slen2 → valueOf ((d.stream m).take 16) ≠ d.ulen.toNat ^^^ 0xFFFF → d.step m = .raise .storedLength d') ∧
        (d.mode = .slen2 → valueOf ((d.stream m).take 16) = d.ulen.toNat ^^^ 0xFFFF →
          d.step m = DU.step { d' with mode := .stored } m)) := by
  obtain ⟨e, hsame, -, hshort, hlong⟩ := hr.field m (n := 16) (le_refl _)
  have h1 (hm : d.mode = .slen1) : d.step m = d.stepSlen1 m := by simp only [DU.step, hm]
  have h2 (hm : d.mode = .slen2) : d.step m = d.stepSlen2 m := by simp only [DU.step, hm]
  refine ⟨e, hsame, fun hlt => ?_, fun hle => ?_⟩
  · obtain ⟨⟨hstream, hend⟩, hgo⟩ := hshort hlt
    refine ⟨?_, hstream, hend⟩
    rcases hm with hm | hm
    · exact (h1 hm).trans (hgo _)
    · exact (h2 hm).trans (hgo _)
  · obtain ⟨hstream, hgo⟩ := hlong hle
    have hulen : e.ulen = d.ulen := by rw [hsame]
    refine ⟨hstream, fun hm => (h1 hm).trans (hgo _), fun hm hne => ?_, fun hm heq => ?_⟩
    · exact (h2 hm).trans ((hgo _).trans (if_pos (by rw [hulen]; exact hne)))
    · exact (h2 hm).trans ((hgo _).trans (if_neg (by rw [hulen]; exact not_not_intro heq)))

/-- Settles O50: LEN and NLEN are fields of 16 bits, and STORED's bytes go from the input's front to the window's end. -/
theorem storedBlockCopies : Obligations.StoredBlockCopies := by
  intro d m hr hw ha bits
  refine ⟨storedLengthIsRead hr m, fun hm => ?_⟩
  intro n
  have hn : d.storedCount = n := by rw [DU.storedCount, DU.avail_eq d m]; rfl
  have hle : n ≤ d.ulen.toNat := (min_le_left _ _).trans (min_le_left _ _)
  obtain ⟨e, owin, hpend, hstream, hstep⟩ := hr.stored hw m ha hn
  have hstep : d.step m = _ := Eq.trans (by simp only [DU.step, hm]) hstep
  clear_value n
  by_cases hall : n = d.ulen.toNat
  · rw [if_pos ((ulen_sub_eq_zero_iff hle).mpr hall)] at hstep
    refine ⟨(d.storedPut e owin n).go .blocks, true, hstep, hpend, hstream, ?_, fun _ => rfl, fun hlt => by omega⟩
    rw [if_pos hall]
    rfl
  · rw [if_neg (fun h0 => hall ((ulen_sub_eq_zero_iff hle).mp h0))] at hstep
    refine ⟨d.storedPut e owin n, _, hstep, hpend, hstream, ?_, fun h => absurd h hall, fun _ => ?_⟩
    · rw [if_neg hall, ← hm]
      rfl
    · simp [DU.needsInput]

end Sys2Proof.Machine

/-! PROOFS. The symbol loop, pass by pass (44_decompressor.md R293 to R296): what each mode does with the symbol or the extra bits that it reads,
the loop's bound left out. -/

namespace Sys2Proof.Machine

/-! ## One pass -/

/-- The symbol loop's rest is the step of the DU that a pass has come to. -/
theorem DU.hufLoop_rest (m : Memory) {d e : DU} (hs : e.mode.inSymbols = true) (ha : e.avail ≤ d.avail) :
    DU.hufLoop m (4 * d.avail + 7) e = e.step m := by
  refine DU.hufLoop_eq_step hs ?_
  unfold DU.symbolPasses
  cases e.mode <;> simp only <;> omega

theorem DU.step_inSymbols (m : Memory) {d : DU} (hs : d.mode.inSymbols = true) : d.step m = DU.hufLoop m (4 * d.avail + 7 + 1) d :=
  (DU.hufLoop_eq_step hs d.symbolPasses_le).symm

theorem DU.free_lt_iff (d : DU) : d.free < 258 ↔ 65536 < d.filled + 258 := by
  unfold DU.free DWIN
  omega

/-- Without room for the longest copy the loop answers 1. -/
theorem DU.step_without_room (m : Memory) {d : DU} (hs : d.mode.inSymbols = true) (hfull : 65536 < d.filled + 258) :
    d.step m = .done true d := by
  rw [DU.step_inSymbols m hs, DU.hufLoop, if_pos (d.free_lt_iff.mpr hfull)]

section
variable {d : DU} (m : Memory) (hroom : d.filled + 258 ≤ 65536)
include hroom

/-- Mode HUF: a symbol of the literal/length code (R293). -/
theorem DU.step_huf (hm : d.mode = .huf) :
    d.step m = d.decodeThen m d.ltab.litLens fun s e =>
      if s < 256 then (e.wput s).step m
      else if s = 256 then .done true (e.go .blocks)
      else if 285 < s then .raise .lengthCode e
      else (e.takeLength s).step m := by
  rw [DU.step_inSymbols m (by rw [hm]; rfl), DU.hufLoop, if_neg (mt d.free_lt_iff.mp (by omega))]
  simp only [hm]
  refine DU.decodeThen_congr fun s e hs ha => ?_
  have hem : (e.wput s).mode.inSymbols = true := by
    show e.mode.inSymbols = true
    rw [hs, hm]
    rfl
  rw [DU.hufLoop_rest m hem (show e.avail ≤ d.avail by omega), DU.hufLoop_rest m (e := e.takeLength s) rfl (show e.avail ≤ d.avail by omega)]

/-- Mode HUF_LB: the extra bits of a length (R294). -/
theorem DU.step_hufLb (hm : d.mode = .hufLb) :
    d.step m = d.withExtra m fun v e => DU.step { e with rlen := e.rlen + v, mode := .hufD } m := by
  rw [DU.step_inSymbols m (by rw [hm]; rfl), DU.hufLoop, if_neg (mt d.free_lt_iff.mp (by omega))]
  simp only [hm]
  exact DU.withExtra_congr fun v e _ ha => DU.hufLoop_rest m rfl ha

/-- Mode HUF_D: a symbol of the distance code (R295). -/
theorem DU.step_hufD (hm : d.mode = .hufD) :
    d.step m = d.decodeThen m d.dtab.distLens fun s e => if 29 < s then .raise .distanceCode e else (e.takeDist s).step m := by
  rw [DU.step_inSymbols m (by rw [hm]; rfl), DU.hufLoop, if_neg (mt d.free_lt_iff.mp (by omega))]
  simp only [hm]
  refine DU.decodeThen_congr fun s e _ ha => ?_
  rw [DU.hufLoop_rest m (e := e.takeDist s) rfl (show e.avail ≤ d.avail by omega)]

/-- Mode HUF_DB: the extra bits of a distance, and the copy (R296). -/
theorem DU.step_hufDb (hm : d.mode = .hufDb) :
    d.step m = d.withExtra m fun v e =>
      if e.hist < e.rdist + v then .raise .distanceTooFar { e with rdist := e.rdist + v }
      else DU.step ((DU.replay (e.rdist + v) e.rlen { e with rdist := e.rdist + v }).go .huf) m := by
  rw [DU.step_inSymbols m (by rw [hm]; rfl), DU.hufLoop, if_neg (mt d.free_lt_iff.mp (by omega))]
  simp only [hm]
  refine DU.withExtra_congr fun v e _ ha => ?_
  have havail : ((DU.replay (e.rdist + v) e.rlen { e with rdist := e.rdist + v }).go .huf).avail ≤ d.avail := by
    rw [DU.replay_keeps]
    exact ha
  rw [DU.hufLoop_rest m rfl havail]

end

/-! ## What a pass reads -/

section
variable {d e : DU} {m : Memory} {lens : List Nat} (f : Nat → DU → Run DU Bool)

theorem DU.decodeThen_of_none (h : d.decode m lens = .done none e) : d.decodeThen m lens f = .done false e := by
  rw [DU.decodeThen, h]
  rfl

theorem DU.decodeThen_of_raise {err : Err} (h : d.decode m lens = .raise err e) : d.decodeThen m lens f = .raise err e := by
  rw [DU.decodeThen, h]
  rfl

theorem DU.decodeThen_of_symbol {s : Nat} (h : d.decode m lens = .done (some s) e) : d.decodeThen m lens f = f s e := by
  rw [DU.decodeThen, h]
  rfl

end

/-- The extra bits that are read next, if any are needed, and what is done with them. -/
theorem DU.ReaderInv.extra {d : DU} (h : d.ReaderInv) (m : Memory) (hn : d.needed ≤ 16) :
    ∃ e, d.SameButReader e ∧
      ((d.stream m).length < d.needed → (e.stream m = d.stream m ∧ e.inPtr = e.inEnd) ∧ ∀ f, d.withExtra m f = .done false e) ∧
      (d.needed ≤ (d.stream m).length →
        e.stream m = (d.stream m).drop d.needed ∧ ∀ f, d.withExtra m f = f (valueOf ((d.stream m).take d.needed)) e) := by
  by_cases h0 : 0 < d.needed
  · obtain ⟨e, hsame, -, hfield⟩ := h.field m hn
    have hextra (f : Nat → DU → Run DU Bool) : d.withExtra m f = needBits (d.tryGet m d.needed) f := if_pos h0
    simp only [hextra]
    exact ⟨e, hsame, hfield⟩
  · have hz : d.needed = 0 := by omega
    refine ⟨d, rfl, fun hlt => by omega, fun _ => ⟨by rw [hz]; rfl, fun f => ?_⟩⟩
    rw [hz]
    exact if_neg h0

/-! ## The loop's statements -/

/-- A literal is put into the window, and the loop goes on. -/
theorem DU.wput_literal {d e : DU} (hroom : d.filled + 258 ≤ 65536) (hs : d.SameButReader e) (b : Nat) :
    e.wput b = { e with
      owin := (e.wput b).owin, wend := (d.wend + 1) % 65536, filled := d.filled + 1, hist := min (d.hist + 1) 65536 } ∧
    (e.wput b).pending = d.pending ++ [BitVec.ofNat 8 b] := by
  obtain ⟨res, cnt, inPtr, rfl⟩ := hs.exists
  exact ⟨rfl, DU.pending_wput { d with res := res, cnt := cnt, inPtr := inPtr } b (show d.filled < 65536 by omega)⟩

/-- Settles O47: the copy by the history it leaves, and each mode of the loop by its pass. -/
theorem repeatCopiesHistory : Obligations.RepeatCopiesHistory := by
  refine ⟨fun d dist l hw h1 h2 hroom => hw.replay_spec h1 h2 hroom, fun d m hs hfull => DU.step_without_room m hs hfull,
    fun d m hroom hm _ => ?_, fun d m hroom hm => ?_, fun d m hroom hm hr hn => ?_⟩
  · have hstep := DU.step_huf m hroom hm
    refine ⟨fun e hd => hstep.trans (DU.decodeThen_of_none _ hd), fun err e hd => hstep.trans (DU.decodeThen_of_raise _ hd), fun s e hd => ?_⟩
    have hgo := hstep.trans (DU.decodeThen_of_symbol _ hd)
    refine ⟨fun hlit => ?_, fun hend => ?_, fun hlow hhigh => ?_, fun hbad => ?_⟩
    · obtain ⟨hput, hpend⟩ := DU.wput_literal hroom (DU.decode_done hd).1 s
      exact ⟨e.wput s, hput, hpend, hgo.trans (if_pos hlit)⟩
    · rw [hgo, if_neg (by omega), if_pos hend]
      rfl
    · rw [hgo, if_neg (by omega), if_neg (by omega), if_neg (by omega)]
      rfl
    · rw [hgo, if_neg (by omega), if_neg (by omega), if_pos (by omega)]
  · have hstep := DU.step_hufD m hroom hm
    refine ⟨fun e hd => hstep.trans (DU.decodeThen_of_none _ hd), fun err e hd => hstep.trans (DU.decodeThen_of_raise _ hd), fun s e hd => ?_⟩
    have hgo := hstep.trans (DU.decodeThen_of_symbol _ hd)
    exact ⟨fun hgood => hgo.trans (if_neg (Nat.not_lt.mpr hgood)), fun hbad => hgo.trans (if_pos hbad)⟩
  · intro bits len dist
    obtain ⟨e, hsame, hshort, hlong⟩ := hr.extra m hn
    have hrlen : e.rlen = d.rlen := by rw [hsame]
    have hrdist : e.rdist = d.rdist := by rw [hsame]
    have hhist : e.hist = d.hist := by rw [hsame]
    refine ⟨e, hsame, fun hlt => ?_, fun hle => ?_⟩
    · obtain ⟨⟨hstream, hend⟩, hgo⟩ := hshort hlt
      refine ⟨?_, hstream, hend⟩
      rcases hm with hm | hm
      · exact (DU.step_hufLb m hroom hm).trans (hgo _)
      · exact (DU.step_hufDb m hroom hm).trans (hgo _)
    · obtain ⟨hstream, hgo⟩ := hlong hle
      refine ⟨hstream, fun hm => ?_, fun hm hfar => ?_, fun hm hnear => ?_⟩
      · rw [DU.step_hufLb m hroom hm, hgo, hrlen]
      · rw [DU.step_hufDb m hroom hm, hgo, hhist, hrdist, if_pos hfar]
      · rw [DU.step_hufDb m hroom hm, hgo, hhist, hrdist, hrlen, if_neg (Nat.not_lt.mpr hnear)]
        rfl

end Sys2Proof.Machine

/-! PROOFS. Between blocks, and the header of a dynamic block (44_decompressor.md R286, R287, R292; 46_dynamic_header.md R340 to R348): what each
pass does with the field or the symbol it reads, the loop's bound left out. -/

namespace Sys2Proof.Machine

/-! ## Between blocks (R286, R287) -/

/-- BRAlign drops the bits of the input up to a byte boundary (45_huffman_decode.md R324). -/
theorem DU.ReaderInv.align_stream {d : DU} (h : d.ReaderInv) (m : Memory) :
    d.align.stream m = (d.stream m).drop ((d.stream m).length % 8) := by
  have hcnt : (d.stream m).length % 8 = d.cnt % 8 := by rw [DU.stream_length]; omega
  rw [hcnt]
  exact (DU.drop_spec m (Nat.mod_le _ _) h.reservoir).1

theorem DU.step_last (m : Memory) {d : DU} (hm : d.mode = .blocks) (hl : d.last = true) : d.step m = d.stepLast := by
  simp [DU.step, hm, hl]

theorem DU.step_block (m : Memory) {d : DU} (hm : d.mode = .blocks) (hl : d.last = false) : d.step m = d.stepBlock m := by
  simp [DU.step, hm, hl]

/-- The end of the stream, once every byte is delivered. -/
theorem lastBlockEndsStream {d : DU} (m : Memory) (hm : d.mode = .blocks) (hl : d.last = true) :
    (0 < d.filled → d.step m = .done false d) ∧
    (d.filled = 0 → d.nohdr = true → d.step m = .done false { d with mode := .fin }) ∧
    (d.filled = 0 → d.nohdr = false → d.ReaderInv →
      ∃ d' : DU, d' = { d with res := d'.res, cnt := d'.cnt } ∧ d'.stream m = (d.stream m).drop ((d.stream m).length % 8) ∧
        d.step m = .done true { d' with needed := 32, mode := .chk }) := by
  rw [DU.step_last m hm hl, DU.stepLast]
  refine ⟨fun hheld => if_pos hheld, fun h0 hraw => ?_, fun h0 hframed hr => ⟨d.align, rfl, hr.align_stream m, ?_⟩⟩
  · rw [if_neg (by omega), if_pos hraw]
    rfl
  · rw [if_neg (by omega), if_neg (by simp [hframed])]

/-- The three bits of a block header: BFINAL, and BTYPE above it. -/
theorem blockHeader_fields {bits : List Bool} (h : 3 ≤ bits.length) :
    (valueOf (bits.take 3) % 2 == 1) = bits.getD 0 false ∧ valueOf (bits.take 3) / 2 = valueOf ((bits.drop 1).take 2) := by
  obtain ⟨hlow, hhigh⟩ := valueOf_take_add (bs := bits) (m := 1) 2 (by omega)
  refine ⟨?_, hhigh⟩
  cases bits with
  | nil => simp at h
  | cons b bs => rw [show valueOf ((b :: bs).take 3) % 2 = b.toNat from hlow]; cases b <;> rfl

/-- A block header is read, BFINAL before BTYPE is checked. -/
theorem blockHeaderIsRead {d : DU} (m : Memory) (hr : d.ReaderInv) (hm : d.mode = .blocks) (hl : d.last = false) :
    let bits := d.stream m
    let btype := valueOf ((bits.drop 1).take 2)
    ∃ d' : DU, d' = { d with res := d'.res, cnt := d'.cnt, inPtr := d'.inPtr } ∧
      (bits.length < 3 → d.step m = .done false d' ∧ d'.stream m = bits ∧ d'.inPtr = d'.inEnd) ∧
      (3 ≤ bits.length →
        (btype = 0 → d.step m = .done true { d' with last := bits.getD 0 false, mode := .slen1 } ∧
          d'.stream m = bits.drop (3 + (bits.length - 3) % 8)) ∧
        (btype = 1 → d.step m = .done true { d' with last := bits.getD 0 false, ltab := .fixed, dtab := .fixed, mode := .huf } ∧
          d'.stream m = bits.drop 3) ∧
        (btype = 2 →
          d.step m =
            .done true { d' with
              last := bits.getD 0 false, mode := .dyn
              dh := { d.dh with
                phase := .hlit, i := 0, index := 0, metaLen := List.replicate 19 0, cl := List.replicate 320 0 } } ∧
          d'.stream m = bits.drop 3) ∧
        (btype = 3 → d.step m = .raise .blockType { d' with last := bits.getD 0 false } ∧ d'.stream m = bits.drop 3)) := by
  intro bits btype
  obtain ⟨e, hsame, hreader, hshort, hlong⟩ := hr.field m (n := 3) (by decide)
  rw [DU.step_block m hm hl]
  rcases Nat.lt_or_ge bits.length 3 with hlt | hle
  · obtain ⟨⟨hstream, hend⟩, hgo⟩ := hshort hlt
    exact ⟨e, hsame, fun _ => ⟨hgo _, hstream, hend⟩, fun hle => absurd hle (Nat.not_le.mpr hlt)⟩
  · obtain ⟨hstream, hgo⟩ := hlong hle
    obtain ⟨hfinal, htype⟩ := blockHeader_fields hle
    have hgo : d.stepBlock m =
        if btype = 0 then .done true (({ e with last := bits.getD 0 false } : DU).align.go .slen1)
        else if btype = 1 then .done true { e with last := bits.getD 0 false, ltab := .fixed, dtab := .fixed, mode := .huf }
        else if btype = 2 then .done true (({ e with last := bits.getD 0 false } : DU).dhInit.go .dyn)
        else .raise .blockType { e with last := bits.getD 0 false } := by
      rw [← hfinal, show btype = _ from htype.symm]
      exact hgo _
    have hshort (e' : DU) : bits.length < 3 → d.stepBlock m = .done false e' ∧ e'.stream m = bits ∧ e'.inPtr = e'.inEnd := fun hlt => by omega
    clear_value btype
    by_cases h0 : btype = 0
    · subst h0
      refine ⟨e.align, ?_, hshort _, fun _ => ⟨fun _ => ⟨hgo, ?_⟩, nofun, nofun, nofun⟩⟩
      · obtain ⟨res, cnt, inPtr, rfl⟩ := hsame.exists
        rfl
      · rw [hreader.align_stream m, hstream, List.drop_drop, List.length_drop]
    · have hdh : e.dh = d.dh := by rw [hsame]
      rw [if_neg h0] at hgo
      refine ⟨e, hsame, hshort _, fun _ => ⟨fun h => absurd h h0, fun h1 => ⟨?_, hstream⟩, fun h2 => ⟨?_, hstream⟩, fun h3 => ⟨?_, hstream⟩⟩⟩
      · rw [hgo, if_pos h1]
      · rw [hgo, if_neg (by omega), if_pos h2, ← hdh]
        rfl
      · rw [hgo, if_neg (by omega), if_neg (by omega)]

/-! ## One pass of the header's loop (46_dynamic_header.md R341) -/

/-- What mode DYN does after the header's loop: a complete header's codes are taken (R292). -/
def DU.afterHeader (m : Memory) (complete : Bool) (d : DU) : Run DU Bool := if complete then d.takeCodes.stepHuf m else .done false d

/-- The header's loop's rest is the step of the DU that a pass has come to. -/
theorem DU.dhLoop_rest (m : Memory) {d e : DU} (hm : e.mode = .dyn) (ha : e.avail ≤ d.avail) :
    (DU.dhLoop m (d.avail + 7) e).bind (DU.afterHeader m) = e.step m := by
  refine DU.dhLoop_eq_step hm ?_
  unfold DU.headerPasses
  cases e.dh.phase <;> simp only <;> omega

theorem DU.step_dyn (m : Memory) {d : DU} (hm : d.mode = .dyn) : d.step m = (DU.dhLoop m (d.avail + 7 + 1) d).bind (DU.afterHeader m) :=
  (DU.dhLoop_eq_step hm d.headerPasses_le).symm

theorem needBits_bind (m : Memory) (r : Option Nat × DU) (f : Nat → DU → Run DU Bool) :
    (needBits r f).bind (DU.afterHeader m) = needBits r fun v e => (f v e).bind (DU.afterHeader m) := by
  obtain ⟨v, e⟩ := r
  cases v <;> rfl

theorem DU.decodeThen_bind (m : Memory) (d : DU) (lens : List Nat) (f : Nat → DU → Run DU Bool) :
    (d.decodeThen m lens f).bind (DU.afterHeader m) = d.decodeThen m lens fun s e => (f s e).bind (DU.afterHeader m) := by
  unfold DU.decodeThen
  cases d.decode m lens with
  | done s e => exact needBits_bind m (s, e) f
  | raise err e => rfl
  | stuck => rfl

/-- A pass that reads a field and goes on in the header, whatever the field. -/
theorem DU.headerField_rest (m : Memory) {d : DU} (hm : d.mode = .dyn) {n : Nat} {g : Nat → DU → DU}
    (hmode : ∀ v e, (g v e).mode = e.mode) (havail : ∀ v e, (g v e).avail = e.avail) :
    (needBits (d.tryGet m n) fun v e => DU.dhLoop m (d.avail + 7) (g v e)).bind (DU.afterHeader m) =
      needBits (d.tryGet m n) fun v e => (g v e).step m := by
  rw [needBits_bind]
  refine needBits_congr fun v e hs ha => DU.dhLoop_rest m ?_ ?_
  · rw [hmode, hs]
    exact hm
  · rw [havail]
    omega

section
variable {d : DU} (m : Memory) (hm : d.mode = .dyn)
include hm

/-- Phase HLIT (R342). -/
theorem DU.step_hlit (hp : d.dh.phase = .hlit) : d.step m = needBits (d.tryGet m 5) fun v e => (e.dhHlit v).step m := by
  rw [DU.step_dyn m hm, DU.dhLoop]
  simp only [hp]
  exact DU.headerField_rest m hm (fun _ _ => rfl) fun _ _ => rfl

/-- Phase HDIST (R343). -/
theorem DU.step_hdist (hp : d.dh.phase = .hdist) : d.step m = needBits (d.tryGet m 5) fun v e => (e.dhHdist v).step m := by
  rw [DU.step_dyn m hm, DU.dhLoop]
  simp only [hp]
  exact DU.headerField_rest m hm (fun _ _ => rfl) fun _ _ => rfl

/-- Phase CLEN with lengths to read (R345). -/
theorem DU.step_clen (hp : d.dh.phase = .clen) (hi : d.dh.i < d.dh.hclen) :
    d.step m = needBits (d.tryGet m 3) fun v e => (e.dhClen v).step m := by
  rw [DU.step_dyn m hm, DU.dhLoop]
  simp only [hp, if_pos hi]
  exact DU.headerField_rest m hm (fun _ _ => rfl) fun _ _ => rfl

/-- Phase HCLEN (R344). -/
theorem DU.step_hclen (hp : d.dh.phase = .hclen) :
    d.step m = needBits (d.tryGet m 4) fun v e =>
      d.dh.hclenErr.elim (DU.step { e with dh := { e.dh with hclen := v + 4, phase := .clen } } m)
        fun err => .raise err { e with dh := { e.dh with hclen := v + 4 } } := by
  rw [DU.step_dyn m hm, DU.dhLoop]
  simp only [hp]
  rw [needBits_bind]
  refine needBits_congr fun v e hs ha => ?_
  have hdh : e.dh = d.dh := by rw [hs]
  have herr : DHState.hclenErr { e.dh with hclen := v + 4 } = d.dh.hclenErr := by rw [hdh]; rfl
  have hmode : e.mode = .dyn := by rw [hs]; exact hm
  cases hc : d.dh.hclenErr with
  | none =>
    simp only [herr.trans hc]
    exact DU.dhLoop_rest m (e := { e with dh := { e.dh with hclen := v + 4, phase := .clen } }) hmode (show e.avail ≤ d.avail by omega)
  | some err =>
    simp only [herr.trans hc]
    rfl

/-- Phase REP (R347). -/
theorem DU.step_rep (hp : d.dh.phase = .rep) :
    d.step m = needBits (d.tryGet m d.dh.rsym.extraBase.1) fun v e =>
      if d.dh.total < d.dh.index + (d.dh.rsym.extraBase.2 + v) then .raise .repeatOverflow e
      else (e.dhFill (d.dh.rsym.extraBase.2 + v)).step m := by
  rw [DU.step_dyn m hm, DU.dhLoop]
  simp only [hp]
  rw [needBits_bind]
  refine needBits_congr fun v e hs ha => ?_
  have hdh : e.dh = d.dh := by rw [hs]
  have hmode : e.mode = .dyn := by rw [hs]; exact hm
  rw [hdh]
  split
  · rfl
  · exact DU.dhLoop_rest m (e := e.dhFill (d.dh.rsym.extraBase.2 + v)) hmode (show e.avail ≤ d.avail by omega)

/-- The end of phase CLEN (R345). -/
theorem DU.step_clen_end (hp : d.dh.phase = .clen) (hi : d.dh.hclen ≤ d.dh.i) :
    d.step m = if oversubscribed d.dh.metaLen then .raise .oversubscribed d else (d.dhGo .sym).step m := by
  rw [DU.step_dyn m hm, DU.dhLoop]
  simp only [hp, if_neg (Nat.not_lt.mpr hi)]
  split
  · rfl
  · exact DU.dhLoop_rest m (e := d.dhGo .sym) hm (le_refl _)

/-- Phase SYM with lengths to read (R346). -/
theorem DU.step_sym (hp : d.dh.phase = .sym) (hi : d.dh.index < d.dh.total) :
    d.step m = d.decodeThen m d.dh.metaLen fun s e =>
      if s < 16 then (e.dhLength s).step m
      else if s = 16 ∧ d.dh.index = 0 then .raise .repeatNoPrevious e
      else (e.dhRepeat s).step m := by
  rw [DU.step_dyn m hm, DU.dhLoop]
  simp only [hp, if_pos hi]
  rw [DU.decodeThen_bind]
  refine DU.decodeThen_congr fun s e hs ha => ?_
  have hdh : e.dh = d.dh := by rw [hs]
  have hmode : e.mode = .dyn := by rw [hs]; exact hm
  have havail : e.avail ≤ d.avail := by omega
  rw [← DU.dhLoop_rest m (e := e.dhLength s) hmode havail, ← DU.dhLoop_rest m (e := e.dhRepeat s) hmode havail, hdh]
  split
  · rfl
  · split <;> rfl

/-- The end of the header (R348). -/
theorem DU.step_sym_end (hp : d.dh.phase = .sym) (hi : d.dh.total ≤ d.dh.index) :
    d.step m = d.dh.headerErr.elim ((d.dhGo .done).takeCodes.step m) fun err => .raise err d := by
  rw [DU.step_dyn m hm, DU.dhLoop]
  simp only [hp, if_neg (Nat.not_lt.mpr hi)]
  cases d.dh.headerErr <;> rfl

end

end Sys2Proof.Machine

/-! PROOFS. The header of a dynamic block as the statements have it (44_decompressor.md R292; 46_dynamic_header.md R342 to R348): each field by the
bits it takes, and a run of repeated lengths as a list. -/

namespace Sys2Proof.Machine

/-- A run of equal lengths, stored inside the array (R347). -/
theorem setRun_eq (v n : Nat) {l : List Nat} {i : Nat} (h : i + n ≤ l.length) :
    setRun v n l i = l.take i ++ List.replicate n v ++ l.drop (i + n) := by
  induction n generalizing l i with
  | zero => simp [setRun]
  | succ n ih =>
    have htake : (l.set i v).take (i + 1) = l.take i ++ [v] := by
      rw [List.take_add_one, List.take_set_of_le (le_refl _), List.getElem?_set_self (by omega)]
      rfl
    rw [setRun, ih (by rw [List.length_set]; omega), htake, List.drop_set_of_lt (by omega), List.replicate_succ,
      show i + 1 + n = i + (n + 1) by omega]
    simp

/-- A field of the header, read and used. -/
theorem DU.ReaderInv.headerField {d : DU} (h : d.ReaderInv) (m : Memory) {n : Nat} (hn : n ≤ 16) {f : Nat → DU → Run DU Bool}
    (hstep : d.step m = needBits (d.tryGet m n) f) {w : Nat} (hw : w = n) :
    ∃ e, d.SameButReader e ∧ e.dh = d.dh ∧
      ((d.stream m).length < w → d.step m = .done false e ∧ e.stream m = d.stream m ∧ e.inPtr = e.inEnd) ∧
      (w ≤ (d.stream m).length → e.stream m = (d.stream m).drop w ∧ d.step m = f (valueOf ((d.stream m).take w)) e) := by
  subst hw
  obtain ⟨e, hsame, -, hshort, hlong⟩ := h.field m hn
  refine ⟨e, hsame, by rw [hsame], fun hlt => ?_, fun hle => ?_⟩
  · obtain ⟨hkeep, hgo⟩ := hshort hlt
    exact ⟨hstep.trans (hgo f), hkeep⟩
  · obtain ⟨hstream, hgo⟩ := hlong hle
    exact ⟨hstream, hstep.trans (hgo f)⟩

/-- The extra bits and the base of a repeat symbol (R347). -/
theorem RepeatSym.extraBase_eq (r : RepeatSym) :
    r.extraBase = (if r = .prev then 2 else if r = .zerosShort then 3 else 7, if r = .zerosLong then 11 else 3) := by
  cases r <;> rfl

/-- The length that is repeated (R347). -/
theorem DHState.repeated_eq (h : DHState) : h.repeated = if h.rsym = .prev then h.cl.getD (h.index - 1) 0 else 0 := by
  unfold DHState.repeated
  cases h.rsym <;> rfl

/-- The errors of HCLEN, HLIT's first (R344). -/
theorem DHState.hclenErr_eq (h : DHState) :
    h.hclenErr = if 286 < h.hlit then some .hlitRange else if 30 < h.hdist then some .hdistRange else none := by
  simp [DHState.hclenErr, firstErr]

/-- The errors of a complete header, in their order (R348). -/
theorem DHState.headerErr_eq (h : DHState) :
    h.headerErr =
      if h.cl.getD 256 0 = 0 then some .noEndOfBlock
      else if oversubscribed (h.cl.take h.hlit) = true ∨ oversubscribed ((h.cl.drop h.hlit).take h.hdist) = true then some .oversubscribed
      else none := by
  rw [ite_or, DHState.headerErr, firstErr, firstErr, firstErr, firstErr]
  exact if_congr (by rw [beq_iff_eq]) rfl rfl

/-- Each phase with a field: what is read, and what is done with it (R342 to R345, R347). -/
theorem headerFieldIsRead {d : DU} (m : Memory) (hr : d.ReaderInv) (hm : d.mode = .dyn) (hfit : d.dh.hlit + d.dh.hdist ≤ d.dh.cl.length)
    (hp : d.dh.phase = .hlit ∨ d.dh.phase = .hdist ∨ d.dh.phase = .hclen ∨ (d.dh.phase = .clen ∧ d.dh.i < d.dh.hclen) ∨ d.dh.phase = .rep) :
    let h := d.dh
    let bits := d.stream m
    let width :=
      if h.phase = .hlit ∨ h.phase = .hdist then 5
      else if h.phase = .hclen then 4
      else if h.phase = .clen then 3
      else if h.rsym = .prev then 2
      else if h.rsym = .zerosShort then 3
      else 7
    let v := valueOf (bits.take width)
    let count := (if h.rsym = .zerosLong then 11 else 3) + v
    let val := if h.rsym = .prev then h.cl.getD (h.index - 1) 0 else 0
    ∃ d' : DU, d' = { d with res := d'.res, cnt := d'.cnt, inPtr := d'.inPtr } ∧
      (bits.length < width → d.step m = .done false d' ∧ d'.stream m = bits ∧ d'.inPtr = d'.inEnd) ∧
      (width ≤ bits.length → d'.stream m = bits.drop width ∧
        (h.phase = .hlit → d.step m = DU.step { d' with dh := { h with hlit := v + 257, phase := .hdist } } m) ∧
        (h.phase = .hdist → d.step m = DU.step { d' with dh := { h with hdist := v + 1, phase := .hclen } } m) ∧
        (h.phase = .hclen → 286 < h.hlit → d.step m = .raise .hlitRange { d' with dh := { h with hclen := v + 4 } }) ∧
        (h.phase = .hclen → h.hlit ≤ 286 → 30 < h.hdist → d.step m = .raise .hdistRange { d' with dh := { h with hclen := v + 4 } }) ∧
        (h.phase = .hclen → h.hlit ≤ 286 → h.hdist ≤ 30 →
          d.step m = DU.step { d' with dh := { h with hclen := v + 4, phase := .clen } } m) ∧
        (h.phase = .clen →
          d.step m = DU.step { d' with dh := { h with metaLen := h.metaLen.set (blOrder.getD h.i 0) v, i := h.i + 1 } } m) ∧
        (h.phase = .rep → h.hlit + h.hdist < h.index + count → d.step m = .raise .repeatOverflow d') ∧
        (h.phase = .rep → h.index + count ≤ h.hlit + h.hdist →
          d.step m =
            DU.step { d' with dh := { h with
              cl := h.cl.take h.index ++ List.replicate count val ++ h.cl.drop (h.index + count)
              index := h.index + count, phase := .sym } } m)) := by
  intro h bits width v count val
  have hother {k : DHPhase} {p : Prop} (hk : d.dh.phase = k) (k' : DHPhase) (hne : k ≠ k' := by decide) : h.phase = k' → p := fun hk' =>
    absurd (hk.symm.trans hk') hne
  rcases hp with hp | hp | hp | ⟨hp, hi⟩ | hp
  · have hwidth : width = 5 := if_pos (.inl hp)
    obtain ⟨e, hsame, hdh, hshort, hlong⟩ := hr.headerField m (by decide) (DU.step_hlit m hm hp) hwidth
    refine ⟨e, hsame, hshort, fun hle => ?_⟩
    obtain ⟨hstream, hgo⟩ := hlong hle
    refine ⟨hstream, fun _ => ?_, hother hp _, hother hp _, hother hp _, hother hp _, hother hp _, hother hp _, hother hp _⟩
    rw [hgo, DU.dhHlit, hdh]
  · have hwidth : width = 5 := if_pos (.inr hp)
    obtain ⟨e, hsame, hdh, hshort, hlong⟩ := hr.headerField m (by decide) (DU.step_hdist m hm hp) hwidth
    refine ⟨e, hsame, hshort, fun hle => ?_⟩
    obtain ⟨hstream, hgo⟩ := hlong hle
    refine ⟨hstream, hother hp _, fun _ => ?_, hother hp _, hother hp _, hother hp _, hother hp _, hother hp _, hother hp _⟩
    rw [hgo, DU.dhHdist, hdh]
  · have hwidth : width = 4 := by simp [width, h, hp]
    obtain ⟨e, hsame, hdh, hshort, hlong⟩ := hr.headerField m (by decide) (DU.step_hclen m hm hp) hwidth
    refine ⟨e, hsame, hshort, fun hle => ?_⟩
    obtain ⟨hstream, hgo⟩ := hlong hle
    rw [DHState.hclenErr_eq, hdh] at hgo
    refine ⟨hstream, hother hp _, hother hp _, fun _ hlit => ?_, fun _ hlit hdist => ?_, fun _ hlit hdist => ?_, hother hp _, hother hp _,
      hother hp _⟩
    · rw [hgo, if_pos hlit]; rfl
    · rw [hgo, if_neg (Nat.not_lt.mpr hlit), if_pos hdist]; rfl
    · rw [hgo, if_neg (Nat.not_lt.mpr hlit), if_neg (Nat.not_lt.mpr hdist)]; rfl
  · have hwidth : width = 3 := by simp [width, h, hp]
    obtain ⟨e, hsame, hdh, hshort, hlong⟩ := hr.headerField m (by decide) (DU.step_clen m hm hp hi) hwidth
    refine ⟨e, hsame, hshort, fun hle => ?_⟩
    obtain ⟨hstream, hgo⟩ := hlong hle
    refine ⟨hstream, hother hp _, hother hp _, hother hp _, hother hp _, hother hp _, fun _ => ?_, hother hp _, hother hp _⟩
    rw [hgo, DU.dhClen, hdh]
  · have hwidth : width = d.dh.rsym.extraBase.1 := by simp [width, h, hp, RepeatSym.extraBase_eq]
    have hbits : d.dh.rsym.extraBase.1 ≤ 16 := by cases d.dh.rsym <;> decide
    have hcount : d.dh.rsym.extraBase.2 + v = count := by rw [RepeatSym.extraBase_eq]
    obtain ⟨e, hsame, hdh, hshort, hlong⟩ := hr.headerField m hbits (DU.step_rep m hm hp) hwidth
    refine ⟨e, hsame, hshort, fun hle => ?_⟩
    obtain ⟨hstream, hgo⟩ := hlong hle
    rw [show d.dh.rsym.extraBase.2 + valueOf ((d.stream m).take width) = count from hcount] at hgo
    refine ⟨hstream, hother hp _, hother hp _, hother hp _, hother hp _, hother hp _, hother hp _, fun _ hover => ?_, fun _ hin => ?_⟩
    · exact hgo.trans (if_pos hover)
    · rw [hgo, if_neg (show ¬ d.dh.total < _ from Nat.not_lt.mpr hin), DU.dhFill, hdh, setRun_eq _ _ (Nat.le_trans hin hfit), DHState.repeated_eq]

/-- The end of the code length code's lengths (R345). -/
theorem codeLengthCodeIsChecked {d : DU} (m : Memory) (hm : d.mode = .dyn) (hp : d.dh.phase = .clen) (hi : d.dh.hclen ≤ d.dh.i) :
    (oversubscribed d.dh.metaLen = true → d.step m = .raise .oversubscribed d) ∧
    (oversubscribed d.dh.metaLen = false → d.step m = DU.step { d with dh := { d.dh with phase := .sym } } m) := by
  rw [DU.step_clen_end m hm hp hi]
  exact ⟨fun hover => if_pos hover, fun hok => if_neg (by simp [hok])⟩

/-- A code length, or a repeat symbol, is decoded (R346). -/
theorem codeLengthIsDecoded {d : DU} (m : Memory) (hm : d.mode = .dyn) (hp : d.dh.phase = .sym) (hi : d.dh.index < d.dh.hlit + d.dh.hdist) :
    let h := d.dh
    (∀ d', d.decode m h.metaLen = .done none d' → d.step m = .done false d') ∧
    (∀ e d', d.decode m h.metaLen = .raise e d' → d.step m = .raise e d') ∧
    (∀ s d', d.decode m h.metaLen = .done (some s) d' →
      (s < 16 → d.step m = DU.step { d' with dh := { h with cl := h.cl.set h.index s, index := h.index + 1 } } m) ∧
      (s = 16 → h.index = 0 → d.step m = .raise .repeatNoPrevious d') ∧
      (s = 16 → 0 < h.index → d.step m = DU.step { d' with dh := { h with rsym := .prev, phase := .rep } } m) ∧
      (s = 17 → d.step m = DU.step { d' with dh := { h with rsym := .zerosShort, phase := .rep } } m) ∧
      (s = 18 → d.step m = DU.step { d' with dh := { h with rsym := .zerosLong, phase := .rep } } m)) := by
  intro h
  have hstep := DU.step_sym m hm hp hi
  refine ⟨fun e hd => hstep.trans (DU.decodeThen_of_none _ hd), fun err e hd => hstep.trans (DU.decodeThen_of_raise _ hd), fun s e hd => ?_⟩
  have hdh : e.dh = h := by rw [(DU.decode_done hd).1]
  have hgo := hstep.trans (DU.decodeThen_of_symbol _ hd)
  have hrepeat (hs : 16 ≤ s) (hprev : ¬ (s = 16 ∧ h.index = 0)) : d.step m = (e.dhRepeat s).step m := by
    rw [hgo, if_neg (Nat.not_lt.mpr hs), if_neg hprev]
  rw [DU.dhRepeat, hdh] at hrepeat
  refine ⟨fun hs => ?_, fun hs h0 => ?_, fun hs h0 => ?_, fun hs => ?_, fun hs => ?_⟩
  · rw [hgo, if_pos hs, DU.dhLength, hdh]
  · rw [hgo, if_neg (by omega), if_pos ⟨hs, h0⟩]
  · subst hs
    exact hrepeat (by decide) (by omega)
  · subst hs
    exact hrepeat (by decide) (by omega)
  · subst hs
    exact hrepeat (by decide) (by omega)

/-- The complete header is checked, and its codes are taken (R292, R348). -/
theorem dynamicCodesAreTaken {d : DU} (m : Memory) (hm : d.mode = .dyn) (hp : d.dh.phase = .sym) (hi : d.dh.hlit + d.dh.hdist ≤ d.dh.index) :
    let h := d.dh
    let lit := h.cl.take h.hlit
    let dist := (h.cl.drop h.hlit).take h.hdist
    (h.cl.getD 256 0 = 0 → d.step m = .raise .noEndOfBlock d) ∧
    (h.cl.getD 256 0 ≠ 0 → oversubscribed lit = true ∨ oversubscribed dist = true → d.step m = .raise .oversubscribed d) ∧
    (h.cl.getD 256 0 ≠ 0 → oversubscribed lit = false → oversubscribed dist = false →
      d.step m = DU.step { d with ltab := .lens lit, dtab := .lens dist, mode := .huf, dh := { h with phase := .done } } m) := by
  intro h lit dist
  have hgo := DU.step_sym_end m hm hp hi
  rw [DHState.headerErr_eq] at hgo
  refine ⟨fun hend => ?_, fun hend hover => ?_, fun hend hlit hdist => ?_⟩
  · rw [hgo, if_pos hend]
    rfl
  · rw [hgo, if_neg hend, if_pos hover]
    rfl
  · rw [hgo, if_neg hend, if_neg (not_or.mpr ⟨ne_true_of_eq_false hlit, ne_true_of_eq_false hdist⟩)]
    rfl

/-- Settles O49: the modes BLOCKS and DYN one after the other, and the header's phases in their order. -/
theorem blockHeaderChoosesMode : Obligations.BlockHeaderChoosesMode :=
  ⟨fun _ m => lastBlockEndsStream m, fun _ m => blockHeaderIsRead m, fun _ m => headerFieldIsRead m, fun _ m => codeLengthCodeIsChecked m,
    fun _ m => codeLengthIsDecoded m, fun _ m => dynamicCodesAreTaken m⟩

end Sys2Proof.Machine

/-! PROOFS. The cases of D.INFLATE that make no decode step, or just one (44_decompressor.md R283, R284, R298): the window holds enough, nothing is
left to do, or there is no room. -/

namespace Sys2Proof.Machine

/-! ## What CopyOut delivers (R291) -/

/-- The bytes CopyOut takes are the first of the undelivered ones. -/
theorem DU.oldest_eq_take {d : DU} (h : d.filled ≤ 65536) {n : Nat} (hn : n ≤ d.filled) : d.oldest n = d.pending.take n := by
  rw [DU.oldest, DU.pending, ← List.map_take, List.take_range, Nat.min_eq_left hn]
  refine List.map_congr_left fun k _ => ?_
  rw [DU.back, DWIN, show ((d.wend + (65536 - d.filled % 65536)) % 65536 + k) % 65536 = (d.wend + 65536 - d.filled + k) % 65536 by omega]

/-- With nothing undelivered, nothing is delivered. -/
theorem Xfer.deliver_of_empty {x : Xfer DU} (h : x.unit.filled = 0) : x.deliver = x := by
  have hcopy : x.copyOut = x := by
    have hcount : min x.left x.unit.filled = 0 := by rw [h, Nat.min_zero]
    have hold : x.unit.oldest 0 = [] := rfl
    simp only [Xfer.copyOut, hcount, hold, adler32_nil, Nat.sub_zero, Nat.add_zero, BitVec.add_zero]
    rfl
  unfold Xfer.deliver
  split
  · rfl
  · exact hcopy

/-- The loop of D.INFLATE, where what is delivered first fills the buffer. -/
theorem inflateLoop_of_full (fuel : Nat) {x : Xfer DU} (hm : x.unit.mode ≠ .chk) (hleft : x.left ≤ x.unit.filled) :
    inflateLoop (fuel + 1) x = .done () x.copyOut := by
  have hdeliver : x.deliver = x.copyOut := if_neg hm
  have hfull : x.copyOut.left = 0 := by
    show x.left - min x.left x.unit.filled = 0
    omega
  rw [inflateLoop, hdeliver]
  exact if_pos ⟨hm, hfull⟩

/-- Settles O53: the loop's first delivery fills the buffer, before any decode step. -/
theorem inflateDeliversHeldBytes : Obligations.InflateDeliversHeldBytes := by
  intro s hfits hwf hfault hmeet hmode hwin hpos hheld n
  have hlimit : s.du.filled ≤ 65536 := hwin.filled.trans hwin.hist
  have hold : s.du.oldest n = s.du.pending.take n := DU.oldest_eq_take hlimit hheld
  have hlen : (s.du.pending.take n).length = n := by rw [List.length_take, DU.pending_length, Nat.min_eq_left hheld]
  have hcount : min s.argLen s.du.filled = n := Nat.min_eq_left hheld
  refine ⟨s.mem.writeBytes s.argAddr (s.du.pending.take n), fun k hk => ?_, fun a ha => ?_, ?_⟩
  · rw [show s.port.argAddr = s.argAddr from rfl, Memory.read_writeBytes_in hwf _ _ (by rw [hlen]; exact hk), List.getD_eq_getElem?_getD,
      List.getElem?_take_of_lt hk, ← List.getD_eq_getElem?_getD]
  · refine Memory.read_writeBytes_of_out _ _ _ ?_
    rw [hlen]
    exact ha
  · rw [State.exec_dInflate hfits hfault hmeet, inflateRun, if_neg (show ¬ s.argLen = 0 from Nat.ne_of_gt hpos),
      inflateLoop_of_full _ hmode hheld]
    simp only [State.endDU, Xfer.copyOut, hcount, hold, Nat.add_sub_cancel_left]
    rfl

/-- A run that ends with nothing delivered. -/
theorem State.endDU_of_undelivered (s : State) (d : DU) (left : Nat) :
    s.endDU (.done () { unit := d, mem := s.mem, dest := s.argAddr, left := left }) = .next ({ s with du := d }.ok 0) := by
  simp only [State.endDU, Nat.sub_self]
  rfl

/-! ## Nothing to do (R284 to R288, R298) -/

/-- Nothing is read where the bound input is used up and too few bits are held. -/
theorem DU.tryGet_of_exhausted {d : DU} (m : Memory) {n : Nat} (hend : d.inPtr = d.inEnd) (hcnt : d.cnt < n) : d.tryGet m n = (none, d) := by
  have hrefill (fuel : Nat) : DU.refill m n fuel d = d := by
    cases fuel with
    | zero => rfl
    | succ fuel => simp [DU.refill, hend]
  simp [DU.tryGet, DU.peek, hrefill, hcnt]

/-- A step that waits, or of a stream that is finished, answers 0 and changes nothing. -/
theorem DU.step_of_nothing {d : DU} (m : Memory)
    (h : d.mode = .fin ∨ (d.mode = .dict ∧ d.needed = 0) ∨ (d.mode = .header ∧ d.inPtr = d.inEnd ∧ d.cnt < 16) ∨
      (d.mode = .blocks ∧ d.last = false ∧ d.inPtr = d.inEnd ∧ d.cnt < 3)) : d.step m = .done false d := by
  rcases h with hm | ⟨hm, h0⟩ | ⟨hm, hend, hcnt⟩ | ⟨hm, hl, hend, hcnt⟩
  · rw [DU.step, hm]
  · simp only [DU.step, hm, DU.stepDict, h0]
    rfl
  · simp only [DU.step, hm, DU.stepHeader, DU.tryGet_of_exhausted m hend hcnt]
    rfl
  · rw [DU.step_block m hm hl, DU.stepBlock, DU.tryGet_of_exhausted m hend hcnt]
    rfl

/-- A run with nothing undelivered and a step that answers 0 and changes nothing. -/
theorem inflateRun_of_nothing {x : Xfer DU} (h0 : x.unit.filled = 0) (hstep : x.unit.step x.mem = .done false x.unit) :
    inflateRun x = .done () x := by
  have hx : x.step = .done false x := by
    rw [Xfer.step, hstep]
    rfl
  unfold inflateRun
  split
  · split
    · rfl
    · rw [hx]
      rfl
  · next hleft =>
    rw [inflateLoop, Xfer.deliver_of_empty h0]
    simp only [hleft, and_false, if_false, hx, Run.bind, h0]
    rfl

/-- Settles O54: the loop's first pass delivers nothing and its step has nothing to do. -/
theorem inflateHasNothingToDo : Obligations.InflateHasNothingToDo := by
  intro s hfits hfault hmeet h0 hidle
  have hrun := inflateRun_of_nothing (x := { unit := s.du, mem := s.mem, dest := s.argAddr, left := s.argLen }) h0 (DU.step_of_nothing s.mem hidle)
  rw [State.exec_dInflate hfits hfault hmeet, hrun]
  exact s.endDU_of_undelivered _ _

/-! ## No room (R283, R284) -/

/-- Settles O55: with no room the loop is not entered. -/
theorem inflateWithoutRoomIsOneStep : Obligations.InflateWithoutRoomIsOneStep := by
  intro s hfits hfault hlen
  have h0 : s.argLen = 0 := congrArg BitVec.toNat hlen
  have hexec := State.exec_dInflate hfits hfault fun hmeet => absurd hmeet.1 (by rw [hlen]; decide)
  rw [inflateRun, if_pos h0] at hexec
  refine ⟨fun hm hempty => ?_, fun hopen => ?_⟩
  · rw [hexec, if_pos ((DU.isFinished_iff _).mpr ⟨hm, hempty⟩)]
    exact s.endDU_of_undelivered _ _
  · rw [if_neg (mt (DU.isFinished_iff _).mp hopen), Xfer.step] at hexec
    refine ⟨fun more d hd => ?_, fun e d hd => ?_⟩
    · rw [hexec, hd]
      exact s.endDU_of_undelivered _ _
    · have hsticky : e.sticky = true := (hd ▸ s.du.step_onlyAborts s.mem : (Run.raise e d : Run DU Bool).OnlyAborts)
      simp only [hexec, hd, Run.within, Run.bind, State.endDU, Nat.sub_self]
      exact congrArg _ (State.raise_du_of_sticky hsticky _ _)

end Sys2Proof.Machine

/-! PROOFS. The Huffman decoder reads codewords (45_huffman_decode.md R320 to R329): what the bits read so far say about a code, what the loop of
Decode finds by them, and that an accepted code leaves one answer. -/

namespace Sys2Proof.Machine

/-- Settles O45: `DU.tryGet_spec`, its two cases told apart by how many bits are left. -/
theorem bitReaderTakesStreamBits : Obligations.BitReaderTakesStreamBits := by
  intro d m n hr _ hn r
  obtain ⟨hsame, hreader, -, hval⟩ := DU.tryGet_spec d m hn hr
  refine ⟨hreader, hsame, fun hle => ?_, fun hlt => ?_⟩
  · exact (hval.resolve_right fun hfew => absurd hfew.1 (Nat.not_lt.mpr hle)).2
  · exact (hval.resolve_left fun hall => absurd hall.1 (Nat.not_le.mpr hlt)).2

/-! ## Codewords and the numbers they are read as (R329) -/

/-- The number Decode makes of the bits it has read, the first the most significant (R329's c). -/
def codeOf (w : List Bool) : Nat := valueOf w.reverse

theorem codeword_length (l c : Nat) : (codeword l c).length = l := by rw [codeword, List.length_reverse, bitsOf_length]

theorem codeOf_codeword {l c : Nat} (hc : c < 2 ^ l) : codeOf (codeword l c) = c := by
  rw [codeOf, codeword, List.reverse_reverse, valueOf_bitsOf, Nat.mod_eq_of_lt hc]

theorem codeword_codeOf (w : List Bool) : codeword w.length (codeOf w) = w := by
  have hbits := bitsOf_valueOf w.reverse
  rw [List.length_reverse] at hbits
  rw [codeword, codeOf, hbits, List.reverse_reverse]

/-- The first bits of a codeword are the codeword of its code without the last bits. -/
theorem codeword_take {l m : Nat} (h : l ≤ m) (c : Nat) : (codeword m c).take l = codeword l (c / 2 ^ (m - l)) := by
  rw [codeword, List.take_reverse, bitsOf_length, bitsOf_drop (Nat.sub_le m l), Nat.sub_sub_self h, codeword]

/-- One more bit read: the step of Decode's loop. -/
theorem codeOf_take_succ {bits : List Bool} {k : Nat} (hk : k < bits.length) :
    2 * codeOf (bits.take k) + (valueOf (bits.take (k + 1)) >>> k) % 2 = codeOf (bits.take (k + 1)) := by
  have hlast : (bits.drop k).take 1 = [bits[k]] := by rw [List.drop_eq_getElem_cons hk]; rfl
  have hbit : valueOf [bits[k]] = bits[k].toNat := rfl
  have hcons (b : Bool) (bs : List Bool) : valueOf (b :: bs) = b.toNat + 2 * valueOf bs := rfl
  rw [Nat.shiftRight_eq_div_pow, (valueOf_take_add 1 hk.le).2, List.take_add, hlast, hbit, codeOf, codeOf, List.reverse_append,
    List.reverse_singleton, List.singleton_append, hcons, Nat.mod_eq_of_lt bits[k].toNat_lt, Nat.add_comm]

/-! ## The codewords of a code -/

/-- Symbol s has a codeword in the code of a vector of lengths (R327). -/
def Coded (lens : List Nat) (s : Nat) : Prop := s < lens.length ∧ lens.getD s 0 ≠ 0

/-- The codeword of a symbol (R327). -/
def wordOf (lens : List Nat) (s : Nat) : List Bool := codeword (lens.getD s 0) ((canon lens).getD s 0)

theorem wordOf_length (lens : List Nat) (s : Nat) : (wordOf lens s).length = lens.getD s 0 := codeword_length _ _

theorem assignCodes_length (next lens : List Nat) : (assignCodes next lens).length = lens.length := by
  induction lens generalizing next with
  | nil => rfl
  | cons l lens ih =>
    rw [assignCodes]
    split <;> rw [List.length_cons, ih, List.length_cons]

theorem canon_length (lens : List Nat) : (canon lens).length = lens.length := assignCodes_length _ lens

/-- The decode table lists each symbol's length and code. -/
theorem codes_getElem? {lens : List Nat} {s : Nat} (hs : s < lens.length) :
    (lens.zip (canon lens))[s]? = some (lens.getD s 0, (canon lens).getD s 0) :=
  List.getElem?_zip_eq_some.mpr ⟨by simp [hs], by simp [hs, canon_length]⟩

theorem mem_codes_iff {lens : List Nat} {p : Nat × Nat} :
    p ∈ lens.zip (canon lens) ↔ ∃ s, s < lens.length ∧ p = (lens.getD s 0, (canon lens).getD s 0) := by
  rw [List.mem_iff_getElem?]
  constructor
  · rintro ⟨s, hp⟩
    have hs : s < lens.length := by
      by_contra hge
      have hnone : lens[s]? = none := List.getElem?_eq_none (Nat.le_of_not_lt hge)
      exact nomatch hnone.symm.trans (List.getElem?_zip_eq_some.mp hp).1
    exact ⟨s, hs, Option.some.inj (hp.symm.trans (codes_getElem? hs))⟩
  · rintro ⟨s, hs, rfl⟩
    exact ⟨s, codes_getElem? hs⟩

section
variable {lens : List Nat} (ha : acceptedLens lens)
include ha

theorem Coded.canon_lt {s : Nat} (hs : Coded lens s) : (canon lens).getD s 0 < 2 ^ lens.getD s 0 :=
  Machine.canon_lt ha.2 (by simp [hs.1]) hs.2 (getD_le_of_forall ha.1 s)

/-- Bits begin a codeword that is not shorter exactly when the code, cut to their number, is what they are read as. -/
theorem Coded.begins_wordOf_iff {t : Nat} {w : List Bool} (ht : Coded lens t) (hl : w.length ≤ lens.getD t 0) :
    w <+: wordOf lens t ↔ (canon lens).getD t 0 / 2 ^ (lens.getD t 0 - w.length) = codeOf w := by
  have hcut : (canon lens).getD t 0 / 2 ^ (lens.getD t 0 - w.length) < 2 ^ w.length := by
    refine Nat.div_lt_of_lt_mul ?_
    rw [← pow_add, Nat.sub_add_cancel hl]
    exact ht.canon_lt ha
  rw [List.prefix_iff_eq_take, wordOf, codeword_take hl]
  constructor
  · intro hw
    rw [hw, codeword_length, codeOf_codeword hcut]
  · intro hcode
    rw [hcode, codeword_codeOf]

/-- In an accepted code no codeword begins another symbol's (30_encoding.md R112). -/
theorem Coded.eq_of_prefix {s t : Nat} (hs : Coded lens s) (ht : Coded lens t) (h : wordOf lens s <+: wordOf lens t) : s = t := by
  by_contra hne
  exact canonicalCodesArePrefixFree lens ha s t hs.1 ht.1 hne hs.2 ht.2 h

/-- Two codewords that agree as far as the shorter one goes are one symbol's. -/
theorem Coded.eq_of_prefix_of_prefix {s t : Nat} {bits : List Bool} (hs : Coded lens s) (ht : Coded lens t)
    (h : wordOf lens s <+: bits) (h' : wordOf lens t <+: bits) : s = t := by
  rcases List.prefix_or_prefix_of_prefix h h' with hst | hts
  · exact hs.eq_of_prefix ha ht hst
  · exact (ht.eq_of_prefix ha hs hts).symm

end

/-! ## What the decode table answers (R329) -/

/-- The table's symbol for bits is one whose codeword they are. -/
theorem wordOf_of_symbolOf {lens : List Nat} {w : List Bool} {l s : Nat} (hl : w.length = l) (h0 : l ≠ 0)
    (h : symbolOf (lens.zip (canon lens)) l (codeOf w) = some s) : Coded lens s ∧ wordOf lens s = w := by
  obtain ⟨hlt, hmatch, -⟩ := List.findIdx?_eq_some_iff_getElem.mp h
  have hs : s < lens.length := by simpa [canon_length] using hlt
  have hentry := Option.some.inj ((List.getElem?_eq_getElem hlt).symm.trans (codes_getElem? hs))
  simp only [hentry, Bool.and_eq_true, beq_iff_eq] at hmatch
  obtain ⟨hlen, hcode⟩ := hmatch
  exact ⟨⟨hs, hlen ▸ h0⟩, by rw [wordOf, hlen, hcode, ← hl, codeword_codeOf]⟩

/-- Where the table has no symbol for bits, they are no codeword. -/
theorem wordOf_ne_of_symbolOf {lens : List Nat} (ha : acceptedLens lens) {w : List Bool} {l s : Nat} (hl : w.length = l)
    (h : symbolOf (lens.zip (canon lens)) l (codeOf w) = none) (hs : Coded lens s) : wordOf lens s ≠ w := by
  rintro rfl
  have hmiss := List.findIdx?_eq_none_iff.mp h _ (mem_codes_iff.mpr ⟨s, hs.1, rfl⟩)
  rw [wordOf, codeOf_codeword (hs.canon_lt ha), ← hl, wordOf_length, beq_self_eq_true, beq_self_eq_true] at hmiss
  cases hmiss

/-- The table continues bits exactly where they begin a longer codeword. -/
theorem isProperPrefix_iff {lens : List Nat} (ha : acceptedLens lens) {w : List Bool} {l : Nat} (hl : w.length = l) :
    isProperPrefix (lens.zip (canon lens)) l (codeOf w) = true ↔ ∃ t, Coded lens t ∧ l < lens.getD t 0 ∧ w <+: wordOf lens t := by
  subst hl
  simp only [isProperPrefix, List.any_eq_true, Bool.and_eq_true, decide_eq_true_eq, beq_iff_eq, Nat.shiftRight_eq_div_pow]
  constructor
  · rintro ⟨p, hp, hlt, hcode⟩
    obtain ⟨t, ht, rfl⟩ := mem_codes_iff.mp hp
    have hcoded : Coded lens t := ⟨ht, Nat.ne_zero_of_lt hlt⟩
    exact ⟨t, hcoded, hlt, (hcoded.begins_wordOf_iff ha hlt.le).mpr hcode⟩
  · rintro ⟨t, ht, hlt, hpre⟩
    exact ⟨_, mem_codes_iff.mpr ⟨t, ht.1, rfl⟩, hlt, (ht.begins_wordOf_iff ha hlt.le).mp hpre⟩

/-! ## The longest length (R329's Lmax) -/

theorem maxLength_eq (lens : List Nat) : maxLength lens = lens.max?.getD 0 := by
  rw [maxLength, List.foldl_max, Nat.zero_max]

theorem le_maxLength {lens : List Nat} (s : Nat) : lens.getD s 0 ≤ maxLength lens := by
  refine getD_le_of_forall (fun l hl => ?_) s
  rw [maxLength_eq]
  exact List.le_max?_getD_of_mem hl

/-- Unless Lmax is 0, some symbol is coded. -/
theorem exists_coded_of_maxLength_ne_zero {lens : List Nat} (h : maxLength lens ≠ 0) : ∃ t, Coded lens t := by
  by_contra hnone
  refine h (Nat.le_zero.mp (maxLength_le fun l hl => ?_))
  obtain ⟨t, ht, rfl⟩ := List.mem_iff_getElem.mp hl
  by_contra hpos
  exact hnone ⟨t, ht, by rw [List.getD_eq_getElem _ _ ht]; omega⟩

/-! ## What Decode answers -/

/-- The input begins no codeword and no codeword begins it. -/
def NoWord (lens : List Nat) (bits : List Bool) : Prop := ∀ s, Coded lens s → ¬ wordOf lens s <+: bits ∧ ¬ bits <+: wordOf lens s

/-- The input decoded: a symbol whose codeword is taken, or none where the input is used up inside a codeword and nothing is taken. -/
def Decodes (m : Memory) (lens : List Nat) (bits : List Bool) : Option Nat → DU → Prop
  | some s, e => (Coded lens s ∧ wordOf lens s <+: bits) ∧ e.stream m = bits.drop (lens.getD s 0)
  | none, e => (∃ t, Coded lens t ∧ bits <+: wordOf lens t ∧ bits ≠ wordOf lens t) ∧ e.stream m = bits ∧ e.inPtr = e.inEnd

/-- No codeword up to length k begins the input, and its first k bits begin no longer one. -/
theorem noWord_of_take {lens : List Nat} {bits : List Bool} {k : Nat} (hk : k ≤ bits.length)
    (hpast : ∀ t, Coded lens t → lens.getD t 0 ≤ k → ¬ wordOf lens t <+: bits)
    (hnone : ∀ t, Coded lens t → k < lens.getD t 0 → ¬ bits.take k <+: wordOf lens t) : NoWord lens bits := by
  intro s hs
  have hlen := wordOf_length lens s
  have htake : (bits.take k).length = k := List.length_take_of_le hk
  rcases Nat.lt_or_ge k (lens.getD s 0) with hlt | hle
  · have hopen := hnone s hs hlt
    exact ⟨fun h => hopen (List.prefix_of_prefix_length_le (List.take_prefix k bits) h (by omega)),
      fun h => hopen ((List.take_prefix k bits).trans h)⟩
  · have hshort := hpast s hs hle
    refine ⟨hshort, fun h => hshort ?_⟩
    rw [h.eq_of_length_le (by omega)]

/-- The loop of Decode once k bits are read and held: no codeword of them has begun the input, and while a length is left to try, they begin a
longer one. -/
structure DU.Decoding (d : DU) (m : Memory) (lens : List Nat) (bits : List Bool) (left k : Nat) : Prop where
  stream : d.stream m = bits
  binding : d.inPtr ≤ d.inEnd
  reservoir : d.res.toNat < 2 ^ d.cnt
  held : k ≤ d.cnt
  lengths : k + left = maxLength lens
  past : ∀ t, Coded lens t → lens.getD t 0 ≤ k → ¬ wordOf lens t <+: bits
  begun : left ≠ 0 → ∃ t, Coded lens t ∧ k < lens.getD t 0 ∧ bits.take k <+: wordOf lens t

section
variable {d : DU} {m : Memory} {lens : List Nat} {bits : List Bool} {left k : Nat}

theorem DU.Decoding.length (h : d.Decoding m lens bits left k) : bits.length = d.cnt + 8 * (d.inEnd - d.inPtr) := by
  rw [← h.stream, DU.stream_length]

/-- Decode begins with nothing read. -/
theorem DU.ReaderInv.decoding (h : d.ReaderInv) : d.Decoding m lens (d.stream m) (maxLength lens) 0 where
  stream := rfl
  binding := h.binding
  reservoir := h.reservoir
  held := Nat.zero_le _
  lengths := Nat.zero_add _
  past := fun _ ht h0 => absurd (Nat.le_zero.mp h0) ht.2
  begun := fun hleft => by
    obtain ⟨t, ht⟩ := exists_coded_of_maxLength_ne_zero hleft
    exact ⟨t, ht, Nat.pos_of_ne_zero ht.2, List.nil_prefix⟩

/-- With no length left to try, no codeword begins the input. -/
theorem DU.Decoding.noWord_of_none_left (h : d.Decoding m lens bits 0 k) : NoWord lens bits :=
  noWord_of_take (h.length ▸ h.held.trans (Nat.le_add_right _ _)) h.past fun t _ hlt =>
    absurd (le_maxLength t) (Nat.not_le.mpr (h.lengths.ge.trans_lt hlt))

/-- With no bit left to read, the input ends inside a codeword. -/
theorem DU.Decoding.decodes_none (h : d.Decoding m lens bits (left + 1) k) (hfew : bits.length ≤ k) : Decodes m lens bits none d := by
  obtain ⟨t, ht, hlt, hpre⟩ := h.begun (Nat.succ_ne_zero left)
  rw [List.take_of_length_le hfew] at hpre
  refine ⟨⟨t, ht, hpre, fun heq => ?_⟩, h.stream, ?_⟩
  · rw [heq, wordOf_length] at hfew
    omega
  · have hlen := h.length
    have hheld := h.held
    have hbind := h.binding
    omega

/-- Once the next bit is held, and no codeword ends with it, none of up to k + 1 bits begins the input. -/
theorem DU.Decoding.past_succ (h : d.Decoding m lens bits left k) (hno : ∀ t, Coded lens t → wordOf lens t ≠ bits.take (k + 1)) :
    ∀ t, Coded lens t → lens.getD t 0 ≤ k + 1 → ¬ wordOf lens t <+: bits := by
  intro t ht hle hpre
  rcases hle.lt_or_eq with hlt | heq
  · exact h.past t ht (Nat.le_of_lt_succ hlt) hpre
  · refine hno t ht ?_
    rw [List.prefix_iff_eq_take.mp hpre, wordOf_length, heq]

/-- What the loop of Decode finds from there on. -/
theorem decodeFrom_decodes (ha : acceptedLens lens) (h : d.Decoding m lens bits left k) :
    (decodeFrom m (lens.zip (canon lens)) left (k + 1) (codeOf (bits.take k)) d).Ends (Decodes m lens bits) fun _ e =>
      e.stream m = bits ∧ NoWord lens bits := by
  induction left generalizing k d with
  | zero => exact ⟨h.stream, h.noWord_of_none_left⟩
  | succ left ih =>
    have hlengths := h.lengths
    have hmax := maxLength_le ha.1
    rw [decodeFrom, DU.avail, ← h.length]
    split
    · next hfew => exact h.decodes_none (Nat.le_of_lt_succ hfew)
    · next hmore =>
      replace hmore : k + 1 ≤ bits.length := Nat.le_of_not_lt hmore
      have hlen : (bits.take (k + 1)).length = k + 1 := List.length_take_of_le hmore
      obtain ⟨-, hstream, hres, hbind, -, -, -, hval⟩ := DU.peek_spec d m (show k + 1 ≤ 16 by omega) h.binding h.reservoir
      generalize d.peek m (k + 1) = p at hstream hres hbind hval
      obtain ⟨v, e⟩ := p
      rw [h.stream] at hstream hval
      obtain ⟨-, hheld, rfl⟩ := hval.resolve_right fun hno => absurd hno.1 (Nat.not_lt.mpr hmore)
      simp only [Nat.add_sub_cancel, codeOf_take_succ hmore]
      split
      · next s hsym =>
        obtain ⟨hs, hword⟩ := wordOf_of_symbolOf hlen (Nat.succ_ne_zero k) hsym
        refine ⟨⟨hs, hword ▸ List.take_prefix _ _⟩, ?_⟩
        rw [(DU.drop_spec m hheld hres).1, hstream, ← wordOf_length, hword, hlen]
      · next hsym =>
        have hpast := h.past_succ fun t => wordOf_ne_of_symbolOf ha hlen hsym
        split
        · next hproper =>
          exact ih ⟨hstream, hbind, hres, hheld, by omega, hpast, fun _ => (isProperPrefix_iff ha hlen).mp hproper⟩
        · next hproper =>
          exact ⟨hstream, noWord_of_take hmore hpast fun t ht hlt hpre =>
            hproper ((isProperPrefix_iff ha hlen).mpr ⟨t, ht, hlt, hpre⟩)⟩

/-- What Decode answers with an accepted code, and what it leaves of the reader. -/
theorem DU.ReaderInv.decode_decodes (h : d.ReaderInv) (m : Memory) (ha : acceptedLens lens) :
    (d.decode m lens).Ends (fun o e => (d.SameButReader e ∧ e.ReaderInv) ∧ Decodes m lens (d.stream m) o e) fun err e =>
      (err = .invalidCode ∧ d.SameButReader e ∧ e.ReaderStopped) ∧ e.stream m = d.stream m ∧ NoWord lens (d.stream m) :=
  (h.decode m ha.1).and (decodeFrom_decodes ha h.decoding)

end

/-- Settles O46: Decode's answer is true of the input (`DU.ReaderInv.decode_decodes`), and as no codeword begins another, the input leaves room
for one answer only. -/
theorem decodeReadsCodewords : Obligations.DecodeReadsCodewords := by
  intro d m lens hr ha word coded
  have hends := hr.decode_decodes m ha
  cases hd : d.decode m lens <;> rw [hd] at hends
  case done o e =>
    cases o with
    | some s =>
      obtain ⟨⟨hsame, hreader⟩, ⟨hs, hpre⟩, hstream⟩ := hends
      refine ⟨e, hsame, fun t ht htpre => ?_, fun t ht hshort hne => ?_, fun hno => absurd hpre (hno s hs).1⟩
      · obtain rfl := Coded.eq_of_prefix_of_prefix ha hs ht hpre htpre
        exact ⟨rfl, hstream, hreader⟩
      · obtain rfl := Coded.eq_of_prefix ha hs ht (hpre.trans hshort)
        exact absurd (hshort.eq_of_length_le hpre.length_le) hne
    | none =>
      obtain ⟨⟨hsame, hreader⟩, ⟨t, ht, hshort, hne⟩, hstream, hend⟩ := hends
      refine ⟨e, hsame, fun s hs hpre => ?_, fun _ _ _ _ => ⟨rfl, hstream, hend, hreader⟩, fun hno => absurd hshort (hno t ht).2⟩
      obtain rfl := Coded.eq_of_prefix ha hs ht (hpre.trans hshort)
      exact absurd (hshort.eq_of_length_le hpre.length_le) hne
  case raise err e =>
    obtain ⟨⟨rfl, hsame, hstopped⟩, hstream, hno⟩ := hends
    exact ⟨e, hsame, fun s hs hpre => absurd hpre (hno s hs).1, fun s hs hshort _ => absurd hshort (hno s hs).2,
      fun _ => ⟨rfl, hstream, hstopped.binding, hstopped.reservoir, hstopped.count⟩⟩
  case stuck => exact absurd hd (DU.decode_not_stuck d m lens)

end Sys2Proof.Machine

/-! PROOFS. Every command ends with a response (60_exceptions.md R360; 70_reset_and_hazards.md R403): the checks answer, and neither transfer
outruns the model's bounds (log 8). -/

namespace Sys2Proof.Machine

/-! ## The ends of commands -/

theorem State.guardCU_ends (s : State) (checks : List (Bool × Err)) {effect : Host.Outcome State Fault Refusal}
    (h : ∃ t, effect = .next t) : ∃ t, s.guardCU checks effect = .next t := by
  cases hc : firstErr checks with
  | some e => exact ⟨_, State.guardCU_fail hc⟩
  | none => rwa [State.guardCU_pass hc]

theorem State.guardDU_ends (s : State) (checks : List (Bool × Err)) {effect : Host.Outcome State Fault Refusal}
    (h : ∃ t, effect = .next t) : ∃ t, s.guardDU checks effect = .next t := by
  cases hc : firstErr checks with
  | some e => exact ⟨_, State.guardDU_fail hc⟩
  | none => rwa [State.guardDU_pass hc]

theorem State.endCU_ends (s : State) {r : Run (Xfer CU) Unit} (h : r ≠ .stuck) : ∃ t, s.endCU r = .next t := by
  cases r with
  | done u x => exact ⟨_, rfl⟩
  | raise e x => exact ⟨_, rfl⟩
  | stuck => exact absurd rfl h

theorem State.endDU_ends (s : State) {r : Run (Xfer DU) Unit} (h : r ≠ .stuck) : ∃ t, s.endDU r = .next t := by
  cases r with
  | done u x => exact ⟨_, rfl⟩
  | raise e x => exact ⟨_, rfl⟩
  | stuck => exact absurd rfl h

/-! ## C.DEFLATE from every state (43_compressor.md R243) -/

theorem Run.Finishes.ne_stuck {σ α : Type} {P : α → σ → Prop} {X : Prop} {r : Run σ α} (h : r.Finishes P X) : r ≠ .stuck := by
  rintro rfl
  exact h

/-- Off a byte boundary the header's first byte raises BIT_ALIGNMENT (R143, R244). -/
theorem CU.startStream_unaligned {c : CU} (hp : c.phase = .init ∨ c.phase = .setDict) (h : c.out.nbits ≠ 0) :
    c.startStream = .raise .bitAlignment c := by
  rw [CU.startStream, if_pos hp, CU.emitZlibHeader, BitOut.writeByte_unaligned h]
  rfl

/-- C.DEFLATE's run raises at its header, or its loop ends. -/
theorem deflateRun_ne_stuck (x : Xfer CU) : deflateRun x ≠ .stuck := by
  by_cases h : x.unit.phase = .init ∨ x.unit.phase = .setDict → x.unit.out.nbits = 0
  · exact (deflateRun_finishes h).ne_stuck
  · obtain ⟨hp, hn⟩ := Classical.not_imp.mp h
    rw [deflateRun, CU.startStream_unaligned hp hn]
    exact nofun

/-! ## The commands -/

/-- Settles O27: a command without a transfer answers at once, and the two transfers end by the measures of their loops. -/
theorem everyCommandEnds : Obligations.EveryCommandEnds := by
  intro i s hbind
  cases i
  case cConfig level strategy nohdr =>
    show ∃ t, execCConfig level strategy nohdr s = .next t
    unfold execCConfig
    split <;> exact ⟨_, rfl⟩
  case cSetInput | cSetDict | cFlush | cFinish => exact s.guardCU_ends _ ⟨_, rfl⟩
  case cDeflate => exact s.guardCU_ends _ (s.endCU_ends (deflateRun_ne_stuck _))
  case dSetInput => exact s.guardDU_ends _ ⟨_, rfl⟩
  case dSetDict =>
    refine s.guardDU_ends _ ?_
    split <;> exact ⟨_, rfl⟩
  case dInflate => exact s.guardDU_ends _ (s.endDU_ends (inflateRun_answers hbind).notStuck)
  case cReset | cIsFinished | cIsNeedingInput | cAdler | cTotalIn | cTotalOut => exact ⟨_, rfl⟩
  case dConfig | dReset | dIsFinished | dIsNeedingInput | dAdler | dTotalIn | dTotalOut | dIsNeedingDict => exact ⟨_, rfl⟩

end Sys2Proof.Machine

/-! PROOFS. An aborted unit (60_exceptions.md R364, R365, R371): ABORTED is found before every later check of a stream command, and CONFIG and
RESET clear the fault. -/

namespace Sys2Proof.Machine

theorem State.raise_aborted (u : UnitId) (s : State) : s.raise u .aborted 0 = s.refuse 0x0006 := State.raise_of_not_sticky rfl u 0 s

theorem firstErr_of_failed {failed : Bool} (h : failed = true) (e : Err) (checks : List (Bool × Err)) :
    firstErr ((failed, e) :: checks) = some e := if_pos h

theorem firstErr_of_passed {failed : Bool} (h : failed = false) (e : Err) (checks : List (Bool × Err)) :
    firstErr ((failed, e) :: checks) = firstErr checks := if_neg (Bool.eq_false_iff.mp h)

/-- The shared checks of a buffer command whose buffer fits, in an aborted unit (R365, steps 2 and 3). -/
theorem firstErr_of_aborted {wraps aborted : Bool} (hw : wraps = false) (ha : aborted = true) (checks : List (Bool × Err)) :
    firstErr ((wraps, .rangeAddress) :: (aborted, .aborted) :: checks) = some .aborted :=
  (firstErr_of_passed hw _ _).trans (firstErr_of_failed ha _ _)

/-- A stream command of an aborted unit ends with ABORTED, whatever check comes after it. -/
theorem exec_of_aborted {i : Instr} {s : State} (hfault : s.faultOf i.unit ≠ none) (hi : i.streamCommand = true)
    (hfits : i.takesBuffer = true → s.fits) : exec i s = .next (s.refuse 0x0006) := by
  have haborted : (s.faultOf i.unit).isSome = true := Option.isSome_iff_ne_none.mpr hfault
  cases i
  case cSetInput | cSetDict | cDeflate =>
    exact (State.guardCU_fail (firstErr_of_aborted (State.bufferWraps_of_fits (hfits rfl)) haborted _)).trans
      (congrArg _ (s.raise_aborted .cu))
  case cFlush | cFinish => exact (State.guardCU_fail (firstErr_of_failed haborted _ _)).trans (congrArg _ (s.raise_aborted .cu))
  case dSetInput | dSetDict | dInflate =>
    exact (State.guardDU_fail (firstErr_of_aborted (State.bufferWraps_of_fits (hfits rfl)) haborted _)).trans
      (congrArg _ (s.raise_aborted .du))
  all_goals cases hi

theorem CU.reset_fault (c : CU) : c.reset.fault = none := rfl

theorem DU.reset_fault (d : DU) : d.reset.fault = none := rfl

/-- Settles O9: the abort check comes before a command's own checks, and CUReset and DUReset clear the fault register. -/
theorem abortedUnitRefuses : Obligations.AbortedUnitRefuses := by
  refine fun i s hfault => ⟨exec_of_aborted hfault, ?_⟩
  rintro t (rfl | rfl | ⟨n, rfl⟩ | ⟨l, st, n, rfl, hl, hst⟩) h
  · cases h
    exact s.cu.reset_fault
  · cases h
    exact s.du.reset_fault
  · cases h
    rw [Instr.unit_dConfig]
    exact DU.reset_fault _
  · obtain ⟨level, hlevel⟩ := exists_levelOf hl
    obtain ⟨strategy, hstrategy⟩ := exists_strategyOf hst
    rw [exec_cConfig_of_legal n s hlevel hstrategy] at h
    cases h
    rw [Instr.unit_cConfig]
    exact CU.reset_fault _

end Sys2Proof.Machine

/-! PROOFS. A command reads nothing of the other unit (60_exceptions.md R374; 70_reset_and_hazards.md R405): another state of that unit passes
through the checks, the transfer and the response as it is. -/

namespace Sys2Proof.Machine

/-! ## Commands of the CU beside another DU -/

section
variable {s t : State} (d : DU)

theorem State.raise_cu_setDU (s : State) (e : Err) (n : Nat) : { s with du := d }.raise .cu e n = { s.raise .cu e n with du := d } := by
  cases h : e.sticky <;> simp [State.raise, State.abort, h]

theorem State.guardCU_setDU {checks : List (Bool × Err)} {effect effect' : Host.Outcome State Fault Refusal}
    (heffect : effect = .next t → effect' = .next { t with du := d }) (h : s.guardCU checks effect = .next t) :
    { s with du := d }.guardCU checks effect' = .next { t with du := d } := by
  rcases State.guardCU_cases h with ⟨e, he, -, rfl⟩ | ⟨hnone, h⟩
  · exact (State.guardCU_fail he).trans (congrArg _ (s.raise_cu_setDU d e 0))
  · exact (State.guardCU_pass hnone).trans (heffect h)

theorem State.endCU_setDU {r : Run (Xfer CU) Unit} (h : s.endCU r = .next t) : { s with du := d }.endCU r = .next { t with du := d } := by
  rcases State.endCU_cases h with ⟨x, rfl, rfl⟩ | ⟨e, x, rfl, rfl⟩
  · rfl
  · exact congrArg _ (State.raise_cu_setDU d { s with cu := x.unit, mem := x.mem } e (x.dest - s.argAddr))

theorem execCConfig_setDU {level strategy : Nat} {nohdr : Bool} (h : execCConfig level strategy nohdr s = .next t) :
    execCConfig level strategy nohdr { s with du := d } = .next { t with du := d } := by
  unfold execCConfig at h ⊢
  split at h <;> cases h
  · exact congrArg _ (s.raise_cu_setDU d _ 0)
  · exact congrArg _ (s.raise_cu_setDU d _ 0)
  · rfl

theorem exec_setDU {i : Instr} (hu : i.unit = .cu) (h : exec i s = .next t) : exec i { s with du := d } = .next { t with du := d } := by
  cases i
  case cConfig => exact execCConfig_setDU d h
  case cSetInput | cSetDict | cFlush | cFinish => exact State.guardCU_setDU d (fun he => by cases he; rfl) h
  case cDeflate => exact State.guardCU_setDU d (State.endCU_setDU d) h
  case cReset | cIsFinished | cIsNeedingInput | cAdler | cTotalIn | cTotalOut => cases h; rfl
  case dConfig nohdr => cases hu.symm.trans (Instr.unit_dConfig nohdr)
  case dSetInput | dSetDict | dInflate | dReset | dIsFinished | dIsNeedingInput | dAdler | dTotalIn | dTotalOut | dIsNeedingDict =>
    exact absurd hu (by decide)

end

/-! ## Commands of the DU beside another CU -/

section
variable {s t : State} (c : CU)

theorem State.raise_du_setCU (s : State) (e : Err) (n : Nat) : { s with cu := c }.raise .du e n = { s.raise .du e n with cu := c } := by
  cases h : e.sticky <;> simp [State.raise, State.abort, h]

theorem State.guardDU_setCU {checks : List (Bool × Err)} {effect effect' : Host.Outcome State Fault Refusal}
    (heffect : effect = .next t → effect' = .next { t with cu := c }) (h : s.guardDU checks effect = .next t) :
    { s with cu := c }.guardDU checks effect' = .next { t with cu := c } := by
  rcases State.guardDU_cases h with ⟨e, he, -, rfl⟩ | ⟨hnone, h⟩
  · exact (State.guardDU_fail he).trans (congrArg _ (s.raise_du_setCU c e 0))
  · exact (State.guardDU_pass hnone).trans (heffect h)

theorem State.endDU_setCU {r : Run (Xfer DU) Unit} (h : s.endDU r = .next t) : { s with cu := c }.endDU r = .next { t with cu := c } := by
  rcases State.endDU_cases h with ⟨x, rfl, rfl⟩ | ⟨e, x, rfl, rfl⟩
  · rfl
  · exact congrArg _ (State.raise_du_setCU c { s with du := x.unit, mem := x.mem } e (x.dest - s.argAddr))

theorem execDSetDict_setCU (h : execDSetDict s = .next t) : execDSetDict { s with cu := c } = .next { t with cu := c } := by
  refine State.guardDU_setCU c (fun he => ?_) h
  split at he <;> cases he
  · next hsum => exact if_pos hsum
  · next hsum => exact (if_neg hsum).trans (congrArg _ (s.raise_du_setCU c _ 0))

theorem exec_setCU {i : Instr} (hu : i.unit = .du) (h : exec i s = .next t) : exec i { s with cu := c } = .next { t with cu := c } := by
  cases i
  case dSetInput => exact State.guardDU_setCU c (fun he => by cases he; rfl) h
  case dSetDict => exact execDSetDict_setCU c h
  case dInflate => exact State.guardDU_setCU c (State.endDU_setCU c) h
  case dConfig | dReset | dIsFinished | dIsNeedingInput | dAdler | dTotalIn | dTotalOut | dIsNeedingDict => cases h; rfl
  case cConfig level strategy nohdr => cases hu.symm.trans (Instr.unit_cConfig level strategy nohdr)
  case cSetInput | cSetDict | cDeflate | cFlush | cFinish | cReset | cIsFinished | cIsNeedingInput | cAdler | cTotalIn | cTotalOut =>
    exact absurd hu (by decide)

end

/-- Settles O25: a command of either unit carries the other unit through unread. -/
theorem unitsDoNotObserveEachOther : Obligations.UnitsDoNotObserveEachOther :=
  fun _ _ _ h => ⟨fun hu d => exec_setDU d hu h, fun hu c => exec_setCU c hu h⟩

end Sys2Proof.Machine

/-! PROOFS. An output buffer over unread bound input is refused, and OUTPUT_OVERLAPS_INPUT tells of nothing else
(70_reset_and_hazards.md R398): past its checks C.DEFLATE, like D.INFLATE, raises aborting errors only. -/

namespace Sys2Proof.Machine

/-! ## The CU's procedures raise aborting errors only (43_compressor.md R243) -/

theorem BitOut.writeShort_onlyAborts (o : BitOut) (v : Nat) : (o.writeShort v).OnlyAborts :=
  (o.writeByte_onlyAborts _).bind fun _ o => o.writeByte_onlyAborts _

theorem CU.emitStored_onlyAborts (c : CU) (data : List Byte) (last : Bool) : (c.emitStored data last).OnlyAborts := by
  have hout : Run.OnlyAborts ((((c.out.writeBits last.toNat 3).alignToByte.writeShort data.length).bind fun _ o =>
      o.writeShort (data.length ^^^ 0xFFFF)).bind fun _ o => o.writeBlock data) :=
    ((BitOut.writeShort_onlyAborts _ _).bind fun _ o => o.writeShort_onlyAborts _).bind fun _ o => o.writeBlock_onlyAborts _
  exact (hout.within fun o => { c with out := o }).bind (f := fun _ c => .done () c.huffReset) fun _ _ => trivial

theorem CU.buildTrees_onlyAborts (c : CU) : c.buildTrees.OnlyAborts := by
  unfold CU.buildTrees
  extract_lets c
  split
  · rfl
  · extract_lets c
    split
    · rfl
    · extract_lets c items c
      split
      · rfl
      · trivial

theorem CU.flushBlock_onlyAborts (c : CU) (start : Int) (n : Nat) (last : Bool) : (c.flushBlock start n last).OnlyAborts := by
  refine c.buildTrees_onlyAborts.bind fun items e => ?_
  rcases e.emitBlock_cases start n last items with h | h | h <;> rw [h]
  · exact e.emitStored_onlyAborts _ _
  · trivial
  · trivial

/-- The end of a block in the three algorithms. -/
theorem CU.flushBlock_bind_onlyAborts (c : CU) (start : Int) (n : Nat) (last progress : Bool) (f : CU → CU) :
    ((c.flushBlock start n last).bind fun _ c => .done progress (f c)).OnlyAborts :=
  (c.flushBlock_onlyAborts start n last).bind fun _ _ => trivial

theorem CU.deflateStored_onlyAborts (flush finish : Bool) (c : CU) : (c.deflateStored flush finish).OnlyAborts := by
  unfold CU.deflateStored
  split
  · trivial
  · extract_lets e n last n'
    split
    · exact (e.emitStored_onlyAborts _ _).bind fun _ _ => trivial
    · trivial

theorem CU.fastLoop_onlyAborts (flush finish : Bool) (fuel : Nat) (c : CU) : (CU.fastLoop flush finish fuel c).OnlyAborts := by
  induction fuel generalizing c with
  | zero => trivial
  | succ fuel ih =>
    unfold CU.fastLoop
    split
    · trivial
    · split
      · exact CU.flushBlock_bind_onlyAborts _ _ _ _ _ _
      · simp only
        generalize c.fastToken = e
        split
        · exact CU.flushBlock_bind_onlyAborts _ _ _ _ _ _
        · exact ih e

theorem CU.slowLoop_onlyAborts (flush finish : Bool) (fuel : Nat) (c : CU) : (CU.slowLoop flush finish fuel c).OnlyAborts := by
  induction fuel generalizing c with
  | zero => trivial
  | succ fuel ih =>
    unfold CU.slowLoop
    split
    · trivial
    · split
      · exact CU.flushBlock_bind_onlyAborts _ _ _ _ _ _
      · simp only
        generalize c.slowToken = e
        split
        · exact CU.flushBlock_bind_onlyAborts _ _ _ _ _ _
        · exact ih e

theorem CU.deflateFunc_onlyAborts (flush finish : Bool) (c : CU) : (c.deflateFunc flush finish).OnlyAborts := by
  unfold CU.deflateFunc
  split
  · exact CU.deflateStored_onlyAborts _ _ _
  · unfold CU.deflateFast
    split
    · trivial
    · exact CU.fastLoop_onlyAborts _ _ _ _
  · unfold CU.deflateSlow
    split
    · trivial
    · exact CU.slowLoop_onlyAborts _ _ _ _

theorem CU.engineLoop_onlyAborts (m : Memory) (flush finish : Bool) (fuel : Nat) (c : CU) :
    (CU.engineLoop m flush finish fuel c).OnlyAborts := by
  induction fuel generalizing c with
  | zero => trivial
  | succ fuel ih =>
    refine (CU.deflateFunc_onlyAborts _ _ _).bind fun progress e => ?_
    split
    · exact ih e
    · trivial

theorem CU.emitTrailer_onlyAborts (c : CU) : c.emitTrailer.OnlyAborts := by
  unfold CU.emitTrailer
  extract_lets e
  refine Run.OnlyAborts.bind ?_ fun _ _ => trivial
  split
  · trivial
  · exact (e.out.writeAdler_onlyAborts _).within _

theorem CU.afterNoProgress_onlyAborts (c : CU) : c.afterNoProgress.OnlyAborts := by
  unfold CU.afterNoProgress
  split
  · trivial
  · split
    · trivial
    · exact c.emitTrailer_onlyAborts.bind fun _ _ => trivial

theorem deflateLoop_onlyAborts (fuel : Nat) (x : Xfer CU) : (deflateLoop fuel x).OnlyAborts := by
  induction fuel generalizing x with
  | zero => trivial
  | succ fuel ih =>
    unfold deflateLoop
    extract_lets y
    split
    · trivial
    · refine ((CU.engineLoop_onlyAborts _ _ _ _ _).within _).bind fun progress z => ?_
      split
      · exact ih z
      · refine (z.unit.afterNoProgress_onlyAborts.within _).bind fun again w => ?_
        split
        · exact ih w
        · trivial

/-- C.DEFLATE past its checks raises aborting errors only, whatever the room for output (60_exceptions.md R361). -/
theorem deflateRun_raises_aborting (x : Xfer CU) : (deflateRun x).OnlyAborts :=
  (x.unit.startStream_onlyAborts.within _).bind fun _ y => deflateLoop_onlyAborts _ y

/-! ## The overlap check (R398) -/

theorem Err.code_eq_overlap {e : Err} : e.code = 0x0107 ↔ e = .outputOverlapsInput := by
  cases e <;> decide

theorem Err.code_ne_overlap_of_sticky {e : Err} (h : e.sticky = true) : e.code ≠ 0x0107 := by
  rw [ne_eq, Err.code_eq_overlap]
  rintro rfl
  exact absurd h (by decide)

section
variable {s t : State} (hfits : s.fits)
include hfits

theorem exec_cDeflate_of_meets (hfault : s.cu.fault = none) (hphase : s.cu.phase ≠ .closed) (hmeet : s.outputMeets s.cu.inPtr s.cu.inEnd) :
    exec .cDeflate s = .next (s.refuse 0x0107) := by
  have hm := (s.buffersMeet_iff _ _).mpr hmeet
  refine (State.guardCU_buffer hfits hfault _ _).trans
    ((State.guardCU_fail (e := .outputOverlapsInput) (by simp [firstErr, hphase, hm])).trans ?_)
  exact congrArg _ (State.raise_of_not_sticky rfl .cu 0 s)

theorem exec_dInflate_of_meets (hfault : s.du.fault = none) (hmeet : s.outputMeets s.du.inPtr s.du.inEnd) :
    exec .dInflate s = .next (s.refuse 0x0107) := by
  have hm := (s.buffersMeet_iff _ _).mpr hmeet
  refine (State.guardDU_buffer hfits hfault _ _).trans
    ((State.guardDU_fail (e := .outputOverlapsInput) (by simp [firstErr, hm])).trans ?_)
  exact congrArg _ (State.raise_of_not_sticky rfl .du 0 s)

end

section
variable {s t : State}

/-- A failed check tells of an overlap only if it is the overlap check. -/
theorem code_ne_overlap_of_failed {b : Bool} {e : Err} {rest : List (Bool × Err)} (hb : b = false)
    (hrest : ∀ c ∈ rest, c.2 ≠ .outputOverlapsInput) (h : (true, e) ∈ rest ++ [(b, .outputOverlapsInput)]) : e.code ≠ 0x0107 := by
  rw [ne_eq, Err.code_eq_overlap]
  rcases List.mem_append.mp h with hmem | hmem
  · exact hrest _ hmem
  · simp [hb] at hmem

theorem State.buffersMeet_of_not {p e : Nat} (h : ¬ s.outputMeets p e) : buffersMeet s.argAddr s.argLen p e = false :=
  Bool.eq_false_iff.mpr fun hm => h ((s.buffersMeet_iff p e).mp hm)

theorem exec_cDeflate_ne_overlap (hmeet : ¬ s.outputMeets s.cu.inPtr s.cu.inEnd) (h : exec .cDeflate s = .next t) :
    t.port.errcode ≠ 0x0107 := by
  rcases State.guardCU_cases h with ⟨e, -, hmem, rfl⟩ | ⟨-, h⟩
  · rw [State.raise_port]
    exact code_ne_overlap_of_failed (rest := s.cuBufferChecks ++ [(s.cu.phase == .closed, .closed)]) (State.buffersMeet_of_not hmeet)
      (by simp [State.cuBufferChecks]) (by simpa using hmem)
  · have hrun := deflateRun_raises_aborting { unit := s.cu, mem := s.mem, dest := s.argAddr, left := s.argLen }
    rcases State.endCU_cases h with ⟨x, -, rfl⟩ | ⟨e, x, hx, rfl⟩
    · exact nofun
    · rw [hx] at hrun
      rw [State.raise_port]
      exact Err.code_ne_overlap_of_sticky hrun

theorem exec_dInflate_ne_overlap (hmeet : ¬ s.outputMeets s.du.inPtr s.du.inEnd) (h : exec .dInflate s = .next t) :
    t.port.errcode ≠ 0x0107 := by
  rcases State.guardDU_cases h with ⟨e, -, hmem, rfl⟩ | ⟨-, h⟩
  · rw [State.raise_port]
    exact code_ne_overlap_of_failed (rest := s.duBufferChecks) (State.buffersMeet_of_not hmeet) (by simp [State.duBufferChecks]) hmem
  · have hrun := inflateRun_onlyAborts { unit := s.du, mem := s.mem, dest := s.argAddr, left := s.argLen }
    rcases State.endDU_cases h with ⟨x, -, rfl⟩ | ⟨e, x, hx, rfl⟩
    · exact nofun
    · rw [hx] at hrun
      rw [State.raise_port]
      exact Err.code_ne_overlap_of_sticky hrun

end

/-- Settles O10: the overlap check is the last, so it is reported where the others pass, and nothing past the checks raises its error. -/
theorem outputOverInputRefused : Obligations.OutputOverInputRefused := fun _ hfits =>
  ⟨exec_cDeflate_of_meets hfits, exec_dInflate_of_meets hfits, fun _ => exec_cDeflate_ne_overlap, fun _ => exec_dInflate_ne_overlap⟩

end Sys2Proof.Machine

/-! PROOFS. The power-on state (70_reset_and_hazards.md R390, R391): the default CONFIG words leave it as it is, and it meets the invariants. -/

namespace Sys2Proof.Machine

/-- A command word written to CMD runs as its command in the next step, from the state as it was before the write. -/
theorem step_withFetchWord {s : State} {w : Nat} {i : Instr} (hcmd : s.port.cmd = none) (hi : decode (commandWord 32 w) = .ok i) :
    step (s.withFetchWord 32 w) = exec i s := by
  rw [step_of_cmd (s.withFetchWord_cmd 32 w) hi, State.withFetchWord_takeCmd, State.takeCmd, ← hcmd]

theorem CU.reset_powerOn : CU.powerOn.reset = CU.powerOn := by decide +kernel

theorem DU.reset_powerOn : DU.powerOn.reset = DU.powerOn := rfl

/-- C.CONFIG of level 6, DEFAULT and zlib framing starts the stream that stands at power-on. -/
theorem exec_defaultConfig_powerOn (p : Params) : exec (.cConfig 6 0 false) (State.powerOn p) = .next (State.powerOn p) := by
  rw [exec_cConfig_of_legal (l := 6) (st := .default) false _ rfl rfl]
  exact congrArg (fun c => Host.Outcome.next { State.powerOn p with cu := c }) CU.reset_powerOn

/-- D.CONFIG of zlib framing starts the stream that stands at power-on. -/
theorem exec_dConfig_powerOn (p : Params) : exec (.dConfig false) (State.powerOn p) = .next (State.powerOn p) := rfl

/-- Settles O16: the two words are the CONFIGs of the configuration that CUReset and DUReset find at power-on. -/
theorem powerOnState : Obligations.PowerOnState := by
  refine ⟨fun p => ⟨?_, ?_⟩, ?_, ?_, rfl, rfl, by decide⟩
  · rw [step_withFetchWord rfl (by decide : decode (commandWord 32 0x601) = .ok (.cConfig 6 0 false)), exec_defaultConfig_powerOn]
  · rw [step_withFetchWord rfl (by decide : decode (commandWord 32 0x21) = .ok (.dConfig false)), exec_dConfig_powerOn]
  · exact CU.reset_powerOn.symm.trans (CU.reset_eq_startOfStream _)
  · exact DU.reset_powerOn.symm.trans (DU.reset_eq_startOfStream _)

/-! ## The invariants at power-on (R391) -/

theorem State.powerOn_memInv (p : Params) : (State.powerOn p).MemInv := ⟨rfl, nofun⟩

theorem State.powerOn_portInv (p : Params) : (State.powerOn p).PortInv := ⟨Nat.two_pow_pos _, .inl ⟨rfl, rfl⟩⟩

theorem CU.powerOn_inv (top : Nat) : CU.powerOn.Inv top where
  positionLow := (by decide : 1 ≤ 1 + 0)
  strstartLow := le_refl 1
  positionHigh := (by decide : 1 + 0 ≤ 65536)
  blockStart := le_refl (1 : Int)
  head := fun _ => .inl (Tbl.get_nil _ _)
  prev := fun _ => .inl (Tbl.get_nil _ _)
  tokens := (by decide : 0 < 16384)
  nbits := Nat.zero_le _
  finish := nofun
  fresh := fun _ => ⟨rfl, rfl, rfl⟩
  notClosed := nofun
  fault := rfl
  bindingLow := le_refl 0
  bindingHigh := Nat.zero_le _
  bits := (by decide : 0 < 2 ^ 0)
  matchLow := le_refl 2
  matchHigh := (by decide : 2 ≤ 258)
  matchStartHigh := (by decide : (0 : Int) ≤ 65535)
  litSize := List.length_replicate
  distSize := List.length_replicate
  blSize := List.length_replicate
  window := fun i => (Tbl.get_nil 16 i).trans_lt (by decide)
  tokenRange := nofun
  atStart := fun _ => ⟨rfl, rfl, rfl, rfl⟩
  heldLazily := fun _ => rfl
  heldInside := .inl rfl
  heldNear := .inl rfl

theorem DHState.powerOn_ranges : DHState.powerOn.Ranges where
  hlit := (by decide : 257 ≤ 257 ∧ 257 ≤ 288)
  hdist := (by decide : 1 ≤ 1 ∧ 1 ≤ 32)
  hclen := (by decide : 4 ≤ 4 ∧ 4 ≤ 19)
  i := Nat.zero_le _
  metaSize := List.length_replicate
  index := Nat.zero_le _
  clSize := List.length_replicate

theorem DU.powerOn_core (top : Nat) : DU.powerOn.Core top where
  fault := rfl
  binding := le_refl 0
  bindingHigh := Nat.zero_le _
  reservoir := (by decide : 0 < 2 ^ 0)
  count := Nat.zero_le _
  wend := (by decide : 0 < 65536)
  filled := le_refl 0
  hist := Nat.zero_le _
  rdist := Nat.zero_le _
  header := DHState.powerOn_ranges

theorem DU.powerOn_inv (top : Nat) : DU.powerOn.Inv top :=
  DU.Running.inv ⟨DU.powerOn_core top, fun _ => rfl, ⟨rfl, rfl, rfl⟩⟩

theorem State.powerOn_inv (p : Params) : (State.powerOn p).Inv :=
  ⟨State.powerOn_memInv p, State.powerOn_portInv p, CU.powerOn_inv _, DU.powerOn_inv _⟩

/-- Settles O60: the four invariants one after the other, for every address width. -/
theorem invariantsHoldAtPowerOn : Obligations.InvariantsHoldAtPowerOn := ⟨State.powerOn_inv, State.powerOn_inv Params.standard⟩

end Sys2Proof.Machine

/-! PROOFS. Two runs that end alike, as a rule for sequences (70_reset_and_hazards.md R395). -/

namespace Sys2Proof.Machine

section
variable {σ τ α β : Type} {P : α → σ → σ → Prop} {E : Err → σ → σ → Prop}

/-- Where the first procedure is done, so is the second, with the same value and states that P relates; where it raises an error, the second
raises the same, with states that E relates. -/
inductive Run.Twins (P : α → σ → σ → Prop) (E : Err → σ → σ → Prop) : Run σ α → Run σ α → Prop where
  | done {a : α} {s t : σ} (h : P a s t) : Run.Twins P E (.done a s) (.done a t)
  | raise {e : Err} {s t : σ} (h : E e s t) : Run.Twins P E (.raise e s) (.raise e t)
  | stuck (r : Run σ α) : Run.Twins P E .stuck r

theorem Run.Twins.mono {Q : α → σ → σ → Prop} {F : Err → σ → σ → Prop} {r r' : Run σ α} (h : Run.Twins P E r r')
    (hP : ∀ a s t, P a s t → Q a s t) (hE : ∀ e s t, E e s t → F e s t) : Run.Twins Q F r r' := by
  cases h with
  | done h => exact .done (hP _ _ _ h)
  | raise h => exact .raise (hE _ _ _ h)
  | stuck => exact .stuck _

/-- One procedure after another. -/
theorem Run.Twins.bind {Q : β → σ → σ → Prop} {r r' : Run σ α} {f g : α → σ → Run σ β} (h : Run.Twins P E r r')
    (hf : ∀ a s t, P a s t → Run.Twins Q E (f a s) (g a t)) : Run.Twins Q E (r.bind f) (r'.bind g) := by
  cases h with
  | done h => exact hf _ _ _ h
  | raise h => exact .raise h
  | stuck => exact .stuck _

/-- A procedure on a part of two larger states. -/
theorem Run.Twins.within {Q : α → τ → τ → Prop} {F : Err → τ → τ → Prop} {put put' : σ → τ} {r r' : Run σ α}
    (h : Run.Twins (fun a s t => Q a (put s) (put' t)) (fun e s t => F e (put s) (put' t)) r r') :
    Run.Twins Q F (r.within put) (r'.within put') := by
  cases h with
  | done h => exact .done h
  | raise h => exact .raise h
  | stuck => exact .stuck _

/-- What is known of the first procedure's end, beside how the two ends are related. -/
theorem Run.Twins.and_ends {Q : α → σ → Prop} {F : Err → σ → Prop} {r r' : Run σ α} (h : Run.Twins P E r r') (hr : r.Ends Q F) :
    Run.Twins (fun a s t => P a s t ∧ Q a s) (fun e s t => E e s t ∧ F e s) r r' := by
  cases h with
  | done h => exact .done ⟨h, hr⟩
  | raise h => exact .raise ⟨h, hr⟩
  | stuck => exact .stuck _

end

/-! ## Arrays that agree at an index -/

/-- A write of one value to two arrays keeps them alike where they are, and makes them alike where it writes. -/
theorem Tbl.get_set_alike {d : Nat} {t u : Tbl} {i j : Nat} (v : Nat) (h : i % 2 ^ d = j % 2 ^ d ∨ Tbl.get d t j = Tbl.get d u j) :
    Tbl.get d (Tbl.set d t i v) j = Tbl.get d (Tbl.set d u i v) j := by
  by_cases hij : i % 2 ^ d = j % 2 ^ d
  · rw [← Tbl.get_mod d _ j, ← Tbl.get_mod d (Tbl.set d u i v) j, ← hij, Tbl.get_mod, Tbl.get_mod, Tbl.get_set_self, Tbl.get_set_self]
  · rw [Tbl.get_set_ne t v hij, Tbl.get_set_ne u v hij]
    exact h.resolve_left hij

/-- A run of the same values written to two arrays. -/
theorem Tbl.get_setList_alike {d : Nat} (vs : List Nat) {t u : Tbl} {i j : Nat}
    (h : (i ≤ j ∧ j < i + vs.length) ∨ Tbl.get d t j = Tbl.get d u j) :
    Tbl.get d (Tbl.setList d t i vs) j = Tbl.get d (Tbl.setList d u i vs) j := by
  induction vs generalizing t u i with
  | nil => exact h.resolve_left fun hr => absurd hr.2 (Nat.not_lt.mpr hr.1)
  | cons v vs ih =>
    refine ih ?_
    by_cases hij : i = j
    · exact .inr (Tbl.get_set_alike v (.inl (hij ▸ rfl)))
    · rcases h with ⟨hle, hlt⟩ | h
      · rw [List.length_cons] at hlt
        exact .inl ⟨by omega, by omega⟩
      · exact .inr (Tbl.get_set_alike v (.inr h))

end Sys2Proof.Machine

/-! PROOFS. Two DUs that agree on what is read take every decode step alike (70_reset_and_hazards.md R395, R396): the reader sees none of the
unspecified elements, the window is read within the history, and codes and the header's registers are written before a mode reads them. -/

namespace Sys2Proof.Machine

/-! ## The unspecified elements of a DU -/

/-- A DU with another's window, codes and header parser. -/
def DU.withUnseen (d u : DU) : DU := { d with owin := u.owin, ltab := u.ltab, dtab := u.dtab, dh := u.dh }

/-- Two DUs that agree (R395), with what keeps their window reads inside the history: no more bytes wait than the history holds, and a
distance in use is at least 1. -/
structure DU.Twins (d e : DU) : Prop extends DU.Agrees d e where
  histHigh : d.hist ≤ 65536
  waiting : min d.filled 65536 ≤ d.hist
  distLow : d.mode = .hufDb → 1 ≤ d.rdist

theorem DU.Agrees.twins {d e : DU} (h : d.Agrees e) {top : Nat} (hd : d.Inv top) : d.Twins e :=
  { h with histHigh := hd.hist, waiting := (min_le_left _ _).trans hd.filled, distLow := hd.distLow }

theorem DU.Twins.exists {d e : DU} (h : d.Twins e) : ∃ u, e = d.withUnseen u := ⟨e, h.rest⟩

/-- A change of what is specified that keeps the window and enters neither the symbol loop nor DYN. -/
theorem DU.Twins.carry {d d' u : DU} (h : d.Twins (d.withUnseen u)) (howin : d'.owin = d.owin) (hwend : d'.wend = d.wend)
    (hhist : d'.hist = d.hist) (hfilled : d'.filled ≤ d.filled)
    (hcodes : d'.mode.inSymbols = true → d.mode.inSymbols = true ∧ d'.ltab = d.ltab ∧ d'.dtab = d.dtab)
    (hheader : d'.mode = .dyn → d.mode = .dyn ∧ d'.dh = d.dh) (hdist : d'.mode = .hufDb → 1 ≤ d'.rdist) :
    d'.Twins (d'.withUnseen u) where
  rest := rfl
  window := by rw [hhist, hwend, howin]; exact h.window
  codes := fun hs => by
    obtain ⟨hm, hl, hd⟩ := hcodes hs
    rw [hl, hd]
    exact h.codes hm
  header := fun hs => by
    obtain ⟨hm, hd⟩ := hheader hs
    rw [hd]
    exact h.header hm
  histHigh := hhist ▸ h.histHigh
  waiting := by have := h.waiting; omega
  distLow := hdist

/-! ## The reader (45_huffman_decode.md R321 to R329) -/

theorem DU.refill_withUnseen (m : Memory) (n fuel : Nat) (d u : DU) :
    DU.refill m n fuel (d.withUnseen u) = (DU.refill m n fuel d).withUnseen u := by
  induction fuel generalizing d with
  | zero => rfl
  | succ fuel ih =>
    have hread : DU.refill m n fuel ((d.withUnseen u).readByte m) = _ := ih (d.readByte m)
    simp only [DU.refill, hread]
    exact (apply_ite (DU.withUnseen · u) _ _ _).symm

theorem DU.peek_withUnseen (d u : DU) (m : Memory) (n : Nat) :
    (d.withUnseen u).peek m n = ((d.peek m n).1, (d.peek m n).2.withUnseen u) := by
  simp only [DU.peek, DU.refill_withUnseen]
  generalize DU.refill m n n d = e
  show (if e.cnt < n then _ else _) = _
  split <;> rfl

theorem DU.tryGet_withUnseen (d u : DU) (m : Memory) (n : Nat) :
    (d.withUnseen u).tryGet m n = ((d.tryGet m n).1, (d.tryGet m n).2.withUnseen u) := by
  simp only [DU.tryGet, DU.peek_withUnseen]
  rcases d.peek m n with ⟨_ | v, e⟩ <;> rfl

theorem decodeFrom_withUnseen (m : Memory) (codes : List (Nat × Nat)) (left l c : Nat) (d u : DU) :
    decodeFrom m codes left l c (d.withUnseen u) = (decodeFrom m codes left l c d).within (·.withUnseen u) := by
  induction left generalizing l c d with
  | zero => rfl
  | succ left ih =>
    simp only [decodeFrom, DU.peek_withUnseen]
    rw [show (d.withUnseen u).avail = d.avail from rfl]
    split
    · rfl
    · rcases d.peek m l with ⟨_ | v, e⟩
      · rfl
      · simp only
        split
        · rfl
        · split
          · exact ih _ _ e
          · rfl

theorem DU.decode_withUnseen (d u : DU) (m : Memory) (lens : List Nat) :
    (d.withUnseen u).decode m lens = (d.decode m lens).within (·.withUnseen u) := decodeFrom_withUnseen m _ _ 1 0 d u

theorem DU.copyReservoir_withUnseen (n : Nat) (d u : DU) :
    DU.copyReservoir n (d.withUnseen u) = ((DU.copyReservoir n d).1, (DU.copyReservoir n d).2.withUnseen u) := by
  induction n generalizing d with
  | zero => rfl
  | succ n ih =>
    have hdrop : DU.copyReservoir n ((d.withUnseen u).drop 8) = _ := ih (d.drop 8)
    simp only [DU.copyReservoir, hdrop]
    show (if 8 ≤ d.cnt then _ else _) = _
    split <;> rfl

theorem DU.copyReservoir_sameButReader (n : Nat) (d : DU) : d.SameButReader (DU.copyReservoir n d).2 := by
  induction n generalizing d with
  | zero => rfl
  | succ n ih =>
    simp only [DU.copyReservoir]
    split
    · exact DU.SameButReader.trans (show d.SameButReader (d.drop 8) from rfl) (ih (d.drop 8))
    · rfl

theorem DU.copy_withUnseen (d u : DU) (m : Memory) (n : Nat) :
    (d.withUnseen u).copy m n = ((d.copy m n).1, (d.copy m n).2.withUnseen u) := by
  simp only [DU.copy, DU.copyReservoir_withUnseen]
  rfl

theorem DU.copy_sameButReader (d : DU) (m : Memory) (n : Nat) : d.SameButReader (d.copy m n).2 :=
  (d.copyReservoir_sameButReader n).trans rfl

/-- Reading keeps two DUs alike. -/
theorem DU.Twins.reader {d d' u : DU} (h : d.Twins (d.withUnseen u)) (hs : d.SameButReader d') : d'.Twins (d'.withUnseen u) := by
  obtain ⟨res, cnt, inPtr, rfl⟩ := hs.exists
  exact h.carry rfl rfl rfl (le_refl _) (fun hm => ⟨hm, rfl, rfl⟩) (fun hm => ⟨hm, rfl⟩) h.distLow

section
variable {d e : DU} (h : d.Twins e) (m : Memory) {f g : Nat → DU → Run DU Bool} {P : Bool → DU → DU → Prop}
  (hnone : ∀ d' e', d.SameButReader d' → d'.Twins e' → P false d' e')
include h hnone

/-- A field read by both, and used alike. -/
theorem DU.Twins.needBits {n : Nat} (hsome : ∀ v d' e', d.SameButReader d' → d'.Twins e' → Run.Twins P (fun _ => DU.Twins) (f v d') (g v e')) :
    Run.Twins P (fun _ => DU.Twins) (Machine.needBits (d.tryGet m n) f) (Machine.needBits (e.tryGet m n) g) := by
  obtain ⟨u, rfl⟩ := h.exists
  rw [DU.tryGet_withUnseen]
  have hs := (d.tryGet_keeps m n).1
  generalize d.tryGet m n = p at hs
  obtain ⟨_ | v, d'⟩ := p
  · exact .done (hnone d' _ hs (h.reader hs))
  · exact hsome v d' _ hs (h.reader hs)

/-- A symbol read by both with the same code, and used alike. -/
theorem DU.Twins.decodeThen (lens : List Nat)
    (hsome : ∀ s d' e', d.SameButReader d' → d'.Twins e' → Run.Twins P (fun _ => DU.Twins) (f s d') (g s e')) :
    Run.Twins P (fun _ => DU.Twins) (d.decodeThen m lens f) (e.decodeThen m lens g) := by
  obtain ⟨u, rfl⟩ := h.exists
  simp only [DU.decodeThen, DU.decode_withUnseen]
  cases hd : d.decode m lens with
  | done o d' =>
    have hs := (DU.decode_done hd).1
    cases o with
    | none => exact .done (hnone d' _ hs (h.reader hs))
    | some s => exact hsome s d' _ hs (h.reader hs)
  | raise err d' => exact .raise (h.reader (DU.decode_raise hd))
  | stuck => exact .stuck _

/-- Extra bits read by both, and used alike. -/
theorem DU.Twins.withExtra (hsome : ∀ v d' e', d.SameButReader d' → d'.Twins e' → Run.Twins P (fun _ => DU.Twins) (f v d') (g v e')) :
    Run.Twins P (fun _ => DU.Twins) (d.withExtra m f) (e.withExtra m g) := by
  have hneeded : e.needed = d.needed := by rw [h.rest]
  unfold DU.withExtra
  rw [hneeded]
  split
  · exact h.needBits m hnone hsome
  · exact hsome 0 d e rfl h

end

/-! ## The window (44_decompressor.md R282, R291) -/

/-- A byte of the history is read alike. -/
theorem DU.Twins.history {d e : DU} (h : d.Twins e) {k : Nat} (h1 : 1 ≤ k) (hk : k ≤ d.hist) :
    d.owin.get 16 (d.back k) = e.owin.get 16 (e.back k) := by
  have hwend : e.wend = d.wend := by rw [h.rest]
  have hback : d.back k = (d.wend + 65536 - k) % 65536 := by
    have := h.histHigh
    simp only [DU.back, DWIN]
    omega
  have heback : e.back k = d.back k := by rw [DU.back, hwend]; rfl
  rw [heback, hback]
  exact h.window k h1 hk

/-- A byte put into both histories is read alike from then on. -/
theorem DU.Twins.putHistory {d e : DU} (h : d.Twins e) (b : Nat) {n : Nat} (hn : n ≤ d.filled + 1) :
    ({ d.putHistory b with filled := n } : DU).Twins { e.putHistory b with filled := n } := by
  obtain ⟨u, rfl⟩ := h.exists
  have hhist := h.histHigh
  have hwait := h.waiting
  refine { rest := rfl, window := fun k h1 hk => ?_, codes := h.codes, header := h.header, histHigh := min_le_right _ _,
           waiting := ?_, distLow := h.distLow }
  · simp only [DU.putHistory, DWIN] at hk ⊢
    refine Tbl.get_set_alike b ?_
    rcases Nat.eq_or_lt_of_le h1 with rfl | h2
    · exact .inl (show d.wend % 2 ^ 16 = _ by omega)
    · have hj : ((d.wend + 1) % 65536 + 65536 - k) % 65536 = (d.wend + 65536 - (k - 1)) % 65536 := by omega
      have hold := h.window (k - 1) (by omega) (by omega)
      exact .inr (hj ▸ hold)
  · simp only [DU.putHistory, DWIN]
    omega

theorem DU.Twins.wput {d e : DU} (h : d.Twins e) (b : Nat) : (d.wput b).Twins (e.wput b) := by
  obtain ⟨u, rfl⟩ := h.exists
  exact h.putHistory b (le_refl _)

theorem DU.Twins.wputs {d e : DU} (h : d.Twins e) (bs : List Byte) :
    (bs.foldl (fun d b => d.wput b.toNat) d).Twins (bs.foldl (fun d b => d.wput b.toNat) e) := by
  induction bs generalizing d e with
  | nil => exact h
  | cons b bs ih => exact ih (h.wput b.toNat)

/-- Repeat copies alike, from a distance within the history. -/
theorem DU.Twins.replay {d e : DU} (h : d.Twins e) {dist : Nat} (h1 : 1 ≤ dist) (hdist : dist ≤ d.hist) (l : Nat) :
    (DU.replay dist l d).Twins (DU.replay dist l e) := by
  induction l generalizing d e with
  | zero => exact h
  | succ l ih =>
    have hhist := h.histHigh
    have hgrown : dist ≤ (d.wput (d.owin.get 16 (d.back dist))).hist := by
      simp only [DU.wput, DU.putHistory, DWIN]
      omega
    have hrec := ih (h.wput (d.owin.get 16 (d.back dist))) hgrown
    rwa [show e.wput (d.owin.get 16 (d.back dist)) = e.wput (e.owin.get 16 (e.back dist)) by rw [h.history h1 hdist]] at hrec

/-- The bytes to deliver are read alike. -/
theorem DU.Twins.oldest {d e : DU} (h : d.Twins e) {n : Nat} (hn : n ≤ d.filled) : d.oldest n = e.oldest n := by
  have hwait := h.waiting
  refine List.map_congr_left fun k hk => congrArg _ ?_
  have hlt := List.mem_range.mp hk
  have hback : e.back e.filled = d.back d.filled := by rw [h.rest]; rfl
  have hplace : (d.back d.filled + k) % DWIN = (d.wend + 65536 - ((d.filled - k - 1) % 65536 + 1)) % 65536 := by
    simp only [DU.back, DWIN]
    omega
  rw [hback, hplace]
  exact h.window _ (Nat.le_add_left 1 _) (by omega)

end Sys2Proof.Machine

/-! PROOFS. The decode steps of two DUs that agree (44_decompressor.md R283 to R298; 46_dynamic_header.md R340 to R348), and D.INFLATE. -/

namespace Sys2Proof.Machine

/-- Two decode steps that end alike and leave DUs that agree. -/
@[reducible] def DU.StepTwins : Run DU Bool → Run DU Bool → Prop := Run.Twins (fun _ => DU.Twins) fun _ => DU.Twins

section
variable {d e : DU} (h : d.Twins e)
include h

/-- A mode outside the symbol loop and DYN is entered alike. -/
theorem DU.Twins.go {k : DMode} (hs : k.inSymbols = false) (hk : k ≠ .dyn) : (d.go k).Twins (e.go k) := by
  obtain ⟨u, rfl⟩ := h.exists
  refine h.carry (d' := d.go k) rfl rfl rfl (le_refl _) (fun hm => ?_) (fun hm => absurd hm hk) fun hm => ?_
  · exact absurd hm (by simp [DU.go, hs])
  · rw [show k = .hufDb from hm] at hs
    cases hs

theorem DU.Twins.align : d.align.Twins e.align := by
  obtain ⟨u, rfl⟩ := h.exists
  exact h.reader (d' := d.align) rfl

/-! ## Headers, checksums and stored blocks (R285 to R290, R297) -/

theorem DU.Twins.stepHeader (m : Memory) : DU.StepTwins (d.stepHeader m) (e.stepHeader m) := by
  refine h.needBits m (fun _ _ _ h' => h') fun v d' e' _ h' => ?_
  extract_lets x
  split
  · exact .raise h'
  · split
    · exact .raise h'
    · split
      · obtain ⟨u, rfl⟩ := h'.exists
        exact .done (h'.carry rfl rfl rfl (le_refl _) nofun nofun nofun)
      · exact .done (h'.go rfl nofun)

theorem DU.Twins.stepLast : DU.StepTwins d.stepLast e.stepLast := by
  have halign := h.align
  obtain ⟨u, rfl⟩ := h.exists
  unfold DU.stepLast
  rw [show (d.withUnseen u).filled = d.filled from rfl, show (d.withUnseen u).nohdr = d.nohdr from rfl]
  split
  · exact .done h
  · split
    · exact .done (h.go rfl nofun)
    · exact .done (DU.Twins.carry (u := u) halign rfl rfl rfl (le_refl _) nofun nofun nofun)

theorem DU.Twins.stepBlock (m : Memory) : DU.StepTwins (d.stepBlock m) (e.stepBlock m) := by
  refine h.needBits m (fun _ _ _ h' => h') fun t d' e' _ h' => ?_
  obtain ⟨u, rfl⟩ := h'.exists
  have hl : ({ d' with last := t % 2 == 1 } : DU).Twins { d'.withUnseen u with last := t % 2 == 1 } :=
    h'.carry rfl rfl rfl (le_refl _) (fun hm => ⟨hm, rfl, rfl⟩) (fun hm => ⟨hm, rfl⟩) h'.distLow
  extract_lets a b
  split
  · exact .done (hl.align.go rfl nofun)
  · split
    · exact .done { hl with rest := rfl, codes := fun _ => ⟨rfl, rfl⟩, header := nofun, distLow := nofun }
    · split
      · refine .done { hl with rest := rfl, codes := nofun, header := fun _ => ?_, distLow := nofun }
        exact ⟨rfl, fun hp => absurd rfl hp, fun hp => absurd rfl hp, nofun, nofun⟩
      · exact .raise hl

theorem DU.Twins.stepStored (m : Memory) : DU.StepTwins (d.stepStored m) (e.stepStored m) := by
  obtain ⟨u, rfl⟩ := h.exists
  have hput := (h.reader (d.copy_sameButReader m d.storedCount)).wputs (d.copy m d.storedCount).1
  simp only [DU.stepStored, show (d.withUnseen u).storedCount = d.storedCount from rfl, DU.copy_withUnseen]
  generalize (d.copy m d.storedCount).1.foldl _ (d.copy m d.storedCount).2 = a at hput ⊢
  generalize (d.copy m d.storedCount).1.foldl _ _ = b at hput ⊢
  obtain ⟨v, rfl⟩ := hput.exists
  have hlen : ({ a with ulen := a.ulen - BitVec.ofNat 16 d.storedCount } : DU).Twins
      { a.withUnseen v with ulen := a.ulen - BitVec.ofNat 16 d.storedCount } :=
    hput.carry rfl rfl rfl (le_refl _) (fun hm => ⟨hm, rfl, rfl⟩) (fun hm => ⟨hm, rfl⟩) hput.distLow
  rw [show (a.withUnseen v).ulen = a.ulen from rfl]
  split
  · exact .done (hlen.go rfl nofun)
  · exact .done hlen

theorem DU.Twins.stepSlen2 (m : Memory) : DU.StepTwins (d.stepSlen2 m) (e.stepSlen2 m) := by
  refine h.needBits m (fun _ _ _ h' => h') fun v d' e' _ h' => ?_
  rw [show e'.ulen = d'.ulen by rw [h'.rest]]
  split
  · exact .raise h'
  · exact (h'.go (k := .stored) rfl nofun).stepStored m

theorem DU.Twins.stepSlen1 (m : Memory) : DU.StepTwins (d.stepSlen1 m) (e.stepSlen1 m) := by
  refine h.needBits m (fun _ _ _ h' => h') fun v d' e' _ h' => ?_
  obtain ⟨u, rfl⟩ := h'.exists
  have hlen : ({ d' with ulen := BitVec.ofNat 16 v, mode := .slen2 } : DU).Twins
      { d'.withUnseen u with ulen := BitVec.ofNat 16 v, mode := .slen2 } := h'.carry rfl rfl rfl (le_refl _) nofun nofun nofun
  exact hlen.stepSlen2 m

omit h in
theorem DU.Twins.readAdlerField (m : Memory) (n : Nat) {d e : DU} (h : d.Twins e) :
    DU.StepTwins (DU.readAdlerField m n d) (DU.readAdlerField m n e) := by
  induction n generalizing d e with
  | zero => exact .done h
  | succ n ih =>
    simp only [DU.readAdlerField, show e.needed = d.needed by rw [h.rest]]
    split
    · refine h.needBits m (fun _ _ _ h' => h') fun v d' e' _ h' => ih ?_
      obtain ⟨u, rfl⟩ := h'.exists
      exact h'.carry (d' := d'.pushAdler v) rfl rfl rfl (le_refl _) (fun hm => ⟨hm, rfl, rfl⟩) (fun hm => ⟨hm, rfl⟩) h'.distLow
    · exact .done h

theorem DU.Twins.stepDict (m : Memory) : DU.StepTwins (d.stepDict m) (e.stepDict m) := by
  have hfield := h.readAdlerField m d.needed
  rw [DU.stepDict, DU.stepDict, show e.needed = d.needed by rw [h.rest]]
  exact hfield.bind fun _ _ _ h' => .done h'

theorem DU.Twins.stepChk (m : Memory) : DU.StepTwins (d.stepChk m) (e.stepChk m) := by
  have hfield := h.readAdlerField m d.needed
  rw [DU.stepChk, DU.stepChk, show e.needed = d.needed by rw [h.rest]]
  refine hfield.bind fun complete d' e' h' => ?_
  rw [show e'.adler = d'.adler by rw [h'.rest], show e'.readAdler = d'.readAdler by rw [h'.rest]]
  split
  · exact .done h'
  · split
    · exact .raise h'
    · exact .done (h'.go rfl nofun)

end

/-! ## The symbol loop (R293 to R296) -/

section
variable {d e : DU} (h : d.Twins e)
include h

theorem DU.Twins.takeLength (hm : d.mode = .huf) (s : Nat) : (d.takeLength s).Twins (e.takeLength s) := by
  obtain ⟨u, rfl⟩ := h.exists
  unfold DU.takeLength
  generalize baseL s = len, extraL s = needed
  exact h.carry rfl rfl rfl (le_refl _) (fun _ => ⟨by rw [hm]; rfl, rfl, rfl⟩) nofun nofun

theorem DU.Twins.lengthRead (hm : d.mode = .hufLb) (v : Nat) :
    ({ d with rlen := d.rlen + v, mode := .hufD } : DU).Twins { e with rlen := e.rlen + v, mode := .hufD } := by
  obtain ⟨u, rfl⟩ := h.exists
  exact h.carry rfl rfl rfl (le_refl _) (fun _ => ⟨by rw [hm]; rfl, rfl, rfl⟩) nofun nofun

theorem DU.Twins.takeDist (hm : d.mode = .hufD) {s : Nat} (hs : s ≤ 29) : (d.takeDist s).Twins (e.takeDist s) := by
  obtain ⟨u, rfl⟩ := h.exists
  exact h.carry (d' := d.takeDist s) rfl rfl rfl (le_refl _) (fun _ => ⟨by rw [hm]; rfl, rfl, rfl⟩) nofun fun _ =>
    (distSymbol_range s (Nat.lt_succ_of_le hs)).1

theorem DU.Twins.distRead (v : Nat) : ({ d with rdist := d.rdist + v } : DU).Twins { e with rdist := e.rdist + v } := by
  obtain ⟨u, rfl⟩ := h.exists
  exact h.carry rfl rfl rfl (le_refl _) (fun hm => ⟨hm, rfl, rfl⟩) (fun hm => ⟨hm, rfl⟩) fun hm =>
    (h.distLow hm).trans (Nat.le_add_right _ _)

/-- The loop goes back to mode HUF with the codes it has. -/
theorem DU.Twins.goHuf (hm : d.mode.inSymbols = true) : (d.go .huf).Twins (e.go .huf) := by
  obtain ⟨u, rfl⟩ := h.exists
  exact h.carry (d' := d.go .huf) rfl rfl rfl (le_refl _) (fun _ => ⟨hm, rfl, rfl⟩) nofun nofun

end

theorem DU.replay_mode (dist l : Nat) (d : DU) : (DU.replay dist l d).mode = d.mode := by
  rw [DU.replay_keeps dist l d]

/-- A match copied (R296): its distance must lie within the history, which is the same for both. -/
theorem DU.Twins.copyMatch {d e : DU} (h : d.Twins e) (hm : d.mode = .hufDb) {f g : DU → Run DU Bool}
    (hf : ∀ d' e', d'.Twins e' → DU.StepTwins (f d') (g e')) :
    DU.StepTwins (if d.hist < d.rdist then .raise .distanceTooFar d else f ((DU.replay d.rdist d.rlen d).go .huf))
      (if e.hist < e.rdist then .raise .distanceTooFar e else g ((DU.replay e.rdist e.rlen e).go .huf)) := by
  rw [show e.hist = d.hist by rw [h.rest], show e.rdist = d.rdist by rw [h.rest], show e.rlen = d.rlen by rw [h.rest]]
  split
  · exact .raise h
  · next hdist => exact hf _ _ ((h.replay (h.distLow hm) (Nat.le_of_not_lt hdist) d.rlen).goHuf (by rw [DU.replay_mode, hm]; rfl))

theorem DU.Twins.hufLoop (m : Memory) (fuel : Nat) {d e : DU} (h : d.Twins e) : DU.StepTwins (DU.hufLoop m fuel d) (DU.hufLoop m fuel e) := by
  induction fuel generalizing d e with
  | zero => exact .stuck _
  | succ fuel ih =>
    have hmode : e.mode = d.mode := by rw [h.rest]
    simp only [DU.hufLoop, show e.free = d.free by rw [h.rest]; rfl]
    split
    · exact .done h
    · cases hm : d.mode <;> simp only [hmode.trans hm]
      case huf =>
        rw [← (h.codes (by rw [hm]; rfl)).1]
        refine h.decodeThen m (fun _ _ _ h' => h') _ fun s d' e' hs h' => ?_
        have hm' : d'.mode = .huf := by rw [hs, ← hm]
        split
        · exact ih (h'.wput s)
        · split
          · exact .done (h'.go rfl nofun)
          · split
            · exact .raise h'
            · exact ih (h'.takeLength hm' s)
      case hufLb =>
        refine h.withExtra m (fun _ _ _ h' => h') fun v d' e' hs h' => ?_
        exact ih (h'.lengthRead (by rw [hs, ← hm]) v)
      case hufD =>
        rw [← (h.codes (by rw [hm]; rfl)).2]
        refine h.decodeThen m (fun _ _ _ h' => h') _ fun s d' e' hs h' => ?_
        split
        · exact .raise h'
        · exact ih (h'.takeDist (by rw [hs, ← hm]) (by omega))
      case hufDb =>
        refine h.withExtra m (fun _ _ _ h' => h') fun v d' e' hs h' => ?_
        exact (h'.distRead v).copyMatch (show d'.mode = .hufDb by rw [hs, ← hm]) fun _ _ => ih
      all_goals exact .done h

/-! ## The dynamic header (R292; 46_dynamic_header.md R340 to R348) -/

/-- Two DUs that agree, inside a dynamic header. -/
structure DU.HeaderTwins (d e : DU) : Prop where
  twins : d.Twins e
  mode : d.mode = .dyn

theorem DU.HeaderTwins.agrees {d e : DU} (h : d.HeaderTwins e) : d.dh.Agrees e.dh := h.twins.header h.mode

theorem DU.HeaderTwins.phase {d e : DU} (h : d.HeaderTwins e) : e.dh.phase = d.dh.phase := by
  rw [h.agrees.rest]

theorem DU.HeaderTwins.reader {d e d' e' : DU} (h : d.HeaderTwins e) (hs : d.SameButReader d') (h' : d'.Twins e') : d'.HeaderTwins e' :=
  ⟨h', by rw [hs, ← h.mode]⟩

/-- Both parsers go on alike from registers that agree. -/
theorem DU.HeaderTwins.set {d e : DU} (h : d.HeaderTwins e) {g k : DHState} (hg : g.Agrees k) :
    ({ d with dh := g } : DU).HeaderTwins { e with dh := k } := by
  obtain ⟨u, rfl⟩ := h.twins.exists
  exact ⟨{ h.twins with rest := rfl, header := fun _ => hg }, h.mode⟩

/-- Past the two counts, parsers agree but for registers that only CLEN and REP read. -/
theorem DHState.agrees_of {h : DHState} {c : Nat} {r : RepeatSym} (hclen : h.phase = .clen → h.hclen = c) (hrsym : h.phase = .rep → h.rsym = r) :
    h.Agrees { h with hclen := c, rsym := r } :=
  ⟨rfl, fun _ => rfl, fun _ _ => rfl, hclen, hrsym⟩

theorem DHState.Agrees.of_counts {h g : DHState} (ha : h.Agrees g) (h1 : h.phase ≠ .hlit) (h2 : h.phase ≠ .hdist) :
    g = { h with hclen := g.hclen, rsym := g.rsym } := by
  have hrest := ha.rest
  rw [← ha.hlit h1, ← ha.hdist h1 h2] at hrest
  exact hrest

section
variable {d e : DU} (h : d.HeaderTwins e)
include h

theorem DU.HeaderTwins.dhHlit (v : Nat) : (d.dhHlit v).HeaderTwins (e.dhHlit v) := by
  refine h.set ?_
  rw [h.agrees.rest]
  exact ⟨rfl, fun _ => rfl, fun _ hp => absurd rfl hp, nofun, nofun⟩

theorem DU.HeaderTwins.dhHdist (hp : d.dh.phase = .hdist) (v : Nat) : (d.dhHdist v).HeaderTwins (e.dhHdist v) := by
  have hlit := h.agrees.hlit (by simp [hp])
  refine h.set ?_
  rw [h.agrees.rest, ← hlit]
  exact ⟨rfl, fun _ => rfl, fun _ _ => rfl, nofun, nofun⟩

end

section
variable {d e : DU} (h : d.HeaderTwins e) (h1 : d.dh.phase ≠ .hlit) (h2 : d.dh.phase ≠ .hdist)
include h h1 h2

theorem DU.HeaderTwins.total : e.dh.total = d.dh.total := by
  rw [h.agrees.of_counts h1 h2]
  rfl

theorem DU.HeaderTwins.hclenErr : e.dh.hclenErr = d.dh.hclenErr := by
  rw [h.agrees.of_counts h1 h2]
  rfl

theorem DU.HeaderTwins.headerErr : e.dh.headerErr = d.dh.headerErr := by
  rw [h.agrees.of_counts h1 h2]
  rfl

theorem DU.HeaderTwins.dhHclen (hp : d.dh.phase = .hclen) (v : Nat) :
    ({ d with dh := { d.dh with hclen := v } } : DU).HeaderTwins { e with dh := { e.dh with hclen := v } } := by
  refine h.set ?_
  rw [h.agrees.of_counts h1 h2]
  exact DHState.agrees_of (fun _ => rfl) fun hr => by simp [hp] at hr

/-- A phase that reads neither HCLEN nor RSYM is entered alike. -/
theorem DU.HeaderTwins.dhGo {p : DHPhase} (hclen : p = .clen → d.dh.hclen = e.dh.hclen) (hr : p ≠ .rep) :
    (d.dhGo p).HeaderTwins (e.dhGo p) := by
  refine h.set ?_
  have he := h.agrees.of_counts h1 h2
  generalize e.dh = k at he hclen ⊢
  rw [he]
  exact DHState.agrees_of hclen fun hp => absurd hp hr

theorem DU.HeaderTwins.dhClen (hp : d.dh.phase = .clen) (v : Nat) : (d.dhClen v).HeaderTwins (e.dhClen v) := by
  have hclen := h.agrees.hclen hp
  refine h.set ?_
  rw [h.agrees.of_counts h1 h2, ← hclen]
  exact DHState.agrees_of (fun _ => rfl) fun hr => by simp [hp] at hr

theorem DU.HeaderTwins.dhLength (hp : d.dh.phase = .sym) (s : Nat) : (d.dhLength s).HeaderTwins (e.dhLength s) := by
  refine h.set ?_
  rw [h.agrees.of_counts h1 h2]
  exact DHState.agrees_of (fun hr => by simp [hp] at hr) fun hr => by simp [hp] at hr

theorem DU.HeaderTwins.dhRepeat (s : Nat) : (d.dhRepeat s).HeaderTwins (e.dhRepeat s) := by
  refine h.set ?_
  rw [h.agrees.of_counts h1 h2]
  exact DHState.agrees_of nofun fun _ => rfl

theorem DU.HeaderTwins.dhFill (hp : d.dh.phase = .rep) (n : Nat) : (d.dhFill n).HeaderTwins (e.dhFill n) := by
  have hrsym := h.agrees.rsym hp
  refine h.set ?_
  rw [h.agrees.of_counts h1 h2, ← hrsym]
  exact DHState.agrees_of nofun nofun

theorem DU.HeaderTwins.takeCodes : d.takeCodes.Twins e.takeCodes := by
  have hl : e.dh.litLens = d.dh.litLens := by rw [h.agrees.of_counts h1 h2]; rfl
  have hd : e.dh.distLens = d.dh.distLens := by rw [h.agrees.of_counts h1 h2]; rfl
  unfold DU.takeCodes
  rw [hl, hd]
  obtain ⟨u, rfl⟩ := h.twins.exists
  exact { h.twins with rest := rfl, codes := fun _ => ⟨rfl, rfl⟩, header := nofun, distLow := nofun }

end

/-- How two header loops end: a complete header has phase DONE. -/
@[reducible] def DU.HeaderEnd (complete : Bool) (d e : DU) : Prop := d.HeaderTwins e ∧ (complete = true → d.dh.phase = .done)

theorem DU.HeaderTwins.dhLoop (m : Memory) (fuel : Nat) {d e : DU} (h : d.HeaderTwins e) :
    Run.Twins DU.HeaderEnd (fun _ => DU.Twins) (DU.dhLoop m fuel d) (DU.dhLoop m fuel e) := by
  induction fuel generalizing d e with
  | zero => exact .stuck _
  | succ fuel ih =>
    have hnone (d' e' : DU) (hs : d.SameButReader d') (h' : d'.Twins e') : DU.HeaderEnd false d' e' := ⟨h.reader hs h', nofun⟩
    have hphase {d' : DU} (hs : d.SameButReader d') : d'.dh.phase = d.dh.phase := by rw [hs]
    cases hp : d.dh.phase <;> simp only [DU.dhLoop, hp, h.phase.trans hp]
    case hlit => exact h.twins.needBits m hnone fun v d' e' hs h' => ih ((h.reader hs h').dhHlit v)
    case hdist => exact h.twins.needBits m hnone fun v d' e' hs h' => ih ((h.reader hs h').dhHdist ((hphase hs).trans hp) v)
    case hclen =>
      refine h.twins.needBits m hnone fun v d' e' hs h' => ?_
      have hp' := (hphase hs).trans hp
      have hset := (h.reader hs h').dhHclen (by simp [hp']) (by simp [hp']) hp' (v + 4)
      have herr := hset.hclenErr (by simp [hp']) (by simp [hp'])
      have hgo := hset.dhGo (p := .clen) (by simp [hp']) (by simp [hp']) (fun _ => rfl) nofun
      simp only at herr hgo ⊢
      rw [herr]
      split
      · exact .raise hset.twins
      · exact ih hgo
    case clen =>
      rw [show e.dh.i = d.dh.i by rw [h.agrees.rest], ← h.agrees.hclen hp, show e.dh.metaLen = d.dh.metaLen by rw [h.agrees.rest]]
      split
      · refine h.twins.needBits m hnone fun v d' e' hs h' => ih ?_
        have hp' := (hphase hs).trans hp
        exact (h.reader hs h').dhClen (by simp [hp']) (by simp [hp']) hp' v
      · split
        · exact .raise h.twins
        · exact ih (h.dhGo (by simp [hp]) (by simp [hp]) nofun nofun)
    case sym =>
      rw [show e.dh.index = d.dh.index by rw [h.agrees.rest], h.total (by simp [hp]) (by simp [hp]),
        show e.dh.metaLen = d.dh.metaLen by rw [h.agrees.rest]]
      split
      · refine h.twins.decodeThen m hnone _ fun s d' e' hs h' => ?_
        have hp' := (hphase hs).trans hp
        have ht := h.reader hs h'
        rw [show e'.dh.index = d'.dh.index by rw [ht.agrees.rest]]
        split
        · exact ih (ht.dhLength (by simp [hp']) (by simp [hp']) hp' s)
        · split
          · exact .raise h'
          · exact ih (ht.dhRepeat (by simp [hp']) (by simp [hp']) s)
      · rw [h.headerErr (by simp [hp]) (by simp [hp])]
        split
        · exact .raise h.twins
        · exact .done ⟨h.dhGo (by simp [hp]) (by simp [hp]) nofun nofun, fun _ => rfl⟩
    case rep =>
      rw [← h.agrees.rsym hp]
      refine h.twins.needBits m hnone fun v d' e' hs h' => ?_
      have hp' := (hphase hs).trans hp
      have ht := h.reader hs h'
      rw [ht.total (by simp [hp']) (by simp [hp']), show e'.dh.index = d'.dh.index by rw [ht.agrees.rest], ← ht.agrees.rsym hp']
      split
      · exact .raise h'
      · exact ih (ht.dhFill (by simp [hp']) (by simp [hp']) hp' _)
    case done => exact .done ⟨h, fun _ => hp⟩

/-! ## A decode step (R283, R292) -/

theorem DU.Twins.avail {d e : DU} (h : d.Twins e) : e.avail = d.avail := by
  rw [h.rest]
  rfl

section
variable {d e : DU} (h : d.Twins e) (m : Memory)
include h

theorem DU.Twins.stepHuf : DU.StepTwins (d.stepHuf m) (e.stepHuf m) := by
  rw [DU.stepHuf, DU.stepHuf, h.avail]
  exact h.hufLoop m _

theorem DU.Twins.stepDyn (hm : d.mode = .dyn) : DU.StepTwins (d.stepDyn m) (e.stepDyn m) := by
  have hloop := DU.HeaderTwins.dhLoop m (d.avail + 8) ⟨h, hm⟩
  rw [DU.stepDyn, DU.stepDyn, DU.dhStep, DU.dhStep, h.avail]
  refine hloop.bind fun complete d' e' ⟨h', hdone⟩ => ?_
  split
  · next hc => exact (h'.takeCodes (by simp [hdone hc]) (by simp [hdone hc])).stepHuf m
  · exact .done h'.twins

theorem DU.Twins.step : DU.StepTwins (d.step m) (e.step m) := by
  have hmode : e.mode = d.mode := by rw [h.rest]
  cases hm : d.mode <;> simp only [DU.step, hm, hmode.trans hm]
  case header => exact h.stepHeader m
  case dict => exact h.stepDict m
  case blocks =>
    rw [show e.last = d.last by rw [h.rest]]
    split
    · exact h.stepLast
    · exact h.stepBlock m
  case slen1 => exact h.stepSlen1 m
  case slen2 => exact h.stepSlen2 m
  case stored => exact h.stepStored m
  case dyn => exact h.stepDyn m hm
  case huf | hufLb | hufD | hufDb => exact h.stepHuf m
  case chk => exact h.stepChk m
  case fin => exact .done h

end

/-! ## D.INFLATE (R284) -/

/-- Two transfers at the same place of the same memory, with DUs that agree. -/
structure Xfer.DUTwins (x y : Xfer DU) : Prop where
  rest : y = { x with unit := y.unit }
  unit : x.unit.Twins y.unit

theorem Xfer.DUTwins.copyOut {x y : Xfer DU} (h : x.DUTwins y) : x.copyOut.DUTwins y.copyOut := by
  obtain ⟨e, rfl, hu⟩ : ∃ e, y = { x with unit := e } ∧ x.unit.Twins e := ⟨y.unit, h.rest, h.unit⟩
  have hold := hu.oldest (min_le_right x.left x.unit.filled)
  obtain ⟨u, rfl⟩ := hu.exists
  unfold Xfer.copyOut
  extract_lets d n d' n'
  rw [show n' = n from rfl, show d'.oldest n = d.oldest n from hold.symm]
  exact ⟨rfl, hu.carry rfl rfl rfl (Nat.sub_le _ _) (fun hm => ⟨hm, rfl, rfl⟩) (fun hm => ⟨hm, rfl⟩) hu.distLow⟩

theorem Xfer.DUTwins.deliver {x y : Xfer DU} (h : x.DUTwins y) : x.deliver.DUTwins y.deliver := by
  unfold Xfer.deliver
  rw [show y.unit.mode = x.unit.mode by rw [h.unit.rest]]
  split
  · exact h
  · exact h.copyOut

theorem Xfer.DUTwins.step {x y : Xfer DU} (h : x.DUTwins y) : Run.Twins (fun _ => Xfer.DUTwins) (fun _ => Xfer.DUTwins) x.step y.step := by
  obtain ⟨e, rfl, hu⟩ : ∃ e, y = { x with unit := e } ∧ x.unit.Twins e := ⟨y.unit, h.rest, h.unit⟩
  exact Run.Twins.within ((hu.step x.mem).mono (fun _ _ _ h' => ⟨rfl, h'⟩) fun _ _ _ h' => ⟨rfl, h'⟩)

theorem inflateLoop_twins (fuel : Nat) {x y : Xfer DU} (h : x.DUTwins y) :
    Run.Twins (fun _ => Xfer.DUTwins) (fun _ => Xfer.DUTwins) (inflateLoop fuel x) (inflateLoop fuel y) := by
  induction fuel generalizing x y with
  | zero => exact .stuck _
  | succ fuel ih =>
    have hd := h.deliver
    simp only [inflateLoop]
    rw [show y.unit.mode = x.unit.mode by rw [h.unit.rest], show y.deliver.left = x.deliver.left by rw [hd.rest]]
    split
    · exact .done hd
    · refine hd.step.bind fun more z w h' => ?_
      rw [show w.unit.mode = z.unit.mode by rw [h'.unit.rest], show w.unit.filled = z.unit.filled by rw [h'.unit.rest]]
      split
      · exact ih h'
      · exact .done h'

theorem inflateRun_twins {x y : Xfer DU} (h : x.DUTwins y) :
    Run.Twins (fun _ => Xfer.DUTwins) (fun _ => Xfer.DUTwins) (inflateRun x) (inflateRun y) := by
  unfold inflateRun
  rw [show y.left = x.left by rw [h.rest], show y.unit.isFinished = x.unit.isFinished by rw [h.unit.rest]; rfl, h.unit.avail]
  split
  · split
    · exact .done h
    · exact h.step.bind fun _ _ _ h' => .done h'
  · exact inflateLoop_twins _ h

/-! ## The other commands (R280 to R282, R299) -/

/-- A stream begins with no history, outside the symbol loop and DYN. -/
theorem DU.reset_agrees {d e : DU} (hn : d.nohdr = e.nohdr) : d.reset.Agrees e.reset where
  rest := by simp only [DU.reset, DU.clearFault, hn]
  window := fun k h1 hk => absurd hk (Nat.not_le.mpr h1)
  codes := fun hm => by
    unfold DU.reset at hm
    dsimp only at hm
    split at hm <;> cases hm
  header := fun hm => by
    unfold DU.reset at hm
    dsimp only at hm
    split at hm <;> cases hm

theorem DU.Twins.putHistories {d e : DU} (h : d.Twins e) (bs : List Byte) :
    (bs.foldl (fun d b => d.putHistory b.toNat) d).Twins (bs.foldl (fun d b => d.putHistory b.toNat) e) := by
  induction bs generalizing d e with
  | nil => exact h
  | cons b bs ih =>
    refine ih ?_
    obtain ⟨u, rfl⟩ := h.exists
    exact h.putHistory b.toNat (Nat.le_succ d.filled)

theorem DU.Twins.loadDict {d e : DU} (h : d.Twins e) (dict : List Byte) : (d.loadDict dict).Twins (e.loadDict dict) := by
  refine DU.Twins.go (k := .blocks) (DU.Twins.putHistories ?_ _) rfl nofun
  obtain ⟨u, rfl⟩ := h.exists
  exact h.carry rfl rfl rfl (le_refl _) (fun hm => ⟨hm, rfl, rfl⟩) (fun hm => ⟨hm, rfl⟩) h.distLow

end Sys2Proof.Machine

/-! PROOFS. Two CUs that agree on what is read take every position alike (70_reset_and_hazards.md R395, R396; 41_match_engine.md R160 to R169):
the window is read where both have written it, and a chain holds only positions already passed. -/

namespace Sys2Proof.Machine

/-! ## The unspecified elements of a CU -/

/-- A CU with another's window, tokens and trees. -/
def CU.withUnseen (c u : CU) : CU := { c with win := u.win, tokD := u.tokD, tokL := u.tokL, lit := u.lit, dist := u.dist, bl := u.bl }

/-- Two CUs that agree on the window below b, on the tokens and on the frequencies, with chains of positions below k. -/
structure CU.Twins (k b : Nat) (c e : CU) : Prop where
  rest : e = c.withUnseen e
  counts : c.lit.freq = e.lit.freq ∧ c.dist.freq = e.dist.freq ∧ c.bl.freq = e.bl.freq
  window : ∀ p, p < b → (p = 0 → c.blockStart ≤ 0) → c.winAt p = e.winAt p
  tokens : ∀ n, n < c.tokN → c.tokD.tok n = e.tokD.tok n ∧ c.tokL.tok n = e.tokL.tok n
  chains : c.ChainsBelow k

/-- Two CUs between tokens: the window is known up to the lookahead's end, and the chains hold positions already passed. -/
@[reducible] def CU.Paired (c e : CU) : Prop := CU.Twins c.strstart (c.strstart + c.lookahead) c e

theorem CU.Twins.exists {k b : Nat} {c e : CU} (h : CU.Twins k b c e) : ∃ u, e = c.withUnseen u := ⟨e, h.rest⟩

theorem CU.ChainsBelow.mono {c : CU} {k k' : Nat} (h : c.ChainsBelow k) (hk : k ≤ k') : c.ChainsBelow k' :=
  ⟨Tbl.allBelow_mono h.1 hk, Tbl.allBelow_mono h.2 hk⟩

theorem CU.Twins.mono {k k' b b' : Nat} {c e : CU} (h : CU.Twins k b c e) (hk : k ≤ k') (hb : b' ≤ b) : CU.Twins k' b' c e :=
  { h with window := fun p hp => h.window p (lt_of_lt_of_le hp hb), chains := h.chains.mono hk }

/-- A change that keeps the window, the tokens and the trees, and starts the block no earlier where that would show. -/
theorem CU.Twins.carry {k k' b : Nat} {c c' u : CU} (h : CU.Twins k b c (c.withUnseen u)) (hwin : c'.win = c.win) (htokD : c'.tokD = c.tokD)
    (htokL : c'.tokL = c.tokL) (htokN : c'.tokN = c.tokN) (hlit : c'.lit = c.lit) (hdist : c'.dist = c.dist) (hbl : c'.bl = c.bl)
    (hblock : c'.blockStart ≤ 0 → c.blockStart ≤ 0) (hchains : c'.ChainsBelow k') : CU.Twins k' b c' (c'.withUnseen u) where
  rest := rfl
  counts := by rw [hlit, hdist, hbl]; exact h.counts
  window := fun p hp h0 => by
    rw [CU.winAt, hwin]
    exact h.window p hp fun hz => hblock (h0 hz)
  tokens := by rw [htokN, htokD, htokL]; exact h.tokens
  chains := hchains

/-! ## Hash and Insert (R163 to R165, R168, R169) -/

theorem CU.Twins.hash {k b : Nat} {c e : CU} (h : CU.Twins k b c e) {p : Nat} (h1 : 1 ≤ p) (hb : p + 2 < b) : e.hash p = c.hash p := by
  have hread (q : Nat) (hq : 1 ≤ q) (hqb : q < b) : e.winAt q = c.winAt q := (h.window q hqb fun hz => by omega).symm
  rw [CU.hash, CU.hash, hread p h1 (by omega), hread (p + 1) (by omega) (by omega), hread (p + 2) (by omega) hb]

/-- Insert at a position whose three bytes are known. -/
theorem CU.Twins.insert {k b : Nat} {c e : CU} (h : CU.Twins k b c e) (h1 : 1 ≤ c.strstart) (hk : c.strstart < k) (hb : c.strstart + 2 < b) :
    CU.Twins k b c.insert e.insert := by
  have hhash := h.hash h1 hb
  obtain ⟨u, rfl⟩ := h.exists
  have he : (c.withUnseen u).insert = c.insert.withUnseen u := by
    simp only [CU.insert, CU.headHere, show (c.withUnseen u).strstart = c.strstart from rfl, hhash]
    rfl
  rw [he]
  exact h.carry rfl rfl rfl rfl rfl rfl rfl id (h.chains.insert hk).chains

/-- C_STRSTART and C_LOOKAHEAD moved alike. -/
theorem CU.Twins.move {k b : Nat} {c e : CU} (h : CU.Twins k b c e) (f g : Nat → Nat) :
    CU.Twins k b { c with strstart := f c.strstart, lookahead := g c.lookahead }
      { e with strstart := f e.strstart, lookahead := g e.lookahead } := by
  obtain ⟨u, rfl⟩ := h.exists
  exact h.carry rfl rfl rfl rfl rfl rfl rfl id h.chains

/-- The length held, set alike. -/
theorem CU.Twins.setMatchLen {k b : Nat} {c e : CU} (h : CU.Twins k b c e) (n : Nat) :
    CU.Twins k b { c with matchLen := n } { e with matchLen := n } := by
  obtain ⟨u, rfl⟩ := h.exists
  exact h.carry rfl rfl rfl rfl rfl rfl rfl id h.chains

/-- Whether a literal is owed, set alike. -/
theorem CU.Twins.setPrevAvail {k b : Nat} {c e : CU} (h : CU.Twins k b c e) (a : Bool) :
    CU.Twins k b { c with prevAvail := a } { e with prevAvail := a } := by
  obtain ⟨u, rfl⟩ := h.exists
  exact h.carry rfl rfl rfl rfl rfl rfl rfl id h.chains

theorem CU.Twins.insertRun {k b : Nat} (n : Nat) {c e : CU} (h : CU.Twins k b c e) (h1 : 1 ≤ c.strstart) (hk : c.strstart + n ≤ k)
    (hb : c.strstart + n + 2 ≤ b) : CU.Twins k b (CU.insertRun n c) (CU.insertRun n e) := by
  induction n generalizing c e with
  | zero => exact h
  | succ n ih =>
    have hm : CU.Twins k b { c.insert with strstart := c.strstart + 1 } { e.insert with strstart := e.strstart + 1 } :=
      (h.insert h1 (by omega) (by omega)).move (· + 1) id
    exact ih hm (Nat.le_add_left 1 _) (show c.strstart + 1 + n ≤ k by omega) (show c.strstart + 1 + n + 2 ≤ b by omega)

theorem CU.Twins.insertAhead {k b : Nat} (n : Nat) {c e : CU} (h : CU.Twins k b c e) (hk : c.strstart + n < k) (hb : c.strstart + n + 2 < b) :
    CU.Twins k b (CU.insertAhead n c) (CU.insertAhead n e) := by
  induction n generalizing c e with
  | zero => exact h
  | succ n ih =>
    have hm : CU.Twins k b { c with strstart := c.strstart + 1 } { e with strstart := e.strstart + 1 } := h.move (· + 1) id
    have hi := hm.insert (Nat.le_add_left 1 _) (show c.strstart + 1 < k by omega) (show c.strstart + 1 + 2 < b by omega)
    exact ih hi (show c.strstart + 1 + n < k by omega) (show c.strstart + 1 + n + 2 < b by omega)

theorem CU.slowSkip_position (c : CU) : c.slowSkip.strstart = c.strstart + 1 ∧ c.slowSkip.lookahead = c.lookahead - 1 := by
  unfold CU.slowSkip
  extract_lets e
  split <;> exact ⟨rfl, rfl⟩

theorem CU.Twins.slowSkip {k b : Nat} {c e : CU} (h : CU.Twins k b c e) (hk : c.strstart + 1 < k) (hb : c.strstart + c.lookahead ≤ b) :
    CU.Twins k b c.slowSkip e.slowSkip := by
  have hm : CU.Twins k b { c with strstart := c.strstart + 1, lookahead := c.lookahead - 1 }
      { e with strstart := e.strstart + 1, lookahead := e.lookahead - 1 } := h.move (· + 1) (· - 1)
  have hlook : e.lookahead = c.lookahead := by rw [h.rest]; rfl
  simp only [CU.slowSkip, hlook] at hm ⊢
  split
  · next h3 =>
    have h3 : 3 ≤ c.lookahead - 1 := h3
    exact hm.insert (Nat.le_add_left 1 _) hk (show c.strstart + 1 + 2 < b by omega)
  · exact hm

theorem CU.Twins.slowSkips {k b : Nat} (n : Nat) {c e : CU} (h : CU.Twins k b c e) (hk : c.strstart + n < k) (hn : n ≤ c.lookahead)
    (hb : c.strstart + c.lookahead ≤ b) : CU.Twins k b (CU.slowSkips n c) (CU.slowSkips n e) := by
  induction n generalizing c e with
  | zero => exact h
  | succ n ih =>
    obtain ⟨hstr, hlook⟩ := c.slowSkip_position
    exact ih (h.slowSkip (by omega) hb) (by omega) (by omega) (by omega)

/-! ## The match search (R166) -/

theorem matchLength_alike {w v : Tbl} {p q cap : Nat} (hp : ∀ i, i < cap → w.get 16 (p + i) = v.get 16 (p + i))
    (hq : ∀ i, i < cap → w.get 16 (q + i) = v.get 16 (q + i)) : matchLength w p q cap = matchLength v p q cap := by
  induction cap generalizing p q with
  | zero => rfl
  | succ cap ih =>
    have hrec := ih (p := p + 1) (q := q + 1) (fun i hi => by have := hp (i + 1) (by omega); rwa [show p + 1 + i = p + (i + 1) by omega])
      fun i hi => by have := hq (i + 1) (by omega); rwa [show q + 1 + i = q + (i + 1) by omega]
    rw [matchLength, matchLength, hrec, show w.get 16 p = v.get 16 p from hp 0 (by omega), show w.get 16 q = v.get 16 q from hq 0 (by omega)]

theorem CU.examine_eq (c : CU) (cap cur : Nat) : ∃ start len, c.examine cap cur = { c with matchStart := start, matchLen := len } := by
  unfold CU.examine
  split <;> exact ⟨_, _, rfl⟩

/-- The search after a candidate is examined: over, or gone on with (R166). -/
theorem CU.searchChain_examine (c : CU) (cap limit nice chain cur : Nat) :
    CU.searchChain c.strstart cap limit nice (chain + 1) cur c =
      if c.matchLen < matchLength c.win cur c.strstart cap && nice ≤ matchLength c.win cur c.strstart cap then c.examine cap cur
      else if c.prev.get 15 (cur &&& WMASK) ≤ limit then c.examine cap cur
      else CU.searchChain c.strstart cap limit nice chain (c.prev.get 15 (cur &&& WMASK)) (c.examine cap cur) := rfl

/-- A search changes the held match only. -/
theorem CU.searchChain_eq (c : CU) (cap limit nice chain cur : Nat) :
    ∃ start len, CU.searchChain c.strstart cap limit nice chain cur c = { c with matchStart := start, matchLen := len } := by
  induction chain generalizing cur c with
  | zero => exact ⟨_, _, rfl⟩
  | succ chain ih =>
    rw [CU.searchChain_examine]
    obtain ⟨start, len, he⟩ := c.examine_eq cap cur
    rw [he]
    split
    · exact ⟨_, _, rfl⟩
    · split
      · exact ⟨_, _, rfl⟩
      · obtain ⟨start', len', hrec⟩ := ih { c with matchStart := start, matchLen := len } (c.prev.get 15 (cur &&& WMASK))
        exact ⟨start', len', hrec⟩

theorem CU.longestMatch_eq (c : CU) (cur : Nat) : ∃ start len, (c.longestMatch cur).2 = { c with matchStart := start, matchLen := len } := by
  simp only [CU.longestMatch]
  split
  · exact ⟨_, _, rfl⟩
  · exact CU.searchChain_eq { c with matchLen := max c.matchLen 2 } _ _ _ _ cur

/-- A search from a position already passed reads the known window only, and goes on to such positions only. -/
theorem CU.searchChain_withUnseen {cap limit nice b : Nat} {u : CU} (chain : Nat) {c : CU} {cur : Nat} (hs : 1 ≤ c.strstart)
    (hcap : c.strstart + cap ≤ b) (hwin : ∀ p, 1 ≤ p → p < b → c.win.get 16 p = u.win.get 16 p)
    (hprev : c.prev.allBelow 15 (c.strstart + 1)) (hcur : 1 ≤ cur) (hle : cur ≤ c.strstart) :
    CU.searchChain c.strstart cap limit nice chain cur (c.withUnseen u) =
      (CU.searchChain c.strstart cap limit nice chain cur c).withUnseen u := by
  induction chain generalizing c cur with
  | zero => rfl
  | succ chain ih =>
    have hlen : matchLength u.win cur c.strstart cap = matchLength c.win cur c.strstart cap :=
      matchLength_alike (fun i hi => (hwin _ (by omega) (by omega)).symm) fun i hi => (hwin _ (by omega) (by omega)).symm
    have hexamine : (c.withUnseen u).examine cap cur = (c.examine cap cur).withUnseen u := by
      simp only [CU.examine, show (c.withUnseen u).win = u.win from rfl, show (c.withUnseen u).strstart = c.strstart from rfl, hlen]
      exact (apply_ite (CU.withUnseen · u) (c.matchLen < matchLength c.win cur c.strstart cap)
        { c with matchStart := (cur : Int), matchLen := matchLength c.win cur c.strstart cap } c).symm
    have hbound := hprev (cur &&& WMASK)
    have hleft := CU.searchChain_examine (c.withUnseen u) cap limit nice chain cur
    simp only [show (c.withUnseen u).win = u.win from rfl, show (c.withUnseen u).strstart = c.strstart from rfl, hlen, hexamine,
      show (c.withUnseen u).matchLen = c.matchLen from rfl, show (c.withUnseen u).prev = c.prev from rfl] at hleft
    rw [hleft, CU.searchChain_examine]
    obtain ⟨start, len, he⟩ := c.examine_eq cap cur
    rw [he]
    split
    · rfl
    · split
      · rfl
      · exact ih (c := { c with matchStart := start, matchLen := len }) hs hcap hwin hprev (by omega) (show _ ≤ c.strstart by omega)

section
variable {k b : Nat} {c e : CU}

/-- LongestMatch from a position already passed answers alike. -/
theorem CU.Twins.longestMatch (h : CU.Twins k b c e) (hs : 1 ≤ c.strstart) (hk : k ≤ c.strstart + 1) (hb : c.strstart + c.lookahead ≤ b)
    {cur : Nat} (hcur : 1 ≤ cur) (hle : cur ≤ c.strstart) :
    (e.longestMatch cur).1 = (c.longestMatch cur).1 ∧ CU.Twins k b (c.longestMatch cur).2 (e.longestMatch cur).2 := by
  obtain ⟨u, rfl⟩ := h.exists
  have hwin (p : Nat) (h1 : 1 ≤ p) (hp : p < b) : c.win.get 16 p = u.win.get 16 p := h.window p hp fun hz => by omega
  have he : (c.withUnseen u).longestMatch cur = ((c.longestMatch cur).1, (c.longestMatch cur).2.withUnseen u) := by
    have hsearch (nice chain : Nat) := CU.searchChain_withUnseen (cap := min 258 c.lookahead) (limit := c.strstart - 32506) (nice := nice)
      (u := u) chain (c := { c with matchLen := max c.matchLen 2 }) hs (show c.strstart + min 258 c.lookahead ≤ b by omega) hwin
      (Tbl.allBelow_mono h.chains.2 hk) hcur hle
    by_cases hcap : min 258 c.lookahead ≤ max c.matchLen 2
    · rw [show c.longestMatch cur = (false, { c with matchLen := max c.matchLen 2 }) from if_pos hcap]
      exact if_pos hcap
    · have hgo : c.longestMatch cur = _ := if_neg hcap
      rw [hgo]
      exact (if_neg hcap).trans (congrArg (fun f : CU => (decide (3 ≤ f.matchLen), f)) (hsearch _ _))
  obtain ⟨start, len, hform⟩ := c.longestMatch_eq cur
  rw [he]
  refine ⟨rfl, ?_⟩
  rw [hform]
  exact h.carry rfl rfl rfl rfl rfl rfl rfl id h.chains

end

/-! ## Tokens (R202) -/

theorem HuffTree.count_alike {t u : HuffTree} (h : t.freq = u.freq) (s : Nat) : (t.count s).freq = (u.count s).freq := by
  simp only [HuffTree.count, h]

section
variable {k b : Nat} {c e : CU} (h : CU.Twins k b c e)
include h

theorem CU.Twins.pushToken (d l : Nat) : CU.Twins k b (c.pushToken d l) (e.pushToken d l) := by
  obtain ⟨u, rfl⟩ := h.exists
  refine ⟨rfl, h.counts, h.window, fun n hn => ?_, h.chains⟩
  have hn : n < c.tokN + 1 := hn
  rcases Nat.lt_succ_iff_lt_or_eq.mp hn with hlt | rfl
  · exact ⟨Tbl.get_set_alike d (.inr (h.tokens n hlt).1), Tbl.get_set_alike l (.inr (h.tokens n hlt).2)⟩
  · exact ⟨Tbl.get_set_alike d (.inl rfl), Tbl.get_set_alike l (.inl rfl)⟩

theorem CU.Twins.tallyLit (v : Nat) : CU.Twins k b (c.tallyLit v) (e.tallyLit v) := by
  have hp := h.pushToken 0 v
  obtain ⟨u, rfl⟩ := h.exists
  exact ⟨rfl, ⟨HuffTree.count_alike h.counts.1 v, h.counts.2⟩, hp.window, hp.tokens, hp.chains⟩

theorem CU.Twins.tallyDist (d l : Nat) : CU.Twins k b (c.tallyDist d l) (e.tallyDist d l) := by
  have hp := h.pushToken d (l - 3)
  obtain ⟨u, rfl⟩ := h.exists
  exact ⟨rfl, ⟨HuffTree.count_alike h.counts.1 (lcode l), HuffTree.count_alike h.counts.2.1 (dcode d), h.counts.2.2⟩, hp.window, hp.tokens,
    hp.chains⟩

/-! ## The greedy algorithm (R168) -/

theorem CU.Twins.headHere (h1 : 1 ≤ c.strstart) (hb : c.strstart + 2 < b) : e.headHere = c.headHere := by
  have hhash := h.hash h1 hb
  obtain ⟨u, rfl⟩ := h.exists
  exact congrArg (c.head.get 15) hhash

end

section
variable {c e : CU}

/-- Insert and LongestMatch from the chain's head, which holds a position already passed. -/
theorem CU.Twins.searchHere (h : c.Paired e) (h1 : 1 ≤ c.strstart) (h3 : 3 ≤ c.lookahead) (hne : c.headHere ≠ 0) :
    (e.insert.longestMatch c.headHere).1 = (c.insert.longestMatch c.headHere).1 ∧
      CU.Twins (c.strstart + 1) (c.strstart + c.lookahead) (c.insert.longestMatch c.headHere).2 (e.insert.longestMatch c.headHere).2 := by
  have hpassed := (h.chains.1 (c.hash c.strstart)).resolve_left hne
  exact ((h.mono (Nat.le_succ _) le_rfl).insert h1 (Nat.lt_succ_self _) (by omega)).longestMatch h1 le_rfl le_rfl
    (Nat.one_le_iff_ne_zero.mpr hne) hpassed.le

theorem CU.Twins.fastSearch (h : c.Paired e) (h1 : 1 ≤ c.strstart) :
    e.fastSearch.1 = c.fastSearch.1 ∧ CU.Twins (c.strstart + 1) (c.strstart + c.lookahead) c.fastSearch.2 e.fastSearch.2 := by
  have hwide := h.mono (Nat.le_succ _) le_rfl
  have hlook : e.lookahead = c.lookahead := by rw [h.rest]; rfl
  by_cases h3 : 3 ≤ c.lookahead
  · have hhead : e.headHere = c.headHere := h.headHere h1 (by omega)
    have hstrategy : e.insert.strategy = c.insert.strategy := by rw [h.rest]; rfl
    have hstr : e.insert.strstart = c.insert.strstart := by rw [h.rest]; rfl
    have hinsert := hwide.insert h1 (Nat.lt_succ_self _) (by omega)
    simp only [CU.fastSearch, hlook, hhead, hstrategy, hstr]
    rw [if_pos (show MIN_MATCH ≤ c.lookahead from h3), if_pos (show MIN_MATCH ≤ c.lookahead from h3)]
    split
    · next hc => exact h.searchHere h1 h3 hc.1
    · exact ⟨rfl, hinsert⟩
  · rw [show c.fastSearch = (false, c) from if_neg h3, show e.fastSearch = (false, e) from if_neg (hlook ▸ h3)]
    exact ⟨rfl, hwide⟩

theorem CU.Twins.fastMatch (h : CU.Twins (c.strstart + 1) (c.strstart + c.lookahead) c e) (hlow : 1 ≤ c.matchLen)
    (hlen : c.matchLen ≤ c.lookahead) : c.fastMatch.Paired e.fastMatch := by
  obtain ⟨f, hmoved, hpos⟩ := CU.fastMatch_moved (h.chains.mono (by omega)) le_rfl hlow hlen
  have hwide : CU.Twins (c.strstart + c.matchLen) (c.strstart + c.lookahead) c e := h.mono (by omega) le_rfl
  have hgoal : CU.Twins (c.strstart + c.matchLen) (c.strstart + c.lookahead) c.fastMatch e.fastMatch := by
    obtain ⟨u, rfl⟩ := h.exists
    have ht := hwide.tallyDist (c.strstart - c.matchStart).toNat c.matchLen
    have hg := ht.move id (· - c.matchLen)
    by_cases hi : c.matchLen ≤ (levelRow c.level).lazyLen ∧ 3 ≤ c.lookahead - c.matchLen
    · have hrun := (hg.insertAhead (c.matchLen - 1) (show c.strstart + (c.matchLen - 1) < _ by omega)
        (show c.strstart + (c.matchLen - 1) + 2 < _ by omega)).move (· + 1) id
      rw [show c.fastMatch = _ from congrArg (fun f : CU => { f with matchLen := 2 }) (if_pos hi),
        show (c.withUnseen u).fastMatch = _ from congrArg (fun f : CU => { f with matchLen := 2 }) (if_pos hi)]
      exact hrun.setMatchLen 2
    · have hrun := hg.move (· + c.matchLen) id
      rw [show c.fastMatch = _ from congrArg (fun f : CU => { f with matchLen := 2 }) (if_neg hi),
        show (c.withUnseen u).fastMatch = _ from congrArg (fun f : CU => { f with matchLen := 2 }) (if_neg hi)]
      exact hrun.setMatchLen 2
  have hstr : c.fastMatch.strstart = c.strstart + c.matchLen := by rw [hpos]; exact hmoved.strstart
  have hlook : c.fastMatch.lookahead = c.lookahead - c.matchLen := by rw [hpos]; exact hmoved.lookahead
  exact hgoal.mono (by omega) (by omega)

/-! ## The lazy algorithm (R169) -/

theorem CU.Twins.slowFilter {k b : Nat} (h : CU.Twins k b c e) : CU.Twins k b c.slowFilter e.slowFilter := by
  have hset := h.setMatchLen 2
  obtain ⟨u, rfl⟩ := h.exists
  by_cases hf : c.matchLen ≤ 5 ∧ (c.strategy = .filtered ∨ (c.matchLen = MIN_MATCH ∧ (TOO_FAR : Int) < c.strstart - c.matchStart))
  · rw [show c.slowFilter = _ from if_pos hf, show (c.withUnseen u).slowFilter = _ from if_pos hf]
    exact hset
  · rw [show c.slowFilter = _ from if_neg hf, show (c.withUnseen u).slowFilter = _ from if_neg hf]
    exact h

theorem CU.Twins.slowSearch (h : c.Paired e) (h1 : 1 ≤ c.strstart) :
    CU.Twins (c.strstart + 1) (c.strstart + c.lookahead) c.slowSearch e.slowSearch := by
  have hwide := h.mono (Nat.le_succ _) le_rfl
  have hlook : e.lookahead = c.lookahead := by rw [h.rest]; rfl
  by_cases h3 : 3 ≤ c.lookahead
  · have hhead : e.headHere = c.headHere := h.headHere h1 (by omega)
    have hstrategy : e.insert.strategy = c.insert.strategy := by rw [h.rest]; rfl
    have hlevel : e.insert.level = c.insert.level := by rw [h.rest]; rfl
    have hlen : e.matchLen = c.matchLen := by rw [h.rest]; rfl
    have hstr : e.insert.strstart = c.insert.strstart := by rw [h.rest]; rfl
    have hinsert := hwide.insert h1 (Nat.lt_succ_self _) (by omega)
    simp only [CU.slowSearch, hlook, hhead, hstrategy, hlevel, hlen, hstr]
    rw [if_pos (show MIN_MATCH ≤ c.lookahead from h3), if_pos (show MIN_MATCH ≤ c.lookahead from h3)]
    split
    · next hc =>
      obtain ⟨hfound, hsearch⟩ := h.searchHere h1 h3 hc.2.1
      rw [hfound]
      split
      · exact hsearch.slowFilter
      · exact hsearch
    · exact hinsert
  · rw [show c.slowSearch = c from if_neg h3, show e.slowSearch = e from if_neg (hlook ▸ h3)]
    exact hwide

theorem CU.slowSkips_strstart (n : Nat) (c : CU) : (CU.slowSkips n c).strstart = c.strstart + n := by
  induction n generalizing c with
  | zero => rfl
  | succ n ih => rw [CU.slowSkips, ih, c.slowSkip_position.1, Nat.add_assoc, Nat.add_comm 1 n]

theorem CU.Twins.slowMatch (h : CU.Twins (c.strstart + 1) (c.strstart + c.lookahead) c e) (start : Int) {len : Nat} (h3 : 3 ≤ len)
    (hlen : len ≤ c.lookahead + 1) : (c.slowMatch start len).Paired (e.slowMatch start len) := by
  have hpast : CU.Twins (c.strstart + max 1 (len - 2) + 1) (c.strstart + c.lookahead) c e := h.mono (by omega) le_rfl
  obtain ⟨u, rfl⟩ := h.exists
  have hrun := (((hpast.tallyDist (c.strstart - 1 - start).toNat len).slowSkips (max 1 (len - 2))
    (show c.strstart + max 1 (len - 2) < _ by omega) (show max 1 (len - 2) ≤ c.lookahead by omega) le_rfl).move (· + 1) (· - 1)
    |>.setPrevAvail false).setMatchLen 2
  have hstr : (c.slowMatch start len).strstart = c.strstart + max 1 (len - 2) + 1 := congrArg (· + 1) (CU.slowSkips_strstart _ _)
  have hlook : (c.slowMatch start len).lookahead = c.lookahead - (max 1 (len - 2) + 1) :=
    congrArg CU.Setting.lookahead (c.setting_slowMatch start len)
  exact CU.Twins.mono hrun (by omega) (by omega)

/-- Where a literal is owed, it stands inside the block. -/
def CU.OwedInside (c : CU) : Prop := c.prevAvail = true → c.blockStart < c.strstart

theorem CU.Twins.owedLiteral {k b : Nat} (h : CU.Twins k b c e) (h1 : 1 ≤ c.strstart) (hb : c.strstart ≤ b) (ho : c.OwedInside) :
    CU.Twins k b c.owedLiteral e.owedLiteral := by
  have havail : e.prevAvail = c.prevAvail := by rw [h.rest]; rfl
  by_cases hp : c.prevAvail = true
  · have hread : e.winAt (e.strstart - 1) = c.winAt (c.strstart - 1) := by
      rw [show e.strstart = c.strstart by rw [h.rest]; rfl]
      refine (h.window _ (by omega) fun hz => ?_).symm
      have := ho hp
      omega
    rw [show c.owedLiteral = _ from if_pos hp, show e.owedLiteral = _ from if_pos (havail.trans hp), hread]
    exact h.tallyLit _
  · rw [show c.owedLiteral = c from if_neg hp, show e.owedLiteral = e from if_neg (havail ▸ hp)]
    exact h

end

/-! ## Slide and fill (R161, R162) -/

section
variable {c e : CU}

theorem CU.Twins.slide (h : c.Paired e) (hs : 32769 ≤ c.strstart) (hhigh : c.strstart + c.lookahead ≤ 65536) :
    c.slide.Paired e.slide := by
  obtain ⟨u, rfl⟩ := h.exists
  have hk : c.strstart ≤ c.strstart - 32768 + 32768 := by omega
  refine ⟨rfl, h.counts, fun p hp _ => ?_, h.tokens, Tbl.allBelow_rebase (k := 32768) (Tbl.allBelow_mono h.chains.1 hk),
    Tbl.allBelow_rebase (k := 32768) (Tbl.allBelow_mono h.chains.2 hk)⟩
  have hp : p < c.strstart - 32768 + c.lookahead := hp
  have hlow : p < 2 ^ 15 := by omega
  have hmoved (d : CU) : d.slide.winAt p = d.winAt (p + 2 ^ 15) := Tbl.get_copyUpper (d := 15) d.win hlow
  rw [hmoved, hmoved]
  exact h.window (p + 2 ^ 15) (by omega) fun hz => by omega

theorem CU.Twins.slideIf (h : c.Paired e) (hhigh : c.strstart + c.lookahead ≤ 65536) {p q : Prop} [Decidable p] [Decidable q]
    (hpq : q ↔ p) (hp : p → 32769 ≤ c.strstart) : (if p then c.slide else c).Paired (if q then e.slide else e) := by
  by_cases h0 : p
  · rw [if_pos h0, if_pos (hpq.mpr h0)]
    exact h.slide (hp h0) hhigh
  · rw [if_neg h0, if_neg fun hq => h0 (hpq.mp hq)]
    exact h

/-- Bound bytes taken into the window are the same for both. -/
theorem CU.Twins.take (h : c.Paired e) (m : Memory) : (c.take m).Paired (e.take m) := by
  obtain ⟨u, rfl⟩ := h.exists
  refine ⟨rfl, h.counts, fun p hp h0 => ?_, h.tokens, h.chains⟩
  have hp : p < c.strstart + (c.lookahead + c.fillCount) := hp
  refine Tbl.get_setList_alike _ ?_
  by_cases hin : p < c.strstart + c.lookahead
  · exact .inr (h.window p hin h0)
  · refine .inl ⟨by omega, ?_⟩
    rw [List.length_map, Memory.readBytes_length]
    omega

theorem CU.Twins.fill (h : c.Paired e) (hhigh : c.strstart + c.lookahead ≤ 65536) (m : Memory) : (c.fill m).Paired (e.fill m) := by
  have hstr : e.strstart = c.strstart := by rw [h.rest]; rfl
  have hs : c.slideIfFull.Paired e.slideIfFull :=
    h.slideIf hhigh (by rw [hstr]) fun hp => by simp only [WSIZE, MAX_DIST] at hp; omega
  have ht := hs.take m
  simp only [CU.fill]
  obtain ⟨u, hu⟩ := hs.exists
  rw [show (decide (e.slideIfFull.lookahead < MIN_LOOKAHEAD) && decide (e.slideIfFull.inPtr < e.slideIfFull.inEnd)) =
    (decide (c.slideIfFull.lookahead < MIN_LOOKAHEAD) && decide (c.slideIfFull.inPtr < c.slideIfFull.inEnd)) by rw [hu]; rfl]
  split
  · exact ht
  · exact hs

/-! ## One token (R168, R169) -/

theorem CU.Searched.keeps (h : c.Searched e) :
    e.strstart = c.strstart ∧ e.lookahead = c.lookahead ∧ e.blockStart = c.blockStart ∧ e.prevAvail = c.prevAvail := by
  obtain ⟨head, prev, start, len, rfl, -⟩ := h
  exact ⟨rfl, rfl, rfl, rfl⟩

theorem CU.Twins.fastLiteral (h : CU.Twins (c.strstart + 1) (c.strstart + c.lookahead) c e) (h1 : 1 ≤ c.strstart) (hl : c.lookahead ≠ 0) :
    c.fastLiteral.Paired e.fastLiteral := by
  have hread : e.winAt e.strstart = c.winAt c.strstart := by
    rw [show e.strstart = c.strstart by rw [h.rest]; rfl]
    exact (h.window _ (by omega) fun hz => by omega).symm
  have ht := (h.tallyLit (c.winAt c.strstart)).move (· + 1) (· - 1)
  rw [show e.fastLiteral = _ from congrArg (fun v => { e.tallyLit v with
    strstart := (e.tallyLit v).strstart + 1, lookahead := (e.tallyLit v).lookahead - 1 }) hread]
  exact ht.mono le_rfl (show c.strstart + 1 + (c.lookahead - 1) ≤ _ by omega)

variable {top : Nat}

theorem CU.Twins.fastToken (h : c.Paired e) (hE : c.Engine top) (hm : c.matchLen = 2) (hl : c.lookahead ≠ 0) :
    c.fastToken.Paired e.fastToken := by
  have hfar (hp : CWIN - MIN_LOOKAHEAD < c.strstart) : 32769 ≤ c.strstart := by simp only [CWIN, MIN_LOOKAHEAD] at hp; omega
  have hd := h.slideIf (q := CWIN - MIN_LOOKAHEAD < e.strstart) hE.window.positionHigh (by rw [h.rest]; rfl) hfar
  have hdE := hE.slideIf hfar
  have hlen : (if CWIN - MIN_LOOKAHEAD < c.strstart then c.slide else c).matchLen = 2 := by split <;> exact hm
  have hlook : (if CWIN - MIN_LOOKAHEAD < c.strstart then c.slide else c).lookahead ≠ 0 := by split <;> exact hl
  simp only [CU.fastToken]
  generalize (if CWIN - MIN_LOOKAHEAD < c.strstart then c.slide else c) = d at hd hdE hlen hlook
  generalize (if CWIN - MIN_LOOKAHEAD < e.strstart then e.slide else e) = d' at hd
  obtain ⟨hfound, hsearch⟩ := hd.fastSearch hdE.window.strstartLow
  obtain ⟨hs, hyes, -⟩ := CU.fastSearch_spec hdE.window hdE.held
  obtain ⟨hstr, hla, -, -⟩ := hs.keeps
  rw [← hstr, ← hla] at hsearch
  rw [hfound]
  split
  · next hr =>
    have h3 := hyes hr
    obtain ⟨head, prev, start, len, hf, -, -, -, hfit⟩ := hs
    rw [show d.fastSearch.2.matchLen = len by rw [hf]] at h3
    refine hsearch.fastMatch ?_ ?_ <;> rw [show d.fastSearch.2.matchLen = len by rw [hf]]
    · omega
    · rw [hla]
      omega
  · exact hsearch.fastLiteral (hstr ▸ hdE.window.strstartLow) (hla ▸ hlook)

/-- The position passed over, its literal owed (R169). -/
def CU.deferred (c : CU) : CU :=
  { c.owedLiteral with prevAvail := true, strstart := c.owedLiteral.strstart + 1, lookahead := c.owedLiteral.lookahead - 1 }

theorem CU.Twins.deferred (h : CU.Twins (c.strstart + 1) (c.strstart + c.lookahead) c e) (h1 : 1 ≤ c.strstart) (hl : c.lookahead ≠ 0)
    (ho : c.OwedInside) : c.deferred.Paired e.deferred := by
  have ht := ((h.owedLiteral h1 (Nat.le_add_right _ _) ho).move (· + 1) (· - 1)).setPrevAvail true
  have hpos : c.owedLiteral.strstart = c.strstart ∧ c.owedLiteral.lookahead = c.lookahead := by
    rcases c.owedLiteral_cases with hc | hc <;> rw [hc] <;> exact ⟨rfl, rfl⟩
  have hstr : c.deferred.strstart = c.strstart + 1 := congrArg (· + 1) hpos.1
  have hlook : c.deferred.lookahead = c.lookahead - 1 := congrArg (· - 1) hpos.2
  exact CU.Twins.mono ht (by omega) (by omega)

/-- One pass of the lazy loop from its slid CU: a match emitted, or the position deferred. -/
theorem CU.slowToken_eq (c : CU) : ∃ d, d = (if CWIN - MIN_LOOKAHEAD ≤ c.strstart then c.slide else c) ∧ c.slowToken =
    if 3 ≤ d.matchLen ∧ d.slowSearch.matchLen ≤ d.matchLen then d.slowSearch.slowMatch d.matchStart d.matchLen else d.slowSearch.deferred :=
  ⟨_, rfl, rfl⟩

theorem CU.Twins.slowToken (h : c.Paired e) (hE : c.Engine top) (hl : c.lookahead ≠ 0) (ho : c.OwedInside) :
    c.slowToken.Paired e.slowToken ∧ c.slowToken.OwedInside := by
  have hfar (hp : CWIN - MIN_LOOKAHEAD ≤ c.strstart) : 32769 ≤ c.strstart := by simp only [CWIN, MIN_LOOKAHEAD] at hp; omega
  have hd := h.slideIf (q := CWIN - MIN_LOOKAHEAD ≤ e.strstart) hE.window.positionHigh (by rw [h.rest]; rfl) hfar
  have hdE := hE.slideIf hfar
  have hlook : (if CWIN - MIN_LOOKAHEAD ≤ c.strstart then c.slide else c).lookahead ≠ 0 := by split <;> exact hl
  have hod : (if CWIN - MIN_LOOKAHEAD ≤ c.strstart then c.slide else c).OwedInside := by
    split
    · next hp =>
      intro hav
      have hlt := ho hav
      have hbig := hfar hp
      simp only [CU.slide_blockStart, CU.slide_strstart, WSIZE]
      omega
    · exact ho
  obtain ⟨d, hdeq, hdt⟩ := c.slowToken_eq
  obtain ⟨d', hdeq', hdt'⟩ := e.slowToken_eq
  rw [← hdeq] at hd hdE hlook hod
  rw [← hdeq'] at hd
  rw [hdt, hdt']
  have hsearch := hd.slowSearch hdE.window.strstartLow
  have hs := CU.slowSearch_searched hdE.window hdE.held
  obtain ⟨hstr, hla, hblock, hav⟩ := hs.keeps
  have hcond : d'.matchLen = d.matchLen ∧ d'.slowSearch.matchLen = d.slowSearch.matchLen ∧ d'.matchStart = d.matchStart := by
    rw [hsearch.rest, hd.rest]
    exact ⟨rfl, rfl, rfl⟩
  rw [← hstr, ← hla] at hsearch
  rw [hcond.1, hcond.2.1, hcond.2.2]
  split
  · next hm =>
    have hinside := hdE.held.inside.resolve_left (by omega)
    exact ⟨hsearch.slowMatch _ hm.1 (by omega), nofun⟩
  · have hos : d.slowSearch.OwedInside := by rw [CU.OwedInside, hav, hblock, hstr]; exact hod
    refine ⟨hsearch.deferred (hstr ▸ hdE.window.strstartLow) (hla ▸ hlook) hos, fun _ => ?_⟩
    have hle := hdE.window.blockStart
    have hpos : d.slowSearch.owedLiteral.strstart = d.strstart ∧ d.slowSearch.owedLiteral.blockStart = d.blockStart := by
      rw [← hstr, ← hblock]
      rcases d.slowSearch.owedLiteral_cases with hc | hc <;> rw [hc] <;> exact ⟨rfl, rfl⟩
    show d.slowSearch.owedLiteral.blockStart < ((d.slowSearch.owedLiteral.strstart + 1 : Nat) : Int)
    rw [hpos.1, hpos.2]
    omega

end

end Sys2Proof.Machine

/-! PROOFS. Two CUs that agree on what is read emit the same block (70_reset_and_hazards.md R395; 42_huffman_encoder.md R201 to R213): the trees are
built anew from the frequencies, and the codes from the trees. -/

namespace Sys2Proof.Machine

/-! ## Trees (R204 to R206) -/

/-- The construction reads the frequencies only, and writes all but the code. -/
theorem HuffTree.build_alike {t u : HuffTree} (h : t.freq = u.freq) (n min limit : Nat) :
    u.build n min limit = (t.build n min limit).map fun b => { b with code := u.code } := by
  simp only [HuffTree.build, ← h]
  split <;> rfl

theorem HuffTree.foldl_count_alike (items : List RleItem) {t u : HuffTree} (h : t.freq = u.freq) :
    (items.foldl (fun t r => t.count r.sym) t).freq = (items.foldl (fun t r => t.count r.sym) u).freq := by
  induction items generalizing t u with
  | nil => exact h
  | cons r items ih => exact ih (HuffTree.count_alike h r.sym)

theorem HuffTree.clear_alike {t u : HuffTree} (h : t.freq = u.freq) : t.clear.freq = u.clear.freq := by
  simp only [HuffTree.clear, h]

/-- One tree's code is built from its lengths. -/
theorem HuffTree.buildCodes_codeField {t u : HuffTree} (h : t.len = u.len) : u.buildCodes.codeField = t.buildCodes.codeField := by
  funext s
  simp only [HuffTree.codeField, HuffTree.buildCodes, h]

/-- Two CUs whose trees have the same lengths. -/
structure CU.SameLengths (c e : CU) : Prop where
  lit : c.lit.len = e.lit.len ∧ c.lit.num = e.lit.num
  dist : c.dist.len = e.dist.len ∧ c.dist.num = e.dist.num
  bl : c.bl.len = e.bl.len

section
variable {k b : Nat} {c e : CU} (h : CU.Twins k b c e)
include h

/-- The trees set alike. -/
theorem CU.Twins.setTrees {lit lit' dist dist' bl bl' : HuffTree} (hlit : lit.freq = lit'.freq) (hdist : dist.freq = dist'.freq)
    (hbl : bl.freq = bl'.freq) :
    CU.Twins k b { c with lit := lit, dist := dist, bl := bl } { e with lit := lit', dist := dist', bl := bl' } := by
  obtain ⟨u, rfl⟩ := h.exists
  exact ⟨rfl, ⟨hlit, hdist, hbl⟩, h.window, h.tokens, h.chains⟩

theorem CU.Twins.buildTrees :
    Run.Twins (fun _ d f => CU.Twins k b d f ∧ d.SameLengths f ∧ d.blockStart = c.blockStart) (fun _ _ _ => True) c.buildTrees e.buildTrees := by
  simp only [CU.buildTrees]
  rw [HuffTree.build_alike (HuffTree.count_alike h.counts.1 256)]
  cases hlit : (c.lit.count 256).build LIT_NUM 257 MAX_BITS with
  | none => exact .raise trivial
  | some lit =>
    simp only [Option.map_some]
    rw [HuffTree.build_alike h.counts.2.1]
    cases hdist : c.dist.build DIST_NUM 1 MAX_BITS with
    | none => exact .raise trivial
    | some dist =>
      simp only [Option.map_some]
      have hbl := HuffTree.foldl_count_alike (rle (lit.len.take lit.num) ++ rle (dist.len.take dist.num)) h.counts.2.2
      rw [HuffTree.build_alike hbl]
      cases (List.foldl (fun t r => t.count r.sym) c.bl (rle (lit.len.take lit.num) ++ rle (dist.len.take dist.num))).build
        BL_NUM 4 MAX_BL_BITS with
      | none => exact .raise trivial
      | some bl => exact .done ⟨h.setTrees rfl rfl rfl, ⟨⟨rfl, rfl⟩, ⟨rfl, rfl⟩, rfl⟩, rfl⟩

/-! ## Emission (R209 to R213) -/

theorem CU.Twins.setOut (out : BitOut) : CU.Twins k b { c with out := out } { e with out := out } := by
  obtain ⟨u, rfl⟩ := h.exists
  exact h.carry rfl rfl rfl rfl rfl rfl rfl id h.chains

theorem CU.Twins.writeFields (fields : List (Nat × Nat)) : CU.Twins k b (c.writeFields fields) (e.writeFields fields) := by
  rw [show e.writeFields fields = { e with out := c.out.writeFields fields } by rw [h.rest]; rfl]
  exact h.setOut _

theorem CU.Twins.huffReset : CU.Twins k b c.huffReset e.huffReset := by
  obtain ⟨u, rfl⟩ := h.exists
  obtain ⟨hlit, hdist, hbl⟩ := h.counts
  exact ⟨rfl, ⟨HuffTree.clear_alike hlit, HuffTree.clear_alike hdist, HuffTree.clear_alike hbl⟩, h.window, nofun, h.chains⟩

/-- The tokens are the same, and so are their fields in the same codes. -/
theorem CU.Twins.compressBlock (hlit : e.lit.codeField = c.lit.codeField) (hdist : e.dist.codeField = c.dist.codeField) :
    CU.Twins k b c.compressBlock e.compressBlock := by
  have hfields (n : Nat) (hn : n < c.tokN) : e.tokenFields n = c.tokenFields n := by
    simp only [CU.tokenFields, hlit, hdist, (h.tokens n hn).1, (h.tokens n hn).2]
  have hall : (List.range e.tokN).flatMap e.tokenFields = (List.range c.tokN).flatMap c.tokenFields := by
    rw [show e.tokN = c.tokN by rw [h.rest]; rfl]
    exact List.flatMap_congr fun n hn => hfields n (List.mem_range.mp hn)
  rw [CU.compressBlock, CU.compressBlock, hall, hlit]
  exact h.writeFields _

theorem CU.Twins.fixedBlock (last : Bool) : CU.Twins k b (c.fixedBlock last) (e.fixedBlock last) := by
  have hw := h.writeFields [(2 + last.toNat, 3)]
  exact ((hw.setTrees (lit := (c.writeFields [(2 + last.toNat, 3)]).setFixed.lit) (lit' := (e.writeFields [(2 + last.toNat, 3)]).setFixed.lit)
    (dist := (c.writeFields [(2 + last.toNat, 3)]).setFixed.dist) (dist' := (e.writeFields [(2 + last.toNat, 3)]).setFixed.dist)
    h.counts.1 h.counts.2.1 h.counts.2.2).compressBlock rfl rfl).huffReset

theorem CU.Twins.emitDynamicHeader (hlen : c.SameLengths e) (hcode : e.bl.codeField = c.bl.codeField) (items : List RleItem) (n : Nat) :
    CU.Twins k b (c.emitDynamicHeader items n) (e.emitDynamicHeader items n) := by
  rw [CU.emitDynamicHeader, CU.emitDynamicHeader, ← hlen.lit.2, ← hlen.dist.2, ← hlen.bl, hcode]
  exact h.writeFields _

theorem CU.Twins.dynamicBlock (hlen : c.SameLengths e) (last : Bool) (items : List RleItem) :
    CU.Twins k b (c.dynamicBlock last items) (e.dynamicBlock last items) := by
  have hw := h.writeFields [(4 + last.toNat, 3)]
  have hcodes : CU.Twins k b (c.writeFields [(4 + last.toNat, 3)]).withCodes (e.writeFields [(4 + last.toNat, 3)]).withCodes :=
    hw.setTrees h.counts.1 h.counts.2.1 h.counts.2.2
  rw [CU.dynamicBlock, CU.dynamicBlock, ← hlen.bl]
  exact ((hcodes.emitDynamicHeader ⟨hlen.lit, hlen.dist, hlen.bl⟩ (HuffTree.buildCodes_codeField hlen.bl) items _).compressBlock
    (HuffTree.buildCodes_codeField hlen.lit.1) (HuffTree.buildCodes_codeField hlen.dist.1)).huffReset

/-- A procedure of the output buffer, from the same output. -/
theorem CU.Twins.withOut (r : Run BitOut Unit) :
    Run.Twins (fun _ => CU.Twins k b) (fun _ _ _ => True) (c.withOut r) (e.withOut r) := by
  cases r with
  | done _ o => exact .done (h.setOut o)
  | raise _ o => exact .raise trivial
  | stuck => exact .stuck _

theorem CU.Twins.emitStored (data : List Byte) (last : Bool) :
    Run.Twins (fun _ => CU.Twins k b) (fun _ _ _ => True) (c.emitStored data last) (e.emitStored data last) := by
  rw [CU.emitStored, CU.emitStored, show e.out = c.out by rw [h.rest]; rfl]
  exact (h.withOut _).bind fun _ _ _ hf => .done hf.huffReset

/-- The block's bytes stand in the known window, from its start on. -/
theorem CU.Twins.winBytes (h0 : 0 ≤ c.blockStart) {n : Nat} (hn : c.blockStart + n ≤ b) :
    e.winBytes c.blockStart.toNat n = c.winBytes c.blockStart.toNat n := by
  refine List.map_congr_left fun i hi => ?_
  have hi := List.mem_range.mp hi
  rw [h.window (c.blockStart.toNat + i) (by omega) fun hz => by omega]

theorem CU.Twins.emitBlock (hlen : c.SameLengths e) {n : Nat} (hn : c.blockStart + n ≤ b) (last : Bool) (items : List RleItem) :
    Run.Twins (fun _ => CU.Twins k b) (fun _ _ _ => True) (c.emitBlock c.blockStart n last items) (e.emitBlock c.blockStart n last items) := by
  obtain ⟨hlit, hdist, -⟩ := h.counts
  have hextra : e.extra = c.extra := by rw [h.rest]; rfl
  have hstat : e.statBits = c.statBits := by rw [CU.statBits, CU.statBits, hlit, hdist, hextra]
  have hdyn (m : Nat) : e.dynBits items m = c.dynBits items m := by
    rw [CU.dynBits, CU.dynBits, hlit, hdist, hextra, hlen.lit.1, hlen.dist.1, hlen.bl]
  simp only [CU.emitBlock, hstat, hdyn, ← hlen.bl]
  generalize (if c.statBits ≤ c.dynBits items (blcodes c.bl.len) then c.statBits else c.dynBits items (blcodes c.bl.len)) = opt
  split
  · next hstored =>
    rw [h.winBytes hstored.1 hn]
    exact h.emitStored _ last
  · split
    · exact .done (h.fixedBlock last)
    · have hd := h.dynamicBlock hlen last items
      rw [CU.dynamicBlock, CU.dynamicBlock, ← hlen.bl] at hd
      exact .done (P := fun _ => CU.Twins k b) hd

/-- A block flushed from C_BLOCK_START (R210). -/
theorem CU.Twins.flushBlock {n : Nat} (hn : c.blockStart + n ≤ b) (last : Bool) :
    Run.Twins (fun _ => CU.Twins k b) (fun _ _ _ => True) (c.flushBlock c.blockStart n last) (e.flushBlock e.blockStart n last) := by
  rw [show e.blockStart = c.blockStart by rw [h.rest]; rfl]
  refine h.buildTrees.bind fun items d f ⟨hd, hlen, hstart⟩ => ?_
  rw [← hstart] at hn ⊢
  exact hd.emitBlock hlen hn last items

end

end Sys2Proof.Machine

/-! PROOFS. Two CUs that agree on what is read take the same passes of the engine, and agree again (70_reset_and_hazards.md R395;
41_match_engine.md R167 to R170). -/

namespace Sys2Proof.Machine

/-! ## The end of a block -/

theorem CU.Twins.setBlock {k b : Nat} {c e : CU} (h : CU.Twins k b c e) {v : Int} (hv : c.blockStart ≤ v) :
    CU.Twins k b { c with blockStart := v } { e with blockStart := v } := by
  obtain ⟨u, rfl⟩ := h.exists
  exact h.carry rfl rfl rfl rfl rfl rfl rfl hv.trans h.chains

/-- The next block starts at C_STRSTART. -/
theorem CU.Twins.endBlock {c e : CU} (h : c.Paired e) (hle : c.blockStart ≤ c.strstart) :
    CU.Paired { c with blockStart := c.strstart } { e with blockStart := e.strstart } := by
  obtain ⟨u, rfl⟩ := h.exists
  exact CU.Twins.setBlock h hle

/-- A flushed block leaves the position where it was. -/
theorem CU.Emitted.keeps {c e : CU} (h : c.Emitted e) :
    e.strstart = c.strstart ∧ e.lookahead = c.lookahead ∧ e.blockStart = c.blockStart ∧ e.prevAvail = c.prevAvail := by
  obtain ⟨out, lit, dist, bl, rfl, -⟩ := h
  exact ⟨rfl, rfl, rfl, rfl⟩

section
variable {c e : CU} {top : Nat}

/-- A block flushed from C_BLOCK_START, and what is known of it alone. -/
theorem CU.Twins.flushed (h : c.Paired e) (hE : c.Engine top) {n : Nat} (hn : n ≤ c.blockLength) (last : Bool) :
    Run.Twins (fun _ d f => d.Paired f ∧ c.Emitted d) (fun _ _ _ => True) (c.flushBlock c.blockStart n last)
      (e.flushBlock e.blockStart n last) := by
  have hlow := hE.window.blockStart
  refine ((h.flushBlock (n := n) ?_ last).and_ends (CU.flushBlock_ends hE.tokens hE.out c.blockStart n last)).mono
    (fun _ d f ⟨hd, hk⟩ => ⟨?_, hk⟩) fun _ _ _ _ => trivial
  · simp only [CU.blockLength] at hn
    omega
  · obtain ⟨hstr, hla, -⟩ := hk.keeps
    rwa [CU.Paired, hstr, hla]

/-- A block flushed up to C_STRSTART. -/
theorem CU.Twins.flushAll (h : c.Paired e) (hE : c.Engine top) (last progress : Bool) :
    Run.Twins (fun _ d f => d.Paired f ∧ d.prevAvail = c.prevAvail) (fun _ _ _ => True)
      ((c.flushBlock c.blockStart c.blockLength last).bind fun _ d => .done progress { d with blockStart := d.strstart })
      ((e.flushBlock e.blockStart e.blockLength last).bind fun _ d => .done progress { d with blockStart := d.strstart }) := by
  rw [show e.blockLength = c.blockLength by rw [h.rest]; rfl]
  refine (h.flushed hE le_rfl last).bind fun _ d f ⟨hd, hk⟩ => .done ⟨?_, hk.keeps.2.2.2⟩
  obtain ⟨hstr, -, hblock, -⟩ := hk.keeps
  have hlow := hE.window.blockStart
  exact hd.endBlock (by omega)

/-! ## The greedy algorithm (R168) -/

theorem CU.Twins.fastLoop (flush finish : Bool) (fuel : Nat) {c e : CU} (h : c.Paired e) (hE : c.Engine top) (hn : c.tokN < 16384)
    (hm : c.matchLen = 2) :
    Run.Twins (fun _ => CU.Paired) (fun _ _ _ => True) (CU.fastLoop flush finish fuel c) (CU.fastLoop flush finish fuel e) := by
  induction fuel generalizing c e with
  | zero => exact .stuck _
  | succ fuel ih =>
    simp only [CU.fastLoop]
    rw [show e.lookahead = c.lookahead by rw [h.rest]; rfl]
    split
    · exact .done h
    · split
      · exact (h.flushAll hE _ _).mono (fun _ _ _ hf => hf.1) fun _ _ _ => id
      · next hl =>
        have ht := h.fastToken hE hm hl
        obtain ⟨htE, htm⟩ := hE.fastToken hn hm hl
        generalize c.fastToken = d at ht htE htm
        generalize e.fastToken = f at ht
        rw [show f.tokensFull = d.tokensFull by rw [ht.rest]; rfl, show f.lookahead = d.lookahead by rw [ht.rest]; rfl]
        split
        · exact (ht.flushAll htE _ _).mono (fun _ _ _ hf => hf.1) fun _ _ _ => id
        · next hfull => exact ih ht htE (CU.tokN_lt_of_not_full hfull) htm

/-! ## The lazy algorithm (R169) -/

/-- A block flushed up to C_STRSTART, or up to the literal still owed. -/
theorem CU.Twins.flushPart (h : c.Paired e) (hE : c.Engine top) (ho : c.OwedInside) (last progress : Bool) {n : Nat}
    (hn : n = if c.prevAvail then c.blockLength - 1 else c.blockLength) :
    Run.Twins (fun _ d f => d.Paired f ∧ d.OwedInside) (fun _ _ _ => True)
      ((c.flushBlock c.blockStart n last).bind fun _ d => .done progress { d with blockStart := d.blockStart + n })
      ((e.flushBlock e.blockStart n last).bind fun _ d => .done progress { d with blockStart := d.blockStart + n }) := by
  have hle : n ≤ c.blockLength := by rw [hn]; split <;> omega
  refine (h.flushed hE hle last).bind fun _ d f ⟨hd, hk⟩ => .done ⟨?_, fun hav => ?_⟩
  · rw [show f.blockStart = d.blockStart by rw [hd.rest]; rfl]
    exact hd.setBlock (by omega)
  · obtain ⟨hstr, -, hblock, hprev⟩ := hk.keeps
    have hav : c.prevAvail = true := hprev ▸ hav
    have hlt := ho hav
    rw [if_pos hav] at hn
    show d.blockStart + n < d.strstart
    simp only [CU.blockLength] at hn
    omega

/-- The literal still owed, if any, is no longer owed (R169). -/
def CU.withoutOwed (c : CU) : CU := { c.owedLiteral with prevAvail := false }

theorem CU.Twins.withoutOwed (h : c.Paired e) (hE : c.Engine top) (hn : c.tokN < 16384) (ho : c.OwedInside) :
    c.withoutOwed.Paired e.withoutOwed ∧ c.withoutOwed.Engine top := by
  have hl := (h.owedLiteral hE.window.strstartLow (Nat.le_add_right _ _) ho).setPrevAvail false
  have hlE := (hE.owedLiteral hn).1
  refine ⟨?_, { hlE.window with }, { hlE.held with }, { hlE.tokens with }, hlE.out, { hlE.busy with }⟩
  have hpos : c.withoutOwed.strstart = c.strstart ∧ c.withoutOwed.lookahead = c.lookahead := by
    unfold CU.withoutOwed
    rcases c.owedLiteral_cases with hc | hc <;> rw [hc] <;> exact ⟨rfl, rfl⟩
  rw [CU.Paired, hpos.1, hpos.2]
  exact hl

/-- The last block flushed, with the literal still owed, if any. -/
theorem CU.Twins.flushOwed (h : c.Paired e) (hE : c.Engine top) (hn : c.tokN < 16384) (ho : c.OwedInside) (last : Bool) :
    Run.Twins (fun _ d f => d.Paired f ∧ d.OwedInside) (fun _ _ _ => True)
      ((c.withoutOwed.flushBlock c.withoutOwed.blockStart c.withoutOwed.blockLength last).bind
        fun _ d => .done false { d with blockStart := d.strstart })
      ((e.withoutOwed.flushBlock e.withoutOwed.blockStart e.withoutOwed.blockLength last).bind
        fun _ d => .done false { d with blockStart := d.strstart }) := by
  obtain ⟨hp, hpE⟩ := h.withoutOwed hE hn ho
  have hnone : c.withoutOwed.prevAvail = false := rfl
  generalize c.withoutOwed = d at hp hpE hnone
  generalize e.withoutOwed = f at hp
  refine (hp.flushAll hpE last false).mono (fun _ g _ ⟨hg, hav⟩ => ⟨hg, fun hyes => ?_⟩) fun _ _ _ => id
  rw [hav, hnone] at hyes
  cases hyes

theorem CU.Twins.slowLoop (flush finish : Bool) (fuel : Nat) {c e : CU} (h : c.Paired e) (hE : c.Engine top) (hn : c.tokN < 16384)
    (hf : (levelRow c.level).func = .slow) (ho : c.OwedInside) :
    Run.Twins (fun _ d f => d.Paired f ∧ d.OwedInside) (fun _ _ _ => True) (CU.slowLoop flush finish fuel c)
      (CU.slowLoop flush finish fuel e) := by
  induction fuel generalizing c e with
  | zero => exact .stuck _
  | succ fuel ih =>
    simp only [CU.slowLoop]
    rw [show e.lookahead = c.lookahead by rw [h.rest]; rfl]
    split
    · exact .done ⟨h, ho⟩
    · split
      · exact h.flushOwed hE hn ho finish
      · next hl =>
        obtain ⟨ht, hto⟩ := h.slowToken hE hl ho
        obtain ⟨htE, htl⟩ := hE.slowToken hn hf hl
        generalize c.slowToken = d at ht hto htE htl
        generalize e.slowToken = f at ht
        rw [show f.tokensFull = d.tokensFull by rw [ht.rest]; rfl, show f.lookahead = d.lookahead by rw [ht.rest]; rfl,
          show f.prevAvail = d.prevAvail by rw [ht.rest]; rfl, show f.blockLength = d.blockLength by rw [ht.rest]; rfl]
        split
        · exact ht.flushPart htE hto _ _ rfl
        · next hfull => exact ih ht htE (CU.tokN_lt_of_not_full hfull) (htl ▸ hf) hto

end

/-! ## What else the relation between commands says -/

/-- The block stands in the window, and is not slid out of it by the next Fill. -/
def CU.StoredInside (c : CU) : Prop := 0 ≤ c.blockStart ∧ (65274 ≤ c.strstart → 32768 ≤ c.blockStart)

/-- At level 0 the block stands in the window; in the lazy algorithm so does a literal that is owed. -/
structure CU.Inside (c : CU) : Prop where
  stored : c.level = 0 → c.StoredInside
  owed : (levelRow c.level).func = .slow → c.OwedInside

/-- Level 0 leaves no lookahead. -/
def CU.Drained (c : CU) : Prop := c.level = 0 → c.lookahead = 0

theorem levelRow_func_stored : ∀ l : Fin 10, (levelRow l).func = .stored ↔ l = 0 := by decide

section
variable {c e : CU}

theorem CU.Agrees.paired (h : c.Agrees e) : c.Paired e := ⟨h.rest, h.counts, h.window, h.tokens, h.passed⟩

theorem CU.Agrees.inside (h : c.Agrees e) : c.Inside := ⟨fun h0 => (h.storedBlock h0).2, h.owed⟩

theorem CU.Twins.agrees (h : c.Paired e) (hi : c.Inside) (hd : c.Drained) : c.Agrees e :=
  ⟨h.rest, h.counts, h.window, h.tokens, h.chains, fun h0 => ⟨hd h0, hi.stored h0⟩, hi.owed⟩

/-- Only the greedy and the lazy algorithm, and level 0, rely on more than the window and the chains. -/
theorem CU.Inside.of_func {f : Algorithm} (hf : (levelRow c.level).func = f) (hs : f = .stored → c.StoredInside) (ho : f = .slow → c.OwedInside) :
    c.Inside :=
  ⟨fun h0 => hs (hf.symm.trans ((levelRow_func_stored c.level).mpr h0)), fun h1 => ho (hf.symm.trans h1)⟩

theorem CU.Inside.slideIfFull (h : c.Inside) (hw : c.Window) : c.slideIfFull.Inside := by
  unfold CU.slideIfFull
  split
  · next hfull =>
    have hfull : 65274 ≤ c.strstart := hfull
    have hhigh := hw.positionHigh
    refine ⟨fun h0 => ?_, fun hf hav => ?_⟩
    · have hb := (h.stored h0).2 hfull
      simp only [CU.StoredInside, CU.slide_blockStart, CU.slide_strstart, WSIZE]
      omega
    · have hlt := h.owed hf hav
      simp only [CU.slide_blockStart, CU.slide_strstart, WSIZE]
      omega
  · exact h

theorem CU.Inside.fill (h : c.Inside) (hw : c.Window) (m : Memory) : (c.fill m).Inside := by
  have hs := h.slideIfFull hw
  unfold CU.fill
  extract_lets d
  split
  · exact ⟨hs.stored, hs.owed⟩
  · exact hs

/-! ## Level 0 (R167) -/

variable {top : Nat}

/-- The pass of level 0 once the lookahead is taken into the block (R167). -/
def CU.storedPass (flush finish : Bool) (c : CU) : Run CU Bool :=
  if MAX_STORED ≤ c.blockLength ∨ (c.blockStart < (WSIZE : Int) ∧ MAX_DIST ≤ c.blockLength) ∨ flush then
    (c.emitStored (c.winBytes c.blockStart.toNat (min c.blockLength MAX_STORED)) (finish && flush && c.blockLength ≤ MAX_STORED)).bind
      fun _ d => .done (!((finish && flush && c.blockLength ≤ MAX_STORED) || min c.blockLength MAX_STORED == 0))
        { d with blockStart := d.blockStart + (min c.blockLength MAX_STORED : Nat) }
  else .done true c

/-- The lookahead taken into the block (R167). -/
def CU.absorb (c : CU) : CU := { c with strstart := c.strstart + c.lookahead, lookahead := 0 }

theorem CU.deflateStored_eq (flush finish : Bool) (c : CU) :
    c.deflateStored flush finish = if !flush && c.lookahead == 0 then .done false c else CU.storedPass flush finish c.absorb := rfl

/-- A block of level 0 that is short of its limits, or emitted, leaves the next one's start in the window. -/
theorem CU.Twins.storedPass (h : c.Paired e) (hout : c.out.Settled) (h0 : 0 ≤ c.blockStart) (hlow : c.blockStart ≤ c.strstart)
    (hhigh : c.strstart ≤ 65536) (flush finish : Bool) :
    Run.Twins (fun _ d f => d.Paired f ∧ d.StoredInside ∧ d.lookahead = c.lookahead) (fun _ _ _ => True) (CU.storedPass flush finish c)
      (CU.storedPass flush finish e) := by
  have hlen : c.blockStart + c.blockLength = c.strstart := by rw [CU.blockLength]; omega
  have hread := h.winBytes h0 (n := min c.blockLength MAX_STORED) (by omega)
  simp only [CU.storedPass]
  rw [show e.blockLength = c.blockLength by rw [h.rest]; rfl, show e.blockStart = c.blockStart by rw [h.rest]; rfl, hread]
  generalize (finish && flush && decide (c.blockLength ≤ MAX_STORED)) = last
  split
  · refine ((h.emitStored _ last).and_ends (CU.emitStored_ends hout _ last)).mono (F := fun _ _ _ => True) (fun _ _ _ hf => hf)
      (fun _ _ _ _ => trivial) |>.bind fun _ d f ⟨hd, hk⟩ => ?_
    obtain ⟨hstr, hla, hblock, -⟩ := hk.keeps
    rw [← hstr, ← hla] at hd
    rw [show f.blockStart = d.blockStart by rw [hd.rest]; rfl]
    refine .done ⟨hd.setBlock (by omega), ⟨?_, fun hlate => ?_⟩, hla⟩
    · show 0 ≤ d.blockStart + _
      omega
    · have hlate : 65274 ≤ d.strstart := hlate
      show 32768 ≤ d.blockStart + _
      simp only [MAX_STORED]
      omega
  · next hsmall =>
    refine .done ⟨h, ⟨h0, fun hlate => ?_⟩, rfl⟩
    simp only [MAX_STORED, WSIZE, MAX_DIST, not_or, not_and] at hsmall
    omega

/-- Level 0 emits its block from the window, and starts the next one late enough. -/
theorem CU.Twins.deflateStored (h : c.Paired e) (hw : c.Window) (hout : c.out.Settled) (hs : c.StoredInside) (flush finish : Bool) :
    Run.Twins (fun _ d f => d.Paired f ∧ d.StoredInside ∧ d.lookahead = 0) (fun _ _ _ => True) (c.deflateStored flush finish)
      (e.deflateStored flush finish) := by
  have hlow := hw.blockStart
  have habsorb : c.absorb.Paired e.absorb := by
    have hm := (h.mono (Nat.le_add_right _ c.lookahead) le_rfl).move (· + c.lookahead) fun _ => 0
    rw [CU.absorb, CU.absorb, show e.lookahead = c.lookahead by rw [h.rest]; rfl]
    exact hm
  simp only [CU.deflateStored_eq]
  rw [show e.lookahead = c.lookahead by rw [h.rest]; rfl]
  split
  · next hgo =>
    simp only [Bool.and_eq_true, beq_iff_eq] at hgo
    exact .done ⟨h, hs, hgo.2⟩
  · exact habsorb.storedPass hout hs.1 (show c.blockStart ≤ ((c.strstart + c.lookahead : Nat) : Int) by omega) hw.positionHigh flush finish

/-! ## The driver (R170) -/

/-- A pass of the level's algorithm. -/
theorem CU.Twins.deflateFunc (h : c.Paired e) (hE : c.Engine top) (hn : c.tokN < 16384) (hi : c.Inside) (flush finish : Bool) :
    Run.Twins (fun _ d f => d.Paired f ∧ d.Inside ∧ d.Drained) (fun _ _ _ => True) (c.deflateFunc flush finish)
      (e.deflateFunc flush finish) := by
  have hlevel := (c.deflateFunc_finishes flush finish).ends
  have hkeep {P : CU → CU → Prop} {f : Algorithm} (hf : (levelRow c.level).func = f)
      (hr : Run.Twins (fun _ => P) (fun _ _ _ => True) (c.deflateFunc flush finish) (e.deflateFunc flush finish)) :
      Run.Twins (fun _ d f' => P d f' ∧ (levelRow d.level).func = f) (fun _ _ _ => True) (c.deflateFunc flush finish)
        (e.deflateFunc flush finish) := by
    refine (hr.and_ends hlevel).mono (fun _ d _ ⟨hd, hadv⟩ => ⟨hd, ?_⟩) fun _ _ _ _ => trivial
    rw [show d.level = c.level from congrArg CU.Setting.level hadv.1.1]
    exact hf
  have hdrain {d : CU} {f : Algorithm} (hf : (levelRow d.level).func = f) (hne : f ≠ .stored) : d.Drained := fun h0 =>
    absurd (hf.symm.trans ((levelRow_func_stored d.level).mpr h0)) hne
  have hsame : e.level = c.level := by rw [h.rest]; rfl
  cases hf : (levelRow c.level).func with
  | stored =>
    refine (hkeep (P := fun d f => d.Paired f ∧ d.StoredInside ∧ d.lookahead = 0) hf ?_).mono
      (fun _ d _ ⟨⟨hd, hs, hl⟩, hfunc⟩ => ⟨hd, .of_func hfunc (fun _ => hs) nofun, fun _ => hl⟩) fun _ _ _ => id
    simp only [CU.deflateFunc, hsame, hf]
    exact h.deflateStored hE.window hE.out (hi.stored ((levelRow_func_stored c.level).mp hf)) flush finish
  | fast =>
    refine (hkeep (P := CU.Paired) hf ?_).mono
      (fun _ d _ ⟨hd, hfunc⟩ => ⟨hd, .of_func hfunc nofun nofun, hdrain hfunc nofun⟩) fun _ _ _ => id
    simp only [CU.deflateFunc, CU.deflateFast, hsame, hf]
    rw [show e.lookahead = c.lookahead by rw [h.rest]; rfl]
    split
    · exact .done h
    · exact h.fastLoop flush finish _ hE hn (hE.held.lazily (by simp [hf]))
  | slow =>
    refine (hkeep (P := fun d f => d.Paired f ∧ d.OwedInside) hf ?_).mono
      (fun _ d _ ⟨⟨hd, ho⟩, hfunc⟩ => ⟨hd, .of_func hfunc nofun fun _ => ho, hdrain hfunc nofun⟩) fun _ _ _ => id
    simp only [CU.deflateFunc, CU.deflateSlow, hsame, hf]
    rw [show e.lookahead = c.lookahead by rw [h.rest]; rfl]
    split
    · exact .done ⟨h, hi.owed hf⟩
    · exact h.slowLoop flush finish _ hE hn hf (hi.owed hf)

/-- Between passes the two agree as between commands. -/
theorem CU.Twins.engineLoop (m : Memory) (flush finish : Bool) (fuel : Nat) {c e : CU} (h : c.Paired e) (hE : c.Engine top)
    (hn : c.tokN < 16384) (hi : c.Inside) :
    Run.Twins (fun _ => CU.Agrees) (fun _ _ _ => True) (CU.engineLoop m flush finish fuel c) (CU.engineLoop m flush finish fuel e) := by
  induction fuel generalizing c e with
  | zero => exact .stuck _
  | succ fuel ih =>
    have hfill := h.fill hE.window.positionHigh m
    have hfillE := hE.fill m
    have hroom : (c.fill m).tokN < 16384 := by rwa [CU.fill_keeps]
    have hfunc := hfill.deflateFunc hfillE hroom (hi.fill hE.window m) (flush && (c.fill m).needsInput) finish
    simp only [CU.engineLoop]
    rw [show (e.fill m).needsInput = (c.fill m).needsInput by rw [hfill.rest]; rfl]
    refine (hfunc.and_ends (hfillE.deflateFunc hroom (flush && (c.fill m).needsInput) finish)).mono (F := fun _ _ _ => True)
      (fun _ _ _ hf => hf) (fun _ _ _ _ => trivial) |>.bind fun progress d f ⟨⟨hd, hdi, hdd⟩, hdE, hdn⟩ => ?_
    rw [show f.out = d.out by rw [hd.rest]; rfl]
    split
    · exact ih hd hdE hdn hdi
    · exact .done (hd.agrees hdi hdd)

theorem CU.Agrees.engineDeflate (h : c.Agrees e) (hE : c.Engine top) (hn : c.tokN < 16384) (m : Memory) (flush finish : Bool) :
    Run.Twins (fun _ => CU.Agrees) (fun _ _ _ => True) (c.engineDeflate m flush finish) (e.engineDeflate m flush finish) := by
  rw [CU.engineDeflate, CU.engineDeflate, show e.unconsumed = c.unconsumed by rw [h.rest]; rfl]
  exact h.paired.engineLoop m flush finish _ hE hn h.inside

end

end Sys2Proof.Machine

/-! PROOFS. Two CUs that agree on what is read deliver the same bytes, take the same dictionary, and agree after a reset (70_reset_and_hazards.md
R395, R396; 43_compressor.md R242 to R248). -/

namespace Sys2Proof.Machine

/-! ## The stream's frame (R244 to R247) -/

section
variable {c e : CU}

theorem CU.Agrees.exists (h : c.Agrees e) : ∃ u, e = c.withUnseen u := ⟨e, h.rest⟩

theorem CU.Agrees.startStream {top : Nat} (h : c.Agrees e) (hc : c.Inv top) :
    Run.Twins (fun _ => CU.Agrees) (fun _ _ _ => True) c.startStream e.startStream := by
  obtain ⟨u, rfl⟩ := h.exists
  by_cases hp : c.phase = .init ∨ c.phase = .setDict
  · have hn := (hc.fresh hp).2.1
    rw [CU.startStream_eq_header hp hn, CU.startStream_eq_header (c := c.withUnseen u) hp hn]
    exact .done { h with rest := rfl }
  · rw [CU.startStream_eq_self hp, CU.startStream_eq_self (c := c.withUnseen u) hp]
    exact .done h

theorem CU.Agrees.emitFlushFiller (h : c.Agrees e) : c.emitFlushFiller.Agrees e.emitFlushFiller := by
  obtain ⟨u, rfl⟩ := h.exists
  by_cases h0 : c.level = 0
  · rw [show c.emitFlushFiller = _ from congrArg (fun d : CU => { d with flushReq := false }) (if_pos h0),
      show (c.withUnseen u).emitFlushFiller = _ from congrArg (fun d : CU => { d with flushReq := false }) (if_pos h0)]
    exact { h with rest := rfl }
  · rw [show c.emitFlushFiller = _ from congrArg (fun d : CU => { d with flushReq := false }) (if_neg h0),
      show (c.withUnseen u).emitFlushFiller = _ from congrArg (fun d : CU => { d with flushReq := false }) (if_neg h0)]
    exact { h with rest := rfl }

theorem CU.Agrees.afterNoProgress (h : c.Agrees e) :
    Run.Twins (fun _ => CU.Agrees) (fun _ _ _ => True) c.afterNoProgress e.afterNoProgress := by
  have hfiller := h.emitFlushFiller
  simp only [CU.afterNoProgress]
  rw [show e.flushReq = c.flushReq by rw [h.rest], show e.finishReq = c.finishReq by rw [h.rest]]
  split
  · exact .done h
  · split
    · exact .done hfiller
    · rw [CU.emitTrailer_eq, CU.emitTrailer_eq]
      obtain ⟨u, rfl⟩ := h.exists
      exact .done { h with rest := rfl }

end

/-! ## C.DEFLATE (R243) -/

/-- Two transfers at the same place of the same memory, with CUs that agree, the first inside its stream. -/
structure Xfer.CUTwins (top : Nat) (x y : Xfer CU) : Prop where
  rest : y = { x with unit := y.unit }
  unit : x.unit.Agrees y.unit
  streaming : x.unit.Streaming top

section
variable {top : Nat} {x y : Xfer CU}

theorem Xfer.CUTwins.flush (h : Xfer.CUTwins top x y) : Xfer.CUTwins top x.flush y.flush := by
  have hs := h.streaming.flush
  obtain ⟨e, rfl, hu⟩ : ∃ e, y = { x with unit := e } ∧ x.unit.Agrees e := ⟨y.unit, h.rest, h.unit⟩
  obtain ⟨u, rfl⟩ := hu.exists
  exact ⟨rfl, { hu with rest := rfl }, hs⟩

/-- A procedure of the two CUs that ends alike, and keeps the first in its stream. -/
theorem Xfer.CUTwins.run {α : Type} {r r' : Run CU α} (h : y = { x with unit := y.unit })
    (hr : Run.Twins (fun _ => CU.Agrees) (fun _ _ _ => True) r r') (hs : r.Ends (fun _ => CU.Streaming top) fun _ _ => False) :
    Run.Twins (fun _ => Xfer.CUTwins top) (fun _ => Xfer.CUTwins top) (x.run r) (y.run r') := by
  rw [h]
  exact .within ((hr.and_ends hs).mono (fun _ _ _ ⟨hd, hds⟩ => ⟨rfl, hd, hds⟩) fun _ _ _ ⟨_, hf⟩ => hf.elim)

theorem deflateLoop_twins (fuel : Nat) {x y : Xfer CU} (h : Xfer.CUTwins top x y) :
    Run.Twins (fun _ => Xfer.CUTwins top) (fun _ => Xfer.CUTwins top) (deflateLoop fuel x) (deflateLoop fuel y) := by
  induction fuel generalizing x y with
  | zero => exact .stuck _
  | succ fuel ih =>
    have hx := h.flush
    simp only [deflateLoop]
    generalize x.flush = x at hx
    generalize y.flush = y at hx
    rw [show y.left = x.left by rw [hx.rest], show y.unit.phase = x.unit.phase by rw [hx.unit.rest],
      show y.unit.flushReq = x.unit.flushReq by rw [hx.unit.rest], show y.unit.finishReq = x.unit.finishReq by rw [hx.unit.rest],
      show y.mem = x.mem by rw [hx.rest]]
    split
    · exact .done hx
    · next hgo =>
      have hbusy : x.unit.phase ≠ .finished := fun hp => hgo (.inr hp)
      have hengine := hx.unit.engineDeflate (hx.streaming.1.engine (hx.streaming.2.resolve_right hbusy)) hx.streaming.1.tokens x.mem
        x.unit.flushReq x.unit.finishReq
      refine (Xfer.CUTwins.run hx.rest hengine (hx.streaming.engineDeflate hbusy _ _ _)).bind fun progress z w hz => ?_
      split
      · exact ih hz
      · refine (Xfer.CUTwins.run hz.rest hz.unit.afterNoProgress hz.streaming.afterNoProgress).bind fun again v t hv => ?_
        split
        · exact ih hv
        · exact .done hv

theorem deflateRun_twins (h : y = { x with unit := y.unit }) (hu : x.unit.Agrees y.unit) (hi : x.unit.Inv top) :
    Run.Twins (fun _ => Xfer.CUTwins top) (fun _ => Xfer.CUTwins top) (deflateRun x) (deflateRun y) := by
  refine (Xfer.CUTwins.run h (hu.startStream hi) hi.startStream).bind fun _ z w hz => ?_
  rw [show w.left = z.left by rw [hz.rest]]
  exact deflateLoop_twins _ hz

end

/-! ## Reset (R248) -/

/-- A stream begins with no token, empty chains and no known byte. -/
theorem CU.reset_agrees {c e : CU} (hlevel : c.level = e.level) (hstrategy : c.strategy = e.strategy) (hnohdr : c.nohdr = e.nohdr)
    (hlit : c.lit.freq.length = e.lit.freq.length) (hdist : c.dist.freq.length = e.dist.freq.length)
    (hbl : c.bl.freq.length = e.bl.freq.length) : c.reset.Agrees e.reset := by
  have hclear (t u : HuffTree) (h : t.freq.length = u.freq.length) : t.clear.freq = u.clear.freq := by
    simp only [HuffTree.clear, List.map_const', h]
  refine ⟨?_, ⟨hclear _ _ hlit, hclear _ _ hdist, hclear _ _ hbl⟩, fun p hp h0 => ?_, nofun, ⟨fun _ => .inl rfl, fun _ => .inl rfl⟩,
    fun _ => ⟨rfl, (by decide : (0 : Int) ≤ 1), fun hlate => absurd hlate (by decide : ¬ 65274 ≤ 1)⟩, nofun⟩
  · simp only [CU.reset, CU.engineReset, CU.huffReset, CU.clearFault, BitOut.preset, hlevel, hstrategy, hnohdr]
  · have hp : p < 1 := hp
    exact absurd (h0 (by omega)) (by decide : ¬ (1 : Int) ≤ 0)

/-! ## Dictionary (R242, R165) -/

/-- The window with a run of bytes at C_STRSTART. -/
def CU.withBytes (c : CU) (vs : List Nat) : CU := { c with win := c.win.setList 16 c.strstart vs }

/-- A dictionary's bytes taken into the window, all but the last two positions inserted, and the block started past them (R165). -/
def CU.takeDict (c : CU) (n : Nat) (vs : List Nat) : CU :=
  { CU.insertRun n (c.withBytes vs) with
    strstart := (CU.insertRun n (c.withBytes vs)).strstart + 2
    blockStart := ((CU.insertRun n (c.withBytes vs)).strstart + 2 : Nat) }

theorem CU.engineSetDict_eq_takeDict {c : CU} {dict : List Byte} (h3 : 3 ≤ dict.length) :
    c.engineSetDict dict = c.takeDict ((dictTail dict).length - 2) ((dictTail dict).map BitVec.toNat) :=
  if_neg (show ¬ dict.length < MIN_MATCH from Nat.not_lt.mpr h3)

section
variable {c e : CU}

theorem CU.Twins.withBytes (h : c.Paired e) (hnone : c.lookahead = 0) (vs : List Nat) :
    CU.Twins c.strstart (c.strstart + vs.length) (c.withBytes vs) (e.withBytes vs) := by
  obtain ⟨u, rfl⟩ := h.exists
  refine ⟨rfl, h.counts, fun p hp h0 => Tbl.get_setList_alike vs ?_, h.tokens, h.chains⟩
  by_cases hin : p < c.strstart
  · exact .inr (h.window p (by omega) h0)
  · exact .inl ⟨by omega, hp⟩

/-- The bytes taken are known to both. -/
theorem CU.Twins.takeDict (h : c.Paired e) (h1 : 1 ≤ c.strstart) (hnone : c.lookahead = 0) (hlow : c.blockStart ≤ c.strstart) {n : Nat}
    {vs : List Nat} (hn : vs.length = n + 2) : (c.takeDict n vs).Paired (e.takeDict n vs) := by
  have hrun := ((h.withBytes hnone vs).mono (Nat.le_add_right _ n) le_rfl).insertRun n h1 le_rfl
    (show c.strstart + n + 2 ≤ c.strstart + vs.length by omega)
  obtain ⟨head, prev, hpos⟩ := CU.insertRun_eq n (c.withBytes vs)
  have hstr : (CU.insertRun n (c.withBytes vs)).strstart = c.strstart + n := by rw [hpos]; rfl
  have hlook : (CU.insertRun n (c.withBytes vs)).lookahead = 0 := by rw [hpos]; exact hnone
  have hblock : (CU.insertRun n (c.withBytes vs)).blockStart = c.blockStart := by rw [hpos]; rfl
  unfold CU.takeDict
  generalize CU.insertRun n (c.withBytes vs) = f at hrun hstr hlook hblock
  generalize CU.insertRun n (e.withBytes vs) = g at hrun
  have hmoved : CU.Paired { f with strstart := f.strstart + 2 } { g with strstart := g.strstart + 2 } :=
    (hrun.move (· + 2) id).mono (show _ ≤ f.strstart + 2 by omega) (show f.strstart + 2 + f.lookahead ≤ _ by omega)
  exact hmoved.endBlock (show f.blockStart ≤ ((f.strstart + 2 : Nat) : Int) by omega)

/-- C.SET_DICT's effect on two CUs in INIT that agree. -/
theorem CU.Agrees.setDict {top : Nat} (h : c.Agrees e) (hi : c.Inv top) (hp : c.phase = .init) (dict : List Byte) (a : Word) :
    CU.Agrees { ({ c with adler := a } : CU).engineSetDict dict with phase := .setDict, dictSet := true }
      { ({ e with adler := a } : CU).engineSetDict dict with phase := .setDict, dictSet := true } := by
  obtain ⟨hstr, hnone, hblock, hav⟩ := hi.atStart hp
  have hset : CU.Agrees { c with adler := a } { e with adler := a } := by
    obtain ⟨u, rfl⟩ := h.exists
    exact { h with rest := rfl }
  have hframe {d f : CU} (hd : d.Agrees f) :
      CU.Agrees { d with phase := .setDict, dictSet := true } { f with phase := .setDict, dictSet := true } := by
    obtain ⟨u, rfl⟩ := hd.exists
    exact { hd with rest := rfl }
  refine hframe ?_
  rcases Nat.lt_or_ge dict.length 3 with h3 | h3
  · rw [CU.engineSetDict_short h3, CU.engineSetDict_short h3]
    exact hset
  · have hd := hset.paired.takeDict (show 1 ≤ c.strstart by omega) hnone (show c.blockStart ≤ c.strstart by omega)
      (n := (dictTail dict).length - 2) (vs := (dictTail dict).map BitVec.toNat)
      (by rw [List.length_map, dictTail_length]; omega)
    rw [← CU.engineSetDict_eq_takeDict h3, ← CU.engineSetDict_eq_takeDict h3] at hd
    obtain ⟨head, prev, hpos⟩ := CU.engineSetDict_long (c := { c with adler := a }) h3
    rw [hpos] at hd ⊢
    refine hd.agrees ⟨fun _ => ⟨Int.natCast_nonneg _, fun hlate => ?_⟩, fun _ hyes => absurd (hav.symm.trans hyes) Bool.false_ne_true⟩
      fun _ => hnone
    have hlate : 65274 ≤ c.strstart + min dict.length 32506 := hlate
    omega

end

end Sys2Proof.Machine

/-! PROOFS. Each command answers two states alike that differ in unspecified values only (70_reset_and_hazards.md R395, R396). Each unit is taken
alone: no command reads the other. -/

namespace Sys2Proof.Machine

/-! ## Commands of the CU -/

/-- The outcome is also the other's, with a CU that agrees in place of the first's. -/
def State.AlikeInCU (s' : State) (o : Host.Outcome State Fault Refusal) : Prop :=
  ∃ e, o = .next { s' with cu := e } ∧ s'.cu.Agrees e

section
variable {s s' : State} {e : CU}

/-- An error response does not depend on the unit; a fault is set in both. -/
theorem State.raise_alikeInCU (h : s.cu.Agrees e) (err : Err) (n : Nat) :
    (s.raise .cu err n).AlikeInCU (.next ({ s with cu := e }.raise .cu err n)) := by
  obtain ⟨u, rfl⟩ := h.exists
  cases hs : err.sticky with
  | true =>
    rw [State.raise_cu_of_sticky hs, State.raise_cu_of_sticky hs]
    exact ⟨_, rfl, { h with rest := rfl }⟩
  | false =>
    rw [State.raise_of_not_sticky hs, State.raise_of_not_sticky hs]
    exact ⟨_, rfl, h⟩

theorem State.guardCU_alike (h : s.cu.Agrees e) {checks : List (Bool × Err)} {effect effect' : Host.Outcome State Fault Refusal}
    (heffect : firstErr checks = none → effect = .next s' → s'.AlikeInCU effect') (hs : s.guardCU checks effect = .next s') :
    s'.AlikeInCU ({ s with cu := e }.guardCU checks effect') := by
  rcases State.guardCU_cases hs with ⟨err, he, -, rfl⟩ | ⟨hnone, hs⟩
  · rw [State.guardCU_fail he]
    exact State.raise_alikeInCU h err 0
  · rw [State.guardCU_pass hnone]
    exact heffect hnone hs

theorem State.endCU_alike {top : Nat} {r r' : Run (Xfer CU) Unit} (hr : Run.Twins (fun _ => Xfer.CUTwins top) (fun _ => Xfer.CUTwins top) r r')
    (hs : s.endCU r = .next s') : s'.AlikeInCU ({ s with cu := e }.endCU r') := by
  cases hr with
  | done h =>
    cases hs
    rw [h.rest]
    exact ⟨_, rfl, h.unit⟩
  | raise h =>
    cases hs
    rw [h.rest]
    exact State.raise_alikeInCU h.unit _ _
  | stuck => cases hs

theorem execCConfig_alike (h : s.cu.Agrees e) {level strategy : Nat} {nohdr : Bool} (hs : execCConfig level strategy nohdr s = .next s') :
    s'.AlikeInCU (execCConfig level strategy nohdr { s with cu := e }) := by
  obtain ⟨hlit, hdist, hbl⟩ := h.counts
  unfold execCConfig at hs ⊢
  split at hs <;> cases hs
  · exact State.raise_alikeInCU h _ 0
  · exact State.raise_alikeInCU h _ 0
  · exact ⟨_, rfl, CU.reset_agrees rfl rfl rfl (congrArg List.length hlit) (congrArg List.length hdist) (congrArg List.length hbl)⟩

theorem execCDeflate_alike (h : s.cu.Agrees e) {top : Nat} (hi : s.cu.Inv top) (hs : execCDeflate s = .next s') :
    s'.AlikeInCU (execCDeflate { s with cu := e }) := by
  obtain ⟨u, rfl⟩ := h.exists
  exact State.guardCU_alike h (fun _ => State.endCU_alike (deflateRun_twins (top := top) rfl h hi)) hs

theorem execCSetDict_alike (h : s.cu.Agrees e) {top : Nat} (hi : s.cu.Inv top) (hs : execCSetDict s = .next s') :
    s'.AlikeInCU (execCSetDict { s with cu := e }) := by
  have hdict := h.setDict hi
  obtain ⟨u, rfl⟩ := h.exists
  refine State.guardCU_alike (checks := s.cuBufferChecks ++ [(s.cu.phase != .init, Err.dictNotInit)]) h (fun hnone he => ?_) hs
  have hinit := firstErr_eq_none.mp hnone (s.cu.phase != .init, Err.dictNotInit) (by simp)
  cases he
  exact ⟨_, rfl, hdict (by simpa using hinit) s.bufferBytes (adler32 s.bufferBytes s.cu.adler)⟩

theorem exec_alikeInCU {i : Instr} (hu : i.unit = .cu) (h : s.cu.Agrees e) {top : Nat} (hi : s.cu.Inv top) (hs : exec i s = .next s') :
    s'.AlikeInCU (exec i { s with cu := e }) := by
  cases i
  case cConfig => exact execCConfig_alike h hs
  case cSetDict => exact execCSetDict_alike h hi hs
  case cDeflate => exact execCDeflate_alike h hi hs
  case cReset =>
    obtain ⟨hlit, hdist, hbl⟩ := h.counts
    cases hs
    exact ⟨_, rfl, CU.reset_agrees (by rw [h.rest]) (by rw [h.rest]) (by rw [h.rest]) (congrArg List.length hlit)
      (congrArg List.length hdist) (congrArg List.length hbl)⟩
  case cSetInput | cFlush | cFinish =>
    obtain ⟨u, rfl⟩ := h.exists
    exact State.guardCU_alike h (fun _ he => by cases he; exact ⟨_, rfl, { h with rest := rfl }⟩) hs
  case cIsFinished | cIsNeedingInput | cAdler | cTotalIn | cTotalOut =>
    obtain ⟨u, rfl⟩ := h.exists
    cases hs
    exact ⟨_, rfl, h⟩
  case dConfig nohdr => cases hu.symm.trans (Instr.unit_dConfig nohdr)
  case dSetInput | dSetDict | dInflate | dReset | dIsFinished | dIsNeedingInput | dAdler | dTotalIn | dTotalOut | dIsNeedingDict =>
    exact absurd hu (by decide)

end

/-! ## Commands of the DU -/

/-- The outcome is also the other's, with a DU that agrees in place of the first's. -/
def State.AlikeInDU (s' : State) (o : Host.Outcome State Fault Refusal) : Prop :=
  ∃ e, o = .next { s' with du := e } ∧ s'.du.Agrees e

section
variable {s s' : State} {e : DU}

theorem DU.Agrees.exists {d e : DU} (h : d.Agrees e) : ∃ u, e = d.withUnseen u := ⟨e, h.rest⟩

theorem State.raise_alikeInDU (h : s.du.Agrees e) (err : Err) (n : Nat) :
    (s.raise .du err n).AlikeInDU (.next ({ s with du := e }.raise .du err n)) := by
  obtain ⟨u, rfl⟩ := h.exists
  cases hs : err.sticky with
  | true =>
    rw [State.raise_du_of_sticky hs, State.raise_du_of_sticky hs]
    exact ⟨_, rfl, { h with rest := rfl }⟩
  | false =>
    rw [State.raise_of_not_sticky hs, State.raise_of_not_sticky hs]
    exact ⟨_, rfl, h⟩

theorem State.guardDU_alike (h : s.du.Agrees e) {checks : List (Bool × Err)} {effect effect' : Host.Outcome State Fault Refusal}
    (heffect : effect = .next s' → s'.AlikeInDU effect') (hs : s.guardDU checks effect = .next s') :
    s'.AlikeInDU ({ s with du := e }.guardDU checks effect') := by
  rcases State.guardDU_cases hs with ⟨err, he, -, rfl⟩ | ⟨hnone, hs⟩
  · rw [State.guardDU_fail he]
    exact State.raise_alikeInDU h err 0
  · rw [State.guardDU_pass hnone]
    exact heffect hs

theorem State.endDU_alike {r r' : Run (Xfer DU) Unit} (hr : Run.Twins (fun _ => Xfer.DUTwins) (fun _ => Xfer.DUTwins) r r')
    (hs : s.endDU r = .next s') : s'.AlikeInDU ({ s with du := e }.endDU r') := by
  cases hr with
  | done h =>
    cases hs
    rw [h.rest]
    exact ⟨_, rfl, h.unit.toAgrees⟩
  | raise h =>
    cases hs
    rw [h.rest]
    exact State.raise_alikeInDU h.unit.toAgrees _ _
  | stuck => cases hs

theorem execDSetDict_alike (h : s.du.Agrees e) {top : Nat} (hi : s.du.Inv top) (hs : execDSetDict s = .next s') :
    s'.AlikeInDU (execDSetDict { s with du := e }) := by
  have hload := (h.twins hi).loadDict s.bufferBytes
  obtain ⟨u, rfl⟩ := h.exists
  refine State.guardDU_alike h (fun he => ?_) hs
  split at he <;> cases he
  · next hsum => exact ⟨_, if_pos hsum, hload.toAgrees⟩
  · next hsum => exact (if_neg hsum) ▸ State.raise_alikeInDU h _ 0

theorem execDInflate_alike (h : s.du.Agrees e) {top : Nat} (hi : s.du.Inv top) (hs : execDInflate s = .next s') :
    s'.AlikeInDU (execDInflate { s with du := e }) := by
  have hunit := h.twins hi
  obtain ⟨u, rfl⟩ := h.exists
  exact State.guardDU_alike h (State.endDU_alike (inflateRun_twins ⟨rfl, hunit⟩)) hs

theorem exec_alikeInDU {i : Instr} (hu : i.unit = .du) (h : s.du.Agrees e) {top : Nat} (hi : s.du.Inv top) (hs : exec i s = .next s') :
    s'.AlikeInDU (exec i { s with du := e }) := by
  cases i
  case dSetDict => exact execDSetDict_alike h hi hs
  case dInflate => exact execDInflate_alike h hi hs
  case dConfig =>
    cases hs
    exact ⟨_, rfl, DU.reset_agrees rfl⟩
  case dReset =>
    cases hs
    exact ⟨_, rfl, DU.reset_agrees (by rw [h.rest])⟩
  case dSetInput =>
    obtain ⟨u, rfl⟩ := h.exists
    exact State.guardDU_alike h (fun he => by cases he; exact ⟨_, rfl, { h with rest := rfl }⟩) hs
  case dIsFinished | dIsNeedingInput | dAdler | dTotalIn | dTotalOut | dIsNeedingDict =>
    obtain ⟨u, rfl⟩ := h.exists
    cases hs
    exact ⟨_, rfl, h⟩
  case cConfig level strategy nohdr => cases hu.symm.trans (Instr.unit_cConfig level strategy nohdr)
  case cSetInput | cSetDict | cDeflate | cFlush | cFinish | cReset | cIsFinished | cIsNeedingInput | cAdler | cTotalIn | cTotalOut =>
    exact absurd hu (by decide)

end

/-! ## Both units -/

/-- A command answers two states that agree alike: it takes its own unit from the one to the other, and carries the other unit through. -/
theorem exec_agrees {i : Instr} {s t s' : State} (hi : s.Inv) (h : s.Agrees t) (hs : exec i s = .next s') :
    ∃ t', exec i t = .next t' ∧ s'.Agrees t' := by
  obtain ⟨c, d, rfl⟩ : ∃ c d, t = { s with cu := c, du := d } := ⟨t.cu, t.du, h.rest⟩
  have hframe := exec_frame hs
  cases hu : i.unit with
  | cu =>
    obtain ⟨e, he, hagree⟩ := exec_alikeInCU hu h.cu hi.cu hs
    exact ⟨_, exec_setDU d hu he, rfl, hagree, hframe.du hu ▸ h.du⟩
  | du =>
    obtain ⟨e, he, hagree⟩ := exec_alikeInDU hu h.du hi.du hs
    exact ⟨_, exec_setCU c hu he, rfl, hframe.cu hu ▸ h.cu, hagree⟩

/-- Settles O26: agreement is kept by every command of either unit, and a reset leaves nothing in which two units of one configuration differ but
what no rule reads. -/
theorem unspecifiedValuesAreNeverObserved : Obligations.UnspecifiedValuesAreNeverObserved := by
  refine ⟨fun i s t s' hs _ h hexec => exec_agrees hs h hexec, fun s t s' t' hs ht hlevel hstrategy hnohdr hexec hexec' => ?_,
    fun s t s' t' hnohdr hexec hexec' => ?_⟩
  · cases hexec
    cases hexec'
    exact CU.reset_agrees hlevel hstrategy hnohdr (hs.cu.litSize.trans ht.cu.litSize.symm) (hs.cu.distSize.trans ht.cu.distSize.symm)
      (hs.cu.blSize.trans ht.cu.blSize.symm)
  · cases hexec
    cases hexec'
    exact DU.reset_agrees hnohdr

end Sys2Proof.Machine
